-- ==== Sys2Proof/Word.lean ====
section
/-!
DEFINITION. The two word types of the block: 00_scope.md R10 (`u8`, `u32`, all values unsigned).
-/

namespace Sys2Proof

/-- An 8-bit value, `u8` of 00_scope.md R10. -/
abbrev Byte := BitVec 8

/-- A 32-bit unsigned value, `u32` of 00_scope.md R10. Its arithmetic wraps (R11). -/
abbrev Word := BitVec 32

end Sys2Proof
end

