-- ==== Sys2Proof/Config.lean ====
section
/-!
DEFINITION. What an implementation of the block fixes: the parameters of 00_scope.md R8, the field
masks of 10_state.md R41 to R43, the instruction opcodes of 30_encoding.md R100, and the free values
of the environment (20_memory.md R86). "A model takes each as a field of its configuration" (R8).
-/

namespace Sys2Proof

/-- The parameters of the block. No step writes them.
PRESUMED (log 1): the spec marks nearly every default as general knowledge; nothing depends on a default. -/
structure Config where
  /-- `FLASH_SIZE`, bytes of the flash array. -/
  flashSize : Nat
  /-- `SECTOR_SIZE`, bytes per erase sector. -/
  sectorSize : Nat
  /-- `SECTOR_COUNT`. -/
  sectorCount : Nat
  /-- `PAGE_SIZE`, bytes per program page (`P`). -/
  pageSize : Nat
  /-- `PAGE_COUNT`. -/
  pageCount : Nat
  /-- `BLOCK_SIZE`, used by the reference chip only. -/
  blockSize : Nat
  /-- `ADDR_BITS`, size of an address phase. -/
  addrBits : Nat
  /-- `POLL_INTERVAL`, opaque: handed to every `AutoPoll`. -/
  pollInterval : Nat
  /-- `TMO_DEFAULT_RST`. -/
  tmoDefaultRst : Word
  /-- `TMO_PROGRAM_RST`. -/
  tmoProgramRst : Word
  /-- `TMO_BLOCK_ERASE_RST`. -/
  tmoBlockEraseRst : Word
  /-- `TMO_CHIP_ERASE_RST`. -/
  tmoChipEraseRst : Word
  /-- `OPC_RDSR`. -/
  opcRdsr : Byte
  /-- `OPC_RDSCUR`. -/
  opcRdscur : Byte
  /-- `OPC_RDCR`. -/
  opcRdcr : Byte
  /-- `OPC_WREN`. -/
  opcWren : Byte
  /-- `OPC_WRSR`. -/
  opcWrsr : Byte
  /-- `OPC_PP4`. -/
  opcPp4 : Byte
  /-- `OPC_SE`. -/
  opcSe : Byte
  /-- `OPC_BE`. -/
  opcBe : Byte
  /-- `OPC_CE`. -/
  opcCe : Byte
  /-- `OPC_SUSP`. -/
  opcSusp : Byte
  /-- `OPC_RESM`. -/
  opcResm : Byte
  /-- `OPC_DP`. -/
  opcDp : Byte
  /-- `OPC_WAKE`. -/
  opcWake : Byte
  /-- `OPC_RSTEN`. -/
  opcRsten : Byte
  /-- `OPC_RST`. -/
  opcRst : Byte
  /-- `OPC_QREAD`. -/
  opcQread : Byte
  /-- `M_WIP`, write in progress, in SR. -/
  mWip : Byte
  /-- `M_WEL`, write-enable latch, in SR. -/
  mWel : Byte
  /-- `M_QE`, quad enable, in SR. -/
  mQe : Byte
  /-- `M_PSB`, program suspend, in SCUR. -/
  mPsb : Byte
  /-- `M_ESB`, erase suspend, in SCUR. -/
  mEsb : Byte
  /-- `M_PFAIL`, program fail, in SCUR. -/
  mPfail : Byte
  /-- `M_EFAIL`, erase fail, in SCUR. -/
  mEfail : Byte
  /-- `M_LH`, the high/low-power switch, in `CR[1]`. -/
  mLh : Byte
  /-- `QREAD_ALT_PRESENT`. -/
  qreadAltPresent : Bool
  /-- `QREAD_ALT`. -/
  qreadAlt : Byte
  /-- `QREAD_DUMMY`, five bits in the descriptor (30_encoding.md R95). -/
  qreadDummy : BitVec 5
  /-- `BUF_SIZE`, bytes of the host data buffer. -/
  bufSize : Nat
deriving DecidableEq, Repr

/-- The column "default" of 00_scope.md R8, 10_state.md R41 to R43 and 30_encoding.md R100. -/
def Config.default : Config where
  flashSize := 0x800000
  sectorSize := 0x1000
  sectorCount := 2048
  pageSize := 0x100
  pageCount := 32768
  blockSize := 0x10000
  addrBits := 24
  pollInterval := 16
  tmoDefaultRst := 5000
  tmoProgramRst := 1000
  tmoBlockEraseRst := 3500
  tmoChipEraseRst := 240000
  opcRdsr := 0x05
  opcRdscur := 0x2B
  opcRdcr := 0x15
  opcWren := 0x06
  opcWrsr := 0x01
  opcPp4 := 0x38
  opcSe := 0x20
  opcBe := 0xD8
  opcCe := 0x60
  opcSusp := 0x75
  opcResm := 0x7A
  opcDp := 0xB9
  opcWake := 0x00
  opcRsten := 0x66
  opcRst := 0x99
  opcQread := 0xEB
  mWip := 0x01
  mWel := 0x02
  mQe := 0x40
  mPsb := 0x04
  mEsb := 0x08
  mPfail := 0x20
  mEfail := 0x40
  mLh := 0x02
  qreadAltPresent := true
  qreadAlt := 0xAA
  qreadDummy := 4
  bufSize := 2 ^ 32

/-- A mask parameter has exactly one bit set (00_scope.md R8, "8-bit, one bit set"). -/
def isOneBit (m : Byte) : Bool :=
  (List.range 8).any fun k => m == BitVec.twoPow 8 k

/-- `PAGE_SIZE` is "a power of two, `1 <= P <= 2^31`" (00_scope.md R8). -/
def isPageSize (p : Nat) : Bool :=
  (List.range 32).any fun k => p == 2 ^ k

/-- The eight mask parameters. -/
def Config.masks (c : Config) : List Byte :=
  [c.mWip, c.mWel, c.mQe, c.mPsb, c.mEsb, c.mPfail, c.mEfail, c.mLh]

/-- The geometry constraints of 00_scope.md R8 and decision D6, and the bound on `BUF_SIZE`. -/
def Config.geometryOk (c : Config) : Bool :=
  c.flashSize == c.sectorCount * c.sectorSize && c.flashSize == c.pageCount * c.pageSize
    && decide (c.flashSize ≤ 2 ^ c.addrBits) && decide (0 < c.sectorSize)
    && decide (0 < c.sectorCount) && decide (0 < c.pageCount) && isPageSize c.pageSize
    && decide (1 ≤ c.addrBits) && decide (c.addrBits ≤ 32) && decide (c.bufSize ≤ 2 ^ 32)

/-- The mask constraints: each one bit (00_scope.md R8), and the four of SCUR four different bits
(10_state.md R42). -/
def Config.masksOk (c : Config) : Bool :=
  c.masks.all isOneBit && decide ([c.mPsb, c.mEsb, c.mPfail, c.mEfail].Nodup)

/-- A configuration the spec allows; 93_implementation_defined.md U20 asks that others be refused. -/
def Config.wf (c : Config) : Bool := c.geometryOk && c.masksOk

/-- The sixteen instruction opcodes in the order of 30_encoding.md R101 to R116. -/
def Config.opcodes (c : Config) : List Byte :=
  [c.opcRdsr, c.opcRdscur, c.opcRdcr, c.opcWren, c.opcWrsr, c.opcPp4, c.opcSe, c.opcBe, c.opcCe,
    c.opcSusp, c.opcResm, c.opcDp, c.opcWake, c.opcRsten, c.opcQread, c.opcRst]

/-- The opcodes are pairwise different: what decoding a descriptor back to its template needs, and no
rule of the block does (30_encoding.md R100, decision D14). -/
def Config.opcodesDistinct (c : Config) : Bool := decide c.opcodes.Nodup

/-! ### Free values

The normative environment is unconstrained: "Every answer `r` is a free input (`OK` or `FAIL`), every
byte returned by `Rx` is a free input" (20_memory.md R86). Nothing can evaluate these constants. The
first argument of each is the number of the call, a counter of State (log 6). -/

/-- Whether an unscripted call of the unconstrained environment answers `OK`. Log 6. -/
opaque Config.freeOk : Nat → Bool

/-- Byte `i` of what an `Rx` receives where nothing fixes it (R86; 93 U15). Log 6. -/
opaque Config.freeByte : Nat → Nat → BitVec 8

/-- The bytes an unscripted `AutoPoll` reads before its timeout elapses (R74, R86). Log 6. -/
opaque Config.freePoll : Nat → List (BitVec 8)

/-- How many bytes of a failed `Tx` reached the reference chip (95 vector AB4: "unknown"). Log 10. -/
opaque Config.freeReach : Nat → Nat

end Sys2Proof
end

