-- ==== Sys2Proof/Syntax.lean ====
section
/-!
DEFINITION. The two formats of spec/opcode_table.json as syntax: the operations of the request port
(format OPREQ, 30_encoding.md R90 to R92) and the transaction templates (format TXN, R95 to R117).
-/

namespace Sys2Proof

/-- Lines code of a phase (30_encoding.md R97); code 3 is never produced, so it has no constructor. -/
inductive Lines where
  /-- Code 0: the phase is absent. -/
  | absent
  /-- Code 1: one line. -/
  | one
  /-- Code 2: four lines. -/
  | four
deriving DecidableEq, Repr

/-- Data direction (30_encoding.md R95); code 3 is never used ("read xor write"). -/
inductive DataDir where
  /-- Code 0: no data phase. -/
  | none
  /-- Code 1: chip to block. -/
  | read
  /-- Code 2: block to chip. -/
  | write
deriving DecidableEq, Repr

/-- The Command Descriptor as a record (30_encoding.md R95: "A model should use a record"). -/
structure Desc where
  /-- The instruction opcode. -/
  instr : Byte
  /-- Lines of the instruction phase. -/
  instrLines : Lines
  /-- The full 32-bit address (R96). -/
  addr : Word
  /-- Size of the address phase in bits, 0 when absent. -/
  addrBits : BitVec 6
  /-- Lines of the address phase. -/
  addrLines : Lines
  /-- The one alternate byte. -/
  alt : Byte
  /-- Lines of the alternate phase. -/
  altLines : Lines
  /-- Dummy cycles. -/
  dummy : BitVec 5
  /-- Direction of the data phase. -/
  dataDir : DataDir
  /-- Lines of the data phase. -/
  dataLines : Lines
  /-- Byte count of the data phase. -/
  dataLen : Word
deriving DecidableEq, Repr

/-- The sixteen transaction templates with their arguments (30_encoding.md R101 to R116). -/
inductive Txn where
  /-- `T_RDSR`, R101. -/
  | rdsr
  /-- `T_RDSCUR`, R102. -/
  | rdscur
  /-- `T_RDCR`, R103. -/
  | rdcr
  /-- `T_WREN`, R104. -/
  | wren
  /-- `T_WRSR(n)`, R105. -/
  | wrsr (n : Word)
  /-- `T_PP4(a, n)`, R106. -/
  | pp4 (a n : Word)
  /-- `T_SE(a)`, R107. -/
  | se (a : Word)
  /-- `T_BE(a)`, R108. -/
  | be (a : Word)
  /-- `T_CE`, R109. -/
  | ce
  /-- `T_SUSP`, R110. -/
  | susp
  /-- `T_RESM`, R111. -/
  | resm
  /-- `T_DP`, R112. -/
  | dp
  /-- `T_WAKE`, R113. -/
  | wake
  /-- `T_RSTEN`, R114. -/
  | rsten
  /-- `T_QREAD(a, n)`, R115. -/
  | qread (a n : Word)
  /-- `T_RST`, R116. -/
  | rst
deriving DecidableEq, Repr

/-- One constructor per row of spec/opcode_table.json. An operation carries both operand fields of its
request word, `a` and `n`, whether or not it reads them (30_encoding.md R90, R92): acceptance latches
both (10_state.md R22). A `t…` constructor is a transaction template run on its own at the executor. -/
inductive Instr where
  /-- GET_STATUS, OP 0x01. -/
  | getStatus (a n : Word)
  /-- POLL_READY, OP 0x02: `n` is the timeout. -/
  | pollReady (a n : Word)
  /-- WRITE_ENABLE, OP 0x03. -/
  | writeEnable (a n : Word)
  /-- WRITE, OP 0x04: `a` start address, `n` length. -/
  | write (a n : Word)
  /-- QUAD_MODE, OP 0x05: bit 0 of `a` enables. -/
  | quadMode (a n : Word)
  /-- HP_MODE, OP 0x06: bit 0 of `a` enables. -/
  | hpMode (a n : Word)
  /-- ERASE_BLOCK, OP 0x07: `a` address. -/
  | eraseBlock (a n : Word)
  /-- ERASE_SECTOR, OP 0x08: `a` sector index. -/
  | eraseSector (a n : Word)
  /-- ERASE_CHIP, OP 0x09. -/
  | eraseChip (a n : Word)
  /-- SUSPEND_ERASE, OP 0x0A. -/
  | suspendErase (a n : Word)
  /-- RESUME_ERASE, OP 0x0B. -/
  | resumeErase (a n : Word)
  /-- SLEEP, OP 0x0C. -/
  | sleep (a n : Word)
  /-- WAKEUP, OP 0x0D. -/
  | wakeup (a n : Word)
  /-- READ, OP 0x10: `a` address, `n` length. -/
  | read (a n : Word)
  /-- INIT, OP 0x11. -/
  | init (a n : Word)
  /-- DEINIT, OP 0x12. -/
  | deinit (a n : Word)
  /-- GET_GEOMETRY, OP 0x13. -/
  | getGeometry (a n : Word)
  /-- RESET_CHIP, OP 0x14. -/
  | resetChip (a n : Word)
  /-- T_RDSR. -/
  | tRdsr
  /-- T_RDSCUR. -/
  | tRdscur
  /-- T_RDCR. -/
  | tRdcr
  /-- T_WREN. -/
  | tWren
  /-- T_WRSR with its byte count. -/
  | tWrsr (n : Word)
  /-- T_PP4 with its address and byte count. -/
  | tPp4 (a n : Word)
  /-- T_SE with its address. -/
  | tSe (a : Word)
  /-- T_BE with its address. -/
  | tBe (a : Word)
  /-- T_CE. -/
  | tCe
  /-- T_SUSP. -/
  | tSusp
  /-- T_RESM. -/
  | tResm
  /-- T_DP. -/
  | tDp
  /-- T_WAKE. -/
  | tWake
  /-- T_RSTEN. -/
  | tRsten
  /-- T_QREAD with its address and byte count. -/
  | tQread (a n : Word)
  /-- T_RST. -/
  | tRst
deriving DecidableEq, Repr

/-- A word as it stands at one of the two ports: a request word (30_encoding.md R90) or a packed
Command Descriptor (R95). -/
inductive Packet where
  /-- `REQ[71:0]`. -/
  | request (w : BitVec 72)
  /-- `DESC[100:0]`. -/
  | descriptor (d : BitVec 101)
deriving DecidableEq, Repr

/-- The template a `t…` constructor stands for; none for an operation. -/
def Instr.txn? : Instr → Option Txn
  | .tRdsr => some .rdsr
  | .tRdscur => some .rdscur
  | .tRdcr => some .rdcr
  | .tWren => some .wren
  | .tWrsr n => some (.wrsr n)
  | .tPp4 a n => some (.pp4 a n)
  | .tSe a => some (.se a)
  | .tBe a => some (.be a)
  | .tCe => some .ce
  | .tSusp => some .susp
  | .tResm => some .resm
  | .tDp => some .dp
  | .tWake => some .wake
  | .tRsten => some .rsten
  | .tQread a n => some (.qread a n)
  | .tRst => some .rst
  | .getStatus _ _ | .pollReady _ _ | .writeEnable _ _ | .write _ _ | .quadMode _ _ | .hpMode _ _
  | .eraseBlock _ _ | .eraseSector _ _ | .eraseChip _ _ | .suspendErase _ _ | .resumeErase _ _
  | .sleep _ _ | .wakeup _ _ | .read _ _ | .init _ _ | .deinit _ _ | .getGeometry _ _
  | .resetChip _ _ => none

/-- The constructor of a template. -/
def Txn.toInstr : Txn → Instr
  | .rdsr => .tRdsr
  | .rdscur => .tRdscur
  | .rdcr => .tRdcr
  | .wren => .tWren
  | .wrsr n => .tWrsr n
  | .pp4 a n => .tPp4 a n
  | .se a => .tSe a
  | .be a => .tBe a
  | .ce => .tCe
  | .susp => .tSusp
  | .resm => .tResm
  | .dp => .tDp
  | .wake => .tWake
  | .rsten => .tRsten
  | .qread a n => .tQread a n
  | .rst => .tRst

end Sys2Proof
end

