-- ==== Sys2Proof/WellFormed.lean ====
section
/-!
DEFINITION. Which instructions are well formed for a configuration. Every operand of an operation is
admitted ("any 32-bit value", 30_encoding.md R92); the checks are those the block keeps for the
descriptors it emits (30_encoding.md R105, 20_memory.md R65).
-/

namespace Sys2Proof

/-- What the spec promises of every descriptor the block emits beyond its fixed fields:
`T_WRSR(n)` has `n = 1` or `n = 3` (30_encoding.md R105); `T_PP4(a, n)` lies inside one page
(20_memory.md R65); `T_SE(a)` is at the start of an existing sector (20_memory.md R65, 30_encoding.md
R99). -/
def Txn.wf (c : Config) : Txn → Bool
  | .wrsr n => n == 1 || n == 3
  | .pp4 a n => decide (a.toNat % c.pageSize + n.toNat ≤ c.pageSize)
  | .se a => a.toNat % c.sectorSize == 0 && decide (a.toNat < c.flashSize)
  | .rdsr | .rdscur | .rdcr | .wren | .be _ | .ce | .susp | .resm | .dp | .wake | .rsten
  | .qread _ _ | .rst => true

/-- An instruction is well formed when its template is; an operation always is (30_encoding.md R92). -/
def Instr.wf (c : Config) (i : Instr) : Bool :=
  match i.txn? with
  | some t => t.wf c
  | none => true

end Sys2Proof
end

