-- ==== Sys2Proof/Decode.lean ====
section
/-!
DEFINITION. Decoding and encoding of both formats: the request word (30_encoding.md R90 to R93) and the
Command Descriptor (R95 to R117). Decoding is total and rejects by name.
-/

namespace Sys2Proof

/-! ### The request word -/

/-- `REQ[7:0]`, the operation code (30_encoding.md R90). -/
def reqOp (w : BitVec 72) : Byte := w.extractLsb' 0 8

/-- `REQ[39:8]`, operand `A` (R90). -/
def reqA (w : BitVec 72) : Word := w.extractLsb' 8 32

/-- `REQ[71:40]`, operand `N` (R90). -/
def reqN (w : BitVec 72) : Word := w.extractLsb' 40 32

/-- The request word of three fields, `REQ = {N, A, OP}` (R90, decision D1). -/
def packReq (op : Byte) (a n : Word) : BitVec 72 := n ++ a ++ op

/-- The table of operation codes, 30_encoding.md R91. -/
def opTable : List (Byte × (Word → Word → Instr)) :=
  [(0x01, .getStatus), (0x02, .pollReady), (0x03, .writeEnable), (0x04, .write),
    (0x05, .quadMode), (0x06, .hpMode), (0x07, .eraseBlock), (0x08, .eraseSector),
    (0x09, .eraseChip), (0x0A, .suspendErase), (0x0B, .resumeErase), (0x0C, .sleep),
    (0x0D, .wakeup), (0x10, .read), (0x11, .init), (0x12, .deinit), (0x13, .getGeometry),
    (0x14, .resetChip)]

/-- Why a word is no instruction of the table. -/
inductive Reject where
  /-- The operation code is not one of the eighteen (30_encoding.md R93). -/
  | reservedOp (op : Byte)
  /-- The descriptor is none of the sixteen templates (R95, R97: codes never produced; R117). -/
  | unknownDescriptor
  /-- The bytes are neither a request word nor a descriptor. -/
  | badLength (n : Nat)
deriving DecidableEq, Repr

/-- Decoding looks at `OP` alone, on all 8 bits (30_encoding.md R90, R91). -/
def decodeReq (w : BitVec 72) : Except Reject Instr :=
  match opTable.lookup (reqOp w) with
  | some mk => .ok (mk (reqA w) (reqN w))
  | none => .error (.reservedOp (reqOp w))

/-! ### The Command Descriptor -/

/-- Lines code (30_encoding.md R97). -/
def Lines.code : Lines → BitVec 2
  | .absent => 0
  | .one => 1
  | .four => 2

/-- Reading a lines code; 3 is never produced (R97). -/
def Lines.ofCode (b : BitVec 2) : Option Lines :=
  if b = 0 then some .absent else if b = 1 then some .one else if b = 2 then some .four else none

/-- Data direction code (30_encoding.md R95). -/
def DataDir.code : DataDir → BitVec 2
  | .none => 0
  | .read => 1
  | .write => 2

/-- Reading a data direction code; 3 is never used (R95). -/
def DataDir.ofCode (b : BitVec 2) : Option DataDir :=
  if b = 0 then some .none else if b = 1 then some .read else if b = 2 then some .write else none

/-- The packed layout `DESC[100:0]` of 30_encoding.md R95. -/
def Desc.pack (d : Desc) : BitVec 101 :=
  d.dataLen ++ d.dataLines.code ++ d.dataDir.code ++ d.dummy ++ d.altLines.code ++ d.alt
    ++ d.addrLines.code ++ d.addrBits ++ d.addr ++ d.instrLines.code ++ d.instr

/-- Reading the packed layout back; none where a code is 3 (R95, R97). -/
def Desc.unpack (w : BitVec 101) : Option Desc :=
  match Lines.ofCode (w.extractLsb' 8 2), Lines.ofCode (w.extractLsb' 48 2),
      Lines.ofCode (w.extractLsb' 58 2), DataDir.ofCode (w.extractLsb' 65 2),
      Lines.ofCode (w.extractLsb' 67 2) with
  | some il, some al, some tl, some dd, some dl =>
    some
      { instr := w.extractLsb' 0 8, instrLines := il, addr := w.extractLsb' 10 32
        addrBits := w.extractLsb' 42 6, addrLines := al, alt := w.extractLsb' 50 8, altLines := tl
        dummy := w.extractLsb' 60 5, dataDir := dd, dataLines := dl, dataLen := w.extractLsb' 69 32 }
  | _, _, _, _, _ => none

/-- A descriptor with an instruction phase on one line and nothing else: the form of `T_WREN`, `T_CE`,
`T_SUSP`, `T_RESM`, `T_DP`, `T_WAKE`, `T_RSTEN`, `T_RST` (30_encoding.md R104, R109 to R114, R116);
"fields not listed are 0". -/
def Desc.bare (opc : Byte) : Desc where
  instr := opc
  instrLines := .one
  addr := 0
  addrBits := 0
  addrLines := .absent
  alt := 0
  altLines := .absent
  dummy := 0
  dataDir := .none
  dataLines := .absent
  dataLen := 0

/-- A register read of `n` bytes on one line: `T_RDSR`, `T_RDSCUR`, `T_RDCR` (R101 to R103). -/
def Desc.regRead (opc : Byte) (n : Word) : Desc :=
  { Desc.bare opc with dataDir := .read, dataLines := .one, dataLen := n }

/-- An erase with its address on one line: `T_SE`, `T_BE` (R107, R108). -/
def Desc.erase (c : Config) (opc : Byte) (a : Word) : Desc :=
  { Desc.bare opc with addr := a, addrBits := BitVec.ofNat 6 c.addrBits, addrLines := .one }

/-- The descriptor of each template, 30_encoding.md R101 to R116. -/
def Txn.desc (c : Config) : Txn → Desc
  | .rdsr => .regRead c.opcRdsr 1
  | .rdscur => .regRead c.opcRdscur 1
  | .rdcr => .regRead c.opcRdcr 2
  | .wren => .bare c.opcWren
  | .wrsr n => { Desc.bare c.opcWrsr with dataDir := .write, dataLines := .one, dataLen := n }
  | .pp4 a n =>
    { Desc.bare c.opcPp4 with
      addr := a, addrBits := BitVec.ofNat 6 c.addrBits, addrLines := .four
      dataDir := .write, dataLines := .four, dataLen := n }
  | .se a => .erase c c.opcSe a
  | .be a => .erase c c.opcBe a
  | .ce => .bare c.opcCe
  | .susp => .bare c.opcSusp
  | .resm => .bare c.opcResm
  | .dp => .bare c.opcDp
  | .wake => .bare c.opcWake
  | .rsten => .bare c.opcRsten
  | .qread a n =>
    { Desc.bare c.opcQread with
      addr := a, addrBits := BitVec.ofNat 6 c.addrBits, addrLines := .four
      alt := if c.qreadAltPresent then c.qreadAlt else 0
      altLines := if c.qreadAltPresent then .four else .absent
      dummy := c.qreadDummy, dataDir := .read, dataLines := .four, dataLen := n }
  | .rst => .bare c.opcRst

/-- The templates a descriptor's address and length could belong to, in the order of R101 to R116. -/
def Desc.candidates (d : Desc) : List Txn :=
  [.rdsr, .rdscur, .rdcr, .wren, .wrsr d.dataLen, .pp4 d.addr d.dataLen, .se d.addr, .be d.addr,
    .ce, .susp, .resm, .dp, .wake, .rsten, .qread d.addr d.dataLen, .rst]

/-- The template of a descriptor: the one whose every field it has. With opcodes that are not pairwise
different the first in the table's order is taken (log 25). -/
def decodeTxn (c : Config) (d : Desc) : Option Txn :=
  d.candidates.find? fun t => t.desc c == d

/-- Decoding a packed descriptor at the executor's port. -/
def decodeDesc (c : Config) (w : BitVec 101) : Except Reject Instr :=
  match Desc.unpack w with
  | none => .error .unknownDescriptor
  | some d =>
    match decodeTxn c d with
    | some t => .ok t.toInstr
    | none => .error .unknownDescriptor

/-- Decoding a word at either port. -/
def decode (c : Config) : Packet → Except Reject Instr
  | .request w => decodeReq w
  | .descriptor d => decodeDesc c d

/-- The number whose first byte is its least significant (bit numbering of the opcode table). -/
def bytesToNat : List Byte → Nat
  | [] => 0
  | b :: bs => b.toNat + 256 * bytesToNat bs

/-- Decoding bytes: nine are a request word, thirteen a descriptor whose three highest bits, which no
field has, are zero (log 25). -/
def decodeBytes (c : Config) (bs : List Byte) : Except Reject Instr :=
  if bs.length = 9 then decodeReq (BitVec.ofNat 72 (bytesToNat bs))
  else if bs.length = 13 then
    if bytesToNat bs < 2 ^ 101 then decodeDesc c (BitVec.ofNat 101 (bytesToNat bs))
    else .error .unknownDescriptor
  else .error (.badLength bs.length)

/-! ### Encoding -/

/-- The operation code and operands of an operation; none for a template (R91). -/
def Instr.opreq? : Instr → Option (Byte × Word × Word)
  | .getStatus a n => some (0x01, a, n)
  | .pollReady a n => some (0x02, a, n)
  | .writeEnable a n => some (0x03, a, n)
  | .write a n => some (0x04, a, n)
  | .quadMode a n => some (0x05, a, n)
  | .hpMode a n => some (0x06, a, n)
  | .eraseBlock a n => some (0x07, a, n)
  | .eraseSector a n => some (0x08, a, n)
  | .eraseChip a n => some (0x09, a, n)
  | .suspendErase a n => some (0x0A, a, n)
  | .resumeErase a n => some (0x0B, a, n)
  | .sleep a n => some (0x0C, a, n)
  | .wakeup a n => some (0x0D, a, n)
  | .read a n => some (0x10, a, n)
  | .init a n => some (0x11, a, n)
  | .deinit a n => some (0x12, a, n)
  | .getGeometry a n => some (0x13, a, n)
  | .resetChip a n => some (0x14, a, n)
  | .tRdsr | .tRdscur | .tRdcr | .tWren | .tWrsr _ | .tPp4 _ _ | .tSe _ | .tBe _ | .tCe | .tSusp
  | .tResm | .tDp | .tWake | .tRsten | .tQread _ _ | .tRst => none

/-- The word of an instruction: its request word (R90) or its packed descriptor (R95). -/
def encode (c : Config) (i : Instr) : Packet :=
  match i.opreq?, i.txn? with
  | some (op, a, n), _ => .request (packReq op a n)
  | none, some t => .descriptor (t.desc c).pack
  | none, none => .request 0

/-- The `k` bytes of a number, least significant first. -/
def natToBytes : Nat → Nat → List Byte
  | 0, _ => []
  | k + 1, w => BitVec.ofNat 8 w :: natToBytes k (w / 256)

/-- Rows of up to 72 bits are request words, wider rows are descriptors (log 25). -/
def wordBytes (nbits w : Nat) : List Byte :=
  natToBytes (if nbits ≤ 72 then 9 else 13) (w % 2 ^ nbits)

/-- The instruction this decoder reads from a word of the opcode table: its bytes in the table's
numbering, given to `decodeBytes` with the parameters the table was written with (R8, R100 defaults). -/
def decodeTableWord (nbits w : Nat) : Option Instr :=
  match decodeBytes Config.default (wordBytes nbits w) with
  | .ok i => some i
  | .error _ => none

end Sys2Proof
end

