-- ==== Sys2Proof/Machine/State.lean ====
section
/-!
DEFINITION. The state of the machine as plain data: the block (10_state.md), the host at its ports, and
the environment (20_memory.md parts 3 and 4). Every field is listed in INVENTORY.md under "State".
-/

namespace Sys2Proof.Machine

/-- The Status Code, 10_state.md R30: "A model should use a five-constructor type". -/
inductive StatusCode where
  /-- OK, 0x0. -/
  | ok
  /-- ERROR, 0x1. -/
  | error
  /-- BUSY, 0x2. -/
  | busy
  /-- NOT_SUPPORTED, 0x4. -/
  | notSupported
  /-- SUSPENDED, 0x8. -/
  | suspended
deriving DecidableEq, Repr

/-- The causes of an abort, the closed table of 60_exceptions.md R221. Labels of the model only. -/
inductive Cause where
  /-- `E_BUS`. -/
  | bus
  /-- `E_CHIPFAIL`. -/
  | chipFail
  /-- `E_RANGE`. -/
  | range
  /-- `E_VERIFY`. -/
  | verify
  /-- `E_SUSPEND_VERIFY`. -/
  | suspendVerify
  /-- `E_RESERVED_OP`. -/
  | reservedOp
  /-- `E_BIND`. -/
  | bind
  /-- `E_RESET`. -/
  | reset
deriving DecidableEq, Repr

/-- The step labels of the pseudocode of files 30 and 40 to 44 (10_state.md R25). `a` and `b` are the two
steps of a register helper (20_memory.md R77, R78). -/
inductive Label where
  /-- Reserved operation code (30_encoding.md R93). -/
  | RS0
  /-- Shared first label of the one-subroutine operations. -/
  | S0
  /-- `return` of those operations. -/
  | S1
  /-- `DoGetStatus` (40 R132). -/
  | G0 | G1 | G2 | G3
  /-- `DoPollReady` (40 R133). -/
  | P0
  /-- `DoWriteEnable` (40 R135). -/
  | W0 | W1
  /-- WRITE (41 R151). -/
  | X0 | X1 | X2 | X3 | X4 | X5 | X6
  /-- `DoQuadMode` (42 R166). -/
  | Q0 | Q1 | Q2 | Q3 | Q4 | Q5 | Q6
  /-- `DoHpMode` (42 R168). -/
  | H0 | H1 | H2 | H3 | H4 | H5 | H6 | H7 | H8 | H9
  /-- ERASE_BLOCK (43 R181). -/
  | B0 | B1 | B2
  /-- ERASE_SECTOR (43 R183). -/
  | E0 | E1 | E2
  /-- ERASE_CHIP (43 R185). -/
  | C0 | C1 | C2
  /-- SUSPEND_ERASE (43 R186). -/
  | U0 | U1 | U2 | U3 | U4
  /-- RESUME_ERASE (43 R187). -/
  | V0 | V1 | V2 | V3 | V4
  /-- SLEEP (43 R188). -/
  | D0
  /-- WAKEUP (43 R189). -/
  | K0
  /-- READ (44 R201). -/
  | L0 | L1 | L2
  /-- GET_GEOMETRY (44 R202). -/
  | Y0
  /-- `DoResetChip` (44 R205). -/
  | T0 | T1 | T2
  /-- INIT (44 R207). -/
  | I0 | I1 | I2 | I3 | I4 | I5 | I6
  /-- DEINIT (44 R209). -/
  | Z0 | Z1 | Z2
  /-- The first step of a helper (20 R77, R78). -/
  | a
  /-- The second step of a helper. -/
  | b
deriving DecidableEq, Repr

/-- A Completion Predicate `(match, mask)`, 20_memory.md R74. -/
structure Pred where
  /-- The expected value of the masked byte. -/
  want : Byte
  /-- The mask. -/
  mask : Byte
deriving DecidableEq, Repr

/-- An executor call (20_memory.md R70 to R74) or collaborator event (44_boundary_ops.md R204). A
descriptor is named by its template; its fields are `Txn.desc`. -/
inductive Call where
  /-- `Exec(desc, tmo)`, R71. -/
  | exec (t : Txn) (tmo : Word)
  /-- `Tx(bytes, tmo)`, R72. -/
  | tx (bytes : List Byte) (tmo : Word)
  /-- `Rx(n, tmo)`, R73. -/
  | rx (n : Word) (tmo : Word)
  /-- `AutoPoll(desc, pred, interval, tmo)`, R74. -/
  | autoPoll (t : Txn) (p : Pred) (interval : Nat) (tmo : Word)
  /-- `PinBind()`. -/
  | pinBind
  /-- `BusInit()`. -/
  | busInit
  /-- `BusReinit()`. -/
  | busReinit
  /-- `BusRelease()`, which has no result. -/
  | busRelease
deriving DecidableEq, Repr

/-- The answer to a call. The bytes of `ok` are those of an `Rx`; for an `AutoPoll` they are the bytes its
wait loop read, which the block never sees (20_memory.md R74). -/
inductive Answer where
  /-- `OK`. -/
  | ok (bytes : List Byte)
  /-- `FAIL`: bus failure or elapsed timeout (R70). -/
  | fail
  /-- The call has not answered and never will (R76; 93 U22). -/
  | never
deriving DecidableEq, Repr

/-- One line of the trace (20_memory.md R66): where in the pseudocode, what was called, what answered. -/
structure Event where
  /-- The PHASE stack at the call (10_state.md R25). -/
  site : List Label
  /-- The call with its arguments. -/
  call : Call
  /-- The answer. -/
  ans : Answer
deriving DecidableEq, Repr

/-- How the environment will answer a call still to come (log 7). -/
inductive Reply where
  /-- As the environment in force answers of itself. -/
  | auto
  /-- `OK`: with these bytes received (`Rx`), or these bytes read before the timeout (`AutoPoll`). The
  reference chip takes no notice of the call (95 program P5: "making call 9 have no effect"). -/
  | ok (bytes : List Byte)
  /-- `FAIL`, an injected fault (20_memory.md R80). -/
  | fail
  /-- The call is never answered (93 U22). -/
  | never
deriving DecidableEq, Repr

/-- Which environment answers an unscripted call. -/
inductive EnvMode where
  /-- The normative, unconstrained environment (20_memory.md R86). -/
  | free
  /-- The reference chip (20_memory.md R80). -/
  | refchip
deriving DecidableEq, Repr

/-- The cycle the reference chip has in flight (20_memory.md R80). -/
inductive Inflight where
  /-- No cycle. -/
  | none
  /-- A program. -/
  | program
  /-- An erase. -/
  | erase
  /-- A register write. -/
  | wrsr
deriving DecidableEq, Repr

/-- A byte memory: `(address, byte)` pairs in the canonical form `Memory.wf`. -/
abbrev Memory := List Host.Cell

/-- What an unlisted byte of the host buffer reads as. DESIGN CHOICE (log 4): 10_state.md R50 leaves it
"unspecified". -/
def bufBackground : Byte := 0x00

/-- What an unlisted byte of the flash array reads as: the erased value of 20_memory.md R80. DESIGN
CHOICE (log 5) where nothing was erased. -/
def flashBackground : Byte := 0xFF

/-- The reference chip, 20_memory.md R80, with the registers of 10_state.md R41 to R43 and R45. -/
structure Chip where
  /-- `MEM`, the flash array. -/
  mem : Memory
  /-- Status register. -/
  sr : Byte
  /-- Security register. -/
  scur : Byte
  /-- `CR[0]`. -/
  cr0 : Byte
  /-- `CR[1]`, which holds the L/H switch. -/
  cr1 : Byte
  /-- The cycle in flight. -/
  inflight : Inflight
  /-- Deep power-down. -/
  dpd : Bool
  /-- A reset-enable was the last word on resets. -/
  rsten : Bool
deriving DecidableEq, Repr

/-- The environment of the block. -/
structure Env where
  /-- Who answers an unscripted call. -/
  mode : EnvMode
  /-- Scripted answers, the next one first. -/
  replies : List Reply
  /-- Whether `env Complete` fires just before each call still to come, the next one first; the chip's
  cycle may end between two calls of one operation (20_memory.md R80; log 32). -/
  completions : List Bool
  /-- How many calls were made: the index of the next free value (log 6). -/
  calls : Nat
  /-- The descriptor last given to `Exec` (20_memory.md R72, R73). -/
  lastExec : Option Txn
  /-- The answer at the executor's port to the last call (log 18). -/
  lastAnswer : Answer
  /-- The reference chip. -/
  chip : Chip
deriving DecidableEq, Repr

/-- The operand latches of 10_state.md R22. -/
structure Latches where
  /-- `OP`. -/
  op : Byte
  /-- `A`. -/
  a : Word
  /-- `N`. -/
  n : Word
deriving DecidableEq, Repr

/-- The working registers of 10_state.md R23 and `ST` of R24. -/
structure Work where
  /-- `CUR`. -/
  cur : Word
  /-- `END`. -/
  endAddr : Word
  /-- `CHUNK`. -/
  chunk : Word
  /-- `PTR`. -/
  ptr : Word
  /-- `ST`. -/
  st : StatusCode
deriving DecidableEq, Repr

/-- The register scratch bytes of 10_state.md R27. -/
structure Scratch where
  /-- `RB[0]`, the status register byte. -/
  rb0 : Byte
  /-- `RB[1]`, configuration byte `CR[0]`. -/
  rb1 : Byte
  /-- `RB[2]`, configuration byte `CR[1]`. -/
  rb2 : Byte
  /-- `VB[0]`. -/
  vb0 : Byte
  /-- `VB[1]`. -/
  vb1 : Byte
deriving DecidableEq, Repr

/-- The four timeout registers of 10_state.md R33. -/
structure Timeouts where
  /-- `TMO_DEFAULT`. -/
  dflt : Word
  /-- `TMO_PROGRAM`. -/
  program : Word
  /-- `TMO_BLOCK_ERASE`. -/
  blockErase : Word
  /-- `TMO_CHIP_ERASE`. -/
  chipErase : Word
deriving DecidableEq, Repr

/-- A store of the host to `BUF` (20_memory.md R63). -/
structure BufStore where
  /-- The offset of the first byte. -/
  off : Word
  /-- The bytes. -/
  bytes : List Byte
deriving DecidableEq, Repr

/-- What still happens at the block's ports and in the chip, an entry a step (log 21). -/
inductive PortEvent where
  /-- The host presents a request word (10_state.md R21). -/
  | request (w : BitVec 72)
  /-- A packed descriptor stands at the executor's command port (log 18). -/
  | descriptor (d : BitVec 101)
  /-- A CSR read (10_state.md R36). -/
  | csrRead (index : Nat)
  /-- A CSR write (10_state.md R36). -/
  | csrWrite (index : Nat) (v : Word)
  /-- The host stores bytes in `BUF` (20_memory.md R63). -/
  | bufWrite (off : Word) (bytes : List Byte)
  /-- `env Complete`: the chip's cycle ends on its own (20_memory.md R80). -/
  | complete
  /-- The block's hardware reset (70_reset_and_hazards.md R250). -/
  | hardwareReset
deriving DecidableEq, Repr

/-- The host at the block's ports. -/
structure HostPort where
  /-- Events still to happen, the next one first. -/
  inbox : List PortEvent
  /-- The value the CSR read port last gave (log 26). -/
  csrData : Word
deriving DecidableEq, Repr

/-- Why the machine stops with a fault. -/
inductive Fault where
  /-- Raised by WRITE, READ, a lone T_PP4 and a host store to BUF that reach an offset at or beyond
  `BUF_SIZE`, and by the step for an instruction while such a store is still to come, "outside the spec" (20_memory.md R63; 93 U5). Safe: no behaviour is claimed there. -/
  | bufferRange
deriving DecidableEq, Repr

/-- Why the machine refuses to go on. -/
inductive Refusal where
  /-- Raised by an arm of `exec` whose instruction has no meaning yet; no arm does. Safe. -/
  | notModelled (mnemonic : String)
  /-- Raised by the step when the configuration breaks the constraints of 00_scope.md R8, which
  93 U20 asks to refuse. Safe. -/
  | configInvalid
  /-- Raised by the step for a descriptor that is none of the sixteen templates: "an executor model
  may refuse them" (93 U21). Safe: the block never emits one. -/
  | unknownDescriptor
deriving DecidableEq, Repr

/-- The state of the machine. -/
structure State where
  /-- The parameters, 00_scope.md R8. No step writes them. -/
  cfg : Config
  /-- `PHASE`, 10_state.md R25, outermost label first; the empty stack is `IDLE`. -/
  phase : List Label
  /-- `STATUS`, R30. -/
  status : StatusCode
  /-- `INITED`, R31. -/
  inited : Bool
  /-- The `done` pulse, R21, R26: up in the state right after an operation returned (log 22). -/
  done : Bool
  /-- `OP`, `A`, `N`, R22. -/
  req : Latches
  /-- `CUR`, `END`, `CHUNK`, `PTR`, `ST`, R23, R24. -/
  work : Work
  /-- `RB`, `VB`, R27. -/
  scratch : Scratch
  /-- The timeout registers, R33. -/
  tmo : Timeouts
  /-- `BUF`, 20_memory.md R63. -/
  buf : Memory
  /-- The environment, 20_memory.md R70 to R86. -/
  env : Env
  /-- The trace of the operation, 20_memory.md R66, first call first. -/
  trace : List Event
  /-- The cause of the last abort, 60_exceptions.md R221: a label of the model (log 24). -/
  cause : Option Cause
  /-- The host's ports, 10_state.md R21. -/
  host : HostPort
  /-- What the host stores in `BUF` while each call still to come runs, the next call's stores first: nothing
  enforces that it holds `BUF` stable (70_reset_and_hazards.md R264; log 33). -/
  hostStores : List (List BufStore)
deriving DecidableEq, Repr

/-! ### Named updates, one a field; their lemmas stand in Laws/State.lean -/

/-- Write `PHASE`. -/
def State.setPhase (s : State) (v : List Label) : State := { s with phase := v }
/-- Write `STATUS`. -/
def State.setStatus (s : State) (v : StatusCode) : State := { s with status := v }
/-- Write `INITED`. -/
def State.setInited (s : State) (v : Bool) : State := { s with inited := v }
/-- Write the `done` pulse. -/
def State.setDone (s : State) (v : Bool) : State := { s with done := v }
/-- Write the operand latches. -/
def State.setReq (s : State) (v : Latches) : State := { s with req := v }
/-- Write the working registers. -/
def State.setWork (s : State) (v : Work) : State := { s with work := v }
/-- Write the scratch bytes. -/
def State.setScratch (s : State) (v : Scratch) : State := { s with scratch := v }
/-- Write the timeout registers. -/
def State.setTmo (s : State) (v : Timeouts) : State := { s with tmo := v }
/-- Write the data buffer. -/
def State.setBuf (s : State) (v : Memory) : State := { s with buf := v }
/-- Write the environment. -/
def State.setEnv (s : State) (v : Env) : State := { s with env := v }
/-- Write the trace. -/
def State.setTrace (s : State) (v : List Event) : State := { s with trace := v }
/-- Write the cause label. -/
def State.setCause (s : State) (v : Option Cause) : State := { s with cause := v }
/-- Write the host's ports. -/
def State.setHost (s : State) (v : HostPort) : State := { s with host := v }
/-- Write the host's stores to come. -/
def State.setHostStores (s : State) (v : List (List BufStore)) : State := { s with hostStores := v }

/-! ### Reset -/

/-- The values the model names for the working registers R50 leaves unspecified. DESIGN CHOICE (log 3). -/
def Latches.unspecified : Latches := ⟨0, 0, 0⟩

/-- As `Latches.unspecified`. DESIGN CHOICE (log 3). -/
def Work.unspecified : Work := ⟨0, 0, 0, 0, .ok⟩

/-- As `Latches.unspecified`. DESIGN CHOICE (log 3). -/
def Scratch.unspecified : Scratch := ⟨0, 0, 0, 0, 0⟩

/-- The chip the block's reset does not reach (70_reset_and_hazards.md R252). DESIGN CHOICE (log 5). -/
def Chip.unspecified : Chip := ⟨[], 0, 0, 0, 0, .none, false, false⟩

/-- The environment at reset: unconstrained (20_memory.md R86), nothing scripted, no call made. DESIGN CHOICE
(log 34): before the first call OK with no bytes stands as the last answer; the spec gives no such value. -/
def Env.atReset : Env := ⟨.free, [], [], 0, none, .ok [], Chip.unspecified⟩

/-- The timeout registers at their `*_RST` parameters (10_state.md R50). -/
def Timeouts.atReset (c : Config) : Timeouts :=
  ⟨c.tmoDefaultRst, c.tmoProgramRst, c.tmoBlockEraseRst, c.tmoChipEraseRst⟩

/-- The machine right after reset, 10_state.md R50, with the default parameters of 00_scope.md R8. -/
def State.reset : State where
  cfg := Config.default
  phase := []
  status := .ok
  inited := false
  done := false
  req := Latches.unspecified
  work := Work.unspecified
  scratch := Scratch.unspecified
  tmo := Timeouts.atReset Config.default
  buf := []
  env := Env.atReset
  trace := []
  cause := none
  host := ⟨[], 0⟩
  hostStores := []

end Sys2Proof.Machine
end

