-- ==== Sys2Proof/Machine/Flags.lean ====
section
/-!
DEFINITION. Every test of a register bit: the register-unpacking functions of the status decoder
(40_status_poll_wren.md R130), the completion predicates and the masked-bit wait loop (20_memory.md
R74), the bit the mode sequences set, clear and verify (42_mode_config.md R166, R168), and the numbers
of the Status Codes (10_state.md R30).
-/

namespace Sys2Proof.Machine

/-- The 4-bit encoding of `STATUS`, 10_state.md R30. -/
def StatusCode.code : StatusCode → BitVec 4
  | .ok => 0x0
  | .error => 0x1
  | .busy => 0x2
  | .notSupported => 0x4
  | .suspended => 0x8

/-- A code the operation ends with by an abort: "a code other than OK, reached from a failed step"
(60_exceptions.md R220); BUSY and SUSPENDED are not aborts (R222). -/
def StatusCode.isAbort : StatusCode → Bool
  | .error => true
  | .notSupported => true
  | .ok => false
  | .busy => false
  | .suspended => false

/-- `v & mask != 0`: whether any masked bit is set (00_scope.md R10). -/
def anySet (v mask : Byte) : Bool := v &&& mask != 0

/-- `Decode1(scur)`, 40_status_poll_wren.md R130; none is CONTINUE. -/
def decode1 (c : Config) (scur : Byte) : Option StatusCode :=
  if anySet scur (c.mPfail ||| c.mEfail) then some .error
  else if anySet scur (c.mPsb ||| c.mEsb) then some .suspended
  else none

/-- `Decode2(sr)`, 40_status_poll_wren.md R130. -/
def decode2 (c : Config) (sr : Byte) : StatusCode :=
  if anySet sr c.mWip then .busy else .ok

/-- A received byte satisfies a predicate when `(v & mask) = match` (20_memory.md R74). -/
def Pred.sat (p : Pred) (v : Byte) : Bool := v &&& p.mask == p.want

/-- `PRED_READY = (0x00, M_WIP)` (20_memory.md R74). -/
def predReady (c : Config) : Pred := ⟨0x00, c.mWip⟩

/-- `PRED_WEL = (M_WEL, M_WEL)` (20_memory.md R74). -/
def predWel (c : Config) : Pred := ⟨c.mWel, c.mWel⟩

/-- The masked-bit wait loop of 20_memory.md R74 on the bytes the register reads return before the
timeout elapses or the bus fails: `OK` at the first byte that satisfies the predicate, with the bytes
read so far; `FAIL` when the list ends. -/
def waitLoop (p : Pred) : List Byte → Answer
  | [] => .fail
  | v :: vs =>
    if p.sat v then .ok [v]
    else
      match waitLoop p vs with
      | .ok bs => .ok (v :: bs)
      | .fail => .fail
      | .never => .never

/-- Set or clear the masked bit, leaving every other bit as it was (42_mode_config.md R165; 10_state.md
R44). -/
def putBit (en : Bool) (v mask : Byte) : Byte := if en then v ||| mask else v &&& ~~~mask

/-- The verify of the mode sequences: `((v & mask) != 0) = en` (42_mode_config.md R166 step Q6, R168 step
H7). -/
def verifyBit (en : Bool) (v mask : Byte) : Bool := anySet v mask == en

end Sys2Proof.Machine
end

