-- ==== Sys2Proof/Machine/Memory.lean ====
section
/-!
DEFINITION. Byte memories in canonical form: the host buffer `BUF` (20_memory.md R63) and the flash array
`MEM` (R61, R80). `bg` is what an unlisted address reads as.
-/

namespace Sys2Proof.Machine

/-- Addresses strictly rising, all at or above `lo`. -/
def Memory.risingFrom : Nat → Memory → Bool
  | _, [] => true
  | lo, (a, _) :: m => decide (lo ≤ a) && Memory.risingFrom (a + 1) m

/-- The canonical form: addresses strictly rising, no entry equal to what an unlisted address reads as. -/
def Memory.wf (bg : Byte) (m : Memory) : Bool :=
  Memory.risingFrom 0 m && m.all fun e => e.2 != bg

/-- Every listed address lies below `size`. -/
def Memory.within (size : Nat) (m : Memory) : Bool := m.all fun e => decide (e.1 < size)

/-- One byte. -/
def Memory.read (bg : Byte) : Memory → Nat → Byte
  | [], _ => bg
  | (a, v) :: m, x => if a = x then v else Memory.read bg m x

/-- Put an entry at its place, replacing the one that stands there. -/
def Memory.insert (x : Nat) (v : Byte) : Memory → Memory
  | [] => [(x, v)]
  | (a, w) :: m =>
    if x < a then (x, v) :: (a, w) :: m
    else if x = a then (x, v) :: m
    else (a, w) :: Memory.insert x v m

/-- Take the entry of an address out. -/
def Memory.remove (x : Nat) : Memory → Memory
  | [] => []
  | (a, w) :: m => if a = x then Memory.remove x m else (a, w) :: Memory.remove x m

/-- Store one byte, keeping the canonical form. -/
def Memory.write (bg : Byte) (m : Memory) (x : Nat) (v : Byte) : Memory :=
  if v = bg then Memory.remove x m else Memory.insert x v m

/-- `BufRead(off, n)`: the bytes at `off .. off+n-1` in that order (20_memory.md R63). -/
def Memory.readBytes (bg : Byte) (m : Memory) (off n : Nat) : List Byte :=
  (List.range n).map fun i => Memory.read bg m (off + i)

/-- `BufWrite(off, bytes)`: `bytes[0]` at `off`, `bytes[1]` at `off+1`, and so on (20_memory.md R63). -/
def Memory.writeBytes (bg : Byte) : Memory → Nat → List Byte → Memory
  | m, _, [] => m
  | m, off, v :: vs => Memory.writeBytes bg (Memory.write bg m off v) (off + 1) vs

/-- Every byte of `lo .. lo+n-1` takes the value unlisted bytes read as: an erase of the flash array. -/
def Memory.clearRange (m : Memory) (lo n : Nat) : Memory :=
  m.filter fun e => !(decide (lo ≤ e.1) && decide (e.1 < lo + n))

end Sys2Proof.Machine
end

