-- ==== Sys2Proof/Machine/Operands.lean ====
section
/-!
DEFINITION. The computed operands (30_encoding.md R99): the enable flag, the chunk arithmetic of WRITE
(41_program.md R151), the sector address, and the range tests of the operations.
-/

namespace Sys2Proof.Machine

/-- QUAD_MODE and HP_MODE read `A[0]` alone (30_encoding.md R92). -/
def enableOf (a : Word) : Bool := a.getLsbD 0

/-- The smaller of two unsigned values (00_scope.md R11). -/
def minWord (x y : Word) : Word := if y < x then y else x

/-- `PAGE_SIZE` as a 32-bit value. -/
def pageWord (c : Config) : Word := BitVec.ofNat 32 c.pageSize

/-- Step X0 of WRITE: the room left in the starting page, clamped to the length (41_program.md R151). -/
def firstChunk (c : Config) (a n : Word) : Word :=
  minWord (pageWord c - a % pageWord c) n

/-- Step X5 of WRITE: `min(P, END -32 CUR)` (41_program.md R151). -/
def nextChunk (c : Config) (endAddr cur : Word) : Word :=
  minWord (pageWord c) (endAddr - cur)

/-- The registers after step X0 of WRITE; `ST` is not WRITE's. -/
def Work.startWrite (w : Work) (c : Config) (a n : Word) : Work :=
  { w with chunk := firstChunk c a n, cur := a, endAddr := a + n, ptr := 0 }

/-- The registers after step X5 of WRITE: `CUR` and `PTR` advance by `CHUNK`, then the next chunk. -/
def Work.advance (w : Work) (c : Config) : Work :=
  { w with cur := w.cur + w.chunk, ptr := w.ptr + w.chunk
           chunk := nextChunk c w.endAddr (w.cur + w.chunk) }

/-- ERASE_SECTOR validates `A < SECTOR_COUNT`, unsigned on 32 bits (43_erase_power.md R183). -/
def sectorExists (c : Config) (a : Word) : Bool := decide (a.toNat < c.sectorCount)

/-- `A *32 SECTOR_SIZE` (30_encoding.md R99 (a)). -/
def sectorAddr (c : Config) (a : Word) : Word := a * BitVec.ofNat 32 c.sectorSize

/-- The offsets `off .. off+n-1` exist in `BUF` (20_memory.md R63). -/
def inBuf (c : Config) (off : Word) (n : Nat) : Bool := decide (off.toNat + n ≤ c.bufSize)

/-- Every store of the host still to come stays inside `BUF` (20_memory.md R63). -/
def storesInBuf (c : Config) (stores : List (List BufStore)) : Bool :=
  stores.all fun bs => bs.all fun b => inBuf c b.off b.bytes.length

end Sys2Proof.Machine
end

