-- ==== Sys2Proof/Machine/Chip.lean ====
section
/-!
DEFINITION. The reference chip REFCHIP, 20_memory.md R80: what each template does to it, the event
`Complete`, and its answer to `AutoPoll`. PRESUMED (log 9): the spec marks the whole chip as general
knowledge; it is no part of the block.
-/

namespace Sys2Proof.Machine

/-- "if WEL set and WIP clear": the chip takes a program, an erase or a register write. -/
def Chip.accepts (k : Chip) (c : Config) : Bool := anySet k.sr c.mWel && !anySet k.sr c.mWip

/-- `SR <- SR | M_WIP; inflight <- f`: a cycle starts. -/
def Chip.startCycle (k : Chip) (c : Config) (f : Inflight) : Chip :=
  { k with sr := k.sr ||| c.mWip, inflight := f }

/-- `env Complete`: a cycle in flight with WIP set ends, clearing WIP and WEL. -/
def Chip.complete (k : Chip) (c : Config) : Chip :=
  if k.inflight ≠ .none ∧ anySet k.sr c.mWip then
    { k with sr := k.sr &&& ~~~(c.mWip ||| c.mWel), inflight := .none }
  else k

/-- The address the chip sees: the low `ADDR_BITS` bits (30_encoding.md R96), modulo `FLASH_SIZE`
(20_memory.md R80). Log 14. -/
def flashAddr (c : Config) (a : Word) : Nat := a.toNat % 2 ^ c.addrBits % c.flashSize

/-- Address of byte `i` of a transfer that starts at `a`, taken modulo `FLASH_SIZE` (R80). -/
def flashByteAddr (c : Config) (a : Word) (i : Nat) : Nat := (flashAddr c a + i) % c.flashSize

/-- Erase the aligned unit of `size` bytes that contains the address. DESIGN CHOICE (log 31): with a
`BLOCK_SIZE` of 0, which 00_scope.md R8 does not exclude and for which no unit is given, no byte is erased.
DESIGN CHOICE (log 35): with a `BLOCK_SIZE` that does not divide `FLASH_SIZE` the last unit ends at the end of
the array; it does not go on at address 0. -/
def Chip.eraseUnit (k : Chip) (c : Config) (a : Word) (size : Nat) : Chip :=
  { k with mem := k.mem.clearRange (flashAddr c a / size * size) size }

/-- Program bytes from index `i` on: "a program can only clear bits". -/
def programFrom (c : Config) (a : Word) : Nat → Memory → List Byte → Memory
  | _, m, [] => m
  | i, m, v :: vs =>
    let x := flashByteAddr c a i
    programFrom c a (i + 1)
      (Memory.write flashBackground m x (Memory.read flashBackground m x &&& v)) vs

/-- The effect of an accepted `Exec` on the chip; a template with a data phase acts at its `Tx`. -/
def Chip.exec (k : Chip) (c : Config) (t : Txn) : Chip :=
  if k.dpd then
    match t with
    | .wake => { k with dpd := false }
    | .rdsr | .rdscur | .rdcr | .wren | .wrsr _ | .pp4 _ _ | .se _ | .be _ | .ce | .susp | .resm
    | .dp | .rsten | .qread _ _ | .rst => k
  else
    match t with
    | .rdsr | .rdscur | .rdcr | .wrsr _ | .pp4 _ _ | .qread _ _ => k
    | .wren => if anySet k.sr c.mWip then k else { k with sr := k.sr ||| c.mWel }
    | .se a =>
      if k.accepts c then (k.eraseUnit c a c.sectorSize).startCycle c .erase else k
    | .be a => if k.accepts c then (k.eraseUnit c a c.blockSize).startCycle c .erase else k
    | .ce => if k.accepts c then { k with mem := [] }.startCycle c .erase else k
    | .susp =>
      if k.inflight = .erase ∧ anySet k.sr c.mWip then
        { k with sr := k.sr &&& ~~~(c.mWip ||| c.mWel), scur := k.scur ||| c.mEsb }
      else if k.inflight = .program ∧ anySet k.sr c.mWip then
        { k with sr := k.sr &&& ~~~(c.mWip ||| c.mWel), scur := k.scur ||| c.mPsb }
      else k
    | .resm =>
      if anySet k.scur (c.mEsb ||| c.mPsb) then
        { k with scur := k.scur &&& ~~~(c.mEsb ||| c.mPsb), sr := k.sr ||| c.mWip }
      else k
    | .dp => { k with dpd := true }
    | .wake => { k with dpd := false }
    | .rsten => { k with rsten := true }
    | .rst =>
      if k.rsten then
        { k with sr := k.sr &&& c.mQe, scur := 0, inflight := .none, rsten := false }
      else k

/-- `T_WRSR(n)` then `Tx(b)`: WIP and WEL keep their values, three bytes also write CR. Without a byte
there is nothing to write (log 13). -/
def Chip.writeRegs (k : Chip) (c : Config) : List Byte → Chip
  | [] => k
  | b0 :: rest =>
    let keep := c.mWip ||| c.mWel
    let k1 := { k with sr := (k.sr &&& keep) ||| (b0 &&& ~~~keep) }
    let k2 :=
      match rest with
      | [b1, b2] => { k1 with cr0 := b1, cr1 := b2 }
      | _ => k1
    k2.startCycle c .wrsr

/-- The effect of the data phase `Tx(b)` of the descriptor last given to `Exec`. -/
def Chip.transmit (k : Chip) (c : Config) (t : Option Txn) (bytes : List Byte) : Chip :=
  if k.dpd || !k.accepts c then k
  else
    match t with
    | some (.wrsr _) => k.writeRegs c bytes
    | some (.pp4 a _) => { k with mem := programFrom c a 0 k.mem bytes }.startCycle c .program
    | _ => k

/-- The bytes an `Rx(n)` gives for the descriptor last given to `Exec`; none where R80 says they are
unspecified (deep power-down) or gives no data phase to receive. -/
def Chip.receive (k : Chip) (c : Config) (t : Option Txn) (n : Word) : Option (List Byte) :=
  if k.dpd then none
  else
    match t with
    | some .rdsr => some [k.sr]
    | some .rdscur => some [k.scur]
    | some .rdcr => some [k.cr0, k.cr1]
    | some (.qread a _) =>
      some ((List.range n.toNat).map fun i =>
        Memory.read flashBackground k.mem (flashByteAddr c a i))
    | _ => none

/-- `AutoPoll` on the reference chip (R80), as the bytes its wait loop reads and the chip afterwards: SR
if it satisfies the predicate; else, for `PRED_READY` with WIP set, SR and then SR with WIP clear, so that
it answers OK (R74), and `Complete` has fired; else nothing that matches. With no cycle in flight
`Complete` has no effect and the poll answers OK all the same (log 12). A sleeping chip's reads never match
(60_exceptions.md R240; log 11). -/
def Chip.poll (k : Chip) (c : Config) (p : Pred) : List Byte × Chip :=
  if k.dpd then ([], k)
  else if p.sat k.sr then ([k.sr], k)
  else if p = predReady c ∧ anySet k.sr c.mWip then
    ([k.sr, k.sr &&& ~~~(c.mWip ||| c.mWel)], k.complete c)
  else ([k.sr], k)

end Sys2Proof.Machine
end

