-- ==== Sys2Proof/Machine/Executor.lean ====
section
/-!
DEFINITION. The Bus Transaction Executor interface (20_memory.md R70 to R76) and the collaborator events
(44_boundary_ops.md R204): one call, its answer from the environment in force, its line in the trace;
and `Seq`, a piece of an operation that makes such calls.
-/

namespace Sys2Proof.Machine

/-! ### Pieces of an operation -/

/-- A piece of an operation: from a state to its result and the state after it. No result means that a
call was never answered (20_memory.md R76, 93 U22): the state is the one the block stands in. -/
def Seq (α : Type) : Type := State → Option α × State

/-- The piece that does nothing and gives `x`. -/
def Seq.pure {α : Type} (x : α) : Seq α := fun s => (some x, s)

/-- One piece, then the next; a call never answered ends both. -/
def Seq.andThen {α β : Type} (m : Seq α) (k : α → Seq β) : Seq β := fun s =>
  match m s with
  | (some x, t) => k x t
  | (none, t) => (none, t)

/-- Read the state. -/
def Seq.look {α : Type} (k : State → Seq α) : Seq α := fun s => k s s

/-- Write the state. -/
def Seq.update {α : Type} (f : State → State) (k : Seq α) : Seq α := fun s => k (f s)

/-- Run a piece at a step label: the label is pushed on PHASE, and popped when the piece returns
(10_state.md R25). -/
def Seq.label {α : Type} (l : Label) (m : Seq α) : Seq α := fun s =>
  match m (s.setPhase (s.phase ++ [l])) with
  | (some x, t) => (some x, t.setPhase s.phase)
  | (none, t) => (none, t)

/-- The sequencer stands at a label for ever (20_memory.md R76). -/
def Seq.stuck {α : Type} (l : Label) : Seq α := fun s => (none, s.setPhase (s.phase ++ [l]))

/-- `return code  # cause c`: a failed step (60_exceptions.md R220, R221). -/
def Seq.abort (c : Cause) (code : StatusCode) : Seq StatusCode :=
  Seq.update (fun s => s.setCause (some c)) (Seq.pure code)

/-- `if r = FAIL then return code`, else go on with the bytes. -/
def Seq.orAbort (m : Seq Answer) (c : Cause) (code : StatusCode) (k : List Byte → Seq StatusCode) :
    Seq StatusCode :=
  m.andThen fun r =>
    match r with
    | .ok bytes => k bytes
    | .fail | .never => Seq.abort c code

/-- `if s != OK then return code` after a subroutine; its cause stands (60_exceptions.md R225). -/
def Seq.orReturn (m : Seq StatusCode) (code : StatusCode) (k : Seq StatusCode) : Seq StatusCode :=
  m.andThen fun st => if st = .ok then k else Seq.pure code

/-! ### Answers of the environment -/

/-- Exactly `n` received bytes: the given ones, then free ones (20_memory.md R73; log 7). `i` is the
number of the call. -/
def fitBytes (i : Nat) (n : Word) (bytes : List Byte) : List Byte :=
  (List.range n.toNat).map fun j => bytes.getD j (Config.freeByte i j)

/-- The answer `OK` of a call that got these bytes: an `AutoPoll` runs its wait loop on them (20_memory.md
R74), an `Rx` receives them, any other call has none. -/
def deliver (i : Nat) (c : Call) (bytes : List Byte) : Answer :=
  match c with
  | .autoPoll _ p _ _ => waitLoop p bytes
  | .rx n _ => .ok (fitBytes i n bytes)
  | .exec _ _ | .tx _ _ | .pinBind | .busInit | .busReinit | .busRelease => .ok []

/-- The unconstrained environment (20_memory.md R86): `OK` or `FAIL` as a free value decides, with free
bytes. -/
def freeAnswer (i : Nat) (c : Call) : Answer :=
  if Config.freeOk i then
    deliver i c
      (match c with
      | .autoPoll _ _ _ _ => Config.freePoll i
      | .exec _ _ | .tx _ _ | .rx _ _ | .pinBind | .busInit | .busReinit | .busRelease => [])
  else .fail

/-- The reference chip's answer (20_memory.md R80): "Every `Exec`, `Tx`, `Rx` answers `OK`". -/
def chipAnswer (i : Nat) (cfg : Config) (t : Option Txn) (c : Call) (k : Chip) : Answer × Chip :=
  match c with
  | .exec u _ => (.ok [], k.exec cfg u)
  | .tx bytes _ => (.ok [], k.transmit cfg t bytes)
  | .rx n _ => (deliver i c ((k.receive cfg t n).getD []), k)
  | .autoPoll _ p _ _ => (deliver i c (k.poll cfg p).1, (k.poll cfg p).2)
  | .pinBind | .busInit | .busReinit | .busRelease => (.ok [], k)

/-- What a failed call left in the reference chip: nothing, but for a `Tx`, of which a free number of
bytes arrived (95 vectors AB3, AB4; log 10). -/
def chipAfterFail (i : Nat) (cfg : Config) (t : Option Txn) (c : Call) (k : Chip) : Chip :=
  match c with
  | .tx bytes _ =>
    if Config.freeReach i = 0 then k else k.transmit cfg t (bytes.take (Config.freeReach i))
  | .exec _ _ | .rx _ _ | .autoPoll _ _ _ _ | .pinBind | .busInit | .busReinit | .busRelease => k

/-- The descriptor last given to `Exec`, after a call. -/
def Call.lastExec (c : Call) (before : Option Txn) : Option Txn :=
  match c with
  | .exec t _ => some t
  | .tx _ _ | .rx _ _ | .autoPoll _ _ _ _ | .pinBind | .busInit | .busReinit | .busRelease => before

/-- The chip as the next call finds it: a cycle in flight may have ended on its own since the call before
(20_memory.md R80, "Environment event `Complete`"; log 32). -/
def Env.chipNow (e : Env) (cfg : Config) : Chip :=
  match e.mode, e.completions.headD false with
  | .refchip, true => e.chip.complete cfg
  | .refchip, false => e.chip
  | .free, _ => e.chip

/-- The answer to a call and the chip after it, by what is scripted for the call. -/
def Env.respond (e : Env) (cfg : Config) (c : Call) : Answer × Chip :=
  match e.replies.headD .auto, e.mode with
  | .never, _ => (.never, e.chipNow cfg)
  | .ok bytes, _ => (deliver e.calls c bytes, e.chipNow cfg)
  | .fail, .free => (.fail, e.chipNow cfg)
  | .fail, .refchip => (.fail, chipAfterFail e.calls cfg e.lastExec c (e.chipNow cfg))
  | .auto, .free => (freeAnswer e.calls c, e.chipNow cfg)
  | .auto, .refchip => chipAnswer e.calls cfg e.lastExec c (e.chipNow cfg)

/-- The environment after a call: the script, the chip's own events and the call counter move on. -/
def Env.after (e : Env) (cfg : Config) (c : Call) : Env where
  mode := e.mode
  replies := e.replies.tail
  completions := e.completions.tail
  calls := e.calls + 1
  lastExec := c.lastExec e.lastExec
  lastAnswer := (e.respond cfg c).1
  chip := (e.respond cfg c).2

/-- A line of the trace is written (20_memory.md R66). -/
def State.logCall (s : State) (c : Call) (r : Answer) : State :=
  s.setTrace (s.trace ++ [⟨s.phase, c, r⟩])

/-- One store of the host to `BUF` during a call. No byte goes to an offset at or beyond `BUF_SIZE`, where
there is none; the step stops before an instruction that such a store would meet (log 15, 33). -/
def BufStore.apply (c : Config) (m : Memory) (b : BufStore) : Memory :=
  Memory.writeBytes bufBackground m b.off.toNat (b.bytes.take (c.bufSize - b.off.toNat))

/-- The stores of the host during one call, in order. -/
def applyStores (c : Config) (m : Memory) (bs : List BufStore) : Memory :=
  bs.foldl (BufStore.apply c) m

/-- The host's stores during the call that has just been made (70_reset_and_hazards.md R264: "not
enforced"). -/
def State.hostStored (s : State) : State :=
  (s.setBuf (applyStores s.cfg s.buf (s.hostStores.headD []))).setHostStores s.hostStores.tail

/-- The state after a call and its answer, and what the host stored meanwhile. -/
def State.afterCall (s : State) (c : Call) : State :=
  ((s.logCall c (s.env.respond s.cfg c).1).setEnv (s.env.after s.cfg c)).hostStored

/-- One executor call or collaborator event: made, answered, written in the trace (20_memory.md R70). -/
def call (c : Call) : Seq Answer := fun s =>
  match (s.env.respond s.cfg c).1 with
  | .never => (none, s.afterCall c)
  | .ok bytes => (some (.ok bytes), s.afterCall c)
  | .fail => (some .fail, s.afterCall c)

/-! ### The calls with their timeouts (20_memory.md R75) -/

/-- `Exec(desc, TMO_DEFAULT)`. -/
def execCall (t : Txn) : Seq Answer := Seq.look fun s => call (.exec t s.tmo.dflt)

/-- `Tx(bytes, TMO_DEFAULT)`. -/
def txCall (bytes : List Byte) : Seq Answer := Seq.look fun s => call (.tx bytes s.tmo.dflt)

/-- `Rx(n, TMO_DEFAULT)`. -/
def rxCall (n : Word) : Seq Answer := Seq.look fun s => call (.rx n s.tmo.dflt)

/-- `AutoPoll(T_RDSR, pred, POLL_INTERVAL, tmo)` (20_memory.md R74). -/
def pollCall (p : Config → Pred) (tmo : State → Word) : Seq Answer :=
  Seq.look fun s => call (.autoPoll .rdsr (p s.cfg) s.cfg.pollInterval (tmo s))

/-- `BusRelease()`: "no result" (44_boundary_ops.md R204), so nothing is asked of the environment
(log 28). -/
def busRelease : Seq Unit := Seq.update (fun s => s.logCall .busRelease (.ok [])) (Seq.pure ())

/-! ### Helpers (20_memory.md R77 to R79) -/

/-- `ReadReg(desc, n)`. -/
def readReg (t : Txn) (n : Word) : Seq Answer :=
  (Seq.label .a (execCall t)).andThen fun r =>
    match r with
    | .ok _ => Seq.label .b (rxCall n)
    | .fail | .never => Seq.pure .fail

/-- `WriteReg(desc, bytes)`. -/
def writeReg (t : Txn) (bytes : List Byte) : Seq Answer :=
  (Seq.label .a (execCall t)).andThen fun r =>
    match r with
    | .ok _ => Seq.label .b (txCall bytes)
    | .fail | .never => Seq.pure .fail

/-- `Cmd(desc)`. -/
def cmd (t : Txn) : Seq Answer := execCall t

end Sys2Proof.Machine
end

