-- ==== Sys2Proof/Machine/Ops.lean ====
section
/-!
DEFINITION. The operations the meanings share: acceptance of a request (10_state.md R22), completion and
abort (R26, 60_exceptions.md R220), the CSR ports (10_state.md R32 to R36), the block's hardware reset
(70_reset_and_hazards.md R250), and the subroutines of 00_scope.md R13.
-/

namespace Sys2Proof.Machine

/-! ### Acceptance and completion -/

/-- A request is accepted: its three fields are latched (10_state.md R22); the operation's trace begins. -/
def State.accept (s : State) (op : Byte) (a n : Word) : State :=
  (((s.setReq ⟨op, a, n⟩).setTrace []).setCause none).setDone false

/-- `return code` at the level of an operation, the one way every operation ends (10_state.md R26,
00_scope.md R12): `STATUS <- code; PHASE <- IDLE`, one `done` pulse. An abort is the same return with
an error code (60_exceptions.md R220): "Nothing else is saved or changed"; its cause label stands, any
other return clears it (log 24). There is no return from an abort to model (R225). -/
def State.finish (s : State) (code : StatusCode) : State :=
  (((s.setStatus code).setPhase []).setDone true).setCause
    (if code.isAbort then s.cause else none)

/-- The state an operation leaves: finished with its code, or standing at a call never answered. -/
def finishRun (r : Option StatusCode × State) : State :=
  match r with
  | (some code, t) => t.finish code
  | (none, t) => t

/-- Accept a request and run its operation to the return (10_state.md R21). -/
def runOp (op : Byte) (a n : Word) (body : Seq StatusCode) (s : State) :
    Host.Outcome State Fault Refusal :=
  .next (finishRun (body (s.accept op a n)))

/-- A reserved operation code: accepted, no call, ERROR (30_encoding.md R93). -/
def execReserved (op : Byte) (a n : Word) (s : State) : Host.Outcome State Fault Refusal :=
  runOp op a n (Seq.abort .reservedOp .error) s

/-! ### CSR ports -/

/-- `STATE` (10_state.md R34): bit 0 BUSY, bit 1 INITED. -/
def State.stateCsr (s : State) : Word :=
  (if s.phase = [] then 0 else 1) ||| (if s.inited then 2 else 0)

/-- A CSR read, the map of 10_state.md R32; a reserved index reads 0 (R36). -/
def State.readCsr (s : State) (index : Nat) : Word :=
  match index with
  | 0x00 => s.tmo.dflt
  | 0x01 => s.tmo.program
  | 0x02 => s.tmo.blockErase
  | 0x03 => s.tmo.chipErase
  | 0x04 => s.status.code.setWidth 32
  | 0x05 => s.stateCsr
  | 0x08 => BitVec.ofNat 32 s.cfg.flashSize
  | 0x09 => BitVec.ofNat 32 s.cfg.sectorSize
  | 0x0A => BitVec.ofNat 32 s.cfg.sectorCount
  | 0x0B => BitVec.ofNat 32 s.cfg.pageSize
  | 0x0C => BitVec.ofNat 32 s.cfg.pageCount
  | _ => 0

/-- The timeout registers after a CSR write: a read-only or reserved index is ignored (10_state.md R36). -/
def Timeouts.write (t : Timeouts) (index : Nat) (v : Word) : Timeouts :=
  match index with
  | 0x00 => { t with dflt := v }
  | 0x01 => { t with program := v }
  | 0x02 => { t with blockErase := v }
  | 0x03 => { t with chipErase := v }
  | _ => t

/-- A CSR write. -/
def State.writeCsr (s : State) (index : Nat) (v : Word) : State := s.setTmo (s.tmo.write index v)

/-- The host stores bytes in `BUF` (20_memory.md R63). -/
def State.storeBuf (s : State) (off : Nat) (bytes : List Byte) : State :=
  s.setBuf (Memory.writeBytes bufBackground s.buf off bytes)

/-- `BufRead(off, n)`. -/
def State.bufRead (s : State) (off n : Nat) : List Byte :=
  Memory.readBytes bufBackground s.buf off n

/-- The block's hardware reset (70_reset_and_hazards.md R250): every register of 10_state.md R50; a
running operation is abandoned; BUF, the environment and the trace of what was called stay (log 23). -/
def State.hardwareReset (s : State) : State :=
  { s with
    phase := [], status := .ok, inited := false, done := false
    req := Latches.unspecified, work := Work.unspecified, scratch := Scratch.unspecified
    tmo := Timeouts.atReset s.cfg, cause := none }

/-- `env Complete` (20_memory.md R80), which only the reference chip knows. -/
def State.chipComplete (s : State) : State :=
  match s.env.mode with
  | .free => s
  | .refchip => s.setEnv { s.env with chip := s.env.chip.complete s.cfg }

/-! ### Subroutines (00_scope.md R13) -/

/-- `DoGetStatus()`, 40_status_poll_wren.md R132. -/
def doGetStatus : Seq StatusCode :=
  (Seq.label .G0 (readReg .rdscur 1)).orAbort .bus .error fun b =>
    Seq.look fun s =>
      match decode1 s.cfg (b.getD 0 0) with
      | some .error => Seq.abort .chipFail .error
      | some code => Seq.pure code
      | none =>
        (Seq.label .G2 (readReg .rdsr 1)).orAbort .bus .error fun b' =>
          Seq.look fun s' => Seq.pure (decode2 s'.cfg (b'.getD 0 0))

/-- `DoPollReady(tmo)`, 40_status_poll_wren.md R133; the timeout may be a register (20_memory.md R75). -/
def doPollReady (tmo : State → Word) : Seq StatusCode :=
  (Seq.label .P0 (pollCall predReady tmo)).orAbort .bus .error fun _ => Seq.pure .ok

/-- `DoWriteEnable()`, 40_status_poll_wren.md R135. -/
def doWriteEnable : Seq StatusCode :=
  (Seq.label .W0 (cmd .wren)).orAbort .bus .error fun _ =>
    (Seq.label .W1 (pollCall predWel fun s => s.tmo.dflt)).orAbort .bus .error fun _ =>
      Seq.pure .ok

/-- `DoResetChip()`, 44_boundary_ops.md R205: every failure gives NOT_SUPPORTED. -/
def doResetChip : Seq StatusCode :=
  (Seq.label .T0 (cmd .rsten)).orAbort .reset .notSupported fun _ =>
    (Seq.label .T1 (cmd .rst)).orAbort .reset .notSupported fun _ =>
      (Seq.label .T2 (doPollReady fun s => s.tmo.dflt)).andThen fun st =>
        if st = .ok then Seq.pure .ok else Seq.abort .reset .notSupported

end Sys2Proof.Machine
end

