-- ==== Sys2Proof/Machine/ModeConfig.lean ====
section
/-!
DEFINITION. The mode configuration sequencer, 42_mode_config.md: `DoQuadMode`, `DoHpMode`, QUAD_MODE,
HP_MODE.
-/

namespace Sys2Proof.Machine

/-- `DoQuadMode(en)`, 42_mode_config.md R166. -/
def doQuadMode (en : Bool) : Seq StatusCode :=
  (Seq.label .Q0 (readReg .rdsr 1)).orAbort .bus .error fun b =>
    Seq.update
      (fun s => s.setScratch { s.scratch with rb0 := putBit en (b.getD 0 0) s.cfg.mQe }) <|
    (Seq.label .Q2 doWriteEnable).orReturn .error <|
    Seq.look fun s =>
      (Seq.label .Q3 (writeReg (.wrsr 1) [s.scratch.rb0])).orAbort .bus .error fun _ =>
        (Seq.label .Q4 (doPollReady fun t => t.tmo.dflt)).orReturn .error <|
          (Seq.label .Q5 (readReg .rdsr 1)).orAbort .bus .error fun v =>
            Seq.update (fun t => t.setScratch { t.scratch with vb0 := v.getD 0 0 }) <|
              Seq.look fun t =>
                if verifyBit en t.scratch.vb0 t.cfg.mQe then Seq.pure .ok
                else Seq.abort .verify .error

/-- Steps H3 to H9 of `DoHpMode`: the image is written back, verified, and the bus reinitialised twice
(42_mode_config.md R168; decision D28). -/
def hpWriteBack (en : Bool) : Seq StatusCode :=
  (Seq.label .H3 doWriteEnable).orReturn .error <|
    Seq.look fun s =>
      (Seq.label .H4
          (writeReg (.wrsr 3) [s.scratch.rb0, s.scratch.rb1, s.scratch.rb2])).orAbort .bus .error
        fun _ =>
        (Seq.label .H5 (doPollReady fun t => t.tmo.dflt)).orReturn .error <|
          (Seq.label .H6 (readReg .rdcr 2)).orAbort .bus .error fun v =>
            Seq.update
              (fun t => t.setScratch { t.scratch with vb0 := v.getD 0 0, vb1 := v.getD 1 0 }) <|
              Seq.look fun t =>
                if verifyBit en t.scratch.vb1 t.cfg.mLh then
                  (Seq.label .H8 (call .busReinit)).orAbort .bus .error fun _ =>
                    (Seq.label .H9 (call .busReinit)).orAbort .bus .error fun _ => Seq.pure .ok
                else Seq.abort .verify .error

/-- `DoHpMode(en)`, 42_mode_config.md R168: steps H0 to H2 read the three-byte image and change its last
byte. -/
def doHpMode (en : Bool) : Seq StatusCode :=
  (Seq.label .H0 (readReg .rdsr 1)).orAbort .bus .error fun b =>
    Seq.update (fun s => s.setScratch { s.scratch with rb0 := b.getD 0 0 }) <|
      (Seq.label .H1 (readReg .rdcr 2)).orAbort .bus .error fun d =>
        Seq.update
          (fun s => s.setScratch
            { s.scratch with rb1 := d.getD 0 0, rb2 := putBit en (d.getD 1 0) s.cfg.mLh }) <|
          hpWriteBack en

/-- QUAD_MODE, 42_mode_config.md R167. -/
def execQuadMode (a n : Word) (s : State) : Host.Outcome State Fault Refusal :=
  runOp 0x05 a n (Seq.label .S0 (doQuadMode (enableOf a))) s

/-- HP_MODE, 42_mode_config.md R169. -/
def execHpMode (a n : Word) (s : State) : Host.Outcome State Fault Refusal :=
  runOp 0x06 a n (Seq.label .S0 (doHpMode (enableOf a))) s

end Sys2Proof.Machine
end

