-- ==== Sys2Proof/Machine/Boundary.lean ====
section
/-!
DEFINITION. The boundary operations, 44_boundary_ops.md: READ, GET_GEOMETRY, RESET_CHIP, INIT, DEINIT.
-/

namespace Sys2Proof.Machine

/-- READ, 44_boundary_ops.md R201: one quad-read transaction, not split; BUF is written on success only.
A length beyond `BUF_SIZE` is outside the spec (93 U5, log 15). -/
def execRead (a n : Word) (s : State) : Host.Outcome State Fault Refusal :=
  if inBuf s.cfg 0 n.toNat then
    runOp 0x10 a n
      ((Seq.label .L0 (execCall (.qread a n))).orAbort .bus .error fun _ =>
        (Seq.label .L1 (rxCall n)).orAbort .bus .error fun b =>
          Seq.update (fun t => t.storeBuf 0 b) (Seq.pure .ok)) s
  else .fault .bufferRange

/-- GET_GEOMETRY, 44_boundary_ops.md R202: no call; the values are the `GEO_*` CSRs. -/
def execGetGeometry (a n : Word) (s : State) : Host.Outcome State Fault Refusal :=
  runOp 0x13 a n (Seq.pure .ok) s

/-- RESET_CHIP, 44_boundary_ops.md R206. -/
def execResetChip (a n : Word) (s : State) : Host.Outcome State Fault Refusal :=
  runOp 0x14 a n (Seq.label .S0 doResetChip) s

/-- Steps I0 to I6 of INIT, 44_boundary_ops.md R207. -/
def doInit : Seq StatusCode :=
  Seq.update (fun s => s.setInited false) <|
    (Seq.label .I1 (call .pinBind)).orAbort .bind .error fun _ =>
      (Seq.label .I2 (call .busInit)).orAbort .bus .error fun _ =>
        (Seq.label .I3 doResetChip).orReturn .notSupported <|
          (Seq.label .I4 (doQuadMode true)).orReturn .error <|
            (Seq.label .I5 (doHpMode true)).orReturn .error <|
              Seq.update (fun s => s.setInited true) (Seq.pure .ok)

/-- INIT, 44_boundary_ops.md R207. -/
def execInit (a n : Word) (s : State) : Host.Outcome State Fault Refusal :=
  runOp 0x11 a n doInit s

/-- DEINIT, 44_boundary_ops.md R209: after a failed reset the bus is not released. -/
def execDeinit (a n : Word) (s : State) : Host.Outcome State Fault Refusal :=
  runOp 0x12 a n
    (Seq.update (fun t => t.setInited false) <|
      (Seq.label .Z1 doResetChip).orReturn .notSupported <|
        (Seq.label .Z2 busRelease).andThen fun _ => Seq.pure .ok) s

end Sys2Proof.Machine
end

