-- ==== Sys2Proof/Machine/ErasePower.lean ====
section
/-!
DEFINITION. The erase and power-state sequencer, 43_erase_power.md: ERASE_BLOCK, ERASE_SECTOR,
ERASE_CHIP, SUSPEND_ERASE, RESUME_ERASE, SLEEP, WAKEUP.
-/

namespace Sys2Proof.Machine

/-- ERASE_BLOCK, 43_erase_power.md R181: the address goes out unchanged. -/
def execEraseBlock (a n : Word) (s : State) : Host.Outcome State Fault Refusal :=
  runOp 0x07 a n
    ((Seq.label .B0 doWriteEnable).orReturn .error <|
      (Seq.label .B1 (cmd (.be a))).orAbort .bus .error fun _ =>
        (Seq.label .B2 (doPollReady fun t => t.tmo.blockErase)).orReturn .error (Seq.pure .ok)) s

/-- ERASE_SECTOR, 43_erase_power.md R183: the index is validated before any call; no completion poll. -/
def execEraseSector (a n : Word) (s : State) : Host.Outcome State Fault Refusal :=
  runOp 0x08 a n
    (Seq.look fun t =>
      if sectorExists t.cfg a then
        (Seq.label .E1 doWriteEnable).orReturn .error <|
          (Seq.label .E2 (cmd (.se (sectorAddr t.cfg a)))).orAbort .bus .error fun _ => Seq.pure .ok
      else Seq.abort .range .error) s

/-- ERASE_CHIP, 43_erase_power.md R185. -/
def execEraseChip (a n : Word) (s : State) : Host.Outcome State Fault Refusal :=
  runOp 0x09 a n
    ((Seq.label .C0 doWriteEnable).orReturn .error <|
      (Seq.label .C1 (cmd .ce)).orAbort .bus .error fun _ =>
        (Seq.label .C2 (doPollReady fun t => t.tmo.chipErase)).orReturn .error (Seq.pure .ok)) s

/-- The common shape of SUSPEND_ERASE and RESUME_ERASE (43_erase_power.md R186, R187): nothing to do
unless the status is `from`; else the command, and then the status must be `to`. `ST` holds each status
read (10_state.md R24). -/
def changeEraseState (l0 l2 l3 : Label) (source target : StatusCode) (t : Txn) : Seq StatusCode :=
  (Seq.label l0 doGetStatus).andThen fun st =>
    Seq.update (fun s => s.setWork { s.work with st := st }) <|
      if st = source then
        (Seq.label l2 (cmd t)).orAbort .bus .error fun _ =>
          (Seq.label l3 doGetStatus).andThen fun st' =>
            Seq.update (fun s => s.setWork { s.work with st := st' }) <|
              if st' = target then Seq.pure .ok else Seq.abort .suspendVerify .error
      else Seq.pure .ok

/-- SUSPEND_ERASE, 43_erase_power.md R186. -/
def execSuspendErase (a n : Word) (s : State) : Host.Outcome State Fault Refusal :=
  runOp 0x0A a n (changeEraseState .U0 .U2 .U3 .busy .suspended .susp) s

/-- RESUME_ERASE, 43_erase_power.md R187. -/
def execResumeErase (a n : Word) (s : State) : Host.Outcome State Fault Refusal :=
  runOp 0x0B a n (changeEraseState .V0 .V2 .V3 .suspended .busy .resm) s

/-- SLEEP, 43_erase_power.md R188: the instruction alone, no delay, no sleep flag. -/
def execSleep (a n : Word) (s : State) : Host.Outcome State Fault Refusal :=
  runOp 0x0C a n ((Seq.label .D0 (cmd .dp)).orAbort .bus .error fun _ => Seq.pure .ok) s

/-- WAKEUP, 43_erase_power.md R189. -/
def execWakeup (a n : Word) (s : State) : Host.Outcome State Fault Refusal :=
  runOp 0x0D a n ((Seq.label .K0 (cmd .wake)).orAbort .bus .error fun _ => Seq.pure .ok) s

end Sys2Proof.Machine
end

