-- ==== Sys2Proof/Machine/Program.lean ====
section
/-!
DEFINITION. The page-bounded program algorithm, 41_program.md R151: operation WRITE.
-/

namespace Sys2Proof.Machine

/-- Steps X1 to X4 of 41_program.md R151: one chunk through write-enable, program command and completion
poll. The chunk's bytes are read from BUF at step X3, as the host has left it by then
(70_reset_and_hazards.md R264). -/
def writeChunk (k : Seq StatusCode) : Seq StatusCode :=
  (Seq.label .X1 doWriteEnable).orReturn .error <|
    Seq.look fun s =>
      (Seq.label .X2 (execCall (.pp4 s.work.cur s.work.chunk))).orAbort .bus .error fun _ =>
        Seq.look fun t =>
          (Seq.label .X3 (txCall (t.bufRead t.work.ptr.toNat t.work.chunk.toNat))).orAbort .bus .error
            fun _ => (Seq.label .X4 (doPollReady fun u => u.tmo.program)).orReturn .error k

/-- The loop X1 to X6 of 41_program.md R151, with at most `fuel` visits of X1. A configuration the spec
allows never runs out: 41_program.md R152, `m <= N` (log 29). -/
def writeLoop : Nat → Seq StatusCode
  | 0 => Seq.stuck .X1
  | fuel + 1 =>
    writeChunk <|
      Seq.update (fun s => s.setWork (s.work.advance s.cfg)) <|
        Seq.look fun s =>
          if s.work.cur = s.work.endAddr then Seq.pure .ok else writeLoop fuel

/-- Step X0, then the loop. -/
def doWrite (a n : Word) : Seq StatusCode :=
  Seq.update (fun s => s.setWork (s.work.startWrite s.cfg a n)) (writeLoop (n.toNat + 1))

/-- WRITE, 41_program.md R151. The data is `BUF[0 .. N-1]`; a length beyond `BUF_SIZE` is outside the
spec (93 U5, log 15). -/
def execWrite (a n : Word) (s : State) : Host.Outcome State Fault Refusal :=
  if inBuf s.cfg 0 n.toNat then runOp 0x04 a n (doWrite a n) s else .fault .bufferRange

end Sys2Proof.Machine
end

