-- ==== Sys2Proof/Machine/StatusPoll.lean ====
section
/-!
DEFINITION. The operations of 40_status_poll_wren.md: GET_STATUS, POLL_READY, WRITE_ENABLE.
-/

namespace Sys2Proof.Machine

/-- GET_STATUS, 40_status_poll_wren.md R131. -/
def execGetStatus (a n : Word) (s : State) : Host.Outcome State Fault Refusal :=
  runOp 0x01 a n (Seq.label .S0 doGetStatus) s

/-- POLL_READY, 40_status_poll_wren.md R134: the timeout is the operand `N`. -/
def execPollReady (a n : Word) (s : State) : Host.Outcome State Fault Refusal :=
  runOp 0x02 a n (Seq.label .S0 (doPollReady fun t => t.req.n)) s

/-- WRITE_ENABLE, 40_status_poll_wren.md R136. -/
def execWriteEnable (a n : Word) (s : State) : Host.Outcome State Fault Refusal :=
  runOp 0x03 a n (Seq.label .S0 doWriteEnable) s

end Sys2Proof.Machine
end

