-- ==== Sys2Proof/Machine/Transactions.lean ====
section
/-!
DEFINITION. The sixteen transaction templates run on their own at the executor (30_encoding.md R101 to
R116): `Exec`, then the one `Rx` or `Tx` the direction calls for (20_memory.md R71 to R73, R77 to R79).
STATUS and the registers of the block do not change: no operation runs. The answer stands at the
executor's port, and the bytes sent come from the register the template's user sends (log 18).
-/

namespace Sys2Proof.Machine

/-- One transaction at the executor. -/
def runTxn (m : Seq Answer) (s : State) : Host.Outcome State Fault Refusal := .next (m s).2

/-- A transaction with no data phase (20_memory.md R79), at the first step of a helper. -/
def runCmd (t : Txn) (s : State) : Host.Outcome State Fault Refusal := runTxn (Seq.label .a (cmd t)) s

/-- The register image `RB[0], RB[1], RB[2]` (10_state.md R27), to `n` bytes; the spec gives no byte
beyond the third (30_encoding.md R105), so those are free (log 19). -/
def imageBytes (n : Word) (s : State) : List Byte :=
  fitBytes s.env.calls n [s.scratch.rb0, s.scratch.rb1, s.scratch.rb2]

/-- T_RDSR, 30_encoding.md R101. -/
def execTRdsr (s : State) : Host.Outcome State Fault Refusal := runTxn (readReg .rdsr 1) s

/-- T_RDSCUR, 30_encoding.md R102. -/
def execTRdscur (s : State) : Host.Outcome State Fault Refusal := runTxn (readReg .rdscur 1) s

/-- T_RDCR, 30_encoding.md R103. -/
def execTRdcr (s : State) : Host.Outcome State Fault Refusal := runTxn (readReg .rdcr 2) s

/-- T_WREN, 30_encoding.md R104. -/
def execTWren (s : State) : Host.Outcome State Fault Refusal := runCmd .wren s

/-- T_WRSR(n), 30_encoding.md R105: the register image goes out. -/
def execTWrsr (n : Word) (s : State) : Host.Outcome State Fault Refusal :=
  runTxn (writeReg (.wrsr n) (imageBytes n s)) s

/-- T_PP4(a, n), 30_encoding.md R106: the bytes `BUF[PTR .. PTR+n-1]` go out (41_program.md R155). -/
def execTPp4 (a n : Word) (s : State) : Host.Outcome State Fault Refusal :=
  if inBuf s.cfg s.work.ptr n.toNat then
    runTxn (writeReg (.pp4 a n) (s.bufRead s.work.ptr.toNat n.toNat)) s
  else .fault .bufferRange

/-- T_SE(a), 30_encoding.md R107. -/
def execTSe (a : Word) (s : State) : Host.Outcome State Fault Refusal := runCmd (.se a) s

/-- T_BE(a), 30_encoding.md R108. -/
def execTBe (a : Word) (s : State) : Host.Outcome State Fault Refusal := runCmd (.be a) s

/-- T_CE, 30_encoding.md R109. -/
def execTCe (s : State) : Host.Outcome State Fault Refusal := runCmd .ce s

/-- T_SUSP, 30_encoding.md R110. -/
def execTSusp (s : State) : Host.Outcome State Fault Refusal := runCmd .susp s

/-- T_RESM, 30_encoding.md R111. -/
def execTResm (s : State) : Host.Outcome State Fault Refusal := runCmd .resm s

/-- T_DP, 30_encoding.md R112. -/
def execTDp (s : State) : Host.Outcome State Fault Refusal := runCmd .dp s

/-- T_WAKE, 30_encoding.md R113. -/
def execTWake (s : State) : Host.Outcome State Fault Refusal := runCmd .wake s

/-- T_RSTEN, 30_encoding.md R114. -/
def execTRsten (s : State) : Host.Outcome State Fault Refusal := runCmd .rsten s

/-- T_QREAD(a, n), 30_encoding.md R115. -/
def execTQread (a n : Word) (s : State) : Host.Outcome State Fault Refusal :=
  runTxn (readReg (.qread a n) n) s

/-- T_RST, 30_encoding.md R116. -/
def execTRst (s : State) : Host.Outcome State Fault Refusal := runCmd .rst s

end Sys2Proof.Machine
end

