-- ==== Sys2Proof/Machine/Dispatch.lean ====
section
/-! DEFINITION. One arm per constructor of `Instr`: the meaning of every row of spec/opcode_table.json. -/

namespace Sys2Proof.Machine

def exec (i : Instr) (s : State) : Host.Outcome State Fault Refusal :=
  match i with
  | .getStatus a n => Sys2Proof.Machine.execGetStatus a n s
  | .pollReady a n => Sys2Proof.Machine.execPollReady a n s
  | .writeEnable a n => Sys2Proof.Machine.execWriteEnable a n s
  | .write a n => Sys2Proof.Machine.execWrite a n s
  | .quadMode a n => Sys2Proof.Machine.execQuadMode a n s
  | .hpMode a n => Sys2Proof.Machine.execHpMode a n s
  | .eraseBlock a n => Sys2Proof.Machine.execEraseBlock a n s
  | .eraseSector a n => Sys2Proof.Machine.execEraseSector a n s
  | .eraseChip a n => Sys2Proof.Machine.execEraseChip a n s
  | .suspendErase a n => Sys2Proof.Machine.execSuspendErase a n s
  | .resumeErase a n => Sys2Proof.Machine.execResumeErase a n s
  | .sleep a n => Sys2Proof.Machine.execSleep a n s
  | .wakeup a n => Sys2Proof.Machine.execWakeup a n s
  | .read a n => Sys2Proof.Machine.execRead a n s
  | .init a n => Sys2Proof.Machine.execInit a n s
  | .deinit a n => Sys2Proof.Machine.execDeinit a n s
  | .getGeometry a n => Sys2Proof.Machine.execGetGeometry a n s
  | .resetChip a n => Sys2Proof.Machine.execResetChip a n s
  | .tRdsr => Sys2Proof.Machine.execTRdsr s
  | .tRdscur => Sys2Proof.Machine.execTRdscur s
  | .tRdcr => Sys2Proof.Machine.execTRdcr s
  | .tWren => Sys2Proof.Machine.execTWren s
  | .tWrsr n => Sys2Proof.Machine.execTWrsr n s
  | .tPp4 a n => Sys2Proof.Machine.execTPp4 a n s
  | .tSe a => Sys2Proof.Machine.execTSe a s
  | .tBe a => Sys2Proof.Machine.execTBe a s
  | .tCe => Sys2Proof.Machine.execTCe s
  | .tSusp => Sys2Proof.Machine.execTSusp s
  | .tResm => Sys2Proof.Machine.execTResm s
  | .tDp => Sys2Proof.Machine.execTDp s
  | .tWake => Sys2Proof.Machine.execTWake s
  | .tRsten => Sys2Proof.Machine.execTRsten s
  | .tQread a n => Sys2Proof.Machine.execTQread a n s
  | .tRst => Sys2Proof.Machine.execTRst s

end Sys2Proof.Machine
end

