-- ==== Sys2Proof/Machine/Fetch.lean ====
section
/-!
DEFINITION. What the step does around `exec`: which event at the block's ports comes next (10_state.md
R21, R28, R36), and how a word of the opcode table is placed there.
-/

namespace Sys2Proof.Machine

/-- Events that wait until `PHASE = IDLE`: requests (10_state.md R28), CSR writes (R36), and a descriptor
at the executor's port, which the block drives. The others may happen at any time. -/
def PortEvent.needsIdle : PortEvent → Bool
  | .request _ | .descriptor _ | .csrWrite _ _ => true
  | .csrRead _ | .bufWrite _ _ | .complete | .hardwareReset => false

/-- The first event that may happen now and the events that remain; one held off "is held, not lost"
(93 U1). -/
def nextEvent (idle : Bool) : List PortEvent → Option (PortEvent × List PortEvent)
  | [] => none
  | e :: es =>
    if idle || !e.needsIdle then some (e, es)
    else
      match nextEvent idle es with
      | some (f, rest) => some (f, e :: rest)
      | none => none

/-- `PHASE = IDLE`, which is also `req_ready` (10_state.md R21). -/
def State.idle (s : State) : Bool := s.phase == []

/-- An event is taken from the inbox; the `done` pulse falls (log 22). -/
def State.take (s : State) (rest : List PortEvent) : State :=
  (s.setHost { s.host with inbox := rest }).setDone false

/-- The value a CSR read gives at the read port (10_state.md R36). -/
def State.latchCsr (s : State) (index : Nat) : State :=
  s.setHost { s.host with csrData := s.readCsr index }

/-- The port event that presents a word of the opcode table: rows of up to 72 bits at the request port,
wider ones at the executor's port (log 25). -/
def tableEvent (nbits w : Nat) : PortEvent :=
  if nbits ≤ 72 then .request (BitVec.ofNat 72 (w % 2 ^ nbits))
  else .descriptor (BitVec.ofNat 101 (w % 2 ^ nbits))

end Sys2Proof.Machine
end

