-- ==== Sys2Proof/Machine/Step.lean ====
section
/-!
DEFINITION. One step of the machine: the next event at the block's ports happens. A request runs its
operation to the return (10_state.md R21: "a request is accepted when `PHASE = IDLE`; the operation runs
to its return; `STATUS` then holds its code").
-/

namespace Sys2Proof.Machine

/-- An instruction word at a port: decoded and run, a reserved code ended by ERROR (30_encoding.md R93),
an unknown descriptor refused (93 U21). With a host store beyond `BUF_SIZE` still to come the model stops
first (93 U5; log 15, 33). -/
def runPacket (p : Packet) (s : State) : Host.Outcome State Fault Refusal :=
  if storesInBuf s.cfg s.hostStores then
    match decode s.cfg p with
    | .ok i => exec i s
    | .error _ =>
      match p with
      | .request w => execReserved (reqOp w) (reqA w) (reqN w) s
      | .descriptor _ => .refused .unknownDescriptor
  else .fault .bufferRange

/-- One event happens. -/
def runEvent (e : PortEvent) (s : State) : Host.Outcome State Fault Refusal :=
  match e with
  | .request w => runPacket (.request w) s
  | .descriptor d => runPacket (.descriptor d) s
  | .csrRead index => .next (s.latchCsr index)
  | .csrWrite index v => .next (s.writeCsr index v)
  | .bufWrite off bytes =>
    if inBuf s.cfg off bytes.length then .next (s.storeBuf off.toNat bytes)
    else .fault .bufferRange
  | .complete => .next s.chipComplete
  | .hardwareReset => .next s.hardwareReset

/-- One step. With nothing that may happen, the sequencer waits: in IDLE for a request, or at a call that
is never answered. A configuration the spec does not allow is refused (93 U20). -/
def step (s : State) : Host.Outcome State Fault Refusal :=
  if s.cfg.wf then
    match nextEvent s.idle s.host.inbox with
    | none => .next (s.setDone false)
    | some (e, rest) => runEvent e (s.take rest)
  else .refused .configInvalid

/-- The state with a word of the opcode table presented as the next event at an idle block. -/
def State.withFetchWord (s : State) (nbits w : Nat) : State :=
  (s.setPhase []).setHost { s.host with inbox := tableEvent nbits w :: s.host.inbox }

end Sys2Proof.Machine
end

