-- ==== Sys2Proof/Machine/HostProgram.lean ====
section
/-!
DEFINITION. The pseudo-operations of 30_encoding.md R121 and 41_program.md R154: what the host does at
the ports for each. `WAIT_IDLE` is a loop of the host's own (R121 (d)) and has no expansion.
-/

namespace Sys2Proof.Machine

/-- `WRITEB addr, byte`: `buf[0] <- byte`, then `WRITE addr, 1` (41_program.md R154). -/
def writeB (addr : Word) (byte : Byte) : List PortEvent :=
  [.bufWrite 0 [byte], .request (packReq 0x04 addr 1)]

/-- `QUAD_ENABLE` is `QUAD_MODE 1` (30_encoding.md R121 (b)). -/
def quadEnable : List PortEvent := [.request (packReq 0x05 1 0)]

/-- `QUAD_DISABLE` is `QUAD_MODE 0`. -/
def quadDisable : List PortEvent := [.request (packReq 0x05 0 0)]

/-- `HP_ENABLE` is `HP_MODE 1`. -/
def hpEnable : List PortEvent := [.request (packReq 0x06 1 0)]

/-- `HP_DISABLE` is `HP_MODE 0`. -/
def hpDisable : List PortEvent := [.request (packReq 0x06 0 0)]

/-- `ERASE addr` is `ERASE_BLOCK addr` (30_encoding.md R121 (c)). -/
def eraseAt (addr : Word) : List PortEvent := [.request (packReq 0x07 addr 0)]

end Sys2Proof.Machine
end

