-- ==== Sys2Proof/Safety.lean ====
section
/-!
DEFINITION. What the statements speak of: the invariant of a state, and the properties of a trace the
rules of the spec give every operation (20_memory.md R65, R66, R71 to R75, 30_encoding.md R98,
60_exceptions.md R224, 70_reset_and_hazards.md R260, R275).
-/

namespace Sys2Proof.Machine

/-! ### One event -/

/-- An executor call, "a bus transaction is any executor call" (20_memory.md R66); the others are
collaborator events. -/
def Call.isExecutor : Call → Bool
  | .exec _ _ | .tx _ _ | .rx _ _ | .autoPoll _ _ _ _ => true
  | .pinBind | .busInit | .busReinit | .busRelease => false

/-- The template whose descriptor a call emits: that of an `Exec`, or of an `AutoPoll` (20_memory.md R71,
R74). -/
def Call.template? : Call → Option Txn
  | .exec t _ => some t
  | .autoPoll t _ _ _ => some t
  | .tx _ _ | .rx _ _ | .pinBind | .busInit | .busReinit | .busRelease => none

/-- A program command: "one `Exec(T_PP4(..), ..)` call" (20_memory.md R66), with its address and length. -/
def Call.programCmd? : Call → Option (Word × Word)
  | .exec (.pp4 a n) _ => some (a, n)
  | .exec _ _ | .tx _ _ | .rx _ _ | .autoPoll _ _ _ _ | .pinBind | .busInit | .busReinit
  | .busRelease => none

/-- A command that needs the write-enable latch: program, erase or register write (70 R260). -/
def txnQualifying : Txn → Bool
  | .wrsr _ | .pp4 _ _ | .se _ | .be _ | .ce => true
  | .rdsr | .rdscur | .rdcr | .wren | .susp | .resm | .dp | .wake | .rsten | .qread _ _ | .rst =>
    false

/-- An `Exec` of a qualifying command. -/
def Call.qualifying : Call → Bool
  | .exec t _ => txnQualifying t
  | .tx _ _ | .rx _ _ | .autoPoll _ _ _ _ | .pinBind | .busInit | .busReinit | .busRelease => false

/-- The contract of `AutoPoll` (20_memory.md R74): on descriptor `T_RDSR`, with one of the two predicates
and the fixed interval; "if the answer is `OK`, at least one read was made and the last byte read
satisfied `pred`". Other calls have nothing to satisfy here. -/
def Event.pollContract (c : Config) (e : Event) : Bool :=
  match e.call with
  | .autoPoll t p i _ =>
    t == .rdsr && (p == predReady c || p == predWel c) && i == c.pollInterval &&
      (match e.ans with
      | .ok bytes => (bytes.getLast?.map p.sat).getD false
      | .fail | .never => true)
  | .exec _ _ | .tx _ _ | .rx _ _ | .pinBind | .busInit | .busReinit | .busRelease => true

/-- An `Rx(n)` answered `OK` received `n` bytes (20_memory.md R73). -/
def Event.rxLength (e : Event) : Bool :=
  match e.call, e.ans with
  | .rx n _, .ok bytes => bytes.length == n.toNat
  | _, _ => true

/-- One to three labels at every call (10_state.md R25). -/
def Event.siteDepth (e : Event) : Bool := decide (1 ≤ e.site.length) && decide (e.site.length ≤ 3)

/-- What holds of every line of a trace. -/
def Event.wf (c : Config) (e : Event) : Bool := e.pollContract c && e.rxLength && e.siteDepth

/-! ### The invariant -/

/-- What every reachable state has: an allowed configuration; both memories in canonical form and inside
their sizes; at most three labels on PHASE (10_state.md R25); `done` up only in IDLE (R26); well-formed
trace lines; a cause label only with an error code in STATUS (60_exceptions.md R220, R221). -/
def State.inv (s : State) : Bool :=
  s.cfg.wf
    && Memory.wf bufBackground s.buf && Memory.within s.cfg.bufSize s.buf
    && Memory.wf flashBackground s.env.chip.mem && Memory.within s.cfg.flashSize s.env.chip.mem
    && decide (s.phase.length ≤ 3)
    && (!s.done || s.idle)
    && s.trace.all (Event.wf s.cfg)
    && (s.cause.isNone || s.status.isAbort)

/-! ### The trace of an operation -/

/-- How far write-enable has come: nothing, `T_WREN` answered, WEL confirmed. -/
inductive Arming where
  /-- Not armed. -/
  | none
  /-- The write-enable instruction was the last call. -/
  | sent
  /-- The poll for WEL was the last call and answered OK. -/
  | confirmed
deriving DecidableEq, Repr

/-- The arming after a call. -/
def Arming.next (c : Config) (m : Arming) (e : Event) : Arming :=
  match e.call, e.ans with
  | .exec .wren _, .ok _ => .sent
  | .autoPoll _ p _ _, .ok _ => if m = .sent ∧ p = predWel c then .confirmed else .none
  | _, _ => .none

/-- "Between the confirmation of WEL and the following command nothing else is sent to the chip", and no
qualifying command goes without it (70_reset_and_hazards.md R260). -/
def armedFrom (c : Config) : Arming → List Event → Bool
  | _, [] => true
  | m, e :: es => (!e.call.qualifying || m == .confirmed) && armedFrom c (m.next c e) es

/-- The data transfer that may follow a call: the descriptor of an `Exec` that answered OK. -/
def Event.openTransfer (e : Event) : Option Txn :=
  match e.call, e.ans with
  | .exec t _, .ok _ => some t
  | _, _ => none

/-- A `Tx` or `Rx` moves the bytes of the descriptor before it, in its direction (20_memory.md R71 to R73;
30_encoding.md R98). -/
def Call.fits (c : Config) (before : Option Txn) (x : Call) : Bool :=
  match x, before with
  | .tx bytes _, some t => (t.desc c).dataDir == .write && (t.desc c).dataLen.toNat == bytes.length
  | .rx n _, some t => (t.desc c).dataDir == .read && (t.desc c).dataLen == n
  | .tx _ _, none => false
  | .rx _ _, none => false
  | .exec _ _, _ | .autoPoll _ _ _ _, _ | .pinBind, _ | .busInit, _ | .busReinit, _
  | .busRelease, _ => true

/-- Every data transfer of a trace directly follows its `Exec`. -/
def pairedFrom (c : Config) : Option Txn → List Event → Bool
  | _, [] => true
  | t, e :: es => e.call.fits c t && pairedFrom c e.openTransfer es

/-- The descriptor invariant of 30_encoding.md R98, but for the data transfer that follows (`pairedFrom`).
A direction or lines code 3 has no constructor. -/
def descSound (d : Desc) : Prop :=
  (d.dataDir = .none ↔ d.dataLines = .absent) ∧ (d.dataDir = .none → d.dataLen = 0) ∧
    (d.addrBits = 0 ↔ d.addrLines = .absent)

/-- Every descriptor of a trace is well formed: `T_WRSR` of 1 or 3 bytes, `T_PP4` inside one page, `T_SE`
at a sector (20_memory.md R65; 30_encoding.md R99, R105). -/
def descriptorsOk (c : Config) (es : List Event) : Bool :=
  es.all fun e =>
    match e.call with
    | .exec t _ => t.wf c
    | .tx _ _ | .rx _ _ | .autoPoll _ _ _ _ | .pinBind | .busInit | .busReinit | .busRelease => true

/-- The number of executor calls of a trace. -/
def executorCalls (es : List Event) : Nat := (es.filter fun e => e.call.isExecutor).length

/-- The number of collaborator events of a trace. -/
def collaboratorEvents (es : List Event) : Nat := (es.filter fun e => !e.call.isExecutor).length

/-- The program commands of a trace, with address and length, in order. -/
def programCommands (es : List Event) : List (Word × Word) :=
  es.filterMap fun e => e.call.programCmd?

/-- Chunks lie end to end from an address on and cover exactly `n` bytes (41_program.md R152). -/
def coversFrom (a : Word) (n : Nat) : List (Word × Word) → Prop
  | [] => n = 0
  | (x, c) :: rest => x = a ∧ c.toNat ≤ n ∧ coversFrom (a + c) (n - c.toNat) rest

/-! ### What an operation leaves -/

/-- The calls of the trace with the PHASE stack at each (20_memory.md R66). -/
def State.lines (t : State) : List (List Label × Call) := t.trace.map fun e => (e.site, e.call)

/-- The answers of the trace. -/
def State.answers (t : State) : List Answer := t.trace.map fun e => e.ans

/-- An answer `OK`. -/
def Answer.isOk : Answer → Bool
  | .ok _ => true
  | .fail | .never => false

/-- The bytes of an answer `OK`. -/
def Answer.bytes : Answer → List Byte
  | .ok bytes => bytes
  | .fail | .never => []

/-- Byte `j` of the answer to call `i` of the trace. -/
def State.answerByte (t : State) (i j : Nat) : Byte := ((t.answers.getD i .fail).bytes).getD j 0

/-- One byte of BUF. -/
def State.bufByte (s : State) (x : Nat) : Byte := Memory.read bufBackground s.buf x

/-- BUF after the host's stores during the next `k` calls (70_reset_and_hazards.md R264; log 33): the host's
own doing, whatever the block does. -/
def State.bufAfter (s : State) (k : Nat) : Memory :=
  (s.hostStores.take k).foldl (applyStores s.cfg) s.buf

/-- The block wrote no byte of BUF: each is as the host's stores during the calls made left it, and as before
where the host stores nothing. -/
def State.bufKept (s t : State) : Prop :=
  (∀ x, t.bufByte x =
      Memory.read bufBackground (s.bufAfter (t.env.calls - s.env.calls)) x) ∧
    (s.hostStores = [] → ∀ x, t.bufByte x = s.bufByte x)

/-- The host holds `BUF[0 .. n-1]` stable: its duty in 20_memory.md R63 and 70_reset_and_hazards.md R264. -/
def State.bufStable (s : State) (n : Nat) : Prop :=
  ∀ k x, x < n → Memory.read bufBackground (s.bufAfter k) x = s.bufByte x

/-- One byte of the reference chip's array. -/
def State.flashByte (s : State) (x : Nat) : Byte := Memory.read flashBackground s.env.chip.mem x

/-- The next answers are scripted to be these. -/
def State.script (s : State) (rs : List Reply) : Prop := rs <+: s.env.replies

/-- No answer still scripted is "never": every call returns (20_memory.md R76). -/
def State.answersAll (s : State) : Prop := Reply.never ∉ s.env.replies

/-- The operation is over: idle, with its code and the `done` pulse (10_state.md R26). -/
def State.returned (t : State) (code : StatusCode) : Prop :=
  t.phase = [] ∧ t.status = code ∧ t.done = true

/-- The operation returned a code that is no abort. -/
def State.completed (t : State) (code : StatusCode) : Prop := t.returned code ∧ t.cause = none

/-- The operation was aborted for this cause (60_exceptions.md R220, R221). -/
def State.aborted (t : State) (c : Cause) (code : StatusCode) : Prop :=
  t.returned code ∧ t.cause = some c

/-- The operation stands at its last call, which is never answered: PHASE is where that call was made,
STATUS holds the previous code, and there is no `done` (10_state.md R26; 20_memory.md R76). -/
def State.hangs (s t : State) : Prop :=
  t.trace.getLast?.map (fun e => (e.ans, e.site)) = some (.never, t.phase) ∧ t.phase ≠ [] ∧
    t.status = s.status ∧ t.done = false

/-- The operation was cut short at its last call, all earlier ones having answered OK: that call answered
FAIL, and it was aborted for this cause; or that call was never answered. -/
def State.cutShort (s t : State) (c : Cause) (code : StatusCode) : Prop :=
  t.answers.dropLast.all Answer.isOk = true ∧
    ((t.answers.getLast? = some .fail ∧ t.aborted c code) ∨ s.hangs t)

/-- An operation that makes these calls in this order and returns OK: it makes all of them, all answered
OK; or it is cut short at one of them. -/
def State.straight (s t : State) (plan : List (List Label × Call)) (c : Cause) (code : StatusCode) :
    Prop :=
  t.lines <+: plan ∧
    ((t.lines = plan ∧ t.answers.all Answer.isOk = true ∧ t.completed .ok) ∨ s.cutShort t c code)

/-- The reference chip is as before, every byte of its array among it. -/
def State.chipKept (s t : State) : Prop :=
  t.env.chip = s.env.chip ∧ ∀ x, t.flashByte x = s.flashByte x

/-- A request was accepted, and what no operation writes is as before: the parameters, the timeout
registers, the host's ports (10_state.md R22, R33), and the chip where it is not the one that answers. -/
def State.latched (s t : State) (op : Byte) (a n : Word) : Prop :=
  t.req = ⟨op, a, n⟩ ∧ t.cfg = s.cfg ∧ t.tmo = s.tmo ∧ t.host = s.host ∧ t.env.mode = s.env.mode ∧
    (s.env.mode = .free → s.chipKept t)

/-- INITED, the working registers and the scratch bytes are as before, and the block wrote no byte of BUF. -/
def State.dataKept (s t : State) : Prop :=
  t.inited = s.inited ∧ t.work = s.work ∧ t.scratch = s.scratch ∧ s.bufKept t

/-! ### The calls of the subroutines, at the label their caller stands at -/

/-- `ReadReg(t, n)` (20_memory.md R77). -/
def readLines (s : State) (site : List Label) (t : Txn) (n : Word) : List (List Label × Call) :=
  [(site ++ [.a], .exec t s.tmo.dflt), (site ++ [.b], .rx n s.tmo.dflt)]

/-- `WriteReg(t, bytes)` (20_memory.md R78). -/
def writeLines (s : State) (site : List Label) (t : Txn) (bytes : List Byte) :
    List (List Label × Call) :=
  [(site ++ [.a], .exec t s.tmo.dflt), (site ++ [.b], .tx bytes s.tmo.dflt)]

/-- `Cmd(t)` (20_memory.md R79). -/
def cmdLine (s : State) (site : List Label) (t : Txn) : List Label × Call :=
  (site, .exec t s.tmo.dflt)

/-- The `AutoPoll` of `DoPollReady(tmo)` (40_status_poll_wren.md R133). -/
def readyLine (s : State) (site : List Label) (tmo : Word) : List Label × Call :=
  (site ++ [.P0], .autoPoll .rdsr (predReady s.cfg) s.cfg.pollInterval tmo)

/-- `DoWriteEnable()` (40_status_poll_wren.md R135). -/
def enableLines (s : State) (site : List Label) : List (List Label × Call) :=
  [(site ++ [.W0], .exec .wren s.tmo.dflt),
    (site ++ [.W1], .autoPoll .rdsr (predWel s.cfg) s.cfg.pollInterval s.tmo.dflt)]

/-- `DoGetStatus()`, when both registers are read (40_status_poll_wren.md R132). -/
def statusLines (s : State) (site : List Label) : List (List Label × Call) :=
  readLines s (site ++ [.G0]) .rdscur 1 ++ readLines s (site ++ [.G2]) .rdsr 1

/-- `DoResetChip()` (44_boundary_ops.md R205). -/
def resetLines (s : State) (site : List Label) : List (List Label × Call) :=
  [cmdLine s (site ++ [.T0]) .rsten, cmdLine s (site ++ [.T1]) .rst,
    readyLine s (site ++ [.T2]) s.tmo.dflt]

/-- `DoQuadMode(en)` on a status register read as `b` (42_mode_config.md R166). -/
def quadLines (s : State) (site : List Label) (en : Bool) (b : Byte) : List (List Label × Call) :=
  readLines s (site ++ [.Q0]) .rdsr 1 ++ enableLines s (site ++ [.Q2])
    ++ writeLines s (site ++ [.Q3]) (.wrsr 1) [putBit en b s.cfg.mQe]
    ++ [readyLine s (site ++ [.Q4]) s.tmo.dflt] ++ readLines s (site ++ [.Q5]) .rdsr 1

/-- `DoHpMode(en)` up to its verify, on an image read as `b0`, `b1`, `b2` (42_mode_config.md R168). -/
def hpLines (s : State) (site : List Label) (en : Bool) (b0 b1 b2 : Byte) :
    List (List Label × Call) :=
  readLines s (site ++ [.H0]) .rdsr 1 ++ readLines s (site ++ [.H1]) .rdcr 2
    ++ enableLines s (site ++ [.H3])
    ++ writeLines s (site ++ [.H4]) (.wrsr 3) [b0, b1, putBit en b2 s.cfg.mLh]
    ++ [readyLine s (site ++ [.H5]) s.tmo.dflt] ++ readLines s (site ++ [.H6]) .rdcr 2

/-- The two reinitialisations that end `DoHpMode` (42_mode_config.md R168). -/
def reinitLines (site : List Label) : List (List Label × Call) :=
  [(site ++ [.H8], .busReinit), (site ++ [.H9], .busReinit)]

/-- INIT when everything answers OK, on a chip whose reads gave `b`, then the image `b0`, `b1`, `b2`
(44_boundary_ops.md R207): two events, 23 calls, two events. -/
def initLines (s : State) (b b0 b1 b2 : Byte) : List (List Label × Call) :=
  [([.I1], .pinBind), ([.I2], .busInit)] ++ resetLines s [.I3] ++ quadLines s [.I4] true b
    ++ hpLines s [.I5] true b0 b1 b2 ++ reinitLines [.I5]

/-- What one `ReadReg` of one byte got from the answers to come, and the answers it leaves: no byte after a
FAIL (20_memory.md R77). None where the answers end before it does. -/
def readOf : List Answer → Option (Option Byte × List Answer)
  | .fail :: rest => some (none, rest)
  | .ok _ :: .fail :: rest => some (none, rest)
  | .ok _ :: .ok bytes :: rest => some (some (bytes.getD 0 0), rest)
  | _ => none

/-- What one `DoGetStatus()` decides from the answers to come, and the answers it leaves
(40_status_poll_wren.md R132): a failed read is ERROR, fail bits come before suspend bits, and SR is read
only when neither is set. None where the answers end before it does. -/
def statusOf (c : Config) (answers : List Answer) : Option (StatusCode × List Answer) :=
  match readOf answers with
  | none => none
  | some (none, rest) => some (.error, rest)
  | some (some scur, rest) =>
    match decode1 c scur with
    | some code => some (code, rest)
    | none =>
      match readOf rest with
      | none => none
      | some (none, rest') => some (.error, rest')
      | some (some sr, rest') => some (decode2 c sr, rest')

/-- The calls of SUSPEND_ERASE or RESUME_ERASE that found its source status after `k` calls
(43_erase_power.md R186, R187). -/
def eraseStateLines (s : State) (l0 l2 l3 : Label) (k : Nat) (command : Txn) :
    List (List Label × Call) :=
  (statusLines s [l0]).take k ++ cmdLine s [l2] command :: statusLines s [l3]

/-- SUSPEND_ERASE or RESUME_ERASE ended, by the answers it got (43_erase_power.md R186, R187): `source` is
the status with something to do, seen after `k` calls; `target` the status the verify asks for. -/
def State.changedErase (s t : State) (l0 l2 l3 : Label) (source target : StatusCode) (k : Nat)
    (command : Txn) : Prop :=
  ∃ st rest, statusOf s.cfg t.answers = some (st, rest) ∧
    if st = source then
      t.lines <+: eraseStateLines s l0 l2 l3 k command ∧
        match rest with
        | [] => False
        | .ok _ :: rest' =>
          ∃ st', statusOf s.cfg rest' = some (st', []) ∧ t.work.st = st' ∧
            if st' = target then t.completed .ok else t.aborted .suspendVerify .error
        | r :: rest' => r = .fail ∧ rest' = [] ∧ t.work.st = st ∧ t.aborted .bus .error
    else
      t.lines <+: statusLines s [l0] ∧ rest = [] ∧ t.work.st = st ∧ t.completed .ok

/-- SUSPEND_ERASE or RESUME_ERASE stands at a call never answered, all earlier ones having answered OK:
inside the first status read, with `ST` untouched; or at the command or inside the second status read,
with the source status in `ST`. SR is read only where SCUR decides nothing. -/
def State.hungErase (s t : State) (l0 l2 l3 : Label) (source : StatusCode) (k : Nat)
    (command : Txn) : Prop :=
  s.hangs t ∧ t.answers.dropLast.all Answer.isOk = true ∧
    (t.lines <+: statusLines s [l0] ∧ t.work = s.work ∧
        (2 < t.trace.length → decode1 s.cfg (t.answerByte 1 0) = none) ∨
      t.lines <+: eraseStateLines s l0 l2 l3 k command ∧ k < t.trace.length ∧
        (∃ rest, statusOf s.cfg t.answers = some (source, rest)) ∧ t.work.st = source ∧
        (k + 3 < t.trace.length → decode1 s.cfg (t.answerByte (k + 2) 0) = none))

/-! ### The chunks of WRITE -/

/-- The chunks of a write of `n` bytes at `a` on natural numbers (41_program.md R152): fill the page, then
whole pages, then the tail. Addresses are taken modulo 2^32. -/
def chunkPlan (p : Nat) : Nat → Nat → Nat → List (Nat × Nat)
  | 0, _, _ => []
  | fuel + 1, a, n =>
    let c := min (p - a % p) n
    (a, c) :: if n ≤ c then [] else chunkPlan p fuel ((a + c) % 2 ^ 32) (n - c)

/-- The number of program commands, 41_program.md R152. -/
def chunkCount (p a n : Nat) : Nat :=
  if n ≤ p - a % p then 1 else 1 + (n - (p - a % p) + p - 1) / p

/-- The number of the chunk that holds byte `j` of a write at `a` (41_program.md R152). -/
def chunkIndex (p a j : Nat) : Nat :=
  if j < p - a % p then 0 else 1 + (j - (p - a % p)) / p

/-- BUF as chunk `k` of WRITE finds it at step X3, after its first three calls and the five of each chunk
before it (70_reset_and_hazards.md R264). -/
def State.bufAtChunk (s : State) (k : Nat) : Memory := s.bufAfter (5 * k + 3)

/-- The calls of chunk `k` of WRITE (41_program.md R151, steps X1 to X4), of the address and length given,
whose data stands at `BUF[ptr]`. -/
def chunkLines (s : State) (k ptr : Nat) (chunk : Nat × Nat) : List (List Label × Call) :=
  enableLines s [.X1]
    ++ [([.X2], .exec (.pp4 (BitVec.ofNat 32 chunk.1) (BitVec.ofNat 32 chunk.2)) s.tmo.dflt),
      ([.X3], .tx (Memory.readBytes bufBackground (s.bufAtChunk k) ptr chunk.2) s.tmo.dflt),
      readyLine s [.X4] s.tmo.program]

/-- The calls of the chunks from number `k` on, whose data lies end to end in BUF (41_program.md R155). -/
def chunksLines (s : State) : Nat → Nat → List (Nat × Nat) → List (List Label × Call)
  | _, _, [] => []
  | k, ptr, c :: cs => chunkLines s k ptr c ++ chunksLines s (k + 1) (ptr + c.2) cs

/-- The calls of WRITE when every one answers OK (41_program.md R151). -/
def programLines (s : State) (a n : Word) : List (List Label × Call) :=
  chunksLines s 0 0 (chunkPlan s.cfg.pageSize (n.toNat + 1) a.toNat n.toNat)

/-- The bytes the `Tx` calls of a trace sent, in order. -/
def sentBytes (es : List Event) : List Byte :=
  es.flatMap fun e =>
    match e.call with
    | .tx bytes _ => bytes
    | .exec _ _ | .rx _ _ | .autoPoll _ _ _ _ | .pinBind | .busInit | .busReinit | .busRelease => []

/-! ### A transaction run alone -/

/-- A transaction ran alone at the executor with these calls (20_memory.md R71 to R73, R77 to R79): its
lines follow the trace, each earlier one answered OK; the last answer stands at the executor's port; all
calls were made and answered OK, or the last one failed, or it is never answered and PHASE stands there.
No register of the block changed. -/
def State.ranTxn (s t : State) (plan : List (List Label × Call)) : Prop :=
  (∃ es : List Event, es ≠ [] ∧ t.trace = s.trace ++ es ∧
    es.map (fun e => (e.site, e.call)) <+: plan ∧
    es.dropLast.all (fun e => e.ans.isOk) = true ∧
    es.getLast?.map (fun e => e.ans) = some t.env.lastAnswer ∧
    ((es.map (fun e => (e.site, e.call)) = plan ∧ t.env.lastAnswer.isOk = true ∧
        t.phase = s.phase) ∨
      (t.env.lastAnswer = .fail ∧ t.phase = s.phase) ∨
      (t.env.lastAnswer = .never ∧ es.getLast?.map (fun e => e.site) = some t.phase))) ∧
  t.cfg = s.cfg ∧ t.status = s.status ∧ t.done = s.done ∧ t.req = s.req ∧ t.tmo = s.tmo ∧
    t.host = s.host ∧ t.cause = s.cause ∧ s.dataKept t

/-! ### Tables of the spec over the operations -/

/-- The bytes of BUF an instruction reaches exist (20_memory.md R63; 93 U5). -/
def bufInRange (s : State) : Instr → Bool
  | .write _ n => inBuf s.cfg 0 n.toNat
  | .read _ n => inBuf s.cfg 0 n.toNat
  | .tPp4 _ n => inBuf s.cfg s.work.ptr n.toNat
  | .getStatus _ _ | .pollReady _ _ | .writeEnable _ _ | .quadMode _ _ | .hpMode _ _
  | .eraseBlock _ _ | .eraseSector _ _ | .eraseChip _ _ | .suspendErase _ _ | .resumeErase _ _
  | .sleep _ _ | .wakeup _ _ | .init _ _ | .deinit _ _ | .getGeometry _ _ | .resetChip _ _
  | .tRdsr | .tRdscur | .tRdcr | .tWrsr _ | .tQread _ _ | .tWren | .tSe _ | .tBe _ | .tCe | .tSusp
  | .tResm | .tDp | .tWake | .tRsten | .tRst => true

/-- The bytes of the reference chip's array an instruction may change: the bytes its program commands
send, the sector or block its erase names, or all (20_memory.md R80). `es` is the trace. -/
def mayTouchFlash (c : Config) (es : List Event) (i : Instr) (x : Nat) : Prop :=
  match i with
  | .write _ _ => ∃ p ∈ programCommands es, ∃ j < p.2.toNat, x = flashByteAddr c p.1 j
  | .tPp4 a n => ∃ j < n.toNat, x = flashByteAddr c a j
  | .eraseSector a _ =>
    flashAddr c (sectorAddr c a) / c.sectorSize * c.sectorSize ≤ x ∧
      x < flashAddr c (sectorAddr c a) / c.sectorSize * c.sectorSize + c.sectorSize
  | .tSe a =>
    flashAddr c a / c.sectorSize * c.sectorSize ≤ x ∧
      x < flashAddr c a / c.sectorSize * c.sectorSize + c.sectorSize
  | .eraseBlock a _ | .tBe a =>
    flashAddr c a / c.blockSize * c.blockSize ≤ x ∧
      x < flashAddr c a / c.blockSize * c.blockSize + c.blockSize
  | .eraseChip _ _ | .tCe => True
  | .getStatus _ _ | .pollReady _ _ | .writeEnable _ _ | .quadMode _ _ | .hpMode _ _
  | .suspendErase _ _ | .resumeErase _ _ | .sleep _ _ | .wakeup _ _ | .read _ _ | .init _ _
  | .deinit _ _ | .getGeometry _ _ | .resetChip _ _ | .tRdsr | .tRdscur | .tRdcr | .tWrsr _
  | .tQread _ _ | .tWren | .tSusp | .tResm | .tDp | .tWake | .tRsten | .tRst => False

/-- The codes an operation can return, 10_state.md R30: BUSY and SUSPENDED by GET_STATUS only,
NOT_SUPPORTED by RESET_CHIP, INIT and DEINIT only, ERROR by every one but GET_GEOMETRY. -/
def mayReturn (i : Instr) (code : StatusCode) : Bool :=
  match i, code with
  | _, .ok => true
  | .getStatus _ _, .busy => true
  | .getStatus _ _, .suspended => true
  | .resetChip _ _, .notSupported => true
  | .init _ _, .notSupported => true
  | .deinit _ _, .notSupported => true
  | .getGeometry _ _, .error => false
  | _, .error => true
  | _, _ => false

/-- The causes an operation can raise, 60_exceptions.md R221. -/
def mayRaise (i : Instr) (c : Cause) : Bool :=
  match i, c with
  | .getStatus _ _, .chipFail => true
  | .eraseSector _ _, .range => true
  | .quadMode _ _, .verify => true
  | .hpMode _ _, .verify => true
  | .init _ _, .verify => true
  | .suspendErase _ _, .suspendVerify => true
  | .resumeErase _ _, .suspendVerify => true
  | .init _ _, .bind => true
  | .resetChip _ _, .reset => true
  | .init _ _, .reset => true
  | .deinit _ _, .reset => true
  | .getGeometry _ _, .bus => false
  | .resetChip _ _, .bus => false
  | .deinit _ _, .bus => false
  | _, .bus => true
  | _, _ => false

/-- The most executor calls an operation makes, the table of 70_reset_and_hazards.md R275; WRITE has no
fixed bound. -/
def callBound : Instr → Option Nat
  | .getStatus _ _ => some 4
  | .pollReady _ _ => some 1
  | .writeEnable _ _ => some 2
  | .write _ _ => none
  | .quadMode _ _ => some 9
  | .hpMode _ _ => some 11
  | .eraseBlock _ _ => some 4
  | .eraseSector _ _ => some 3
  | .eraseChip _ _ => some 4
  | .suspendErase _ _ => some 9
  | .resumeErase _ _ => some 9
  | .sleep _ _ => some 1
  | .wakeup _ _ => some 1
  | .read _ _ => some 2
  | .init _ _ => some 23
  | .deinit _ _ => some 3
  | .getGeometry _ _ => some 0
  | .resetChip _ _ => some 3
  | .tRdsr | .tRdscur | .tRdcr | .tWrsr _ | .tPp4 _ _ | .tQread _ _ => some 2
  | .tWren | .tSe _ | .tBe _ | .tCe | .tSusp | .tResm | .tDp | .tWake | .tRsten | .tRst => some 1

/-- The fewest executor calls on any path of an operation, the table of 70_reset_and_hazards.md R275. -/
def callFloor : Instr → Nat
  | .eraseSector _ _ | .init _ _ | .getGeometry _ _ => 0
  | .getStatus _ _ | .pollReady _ _ | .writeEnable _ _ | .write _ _ | .quadMode _ _ | .hpMode _ _
  | .eraseBlock _ _ | .eraseChip _ _ | .suspendErase _ _ | .resumeErase _ _ | .sleep _ _
  | .wakeup _ _ | .read _ _ | .deinit _ _ | .resetChip _ _ => 1
  | .tRdsr | .tRdscur | .tRdcr | .tWrsr _ | .tPp4 _ _ | .tQread _ _ | .tWren | .tSe _ | .tBe _
  | .tCe | .tSusp | .tResm | .tDp | .tWake | .tRsten | .tRst => 1

/-- The fewest and most collaborator events of an operation, the table of 70_reset_and_hazards.md R275. -/
def eventBounds : Instr → Nat × Nat
  | .hpMode _ _ => (0, 2)
  | .init _ _ => (1, 4)
  | .deinit _ _ => (0, 1)
  | .getStatus _ _ | .pollReady _ _ | .writeEnable _ _ | .write _ _ | .quadMode _ _
  | .eraseBlock _ _ | .eraseSector _ _ | .eraseChip _ _ | .suspendErase _ _ | .resumeErase _ _
  | .sleep _ _ | .wakeup _ _ | .read _ _ | .getGeometry _ _ | .resetChip _ _ => (0, 0)
  | .tRdsr | .tRdscur | .tRdcr | .tWrsr _ | .tPp4 _ _ | .tQread _ _ | .tWren | .tSe _ | .tBe _
  | .tCe | .tSusp | .tResm | .tDp | .tWake | .tRsten | .tRst => (0, 0)

/-- The timeout of the `AutoPoll` of `DoPollReady` in each operation, 20_memory.md R75. -/
def readyTimeout (s : State) (i : Instr) : Word :=
  match i with
  | .pollReady _ n => n
  | .write _ _ => s.tmo.program
  | .eraseBlock _ _ => s.tmo.blockErase
  | .eraseChip _ _ => s.tmo.chipErase
  | .getStatus _ _ | .writeEnable _ _ | .quadMode _ _ | .hpMode _ _ | .eraseSector _ _
  | .suspendErase _ _ | .resumeErase _ _ | .sleep _ _ | .wakeup _ _ | .read _ _ | .init _ _
  | .deinit _ _ | .getGeometry _ _ | .resetChip _ _ => s.tmo.dflt
  | .tRdsr | .tRdscur | .tRdcr | .tWrsr _ | .tPp4 _ _ | .tQread _ _ | .tWren | .tSe _ | .tBe _
  | .tCe | .tSusp | .tResm | .tDp | .tWake | .tRsten | .tRst => s.tmo.dflt

/-- Every call of a trace takes the timeout class of 20_memory.md R75: `TMO_DEFAULT`, but for the
completion poll, which takes `ready`. -/
def timeoutsOk (c : Config) (dflt ready : Word) (es : List Event) : Bool :=
  es.all fun e =>
    match e.call with
    | .exec _ tmo => tmo == dflt
    | .tx _ tmo => tmo == dflt
    | .rx _ tmo => tmo == dflt
    | .autoPoll _ p _ tmo => if p = predReady c then tmo == ready else tmo == dflt
    | .pinBind | .busInit | .busReinit | .busRelease => true

/-! ### The reference chip -/

/-- The reference chip answers, and nothing is scripted: every call answers of itself, and the chip ends no
cycle on its own between two calls (log 32). -/
def State.onChip (s : State) : Prop :=
  s.env.mode = .refchip ∧ s.env.replies = [] ∧ s.env.completions = []

/-- A chip that is awake with no cycle running (43_erase_power.md R180, "ready"). -/
def Chip.ready (k : Chip) (c : Config) : Prop := k.dpd = false ∧ anySet k.sr c.mWip = false

/-- The three fields of SR are different bits (10_state.md R41 gives them three meanings). -/
def srDistinct (c : Config) : Prop := [c.mWip, c.mWel, c.mQe].Nodup

end Sys2Proof.Machine
end

