-- ==== Sys2Proof/Certificates/Slice0/Obligations.lean ====
section
/-!
DEFINITION. The statements about the model, for the provers. An operation is accepted in IDLE (10_state.md
R21), so a statement about one has the premise `s.phase = []`; nothing else is assumed of the state unless
it says so. `s.script rs` says which answers the environment will give, so it is a premise on the state.
`s.bufKept t`, a part of `s.dataKept t` and of `s.ranTxn t`, says that the block wrote no byte of BUF: each is
as the host's own stores during the calls left it (log 33), and as before where the host stores nothing.
-/

open Sys2Proof Sys2Proof.Machine

/-! ### Encodings -/

/-- Decoding the word of an instruction gives the instruction back, at every value of every operand, when
the sixteen opcodes are different (30_encoding.md R100: "the sixteen being distinguishable by name"). -/
def Obligations.DecodeOfEncode : Prop :=
  ∀ (c : Config) (i : Instr), c.opcodesDistinct = true → decode c (encode c i) = .ok i

/-- A word that decodes is the word of the instruction it decodes to: no bit of either format is dropped. -/
def Obligations.EncodeOfDecode : Prop :=
  ∀ (c : Config) (p : Packet) (i : Instr), decode c p = .ok i → encode c i = p

/-- 30_encoding.md R91: the eighteen operation codes, matched on all 8 bits; every other value is
reserved. -/
def Obligations.AssignedOperationCodes : Prop :=
  ∀ a n : Word,
    decodeReq (packReq 0x01 a n) = .ok (.getStatus a n) ∧
    decodeReq (packReq 0x02 a n) = .ok (.pollReady a n) ∧
    decodeReq (packReq 0x03 a n) = .ok (.writeEnable a n) ∧
    decodeReq (packReq 0x04 a n) = .ok (.write a n) ∧
    decodeReq (packReq 0x05 a n) = .ok (.quadMode a n) ∧
    decodeReq (packReq 0x06 a n) = .ok (.hpMode a n) ∧
    decodeReq (packReq 0x07 a n) = .ok (.eraseBlock a n) ∧
    decodeReq (packReq 0x08 a n) = .ok (.eraseSector a n) ∧
    decodeReq (packReq 0x09 a n) = .ok (.eraseChip a n) ∧
    decodeReq (packReq 0x0A a n) = .ok (.suspendErase a n) ∧
    decodeReq (packReq 0x0B a n) = .ok (.resumeErase a n) ∧
    decodeReq (packReq 0x0C a n) = .ok (.sleep a n) ∧
    decodeReq (packReq 0x0D a n) = .ok (.wakeup a n) ∧
    decodeReq (packReq 0x10 a n) = .ok (.read a n) ∧
    decodeReq (packReq 0x11 a n) = .ok (.init a n) ∧
    decodeReq (packReq 0x12 a n) = .ok (.deinit a n) ∧
    decodeReq (packReq 0x13 a n) = .ok (.getGeometry a n) ∧
    decodeReq (packReq 0x14 a n) = .ok (.resetChip a n) ∧
    ∀ op : Byte,
      op ∉ ([0x01, 0x02, 0x03, 0x04, 0x05, 0x06, 0x07, 0x08, 0x09, 0x0A, 0x0B, 0x0C, 0x0D, 0x10,
        0x11, 0x12, 0x13, 0x14] : List Byte) →
      decodeReq (packReq op a n) = .error (.reservedOp op)

/-- Words the spec writes out (95_test_vectors.md part 2.8) decode to what it says they are. -/
def Obligations.WorkedEncodingsDecode : Prop :=
  decodeTableWord 72 0x00000020000000F004 = some (.write 0xF0 32) ∧
  decodeTableWord 72 0x000013880000000002 = some (.pollReady 0 5000) ∧
  decodeTableWord 72 0x000000000000000508 = some (.eraseSector 5 0) ∧
  decodeTableWord 101 0x0000000214000260000003C138 = some (.tPp4 0xF0 16) ∧
  decodeTableWord 101 0x00000000000001600001400120 = some (.tSe 0x5000) ∧
  decodeTableWord 101 0x00000000924AAA6000000401EB = some (.tQread 0x100 4) ∧
  decodeTableWord 101 0x000000006C0000000000000101 = some (.tWrsr 3)

/-- 30_encoding.md R98: the descriptor invariant holds of every descriptor an operation emits, by an `Exec`
or an `AutoPoll` (R101), and the `Tx` or `Rx` after it moves exactly its bytes in its direction. -/
def Obligations.EmittedDescriptorsKeepTheirInvariant : Prop :=
  ∀ (i : Instr) (s t : State), i.txn? = none → s.cfg.wf = true → s.phase = [] →
    exec i s = .next t →
    (∀ e ∈ t.trace, ∀ u, e.call.template? = some u → descSound (u.desc s.cfg)) ∧
      pairedFrom s.cfg none t.trace = true

/-! ### The step and the ports -/

/-- A step whose next event is a word that decodes runs exactly that instruction, on the state with the
event taken from the inbox and the done pulse down. The host's stores to come stay inside BUF, or the model
stops (`BufferStoresAndBounds`). -/
def Obligations.StepRunsDecodedInstruction : Prop :=
  ∀ (s : State) (i : Instr) (rest : List PortEvent), s.cfg.wf = true → s.phase = [] →
    storesInBuf s.cfg s.hostStores = true →
    (∀ w : BitVec 72, s.host.inbox = .request w :: rest → decode s.cfg (.request w) = .ok i →
      step s = exec i (s.take rest)) ∧
    (∀ d : BitVec 101, s.host.inbox = .descriptor d :: rest →
      decode s.cfg (.descriptor d) = .ok i → step s = exec i (s.take rest)) ∧
    s.take rest = { s with host := ⟨rest, s.host.csrData⟩, done := false }

/-- 30_encoding.md R93: a reserved code is accepted like any other, makes no call and returns ERROR. -/
def Obligations.ReservedCodeReturnsError : Prop :=
  ∀ (s : State) (w : BitVec 72) (rest : List PortEvent), s.cfg.wf = true → s.phase = [] →
    storesInBuf s.cfg s.hostStores = true → s.host.inbox = .request w :: rest →
    reqOp w ∉ ([0x01, 0x02, 0x03, 0x04, 0x05, 0x06, 0x07, 0x08, 0x09, 0x0A, 0x0B, 0x0C, 0x0D, 0x10,
      0x11, 0x12, 0x13, 0x14] : List Byte) →
    ∃ t, step s = .next t ∧ t.aborted .reservedOp .error ∧ t.trace = [] ∧ t.env = s.env ∧
      t.req = ⟨reqOp w, reqA w, reqN w⟩ ∧ t.host.inbox = rest ∧ t.tmo = s.tmo ∧ s.dataKept t

/-- Requests, descriptors and CSR writes that arrive while an operation stands at a call wait, in their
order, and nothing of the operation changes; only a hardware reset ends it. In IDLE the first event
happens (10_state.md R28, R36). -/
def Obligations.BusyBlockHoldsRequests : Prop :=
  (∀ s t : State, s.cfg.wf = true → s.phase ≠ [] → step s = .next t →
    t.host.inbox.filter PortEvent.needsIdle = s.host.inbox.filter PortEvent.needsIdle ∧
    ((∃ rest, nextEvent false s.host.inbox = some (.hardwareReset, rest)) ∨
      (t.phase = s.phase ∧ t.status = s.status ∧ t.req = s.req ∧ t.work = s.work ∧
        t.scratch = s.scratch ∧ t.tmo = s.tmo ∧ t.trace = s.trace ∧ t.inited = s.inited))) ∧
  (∀ (s : State) (e : PortEvent) (rest : List PortEvent), s.cfg.wf = true → s.phase = [] →
    s.host.inbox = e :: rest → step s = runEvent e (s.take rest))

/-- 10_state.md R32, R34, R35, R36: what each CSR index reads, at any time and without a side effect, and
what a write does, in IDLE; a write while an operation runs is held. The inbox, the field that keeps the
value read and the falling of `done` are the model's own (log 21, 26, 22); that the geometry registers but
`GEO_FLASH_SIZE` read modulo 2^32 is its reading (log 27). -/
def Obligations.CsrMapAndAccess : Prop :=
  (∀ (s : State) (k : Nat) (rest : List PortEvent), s.cfg.wf = true →
    s.host.inbox = .csrRead k :: rest →
    ∃ v, step s = .next { s with host := ⟨rest, v⟩, done := false } ∧
      (k = 0x00 → v = s.tmo.dflt) ∧ (k = 0x01 → v = s.tmo.program) ∧
      (k = 0x02 → v = s.tmo.blockErase) ∧ (k = 0x03 → v = s.tmo.chipErase) ∧
      (k = 0x04 → v.toNat = s.status.code.toNat) ∧
      (k = 0x05 → v.toNat = (if s.phase = [] then 0 else 1) + (if s.inited then 2 else 0)) ∧
      (k = 0x08 → v.toNat = s.cfg.flashSize % 2 ^ 32) ∧
      (k = 0x09 → v.toNat = s.cfg.sectorSize % 2 ^ 32) ∧
      (k = 0x0A → v.toNat = s.cfg.sectorCount % 2 ^ 32) ∧
      (k = 0x0B → v.toNat = s.cfg.pageSize) ∧
      (k = 0x0C → v.toNat = s.cfg.pageCount % 2 ^ 32) ∧
      (k = 0x06 ∨ k = 0x07 ∨ 0x0D ≤ k → v = 0)) ∧
  (∀ (s : State) (k : Nat) (v : Word) (rest : List PortEvent), s.cfg.wf = true →
    s.host.inbox = .csrWrite k v :: rest →
    (s.phase = [] →
      ∃ m, step s = .next { s with host := ⟨rest, s.host.csrData⟩, done := false, tmo := m } ∧
        m.dflt = (if k = 0x00 then v else s.tmo.dflt) ∧
        m.program = (if k = 0x01 then v else s.tmo.program) ∧
        m.blockErase = (if k = 0x02 then v else s.tmo.blockErase) ∧
        m.chipErase = (if k = 0x03 then v else s.tmo.chipErase)) ∧
    (s.phase ≠ [] → rest = [] → step s = .next { s with done := false }))

/-- 10_state.md R50: the values the spec gives for reset, which the parameters are at their defaults. -/
def Obligations.ResetState : Prop :=
  State.reset.phase = [] ∧ State.reset.status = .ok ∧ State.reset.inited = false ∧
    State.reset.done = false ∧ State.reset.tmo.dflt = State.reset.cfg.tmoDefaultRst ∧
    State.reset.tmo.program = State.reset.cfg.tmoProgramRst ∧
    State.reset.tmo.blockErase = State.reset.cfg.tmoBlockEraseRst ∧
    State.reset.tmo.chipErase = State.reset.cfg.tmoChipEraseRst ∧
    State.reset.cfg = Config.default

/-- 70_reset_and_hazards.md R250: a hardware reset, in IDLE or in the middle of an operation, gives the
registers their reset values, makes no call, raises no done pulse, and leaves the chip, BUF and the rest
of the environment. -/
def Obligations.HardwareResetAbandonsOperation : Prop :=
  ∀ (s : State) (rest : List PortEvent), s.cfg.wf = true →
    nextEvent s.idle s.host.inbox = some (.hardwareReset, rest) →
    ∃ t, step s = .next t ∧ t.phase = [] ∧ t.status = .ok ∧ t.inited = false ∧ t.done = false ∧
      t.tmo = ⟨s.cfg.tmoDefaultRst, s.cfg.tmoProgramRst, s.cfg.tmoBlockEraseRst,
        s.cfg.tmoChipEraseRst⟩ ∧
      t.cfg = s.cfg ∧ t.trace = s.trace ∧ t.env = s.env ∧ t.buf = s.buf ∧ t.host.inbox = rest

/-- The invariant `State.inv` holds right after reset. -/
def Obligations.InvariantAtReset : Prop := State.reset.inv = true

/-- Every step keeps the invariant `State.inv`: both memories in canonical form and inside their sizes, at
most three labels on PHASE, the done pulse only in IDLE, well-formed trace lines, a cause label only with
an error code. -/
def Obligations.StepKeepsInvariant : Prop :=
  ∀ s t : State, s.inv = true → step s = .next t → t.inv = true

/-- STATUS changes only in the step in which an operation returns, which raises done and leaves IDLE, or
at a hardware reset (10_state.md R26). -/
def Obligations.StatusChangesOnlyAtReturn : Prop :=
  ∀ s t : State, step s = .next t →
    (∃ rest, nextEvent s.idle s.host.inbox = some (.hardwareReset, rest)) ∨
      ((t.done = true → t.phase = []) ∧ (t.done = false → t.status = s.status))

/-- The host's stores to BUF put the bytes where the spec says and nothing else changes; a store that
reaches an offset beyond BUF_SIZE stops the model, as do WRITE, READ and a lone T_PP4, and a request or a
descriptor while such a store is still to come during its calls (the model's choice, log 15, 33: 20_memory.md
R63 puts such an offset outside the spec). -/
def Obligations.BufferStoresAndBounds : Prop :=
  (∀ (s : State) (off : Word) (bytes : List Byte) (rest : List PortEvent), s.inv = true →
    s.host.inbox = .bufWrite off bytes :: rest →
    if off.toNat + bytes.length ≤ s.cfg.bufSize then
      ∃ b, step s = .next { s with host := ⟨rest, s.host.csrData⟩, done := false, buf := b } ∧
        (∀ j, j < bytes.length → Memory.read bufBackground b (off.toNat + j) = bytes.getD j 0) ∧
        (∀ x, x < off.toNat ∨ off.toNat + bytes.length ≤ x →
          Memory.read bufBackground b x = s.bufByte x)
    else step s = .fault .bufferRange) ∧
  (∀ (s : State) (a n : Word), s.cfg.bufSize < n.toNat →
    exec (.write a n) s = .fault .bufferRange ∧ exec (.read a n) s = .fault .bufferRange) ∧
  (∀ (s : State) (a n : Word), s.cfg.bufSize < s.work.ptr.toNat + n.toNat →
    exec (.tPp4 a n) s = .fault .bufferRange) ∧
  (∀ (s : State) (e : PortEvent) (rest : List PortEvent), s.cfg.wf = true → s.phase = [] →
    s.host.inbox = e :: rest → (∃ w, e = .request w) ∨ (∃ d, e = .descriptor d) →
    (∃ bs ∈ s.hostStores, ∃ b ∈ bs, s.cfg.bufSize < b.off.toNat + b.bytes.length) →
    step s = .fault .bufferRange)

/-! ### Decoding the chip's registers -/

/-- The masked-bit wait loop of 20_memory.md R74 answers OK exactly when a byte satisfies the predicate
before the reads end, having read no byte after the first that does; else it answers FAIL. -/
def Obligations.WaitLoopStopsAtFirstMatch : Prop :=
  ∀ (p : Pred) (bytes : List Byte),
    (∀ seen, waitLoop p bytes = .ok seen ↔
      ∃ before v after, bytes = before ++ v :: after ∧ seen = before ++ [v] ∧
        (∀ b ∈ before, b &&& p.mask ≠ p.want) ∧ v &&& p.mask = p.want) ∧
    (waitLoop p bytes = .fail ↔ ∀ b ∈ bytes, b &&& p.mask ≠ p.want)

/-- 40_status_poll_wren.md R130: fail bits first, then suspend bits, else the write-in-progress bit
decides; no other bit of either byte matters. -/
def Obligations.StatusDecoderReadsNamedBits : Prop :=
  ∀ (c : Config) (scur sr : Byte),
    let fails := ∃ k < 8, scur.getLsbD k ∧ (c.mPfail.getLsbD k ∨ c.mEfail.getLsbD k)
    let paused := ∃ k < 8, scur.getLsbD k ∧ (c.mPsb.getLsbD k ∨ c.mEsb.getLsbD k)
    let running := ∃ k < 8, sr.getLsbD k ∧ c.mWip.getLsbD k
    (fails → decode1 c scur = some .error) ∧
    (¬ fails → paused → decode1 c scur = some .suspended) ∧
    (¬ fails → ¬ paused → decode1 c scur = none) ∧
    (running → decode2 c sr = .busy) ∧ (¬ running → decode2 c sr = .ok)

/-! ### The operations one by one -/

/-- GET_STATUS (40_status_poll_wren.md R131, R132): the calls, the code and the cause for every answer. -/
def Obligations.GetStatusOutcome : Prop :=
  ∀ (a n : Word) (s : State), s.phase = [] →
    ∃ t, exec (.getStatus a n) s = .next t ∧ s.latched t 0x01 a n ∧ s.dataKept t ∧
      t.lines <+: statusLines s [.S0] ∧
      (2 < t.trace.length → decode1 s.cfg (t.answerByte 1 0) = none) ∧
      (s.cutShort t .bus .error ∨
        t.answers.all Answer.isOk = true ∧
          (t.trace.length = 2 ∧
              ((decode1 s.cfg (t.answerByte 1 0) = some .error ∧ t.aborted .chipFail .error) ∨
                (decode1 s.cfg (t.answerByte 1 0) = some .suspended ∧ t.completed .suspended)) ∨
            t.trace.length = 4 ∧ t.completed (decode2 s.cfg (t.answerByte 3 0)))) ∧
      (∀ scur sr, s.script [.ok [], .ok [scur], .ok [], .ok [sr]] →
        match decode1 s.cfg scur with
        | some code => t.returned code ∧ t.trace.length = 2
        | none => t.completed (decode2 s.cfg sr) ∧ t.trace.length = 4)

/-- POLL_READY (40_status_poll_wren.md R134, R133): one AutoPoll for write-in-progress clear, with the
operand N as its timeout. -/
def Obligations.PollReadyOutcome : Prop :=
  ∀ (a n : Word) (s : State), s.phase = [] →
    ∃ t, exec (.pollReady a n) s = .next t ∧ s.latched t 0x02 a n ∧ s.dataKept t ∧
      s.straight t [readyLine s [.S0] n] .bus .error ∧
      (∀ v, (predReady s.cfg).sat v = true → s.script [.ok [v]] → t.completed .ok) ∧
      (s.script [.fail] → t.aborted .bus .error)

/-- WRITE_ENABLE (40_status_poll_wren.md R136, R135): the instruction, then a poll until the latch reads
set. -/
def Obligations.WriteEnableOutcome : Prop :=
  ∀ (a n : Word) (s : State), s.phase = [] →
    ∃ t, exec (.writeEnable a n) s = .next t ∧ s.latched t 0x03 a n ∧ s.dataKept t ∧
      s.straight t (enableLines s [.S0]) .bus .error ∧
      (∀ w, (predWel s.cfg).sat w = true → s.script [.ok [], .ok [w]] → t.completed .ok) ∧
      (s.script [.fail] ∨ s.script [.ok [], .fail] → t.aborted .bus .error)

/-- ERASE_BLOCK (43_erase_power.md R181): write-enable, the erase command at the operand unchanged, a poll
with the block-erase timeout. -/
def Obligations.EraseBlockOutcome : Prop :=
  ∀ (a n : Word) (s : State), s.phase = [] →
    ∃ t, exec (.eraseBlock a n) s = .next t ∧ s.latched t 0x07 a n ∧ s.dataKept t ∧
      s.straight t
        (enableLines s [.B0] ++ [cmdLine s [.B1] (.be a), readyLine s [.B2] s.tmo.blockErase])
        .bus .error ∧
      (∀ w v, (predWel s.cfg).sat w = true → (predReady s.cfg).sat v = true →
        s.script [.ok [], .ok [w], .ok [], .ok [v]] → t.completed .ok)

/-- ERASE_CHIP (43_erase_power.md R185): as ERASE_BLOCK with the chip-erase command and timeout. -/
def Obligations.EraseChipOutcome : Prop :=
  ∀ (a n : Word) (s : State), s.phase = [] →
    ∃ t, exec (.eraseChip a n) s = .next t ∧ s.latched t 0x09 a n ∧ s.dataKept t ∧
      s.straight t
        (enableLines s [.C0] ++ [cmdLine s [.C1] .ce, readyLine s [.C2] s.tmo.chipErase])
        .bus .error ∧
      (∀ w v, (predWel s.cfg).sat w = true → (predReady s.cfg).sat v = true →
        s.script [.ok [], .ok [w], .ok [], .ok [v]] → t.completed .ok)

/-- ERASE_SECTOR (43_erase_power.md R183): an index that does not exist is ERROR with no call; else
write-enable and the erase command at index times sector size, with no wait for the erase. -/
def Obligations.EraseSectorOutcome : Prop :=
  ∀ (a n : Word) (s : State), s.phase = [] →
    ∃ t, exec (.eraseSector a n) s = .next t ∧ s.latched t 0x08 a n ∧ s.dataKept t ∧
      (s.cfg.sectorCount ≤ a.toNat → t.trace = [] ∧ t.env = s.env ∧ t.aborted .range .error) ∧
      (a.toNat < s.cfg.sectorCount →
        s.straight t
          (enableLines s [.E1] ++
            [cmdLine s [.E2] (.se (BitVec.ofNat 32 (a.toNat * s.cfg.sectorSize)))])
          .bus .error ∧
        (∀ w, (predWel s.cfg).sat w = true → s.script [.ok [], .ok [w], .ok []] →
          t.completed .ok))

/-- SUSPEND_ERASE (43_erase_power.md R186): nothing to do unless the status is BUSY; else the suspend
command, and then the status must be SUSPENDED. -/
def Obligations.SuspendEraseOutcome : Prop :=
  ∀ (a n : Word) (s : State), s.phase = [] →
    ∃ t, exec (.suspendErase a n) s = .next t ∧ s.latched t 0x0A a n ∧ t.inited = s.inited ∧
      t.scratch = s.scratch ∧ t.work = { s.work with st := t.work.st } ∧
      s.bufKept t ∧
      (s.hungErase t .U0 .U2 .U3 .busy 4 .susp ∨
        s.changedErase t .U0 .U2 .U3 .busy .suspended 4 .susp) ∧
      (∀ scur sr scur', decode1 s.cfg scur = none → decode2 s.cfg sr = .busy →
        decode1 s.cfg scur' = some .suspended →
        s.script [.ok [], .ok [scur], .ok [], .ok [sr], .ok [], .ok [], .ok [scur']] →
        t.completed .ok ∧ t.trace.length = 7 ∧ t.work.st = .suspended)

/-- RESUME_ERASE (43_erase_power.md R187): nothing to do unless the status is SUSPENDED; else the resume
command, and then the status must be BUSY. -/
def Obligations.ResumeEraseOutcome : Prop :=
  ∀ (a n : Word) (s : State), s.phase = [] →
    ∃ t, exec (.resumeErase a n) s = .next t ∧ s.latched t 0x0B a n ∧ t.inited = s.inited ∧
      t.scratch = s.scratch ∧ t.work = { s.work with st := t.work.st } ∧
      s.bufKept t ∧
      (s.hungErase t .V0 .V2 .V3 .suspended 2 .resm ∨
        s.changedErase t .V0 .V2 .V3 .suspended .busy 2 .resm) ∧
      (∀ scur scur' sr, decode1 s.cfg scur = some .suspended → decode1 s.cfg scur' = none →
        decode2 s.cfg sr = .busy →
        s.script [.ok [], .ok [scur], .ok [], .ok [], .ok [scur'], .ok [], .ok [sr]] →
        t.completed .ok ∧ t.trace.length = 7 ∧ t.work.st = .busy)

/-- SLEEP and WAKEUP (43_erase_power.md R188, R189): one instruction each, no status check, no flag. What
they do to the reference chip is 20_memory.md R80's, general knowledge in the spec (log 9). -/
def Obligations.SleepAndWakeupOutcome : Prop :=
  ∀ (a n : Word) (s : State), s.phase = [] →
    (∃ t, exec (.sleep a n) s = .next t ∧ s.latched t 0x0C a n ∧ s.dataKept t ∧
      s.straight t [cmdLine s [.D0] .dp] .bus .error ∧
      (s.script [.ok []] ∨ s.onChip → t.completed .ok) ∧
      (s.onChip → t.env.chip = { s.env.chip with dpd := true })) ∧
    (∃ t, exec (.wakeup a n) s = .next t ∧ s.latched t 0x0D a n ∧ s.dataKept t ∧
      s.straight t [cmdLine s [.K0] .wake] .bus .error ∧
      (s.script [.ok []] ∨ s.onChip → t.completed .ok) ∧
      (s.onChip → t.env.chip = { s.env.chip with dpd := false }))

/-- READ (44_boundary_ops.md R201): one quad-read transaction of N bytes, not split; the bytes received go
to BUF from offset 0, and to nowhere when a call fails. Every other byte is as the host left it. -/
def Obligations.ReadOutcome : Prop :=
  ∀ (a n : Word) (s : State), s.phase = [] → Memory.wf bufBackground s.buf = true →
    n.toNat ≤ s.cfg.bufSize →
    ∃ t, exec (.read a n) s = .next t ∧ s.latched t 0x10 a n ∧ t.inited = s.inited ∧
      t.work = s.work ∧ t.scratch = s.scratch ∧
      s.straight t [([.L0], .exec (.qread a n) s.tmo.dflt), ([.L1], .rx n s.tmo.dflt)] .bus .error ∧
      (∀ x, t.bufByte x = if t.status = .ok ∧ t.done = true ∧ x < n.toNat then t.answerByte 1 x
        else Memory.read bufBackground (s.bufAfter (t.env.calls - s.env.calls)) x) ∧
      (∀ bytes, bytes.length = n.toNat → s.script [.ok [], .ok bytes] →
        t.completed .ok ∧ ∀ j, j < n.toNat → t.bufByte j = bytes.getD j 0)

/-- GET_GEOMETRY (44_boundary_ops.md R202): no call; it cannot fail. -/
def Obligations.GetGeometryReturnsOk : Prop :=
  ∀ (a n : Word) (s : State), s.phase = [] →
    ∃ t, exec (.getGeometry a n) s = .next t ∧ s.latched t 0x13 a n ∧ s.dataKept t ∧
      t.trace = [] ∧ t.env = s.env ∧ t.completed .ok

/-- RESET_CHIP (44_boundary_ops.md R206, R205): two commands and a poll; every failure inside gives
NOT_SUPPORTED. -/
def Obligations.ResetChipOutcome : Prop :=
  ∀ (a n : Word) (s : State), s.phase = [] →
    ∃ t, exec (.resetChip a n) s = .next t ∧ s.latched t 0x14 a n ∧ s.dataKept t ∧
      s.straight t (resetLines s [.S0]) .reset .notSupported ∧
      (∀ v, (predReady s.cfg).sat v = true → s.script [.ok [], .ok [], .ok [v]] → t.completed .ok)

/-- QUAD_MODE (42_mode_config.md R167, R166): read, change the one bit, write-enable, write back, wait,
read again, and ERROR unless the bit is as asked. -/
def Obligations.QuadModeOutcome : Prop :=
  ∀ (a n : Word) (s : State), s.phase = [] →
    ∃ t, exec (.quadMode a n) s = .next t ∧ s.latched t 0x05 a n ∧ t.inited = s.inited ∧
      t.work = s.work ∧ s.bufKept t ∧
      t.lines <+: quadLines s [.S0] (a.getLsbD 0) (t.answerByte 1 0) ∧
      t.scratch =
        { s.scratch with
          rb0 := if (t.answers.getD 1 .fail).isOk then
              putBit (a.getLsbD 0) (t.answerByte 1 0) s.cfg.mQe
            else s.scratch.rb0
          vb0 := if (t.answers.getD 8 .fail).isOk then t.answerByte 8 0 else s.scratch.vb0 } ∧
      (s.cutShort t .bus .error ∨
        t.trace.length = 9 ∧ t.answers.all Answer.isOk = true ∧
          (anySet (t.answerByte 8 0) s.cfg.mQe = a.getLsbD 0 ∧ t.completed .ok ∨
            anySet (t.answerByte 8 0) s.cfg.mQe ≠ a.getLsbD 0 ∧ t.aborted .verify .error)) ∧
      (∀ b w r v, (predWel s.cfg).sat w = true → (predReady s.cfg).sat r = true →
        anySet v s.cfg.mQe = a.getLsbD 0 →
        s.script [.ok [], .ok [b], .ok [], .ok [w], .ok [], .ok [], .ok [r], .ok [], .ok [v]] →
        t.completed .ok)

/-- HP_MODE (42_mode_config.md R169, R168): the same over the three-byte image, ended by two bus
reinitialisations once the verify has passed. -/
def Obligations.HpModeOutcome : Prop :=
  ∀ (a n : Word) (s : State), s.phase = [] →
    ∃ t, exec (.hpMode a n) s = .next t ∧ s.latched t 0x06 a n ∧ t.inited = s.inited ∧
      t.work = s.work ∧ s.bufKept t ∧
      t.lines <+:
        hpLines s [.S0] (a.getLsbD 0) (t.answerByte 1 0) (t.answerByte 3 0) (t.answerByte 3 1)
          ++ reinitLines [.S0] ∧
      t.scratch =
        { rb0 := if (t.answers.getD 1 .fail).isOk then t.answerByte 1 0 else s.scratch.rb0
          rb1 := if (t.answers.getD 3 .fail).isOk then t.answerByte 3 0 else s.scratch.rb1
          rb2 := if (t.answers.getD 3 .fail).isOk then
              putBit (a.getLsbD 0) (t.answerByte 3 1) s.cfg.mLh
            else s.scratch.rb2
          vb0 := if (t.answers.getD 10 .fail).isOk then t.answerByte 10 0 else s.scratch.vb0
          vb1 := if (t.answers.getD 10 .fail).isOk then t.answerByte 10 1 else s.scratch.vb1 } ∧
      (11 < t.trace.length → anySet (t.answerByte 10 1) s.cfg.mLh = a.getLsbD 0) ∧
      (s.cutShort t .bus .error ∨
        t.answers.all Answer.isOk = true ∧
          (t.trace.length = 13 ∧ t.completed .ok ∨
            t.trace.length = 11 ∧ anySet (t.answerByte 10 1) s.cfg.mLh ≠ a.getLsbD 0 ∧
              t.aborted .verify .error)) ∧
      (∀ b0 b1 b2 w r v0 v1, (predWel s.cfg).sat w = true → (predReady s.cfg).sat r = true →
        anySet v1 s.cfg.mLh = a.getLsbD 0 →
        s.script [.ok [], .ok [b0], .ok [], .ok [b1, b2], .ok [], .ok [w], .ok [], .ok [],
          .ok [r], .ok [], .ok [v0, v1], .ok [], .ok []] →
        t.completed .ok)

/-- INIT (44_boundary_ops.md R207): bind, bus set-up, chip reset, quad mode, high-performance mode; the
code and the cause by the step that failed; INITED is set by a whole success and by nothing less. RB and VB
hold what the mode sequences read, as far as it came. -/
def Obligations.InitOutcome : Prop :=
  ∀ (a n : Word) (s : State), s.phase = [] →
    ∃ t, exec (.init a n) s = .next t ∧ s.latched t 0x11 a n ∧ t.work = s.work ∧
      s.bufKept t ∧
      t.lines <+: initLines s (t.answerByte 6 0) (t.answerByte 15 0) (t.answerByte 17 0)
        (t.answerByte 17 1) ∧
      t.scratch =
        { rb0 := if (t.answers.getD 15 .fail).isOk then t.answerByte 15 0
            else if (t.answers.getD 6 .fail).isOk then t.answerByte 6 0 ||| s.cfg.mQe
            else s.scratch.rb0
          rb1 := if (t.answers.getD 17 .fail).isOk then t.answerByte 17 0 else s.scratch.rb1
          rb2 := if (t.answers.getD 17 .fail).isOk then t.answerByte 17 1 ||| s.cfg.mLh
            else s.scratch.rb2
          vb0 := if (t.answers.getD 24 .fail).isOk then t.answerByte 24 0
            else if (t.answers.getD 13 .fail).isOk then t.answerByte 13 0
            else s.scratch.vb0
          vb1 := if (t.answers.getD 24 .fail).isOk then t.answerByte 24 1 else s.scratch.vb1 } ∧
      (14 < t.trace.length → anySet (t.answerByte 13 0) s.cfg.mQe = true) ∧
      (25 < t.trace.length → anySet (t.answerByte 24 1) s.cfg.mLh = true) ∧
      (t.inited = true ↔ t.trace.length = 27 ∧ t.answers.all Answer.isOk = true) ∧
      ((t.answers.all Answer.isOk = true ∧
          (t.trace.length = 27 ∧ t.completed .ok ∨
            t.trace.length = 14 ∧ anySet (t.answerByte 13 0) s.cfg.mQe = false ∧
              t.aborted .verify .error ∨
            t.trace.length = 25 ∧ anySet (t.answerByte 24 1) s.cfg.mLh = false ∧
              t.aborted .verify .error)) ∨
        (t.trace.length = 1 ∧ s.cutShort t .bind .error) ∨
        (3 ≤ t.trace.length ∧ t.trace.length ≤ 5 ∧ s.cutShort t .reset .notSupported) ∨
        ((t.trace.length = 2 ∨ 5 < t.trace.length) ∧ s.cutShort t .bus .error)) ∧
      (∀ b b0 b1 b2 w r v v0 v1, (predWel s.cfg).sat w = true → (predReady s.cfg).sat r = true →
        anySet v s.cfg.mQe = true → anySet v1 s.cfg.mLh = true →
        s.script [.ok [], .ok [], .ok [], .ok [], .ok [r], .ok [], .ok [b], .ok [], .ok [w],
          .ok [], .ok [], .ok [r], .ok [], .ok [v], .ok [], .ok [b0], .ok [], .ok [b1, b2],
          .ok [], .ok [w], .ok [], .ok [], .ok [r], .ok [], .ok [v0, v1], .ok [], .ok []] →
        t.completed .ok)

/-- DEINIT (44_boundary_ops.md R209): INITED is cleared, the chip reset, and the bus released unless the
reset failed. -/
def Obligations.DeinitOutcome : Prop :=
  ∀ (a n : Word) (s : State), s.phase = [] →
    ∃ t, exec (.deinit a n) s = .next t ∧ s.latched t 0x12 a n ∧ t.inited = false ∧
      t.work = s.work ∧ t.scratch = s.scratch ∧ s.bufKept t ∧
      s.straight t (resetLines s [.Z1] ++ [([.Z2], .busRelease)]) .reset .notSupported ∧
      (∀ v, (predReady s.cfg).sat v = true → s.script [.ok [], .ok [], .ok [v]] → t.completed .ok)

/-! ### WRITE -/

/-- WRITE (41_program.md R151, R153, R155): chunk after chunk, each through write-enable, program command,
data and poll, and OK at the end; the first call that fails ends it with ERROR. The loop ends, and the
working registers are then those of its last step. A chunk's data is what BUF holds at its step X3
(70_reset_and_hazards.md R264). -/
def Obligations.WriteFollowsItsPlan : Prop :=
  ∀ (a n : Word) (s : State), s.cfg.wf = true → s.phase = [] → n.toNat ≤ s.cfg.bufSize →
    ∃ t, exec (.write a n) s = .next t ∧ s.latched t 0x04 a n ∧ t.inited = s.inited ∧
      t.scratch = s.scratch ∧ t.work.st = s.work.st ∧ s.bufKept t ∧
      s.straight t (programLines s a n) .bus .error ∧
      (t.completed .ok → t.work = ⟨a + n, a + n, 0, n, s.work.st⟩) ∧
      (∀ v, (predWel s.cfg).sat v = true → (predReady s.cfg).sat v = true →
        s.script (List.replicate (5 * chunkCount s.cfg.pageSize a.toNat n.toNat) (.ok [v])) →
        t.completed .ok)

/-- 41_program.md R153: a write of length 0 issues one program command with an empty data phase. -/
def Obligations.WriteOfLengthZero : Prop :=
  ∀ (a : Word) (s : State), s.cfg.wf = true → s.phase = [] →
    ∃ t, exec (.write a 0) s = .next t ∧
      s.straight t
        (enableLines s [.X1] ++ [([.X2], .exec (.pp4 a 0) s.tmo.dflt), ([.X3], .tx [] s.tmo.dflt),
          readyLine s [.X4] s.tmo.program]) .bus .error ∧
      t.work.ptr = 0 ∧ t.work.cur = a ∧ t.work.endAddr = a

/-- The laws of the chunking (41_program.md R152), on the program commands of a WRITE that returned OK:
they cover the range with no gap and no overlap, none crosses a page, every one after the first starts a
page, and their number is as the rule says. -/
def Obligations.ProgramCommandsCoverTheRange : Prop :=
  ∀ (a n : Word) (s t : State), s.cfg.wf = true → s.phase = [] → 1 ≤ n.toNat →
    exec (.write a n) s = .next t → t.completed .ok →
    coversFrom a n.toNat (programCommands t.trace) ∧
    (∀ c ∈ programCommands t.trace,
      1 ≤ c.2.toNat ∧ c.1.toNat % s.cfg.pageSize + c.2.toNat ≤ s.cfg.pageSize) ∧
    (∀ c ∈ (programCommands t.trace).tail, c.1.toNat % s.cfg.pageSize = 0) ∧
    ((programCommands t.trace).head?.map fun c => c.2.toNat) =
      some (min (s.cfg.pageSize - a.toNat % s.cfg.pageSize) n.toNat) ∧
    (∀ c ∈ ((programCommands t.trace).tail).dropLast, c.2.toNat = s.cfg.pageSize) ∧
    (programCommands t.trace).length = chunkCount s.cfg.pageSize a.toNat n.toNat ∧
    (programCommands t.trace).length ≤ n.toNat ∧
    executorCalls t.trace = 5 * (programCommands t.trace).length

/-- 41_program.md R155, 70_reset_and_hazards.md R264: a WRITE that returned OK sent each byte of
`BUF[0 .. N-1]` once, in order, as it stood at step X3 of the chunk that holds it, each chunk's in the `Tx`
that follows its program command. Where the host holds BUF stable, these are the bytes it held at first; when
a host stores is an entry of State (log 33). -/
def Obligations.WriteSendsTheBuffer : Prop :=
  ∀ (a n : Word) (s t : State), s.cfg.wf = true → s.phase = [] →
    exec (.write a n) s = .next t → t.completed .ok →
    (sentBytes t.trace).length = n.toNat ∧
    (∀ j, j < n.toNat → (sentBytes t.trace).getD j 0 =
      Memory.read bufBackground (s.bufAtChunk (chunkIndex s.cfg.pageSize a.toNat j)) j) ∧
    (s.bufStable n.toNat → sentBytes t.trace = s.bufRead 0 n.toNat) ∧
    pairedFrom s.cfg none t.trace = true

/-! ### Rules over all operations -/

/-- No program, erase or register-write command goes to the chip but straight after a write-enable whose
latch was confirmed set, and nothing is sent in between (70_reset_and_hazards.md R260). -/
def Obligations.WriteEnablePrecedesEveryCommand : Prop :=
  ∀ (i : Instr) (s t : State), i.txn? = none → s.phase = [] → exec i s = .next t →
    armedFrom s.cfg .none t.trace = true

/-- Every descriptor an operation emits is well formed: register writes of 1 or 3 bytes, program commands
inside one page, sector erases at the start of a sector that exists (20_memory.md R65, 30_encoding.md R99,
R105). -/
def Obligations.EmittedDescriptorsAreWellFormed : Prop :=
  ∀ (i : Instr) (s t : State), i.txn? = none → s.cfg.wf = true → s.phase = [] →
    exec i s = .next t → descriptorsOk s.cfg t.trace = true

/-- After a call that failed, or that is never answered, an operation makes no other (60_exceptions.md
R224, R223). -/
def Obligations.NoCallAfterAFailure : Prop :=
  ∀ (i : Instr) (s t : State), i.txn? = none → s.phase = [] → exec i s = .next t →
    t.answers.dropLast.all Answer.isOk = true

/-- The number of calls and events of each operation stays in the bounds of 70_reset_and_hazards.md
R275; WRITE makes at most five a chunk. -/
def Obligations.CallCountsStayInBounds : Prop :=
  ∀ (i : Instr) (s t : State), i.txn? = none → s.cfg.wf = true → s.phase = [] →
    exec i s = .next t →
    callFloor i ≤ executorCalls t.trace ∧
    (∀ k, callBound i = some k → executorCalls t.trace ≤ k) ∧
    (∀ a n, i = .write a n →
      executorCalls t.trace ≤ 5 * chunkCount s.cfg.pageSize a.toNat n.toNat) ∧
    (eventBounds i).1 ≤ collaboratorEvents t.trace ∧
    collaboratorEvents t.trace ≤ (eventBounds i).2

/-- BUSY and SUSPENDED are results of GET_STATUS only, NOT_SUPPORTED of RESET_CHIP, INIT and DEINIT only,
and GET_GEOMETRY cannot return ERROR (10_state.md R30). -/
def Obligations.StatusCodesByOperation : Prop :=
  ∀ (i : Instr) (s t : State), i.txn? = none → exec i s = .next t → t.done = true →
    mayReturn i t.status = true

/-- The closed table of causes (60_exceptions.md R221): which operation raises which cause, and with which
code; a return that is no abort has none. -/
def Obligations.CausesByOperation : Prop :=
  ∀ (i : Instr) (s t : State), i.txn? = none → exec i s = .next t → t.done = true →
    (∀ c, t.cause = some c → mayRaise i c = true ∧
      t.status = (if c = .reset then .notSupported else .error)) ∧
    (t.cause = none ↔ t.status ≠ .error ∧ t.status ≠ .notSupported)

/-- Every operation ends, and every lone transaction too, when every call is answered: the loop of WRITE
among them (10_state.md R26, 20_memory.md R76, 41_program.md R152, 42_mode_config.md R170). -/
def Obligations.EveryOperationReturns : Prop :=
  ∀ (i : Instr) (s : State), s.cfg.wf = true → s.phase = [] → s.answersAll →
    bufInRange s i = true →
    ∃ t, exec i s = .next t ∧ t.phase = [] ∧ (i.txn? = none → t.done = true)

/-- 20_memory.md R75: the timeout class of every call of every operation. -/
def Obligations.TimeoutClassOfEveryCall : Prop :=
  ∀ (i : Instr) (s t : State), i.txn? = none → s.cfg.wf = true → s.phase = [] →
    exec i s = .next t → timeoutsOk s.cfg s.tmo.dflt (readyTimeout s i) t.trace = true

/-- Every byte of the flash array keeps its value but those an instruction's own command reaches: the
bytes of its program commands, the unit its erase names (20_memory.md R61, R80). The array is the reference
chip's, general knowledge in the spec (log 9). That it keeps them after a call that failed too is the model's
choice (log 10: the spec calls the chip after a failed `Tx` unknown), and so is that a block of size 0 has no
byte (log 31) and that the last block ends with the array (log 35). -/
def Obligations.FlashFrame : Prop :=
  ∀ (i : Instr) (s t : State) (x : Nat), s.phase = [] →
    Memory.wf flashBackground s.env.chip.mem = true → exec i s = .next t →
    ¬ mayTouchFlash s.cfg t.trace i x → t.flashByte x = s.flashByte x

/-- No instruction changes who answers, and in the unconstrained environment none touches the chip's
fields; each call takes one scripted answer, one entry of the chip's own events and one of the host's stores
(20_memory.md R86; the model's conventions, log 6, 7, 32, 33). -/
def Obligations.EnvironmentFrame : Prop :=
  ∀ (i : Instr) (s t : State), exec i s = .next t →
    t.env.mode = s.env.mode ∧ (s.env.mode = .free → t.env.chip = s.env.chip) ∧
      s.env.calls ≤ t.env.calls ∧
      t.env.replies = s.env.replies.drop (t.env.calls - s.env.calls) ∧
      t.env.completions = s.env.completions.drop (t.env.calls - s.env.calls) ∧
      t.hostStores = s.hostStores.drop (t.env.calls - s.env.calls)

/-- 30_encoding.md R92: two requests that differ in an operand the operation does not read do the same,
but for the latches. -/
def Obligations.IgnoredOperandsHaveNoEffect : Prop :=
  ∀ (a n a' n' : Word) (s t : State),
    (exec (.getStatus a n) s = .next t →
      exec (.getStatus a' n') s = .next (t.setReq ⟨0x01, a', n'⟩)) ∧
    (exec (.pollReady a n) s = .next t →
      exec (.pollReady a' n) s = .next (t.setReq ⟨0x02, a', n⟩)) ∧
    (exec (.writeEnable a n) s = .next t →
      exec (.writeEnable a' n') s = .next (t.setReq ⟨0x03, a', n'⟩)) ∧
    (a.getLsbD 0 = a'.getLsbD 0 → exec (.quadMode a n) s = .next t →
      exec (.quadMode a' n') s = .next (t.setReq ⟨0x05, a', n'⟩)) ∧
    (a.getLsbD 0 = a'.getLsbD 0 → exec (.hpMode a n) s = .next t →
      exec (.hpMode a' n') s = .next (t.setReq ⟨0x06, a', n'⟩)) ∧
    (exec (.eraseBlock a n) s = .next t →
      exec (.eraseBlock a n') s = .next (t.setReq ⟨0x07, a, n'⟩)) ∧
    (exec (.eraseSector a n) s = .next t →
      exec (.eraseSector a n') s = .next (t.setReq ⟨0x08, a, n'⟩)) ∧
    (exec (.eraseChip a n) s = .next t →
      exec (.eraseChip a' n') s = .next (t.setReq ⟨0x09, a', n'⟩)) ∧
    (exec (.suspendErase a n) s = .next t →
      exec (.suspendErase a' n') s = .next (t.setReq ⟨0x0A, a', n'⟩)) ∧
    (exec (.resumeErase a n) s = .next t →
      exec (.resumeErase a' n') s = .next (t.setReq ⟨0x0B, a', n'⟩)) ∧
    (exec (.sleep a n) s = .next t →
      exec (.sleep a' n') s = .next (t.setReq ⟨0x0C, a', n'⟩)) ∧
    (exec (.wakeup a n) s = .next t →
      exec (.wakeup a' n') s = .next (t.setReq ⟨0x0D, a', n'⟩)) ∧
    (exec (.init a n) s = .next t →
      exec (.init a' n') s = .next (t.setReq ⟨0x11, a', n'⟩)) ∧
    (exec (.deinit a n) s = .next t →
      exec (.deinit a' n') s = .next (t.setReq ⟨0x12, a', n'⟩)) ∧
    (exec (.getGeometry a n) s = .next t →
      exec (.getGeometry a' n') s = .next (t.setReq ⟨0x13, a', n'⟩)) ∧
    (exec (.resetChip a n) s = .next t →
      exec (.resetChip a' n') s = .next (t.setReq ⟨0x14, a', n'⟩))

/-- 10_state.md R29: no operation reads a working register left by an earlier one. Started with other
values in them, it does the same in everything but what they hold. -/
def Obligations.WorkingRegistersAreWrittenBeforeRead : Prop :=
  ∀ (i : Instr) (s t : State) (w : Work) (x : Scratch), i.txn? = none → exec i s = .next t →
    ∃ u, exec i ((s.setWork w).setScratch x) = .next u ∧
      (u.setWork t.work).setScratch t.scratch = t

/-! ### Transactions run alone -/

/-- A template with no data phase run alone (30_encoding.md R104, R107 to R114, R116; 20_memory.md R79):
T_WREN, T_SE, T_BE, T_CE, T_SUSP, T_RESM, T_DP, T_WAKE, T_RSTEN, T_RST. One `Exec`, its answer at the
executor's port, no register of the block changed. What the registers of the reference chip then hold is
20_memory.md R80's, general knowledge in the spec (log 9); `EraseCommandsOnTheChip` says it of the erases.
That a template runs alone is the model's choice (log 18). -/
def Obligations.LoneCommandOutcome : Prop :=
  ∀ (i : Instr) (u : Txn) (s : State),
    i ∈ ([.tWren, .tCe, .tSusp, .tResm, .tDp, .tWake, .tRsten, .tRst] : List Instr) ∨
      (∃ a, i = .tSe a) ∨ (∃ a, i = .tBe a) →
    i.txn? = some u →
    ∃ t, exec i s = .next t ∧ s.ranTxn t [(s.phase ++ [.a], .exec u s.tmo.dflt)] ∧
      (s.script [.ok []] ∨ s.onChip → t.env.lastAnswer = .ok [] ∧ t.phase = s.phase) ∧
      (s.env.mode = .refchip → s.env.replies = [] →
        t.env.chip = (s.env.chipNow s.cfg).exec s.cfg u) ∧
      (s.onChip → s.env.chip.dpd = true →
        t.env.chip = { s.env.chip with dpd := decide (i ≠ .tWake) }) ∧
      (s.onChip → s.env.chip.dpd = false →
        (i = .tWren → t.env.chip = { s.env.chip with
          sr := if s.env.chip.sr &&& s.cfg.mWip = 0 then s.env.chip.sr ||| s.cfg.mWel
            else s.env.chip.sr }) ∧
        (i = .tSusp → t.env.chip =
          if s.env.chip.sr &&& s.cfg.mWip ≠ 0 ∧
              (s.env.chip.inflight = .erase ∨ s.env.chip.inflight = .program) then
            { s.env.chip with
              sr := s.env.chip.sr &&& ~~~s.cfg.mWip &&& ~~~s.cfg.mWel
              scur := s.env.chip.scur |||
                (if s.env.chip.inflight = .erase then s.cfg.mEsb else s.cfg.mPsb) }
          else s.env.chip) ∧
        (i = .tResm → t.env.chip =
          if s.env.chip.scur &&& s.cfg.mEsb ≠ 0 ∨ s.env.chip.scur &&& s.cfg.mPsb ≠ 0 then
            { s.env.chip with
              scur := s.env.chip.scur &&& ~~~s.cfg.mEsb &&& ~~~s.cfg.mPsb
              sr := s.env.chip.sr ||| s.cfg.mWip }
          else s.env.chip) ∧
        (i = .tDp → t.env.chip = { s.env.chip with dpd := true }) ∧
        (i = .tWake → t.env.chip = s.env.chip) ∧
        (i = .tRsten → t.env.chip = { s.env.chip with rsten := true }) ∧
        (i = .tRst → t.env.chip =
          if s.env.chip.rsten then
            { s.env.chip with
              sr := s.env.chip.sr &&& s.cfg.mQe, scur := 0, inflight := .none, rsten := false }
          else s.env.chip))

/-- A register or flash read run alone (30_encoding.md R101 to R103, R115; 20_memory.md R77): T_RDSR,
T_RDSCUR, T_RDCR, T_QREAD. `Exec`, then one `Rx` of the template's length, its bytes at the executor's
port; on the reference chip those of its registers or array. -/
def Obligations.LoneReadOutcome : Prop :=
  ∀ (i : Instr) (u : Txn) (k : Word) (s : State),
    (i = .tRdsr ∧ u = .rdsr ∧ k = 1) ∨ (i = .tRdscur ∧ u = .rdscur ∧ k = 1) ∨
      (i = .tRdcr ∧ u = .rdcr ∧ k = 2) ∨ (∃ a, i = .tQread a k ∧ u = .qread a k) →
    ∃ t, exec i s = .next t ∧
      s.ranTxn t
        [(s.phase ++ [.a], .exec u s.tmo.dflt), (s.phase ++ [.b], .rx k s.tmo.dflt)] ∧
      (∀ bytes, bytes.length = k.toNat → s.script [.ok [], .ok bytes] →
        t.env.lastAnswer = .ok bytes ∧ t.phase = s.phase) ∧
      (s.onChip → s.env.chip.dpd = false →
        t.env.chip = s.env.chip ∧ t.phase = s.phase ∧
        (i = .tRdsr → t.env.lastAnswer = .ok [s.env.chip.sr]) ∧
        (i = .tRdscur → t.env.lastAnswer = .ok [s.env.chip.scur]) ∧
        (i = .tRdcr → t.env.lastAnswer = .ok [s.env.chip.cr0, s.env.chip.cr1]) ∧
        (∀ a, i = .tQread a k → ∀ j, j < k.toNat →
          (t.env.lastAnswer.bytes).getD j 0 = s.flashByte (flashByteAddr s.cfg a j)))

/-- A register write or program command run alone (30_encoding.md R105, R106; 20_memory.md R78): T_WRSR
and T_PP4. `Exec`, then one `Tx` of the template's length: the register image RB, or the bytes of BUF from
PTR on (the model's choice of what goes out, log 18, 19). On the reference chip (20_memory.md R80, general
knowledge in the spec, log 9) both answer OK, and an accepted T_WRSR writes SR but for WIP and WEL, writes CR
when it has three bytes, and starts a cycle (with no byte it is ignored, log 13); what T_PP4 does there
`ProgramCommandOnTheChip` says. -/
def Obligations.LoneWriteOutcome : Prop :=
  (∀ (n : Word) (s : State),
    ∃ bytes t, exec (.tWrsr n) s = .next t ∧ bytes.length = n.toNat ∧
      (∀ j, j < 3 → j < n.toNat →
        bytes.getD j 0 = [s.scratch.rb0, s.scratch.rb1, s.scratch.rb2].getD j 0) ∧
      s.ranTxn t
        [(s.phase ++ [.a], .exec (.wrsr n) s.tmo.dflt), (s.phase ++ [.b], .tx bytes s.tmo.dflt)] ∧
      (s.script [.ok [], .ok []] ∨ s.onChip → t.env.lastAnswer = .ok [] ∧ t.phase = s.phase) ∧
      (s.onChip → t.env.chip =
        if s.env.chip.dpd = false ∧ s.env.chip.sr &&& s.cfg.mWel ≠ 0 ∧
            s.env.chip.sr &&& s.cfg.mWip = 0 ∧ n ≠ 0 then
          { s.env.chip with
            sr := s.env.chip.sr &&& (s.cfg.mWip ||| s.cfg.mWel) |||
              s.scratch.rb0 &&& ~~~(s.cfg.mWip ||| s.cfg.mWel) ||| s.cfg.mWip
            cr0 := if n = 3 then s.scratch.rb1 else s.env.chip.cr0
            cr1 := if n = 3 then s.scratch.rb2 else s.env.chip.cr1
            inflight := .wrsr }
        else s.env.chip)) ∧
  (∀ (a n : Word) (s : State), s.work.ptr.toNat + n.toNat ≤ s.cfg.bufSize →
    ∃ bytes t, exec (.tPp4 a n) s = .next t ∧ bytes.length = n.toNat ∧
      (∀ j, j < n.toNat → bytes.getD j 0 = s.bufByte (s.work.ptr.toNat + j)) ∧
      s.ranTxn t
        [(s.phase ++ [.a], .exec (.pp4 a n) s.tmo.dflt),
          (s.phase ++ [.b], .tx bytes s.tmo.dflt)] ∧
      (s.script [.ok [], .ok []] ∨ s.onChip → t.env.lastAnswer = .ok [] ∧ t.phase = s.phase))

/-! ### The block composed with the reference chip (20_memory.md R80, general knowledge in the spec: log 9)

`s.onChip` says that the chip ends no cycle on its own between two calls (log 32). -/

/-- The erase commands on the reference chip: accepted with the latch set and no cycle running, they set
their unit to 0xFF and start a cycle; otherwise they are ignored. That a template runs alone is the model's
choice (log 18), and so is that with a `BLOCK_SIZE` of 0 an accepted T_BE erases no byte and starts a cycle
(log 31), and that with one that does not divide `FLASH_SIZE` the last block ends with the array (log 35). -/
def Obligations.EraseCommandsOnTheChip : Prop :=
  ∀ (i : Instr) (u : Txn) (s t : State) (a : Word), s.onChip → s.env.chip.dpd = false →
    Memory.wf flashBackground s.env.chip.mem = true →
    i = .tSe a ∨ i = .tBe a ∨ i = .tCe → i.txn? = some u → exec i s = .next t →
    if anySet s.env.chip.sr s.cfg.mWel ∧ ¬ anySet s.env.chip.sr s.cfg.mWip then
      t.env.chip.sr = s.env.chip.sr ||| s.cfg.mWip ∧ t.env.chip.inflight = .erase ∧
        t.env.chip.scur = s.env.chip.scur ∧
        (∀ x, mayTouchFlash s.cfg t.trace i x → t.flashByte x = 0xFF) ∧
        (∀ x, ¬ mayTouchFlash s.cfg t.trace i x → t.flashByte x = s.flashByte x)
    else t.env.chip = s.env.chip

/-- A program command on the reference chip. Accepted: byte i of the data is and-ed into the array at the
address plus i, modulo the size of the array, so that a transfer longer than the array meets a byte more than
once; nothing else changes, and a cycle starts (20_memory.md R80: "a program can only clear bits"). Otherwise
the chip is unchanged. That the template runs alone, and that its data is BUF from PTR on, is the model's
choice (log 18). -/
def Obligations.ProgramCommandOnTheChip : Prop :=
  ∀ (a n : Word) (s t : State), s.onChip → s.inv = true → exec (.tPp4 a n) s = .next t →
    if s.env.chip.dpd = false ∧ anySet s.env.chip.sr s.cfg.mWel = true ∧
        anySet s.env.chip.sr s.cfg.mWip = false then
      t.env.chip.sr = s.env.chip.sr ||| s.cfg.mWip ∧ t.env.chip.inflight = .program ∧
        t.env.chip.scur = s.env.chip.scur ∧ t.env.chip.cr0 = s.env.chip.cr0 ∧
        t.env.chip.cr1 = s.env.chip.cr1 ∧ t.env.chip.dpd = false ∧
        t.env.chip.rsten = s.env.chip.rsten ∧
        (∀ x, t.flashByte x =
          ((List.range n.toNat).filter fun j => flashByteAddr s.cfg a j = x).foldl
            (fun v j => v &&& s.bufByte (s.work.ptr.toNat + j)) (s.flashByte x)) ∧
        (n.toNat ≤ s.cfg.flashSize → ∀ j, j < n.toNat →
          t.flashByte (flashByteAddr s.cfg a j) =
            s.flashByte (flashByteAddr s.cfg a j) &&& s.bufByte (s.work.ptr.toNat + j)) ∧
        (∀ x, (∀ j, j < n.toNat → x ≠ flashByteAddr s.cfg a j) → t.flashByte x = s.flashByte x)
    else t.env.chip = s.env.chip

/-- ERASE_SECTOR on a ready reference chip: OK, every byte of the sector reads 0xFF and no other byte
changes, and the erase is still in flight, so GET_STATUS then gives BUSY (43_erase_power.md R183, R180). -/
def Obligations.EraseSectorLeavesTheEraseInFlight : Prop :=
  ∀ (a n a' n' : Word) (s : State), s.onChip → s.inv = true → s.phase = [] →
    s.env.chip.ready s.cfg → srDistinct s.cfg → a.toNat < s.cfg.sectorCount →
    decode1 s.cfg s.env.chip.scur = none →
    ∃ t u, exec (.eraseSector a n) s = .next t ∧ t.completed .ok ∧
      t.env.chip.inflight = .erase ∧ anySet t.env.chip.sr s.cfg.mWip = true ∧
      (∀ x, t.flashByte x =
        if a.toNat * s.cfg.sectorSize ≤ x ∧ x < (a.toNat + 1) * s.cfg.sectorSize then 0xFF
        else s.flashByte x) ∧
      exec (.getStatus a' n') t = .next u ∧ u.completed .busy ∧ u.env.chip = t.env.chip

/-- Suspend and resume of an erase in flight on the reference chip both return OK, and leave the chip
erasing as before; on a chip with no cycle running both are no-ops returning OK (43_erase_power.md R186,
R187; 95_test_vectors.md S4). Where the resumed erase ends on its own before RESUME_ERASE reads the status
again, it returns ERROR although the chip is fine (93 U11). What the commands do to the chip is 20_memory.md
R80's, general knowledge in the spec (log 9); when `Complete` fires is an entry of State (log 32). -/
def Obligations.SuspendThenResumeOnTheChip : Prop :=
  ∀ (a n a' n' : Word) (s : State), s.onChip → s.cfg.wf = true → s.phase = [] →
    s.env.chip.dpd = false → decode1 s.cfg s.env.chip.scur = none →
    (s.env.chip.inflight = .erase → anySet s.env.chip.sr s.cfg.mWip = true →
      ∃ t u, exec (.suspendErase a n) s = .next t ∧ exec (.resumeErase a' n') t = .next u ∧
        t.completed .ok ∧ u.completed .ok ∧ decode1 s.cfg t.env.chip.scur = some .suspended ∧
        anySet t.env.chip.sr s.cfg.mWip = false ∧ t.env.chip.inflight = .erase ∧
        u.env.chip.scur = s.env.chip.scur ∧ anySet u.env.chip.sr s.cfg.mWip = true ∧
        u.env.chip.inflight = .erase ∧ u.env.chip.mem = s.env.chip.mem ∧
        ∃ v, exec (.resumeErase a' n')
            (t.setEnv { t.env with completions := [false, false, false, true] }) = .next v ∧
          v.aborted .suspendVerify .error ∧ v.work.st = .ok ∧ v.env.chip.inflight = .none ∧
          anySet v.env.chip.sr s.cfg.mWip = false ∧ v.env.chip.mem = s.env.chip.mem) ∧
    (anySet s.env.chip.sr s.cfg.mWip = false →
      ∃ t u, exec (.suspendErase a n) s = .next t ∧ exec (.resumeErase a' n') t = .next u ∧
        t.completed .ok ∧ u.completed .ok ∧ u.env.chip = s.env.chip ∧
        t.trace.length = 4 ∧ u.trace.length = 4)

/-- INIT on an awake reference chip, whatever it was doing: OK, INITED, quad mode and high-performance
mode set, the array untouched (44_boundary_ops.md R207, 95_test_vectors.md program P4). -/
def Obligations.InitConfiguresTheChip : Prop :=
  ∀ (a n : Word) (s : State), s.onChip → s.cfg.wf = true → s.phase = [] →
    s.env.chip.dpd = false → srDistinct s.cfg →
    ∃ t, exec (.init a n) s = .next t ∧ t.completed .ok ∧ t.inited = true ∧
      executorCalls t.trace = 23 ∧ collaboratorEvents t.trace = 4 ∧
      t.env.chip = { s.env.chip with
        sr := s.cfg.mQe, scur := 0, cr1 := s.env.chip.cr1 ||| s.cfg.mLh, inflight := .none
        rsten := false }

/-- 70_reset_and_hazards.md R262: an operation requested while the chip is busy. With the latch still set,
ERASE_SECTOR and a one-chunk WRITE return OK and lose their command; with the latch clear, they return
ERROR without having sent it. The array does not change. A POLL_READY returns OK and the cycle has ended
(20_memory.md R80, log 9; with no cycle in flight WIP stays as it is, log 12). -/
def Obligations.BusyChipLosesCommands : Prop :=
  ∀ (a a' n n' a'' tmo : Word) (s : State), s.onChip → s.cfg.wf = true → s.phase = [] →
    srDistinct s.cfg → s.env.chip.dpd = false → anySet s.env.chip.sr s.cfg.mWip = true →
    a.toNat < s.cfg.sectorCount → n.toNat ≤ s.cfg.bufSize →
    n.toNat ≤ s.cfg.pageSize - a'.toNat % s.cfg.pageSize →
    ∃ t u v, exec (.eraseSector a n') s = .next t ∧ exec (.write a' n) s = .next u ∧
      exec (.pollReady a'' tmo) s = .next v ∧ v.completed .ok ∧
      v.env.chip =
        (if s.env.chip.inflight = .none then s.env.chip
          else { s.env.chip with
            sr := s.env.chip.sr &&& ~~~s.cfg.mWip &&& ~~~s.cfg.mWel, inflight := .none }) ∧
      t.env.chip = s.env.chip ∧ u.env.chip.mem = s.env.chip.mem ∧
      (anySet s.env.chip.sr s.cfg.mWel = true →
        t.completed .ok ∧ u.completed .ok ∧ u.env.chip.inflight = .none) ∧
      (anySet s.env.chip.sr s.cfg.mWel = false →
        t.aborted .bus .error ∧ u.aborted .bus .error ∧ programCommands u.trace = [] ∧
          u.env.chip = s.env.chip)

/-- In deep power-down the reference chip ignores everything but the leave instruction, and the polls time
out (70_reset_and_hazards.md R263, 60_exceptions.md R240; that an AutoPoll then fails is the model's
reading, log 11). Only a cycle in flight may still end on its own (20_memory.md R80; log 32). -/
def Obligations.SleepingChipIgnoresCommands : Prop :=
  (∀ (i : Instr) (s t : State), s.env.mode = .refchip → s.env.chip.dpd = true →
    (∀ a n, i ≠ .wakeup a n) → i ≠ .tWake → exec i s = .next t →
    (true ∉ s.env.completions → t.env.chip = s.env.chip) ∧
      (t.env.chip = s.env.chip ∨ t.env.chip = s.env.chip.complete s.cfg)) ∧
  (∀ (a n : Word) (s : State), s.onChip → s.env.chip.dpd = true → s.phase = [] →
    ∃ t u, exec (.pollReady a n) s = .next t ∧ t.aborted .bus .error ∧
      exec (.writeEnable a n) s = .next u ∧ u.aborted .bus .error ∧ u.trace.length = 2)

/-- The round trip (95_test_vectors.md S6): on a ready reference chip, over an erased range inside the
array, WRITE returns OK, and a READ of the same range, whatever BUF then holds, returns OK and gives the
original bytes back. The host holds BUF stable while it runs, its duty (70_reset_and_hazards.md R264). -/
def Obligations.WriteReadRoundTrip : Prop :=
  ∀ (a n : Word) (s : State), s.onChip → s.inv = true → s.phase = [] → srDistinct s.cfg →
    s.env.chip.ready s.cfg → n.toNat ≤ s.cfg.bufSize →
    a.toNat + n.toNat ≤ s.cfg.flashSize → s.bufStable n.toNat →
    (∀ x, a.toNat ≤ x → x < a.toNat + n.toNat → s.flashByte x = 0xFF) →
    ∃ t, exec (.write a n) s = .next t ∧ t.completed .ok ∧
      (∀ x, x < a.toNat ∨ a.toNat + n.toNat ≤ x → t.flashByte x = s.flashByte x) ∧
      ∀ buf : Memory, Memory.wf bufBackground buf = true →
        ∃ u, exec (.read a n) (t.setBuf buf) = .next u ∧ u.completed .ok ∧
          ∀ j, j < n.toNat → u.bufByte j = s.bufByte j
end

