-- ==== Sys2Proof/Laws/State.lean ====
section
/-!
SUPPORT. One lemma per field per named update of the state, each true by `rfl`: no later proof unfolds a
record update.
-/

namespace Sys2Proof.Machine

variable (s : State)

/-! ### `State.setPhase` -/

@[simp] theorem State.setPhase_cfg (v : List Label) : (s.setPhase v).cfg = s.cfg := rfl
@[simp] theorem State.setPhase_phase (v : List Label) : (s.setPhase v).phase = v := rfl
@[simp] theorem State.setPhase_status (v : List Label) : (s.setPhase v).status = s.status := rfl
@[simp] theorem State.setPhase_inited (v : List Label) : (s.setPhase v).inited = s.inited := rfl
@[simp] theorem State.setPhase_done (v : List Label) : (s.setPhase v).done = s.done := rfl
@[simp] theorem State.setPhase_req (v : List Label) : (s.setPhase v).req = s.req := rfl
@[simp] theorem State.setPhase_work (v : List Label) : (s.setPhase v).work = s.work := rfl
@[simp] theorem State.setPhase_scratch (v : List Label) : (s.setPhase v).scratch = s.scratch := rfl
@[simp] theorem State.setPhase_tmo (v : List Label) : (s.setPhase v).tmo = s.tmo := rfl
@[simp] theorem State.setPhase_buf (v : List Label) : (s.setPhase v).buf = s.buf := rfl
@[simp] theorem State.setPhase_env (v : List Label) : (s.setPhase v).env = s.env := rfl
@[simp] theorem State.setPhase_trace (v : List Label) : (s.setPhase v).trace = s.trace := rfl
@[simp] theorem State.setPhase_cause (v : List Label) : (s.setPhase v).cause = s.cause := rfl
@[simp] theorem State.setPhase_host (v : List Label) : (s.setPhase v).host = s.host := rfl
@[simp] theorem State.setPhase_hostStores (v : List Label) :
    (s.setPhase v).hostStores = s.hostStores := rfl

/-! ### `State.setStatus` -/

@[simp] theorem State.setStatus_cfg (v : StatusCode) : (s.setStatus v).cfg = s.cfg := rfl
@[simp] theorem State.setStatus_phase (v : StatusCode) : (s.setStatus v).phase = s.phase := rfl
@[simp] theorem State.setStatus_status (v : StatusCode) : (s.setStatus v).status = v := rfl
@[simp] theorem State.setStatus_inited (v : StatusCode) : (s.setStatus v).inited = s.inited := rfl
@[simp] theorem State.setStatus_done (v : StatusCode) : (s.setStatus v).done = s.done := rfl
@[simp] theorem State.setStatus_req (v : StatusCode) : (s.setStatus v).req = s.req := rfl
@[simp] theorem State.setStatus_work (v : StatusCode) : (s.setStatus v).work = s.work := rfl
@[simp] theorem State.setStatus_scratch (v : StatusCode) : (s.setStatus v).scratch = s.scratch := rfl
@[simp] theorem State.setStatus_tmo (v : StatusCode) : (s.setStatus v).tmo = s.tmo := rfl
@[simp] theorem State.setStatus_buf (v : StatusCode) : (s.setStatus v).buf = s.buf := rfl
@[simp] theorem State.setStatus_env (v : StatusCode) : (s.setStatus v).env = s.env := rfl
@[simp] theorem State.setStatus_trace (v : StatusCode) : (s.setStatus v).trace = s.trace := rfl
@[simp] theorem State.setStatus_cause (v : StatusCode) : (s.setStatus v).cause = s.cause := rfl
@[simp] theorem State.setStatus_host (v : StatusCode) : (s.setStatus v).host = s.host := rfl
@[simp] theorem State.setStatus_hostStores (v : StatusCode) :
    (s.setStatus v).hostStores = s.hostStores := rfl

/-! ### `State.setInited` -/

@[simp] theorem State.setInited_cfg (v : Bool) : (s.setInited v).cfg = s.cfg := rfl
@[simp] theorem State.setInited_phase (v : Bool) : (s.setInited v).phase = s.phase := rfl
@[simp] theorem State.setInited_status (v : Bool) : (s.setInited v).status = s.status := rfl
@[simp] theorem State.setInited_inited (v : Bool) : (s.setInited v).inited = v := rfl
@[simp] theorem State.setInited_done (v : Bool) : (s.setInited v).done = s.done := rfl
@[simp] theorem State.setInited_req (v : Bool) : (s.setInited v).req = s.req := rfl
@[simp] theorem State.setInited_work (v : Bool) : (s.setInited v).work = s.work := rfl
@[simp] theorem State.setInited_scratch (v : Bool) : (s.setInited v).scratch = s.scratch := rfl
@[simp] theorem State.setInited_tmo (v : Bool) : (s.setInited v).tmo = s.tmo := rfl
@[simp] theorem State.setInited_buf (v : Bool) : (s.setInited v).buf = s.buf := rfl
@[simp] theorem State.setInited_env (v : Bool) : (s.setInited v).env = s.env := rfl
@[simp] theorem State.setInited_trace (v : Bool) : (s.setInited v).trace = s.trace := rfl
@[simp] theorem State.setInited_cause (v : Bool) : (s.setInited v).cause = s.cause := rfl
@[simp] theorem State.setInited_host (v : Bool) : (s.setInited v).host = s.host := rfl
@[simp] theorem State.setInited_hostStores (v : Bool) :
    (s.setInited v).hostStores = s.hostStores := rfl

/-! ### `State.setDone` -/

@[simp] theorem State.setDone_cfg (v : Bool) : (s.setDone v).cfg = s.cfg := rfl
@[simp] theorem State.setDone_phase (v : Bool) : (s.setDone v).phase = s.phase := rfl
@[simp] theorem State.setDone_status (v : Bool) : (s.setDone v).status = s.status := rfl
@[simp] theorem State.setDone_inited (v : Bool) : (s.setDone v).inited = s.inited := rfl
@[simp] theorem State.setDone_done (v : Bool) : (s.setDone v).done = v := rfl
@[simp] theorem State.setDone_req (v : Bool) : (s.setDone v).req = s.req := rfl
@[simp] theorem State.setDone_work (v : Bool) : (s.setDone v).work = s.work := rfl
@[simp] theorem State.setDone_scratch (v : Bool) : (s.setDone v).scratch = s.scratch := rfl
@[simp] theorem State.setDone_tmo (v : Bool) : (s.setDone v).tmo = s.tmo := rfl
@[simp] theorem State.setDone_buf (v : Bool) : (s.setDone v).buf = s.buf := rfl
@[simp] theorem State.setDone_env (v : Bool) : (s.setDone v).env = s.env := rfl
@[simp] theorem State.setDone_trace (v : Bool) : (s.setDone v).trace = s.trace := rfl
@[simp] theorem State.setDone_cause (v : Bool) : (s.setDone v).cause = s.cause := rfl
@[simp] theorem State.setDone_host (v : Bool) : (s.setDone v).host = s.host := rfl
@[simp] theorem State.setDone_hostStores (v : Bool) : (s.setDone v).hostStores = s.hostStores := rfl

/-! ### `State.setReq` -/

@[simp] theorem State.setReq_cfg (v : Latches) : (s.setReq v).cfg = s.cfg := rfl
@[simp] theorem State.setReq_phase (v : Latches) : (s.setReq v).phase = s.phase := rfl
@[simp] theorem State.setReq_status (v : Latches) : (s.setReq v).status = s.status := rfl
@[simp] theorem State.setReq_inited (v : Latches) : (s.setReq v).inited = s.inited := rfl
@[simp] theorem State.setReq_done (v : Latches) : (s.setReq v).done = s.done := rfl
@[simp] theorem State.setReq_req (v : Latches) : (s.setReq v).req = v := rfl
@[simp] theorem State.setReq_work (v : Latches) : (s.setReq v).work = s.work := rfl
@[simp] theorem State.setReq_scratch (v : Latches) : (s.setReq v).scratch = s.scratch := rfl
@[simp] theorem State.setReq_tmo (v : Latches) : (s.setReq v).tmo = s.tmo := rfl
@[simp] theorem State.setReq_buf (v : Latches) : (s.setReq v).buf = s.buf := rfl
@[simp] theorem State.setReq_env (v : Latches) : (s.setReq v).env = s.env := rfl
@[simp] theorem State.setReq_trace (v : Latches) : (s.setReq v).trace = s.trace := rfl
@[simp] theorem State.setReq_cause (v : Latches) : (s.setReq v).cause = s.cause := rfl
@[simp] theorem State.setReq_host (v : Latches) : (s.setReq v).host = s.host := rfl
@[simp] theorem State.setReq_hostStores (v : Latches) :
    (s.setReq v).hostStores = s.hostStores := rfl

/-! ### `State.setWork` -/

@[simp] theorem State.setWork_cfg (v : Work) : (s.setWork v).cfg = s.cfg := rfl
@[simp] theorem State.setWork_phase (v : Work) : (s.setWork v).phase = s.phase := rfl
@[simp] theorem State.setWork_status (v : Work) : (s.setWork v).status = s.status := rfl
@[simp] theorem State.setWork_inited (v : Work) : (s.setWork v).inited = s.inited := rfl
@[simp] theorem State.setWork_done (v : Work) : (s.setWork v).done = s.done := rfl
@[simp] theorem State.setWork_req (v : Work) : (s.setWork v).req = s.req := rfl
@[simp] theorem State.setWork_work (v : Work) : (s.setWork v).work = v := rfl
@[simp] theorem State.setWork_scratch (v : Work) : (s.setWork v).scratch = s.scratch := rfl
@[simp] theorem State.setWork_tmo (v : Work) : (s.setWork v).tmo = s.tmo := rfl
@[simp] theorem State.setWork_buf (v : Work) : (s.setWork v).buf = s.buf := rfl
@[simp] theorem State.setWork_env (v : Work) : (s.setWork v).env = s.env := rfl
@[simp] theorem State.setWork_trace (v : Work) : (s.setWork v).trace = s.trace := rfl
@[simp] theorem State.setWork_cause (v : Work) : (s.setWork v).cause = s.cause := rfl
@[simp] theorem State.setWork_host (v : Work) : (s.setWork v).host = s.host := rfl
@[simp] theorem State.setWork_hostStores (v : Work) : (s.setWork v).hostStores = s.hostStores := rfl

/-! ### `State.setScratch` -/

@[simp] theorem State.setScratch_cfg (v : Scratch) : (s.setScratch v).cfg = s.cfg := rfl
@[simp] theorem State.setScratch_phase (v : Scratch) : (s.setScratch v).phase = s.phase := rfl
@[simp] theorem State.setScratch_status (v : Scratch) : (s.setScratch v).status = s.status := rfl
@[simp] theorem State.setScratch_inited (v : Scratch) : (s.setScratch v).inited = s.inited := rfl
@[simp] theorem State.setScratch_done (v : Scratch) : (s.setScratch v).done = s.done := rfl
@[simp] theorem State.setScratch_req (v : Scratch) : (s.setScratch v).req = s.req := rfl
@[simp] theorem State.setScratch_work (v : Scratch) : (s.setScratch v).work = s.work := rfl
@[simp] theorem State.setScratch_scratch (v : Scratch) : (s.setScratch v).scratch = v := rfl
@[simp] theorem State.setScratch_tmo (v : Scratch) : (s.setScratch v).tmo = s.tmo := rfl
@[simp] theorem State.setScratch_buf (v : Scratch) : (s.setScratch v).buf = s.buf := rfl
@[simp] theorem State.setScratch_env (v : Scratch) : (s.setScratch v).env = s.env := rfl
@[simp] theorem State.setScratch_trace (v : Scratch) : (s.setScratch v).trace = s.trace := rfl
@[simp] theorem State.setScratch_cause (v : Scratch) : (s.setScratch v).cause = s.cause := rfl
@[simp] theorem State.setScratch_host (v : Scratch) : (s.setScratch v).host = s.host := rfl
@[simp] theorem State.setScratch_hostStores (v : Scratch) :
    (s.setScratch v).hostStores = s.hostStores := rfl

/-! ### `State.setTmo` -/

@[simp] theorem State.setTmo_cfg (v : Timeouts) : (s.setTmo v).cfg = s.cfg := rfl
@[simp] theorem State.setTmo_phase (v : Timeouts) : (s.setTmo v).phase = s.phase := rfl
@[simp] theorem State.setTmo_status (v : Timeouts) : (s.setTmo v).status = s.status := rfl
@[simp] theorem State.setTmo_inited (v : Timeouts) : (s.setTmo v).inited = s.inited := rfl
@[simp] theorem State.setTmo_done (v : Timeouts) : (s.setTmo v).done = s.done := rfl
@[simp] theorem State.setTmo_req (v : Timeouts) : (s.setTmo v).req = s.req := rfl
@[simp] theorem State.setTmo_work (v : Timeouts) : (s.setTmo v).work = s.work := rfl
@[simp] theorem State.setTmo_scratch (v : Timeouts) : (s.setTmo v).scratch = s.scratch := rfl
@[simp] theorem State.setTmo_tmo (v : Timeouts) : (s.setTmo v).tmo = v := rfl
@[simp] theorem State.setTmo_buf (v : Timeouts) : (s.setTmo v).buf = s.buf := rfl
@[simp] theorem State.setTmo_env (v : Timeouts) : (s.setTmo v).env = s.env := rfl
@[simp] theorem State.setTmo_trace (v : Timeouts) : (s.setTmo v).trace = s.trace := rfl
@[simp] theorem State.setTmo_cause (v : Timeouts) : (s.setTmo v).cause = s.cause := rfl
@[simp] theorem State.setTmo_host (v : Timeouts) : (s.setTmo v).host = s.host := rfl
@[simp] theorem State.setTmo_hostStores (v : Timeouts) :
    (s.setTmo v).hostStores = s.hostStores := rfl

/-! ### `State.setBuf` -/

@[simp] theorem State.setBuf_cfg (v : Memory) : (s.setBuf v).cfg = s.cfg := rfl
@[simp] theorem State.setBuf_phase (v : Memory) : (s.setBuf v).phase = s.phase := rfl
@[simp] theorem State.setBuf_status (v : Memory) : (s.setBuf v).status = s.status := rfl
@[simp] theorem State.setBuf_inited (v : Memory) : (s.setBuf v).inited = s.inited := rfl
@[simp] theorem State.setBuf_done (v : Memory) : (s.setBuf v).done = s.done := rfl
@[simp] theorem State.setBuf_req (v : Memory) : (s.setBuf v).req = s.req := rfl
@[simp] theorem State.setBuf_work (v : Memory) : (s.setBuf v).work = s.work := rfl
@[simp] theorem State.setBuf_scratch (v : Memory) : (s.setBuf v).scratch = s.scratch := rfl
@[simp] theorem State.setBuf_tmo (v : Memory) : (s.setBuf v).tmo = s.tmo := rfl
@[simp] theorem State.setBuf_buf (v : Memory) : (s.setBuf v).buf = v := rfl
@[simp] theorem State.setBuf_env (v : Memory) : (s.setBuf v).env = s.env := rfl
@[simp] theorem State.setBuf_trace (v : Memory) : (s.setBuf v).trace = s.trace := rfl
@[simp] theorem State.setBuf_cause (v : Memory) : (s.setBuf v).cause = s.cause := rfl
@[simp] theorem State.setBuf_host (v : Memory) : (s.setBuf v).host = s.host := rfl
@[simp] theorem State.setBuf_hostStores (v : Memory) : (s.setBuf v).hostStores = s.hostStores := rfl

/-! ### `State.setEnv` -/

@[simp] theorem State.setEnv_cfg (v : Env) : (s.setEnv v).cfg = s.cfg := rfl
@[simp] theorem State.setEnv_phase (v : Env) : (s.setEnv v).phase = s.phase := rfl
@[simp] theorem State.setEnv_status (v : Env) : (s.setEnv v).status = s.status := rfl
@[simp] theorem State.setEnv_inited (v : Env) : (s.setEnv v).inited = s.inited := rfl
@[simp] theorem State.setEnv_done (v : Env) : (s.setEnv v).done = s.done := rfl
@[simp] theorem State.setEnv_req (v : Env) : (s.setEnv v).req = s.req := rfl
@[simp] theorem State.setEnv_work (v : Env) : (s.setEnv v).work = s.work := rfl
@[simp] theorem State.setEnv_scratch (v : Env) : (s.setEnv v).scratch = s.scratch := rfl
@[simp] theorem State.setEnv_tmo (v : Env) : (s.setEnv v).tmo = s.tmo := rfl
@[simp] theorem State.setEnv_buf (v : Env) : (s.setEnv v).buf = s.buf := rfl
@[simp] theorem State.setEnv_env (v : Env) : (s.setEnv v).env = v := rfl
@[simp] theorem State.setEnv_trace (v : Env) : (s.setEnv v).trace = s.trace := rfl
@[simp] theorem State.setEnv_cause (v : Env) : (s.setEnv v).cause = s.cause := rfl
@[simp] theorem State.setEnv_host (v : Env) : (s.setEnv v).host = s.host := rfl
@[simp] theorem State.setEnv_hostStores (v : Env) : (s.setEnv v).hostStores = s.hostStores := rfl

/-! ### `State.setTrace` -/

@[simp] theorem State.setTrace_cfg (v : List Event) : (s.setTrace v).cfg = s.cfg := rfl
@[simp] theorem State.setTrace_phase (v : List Event) : (s.setTrace v).phase = s.phase := rfl
@[simp] theorem State.setTrace_status (v : List Event) : (s.setTrace v).status = s.status := rfl
@[simp] theorem State.setTrace_inited (v : List Event) : (s.setTrace v).inited = s.inited := rfl
@[simp] theorem State.setTrace_done (v : List Event) : (s.setTrace v).done = s.done := rfl
@[simp] theorem State.setTrace_req (v : List Event) : (s.setTrace v).req = s.req := rfl
@[simp] theorem State.setTrace_work (v : List Event) : (s.setTrace v).work = s.work := rfl
@[simp] theorem State.setTrace_scratch (v : List Event) : (s.setTrace v).scratch = s.scratch := rfl
@[simp] theorem State.setTrace_tmo (v : List Event) : (s.setTrace v).tmo = s.tmo := rfl
@[simp] theorem State.setTrace_buf (v : List Event) : (s.setTrace v).buf = s.buf := rfl
@[simp] theorem State.setTrace_env (v : List Event) : (s.setTrace v).env = s.env := rfl
@[simp] theorem State.setTrace_trace (v : List Event) : (s.setTrace v).trace = v := rfl
@[simp] theorem State.setTrace_cause (v : List Event) : (s.setTrace v).cause = s.cause := rfl
@[simp] theorem State.setTrace_host (v : List Event) : (s.setTrace v).host = s.host := rfl
@[simp] theorem State.setTrace_hostStores (v : List Event) :
    (s.setTrace v).hostStores = s.hostStores := rfl

/-! ### `State.setCause` -/

@[simp] theorem State.setCause_cfg (v : Option Cause) : (s.setCause v).cfg = s.cfg := rfl
@[simp] theorem State.setCause_phase (v : Option Cause) : (s.setCause v).phase = s.phase := rfl
@[simp] theorem State.setCause_status (v : Option Cause) : (s.setCause v).status = s.status := rfl
@[simp] theorem State.setCause_inited (v : Option Cause) : (s.setCause v).inited = s.inited := rfl
@[simp] theorem State.setCause_done (v : Option Cause) : (s.setCause v).done = s.done := rfl
@[simp] theorem State.setCause_req (v : Option Cause) : (s.setCause v).req = s.req := rfl
@[simp] theorem State.setCause_work (v : Option Cause) : (s.setCause v).work = s.work := rfl
@[simp] theorem State.setCause_scratch (v : Option Cause) : (s.setCause v).scratch = s.scratch := rfl
@[simp] theorem State.setCause_tmo (v : Option Cause) : (s.setCause v).tmo = s.tmo := rfl
@[simp] theorem State.setCause_buf (v : Option Cause) : (s.setCause v).buf = s.buf := rfl
@[simp] theorem State.setCause_env (v : Option Cause) : (s.setCause v).env = s.env := rfl
@[simp] theorem State.setCause_trace (v : Option Cause) : (s.setCause v).trace = s.trace := rfl
@[simp] theorem State.setCause_cause (v : Option Cause) : (s.setCause v).cause = v := rfl
@[simp] theorem State.setCause_host (v : Option Cause) : (s.setCause v).host = s.host := rfl
@[simp] theorem State.setCause_hostStores (v : Option Cause) :
    (s.setCause v).hostStores = s.hostStores := rfl

/-! ### `State.setHost` -/

@[simp] theorem State.setHost_cfg (v : HostPort) : (s.setHost v).cfg = s.cfg := rfl
@[simp] theorem State.setHost_phase (v : HostPort) : (s.setHost v).phase = s.phase := rfl
@[simp] theorem State.setHost_status (v : HostPort) : (s.setHost v).status = s.status := rfl
@[simp] theorem State.setHost_inited (v : HostPort) : (s.setHost v).inited = s.inited := rfl
@[simp] theorem State.setHost_done (v : HostPort) : (s.setHost v).done = s.done := rfl
@[simp] theorem State.setHost_req (v : HostPort) : (s.setHost v).req = s.req := rfl
@[simp] theorem State.setHost_work (v : HostPort) : (s.setHost v).work = s.work := rfl
@[simp] theorem State.setHost_scratch (v : HostPort) : (s.setHost v).scratch = s.scratch := rfl
@[simp] theorem State.setHost_tmo (v : HostPort) : (s.setHost v).tmo = s.tmo := rfl
@[simp] theorem State.setHost_buf (v : HostPort) : (s.setHost v).buf = s.buf := rfl
@[simp] theorem State.setHost_env (v : HostPort) : (s.setHost v).env = s.env := rfl
@[simp] theorem State.setHost_trace (v : HostPort) : (s.setHost v).trace = s.trace := rfl
@[simp] theorem State.setHost_cause (v : HostPort) : (s.setHost v).cause = s.cause := rfl
@[simp] theorem State.setHost_host (v : HostPort) : (s.setHost v).host = v := rfl
@[simp] theorem State.setHost_hostStores (v : HostPort) :
    (s.setHost v).hostStores = s.hostStores := rfl

/-! ### `State.setHostStores` -/

@[simp] theorem State.setHostStores_cfg (v : List (List BufStore)) :
    (s.setHostStores v).cfg = s.cfg := rfl
@[simp] theorem State.setHostStores_phase (v : List (List BufStore)) :
    (s.setHostStores v).phase = s.phase := rfl
@[simp] theorem State.setHostStores_status (v : List (List BufStore)) :
    (s.setHostStores v).status = s.status := rfl
@[simp] theorem State.setHostStores_inited (v : List (List BufStore)) :
    (s.setHostStores v).inited = s.inited := rfl
@[simp] theorem State.setHostStores_done (v : List (List BufStore)) :
    (s.setHostStores v).done = s.done := rfl
@[simp] theorem State.setHostStores_req (v : List (List BufStore)) :
    (s.setHostStores v).req = s.req := rfl
@[simp] theorem State.setHostStores_work (v : List (List BufStore)) :
    (s.setHostStores v).work = s.work := rfl
@[simp] theorem State.setHostStores_scratch (v : List (List BufStore)) :
    (s.setHostStores v).scratch = s.scratch := rfl
@[simp] theorem State.setHostStores_tmo (v : List (List BufStore)) :
    (s.setHostStores v).tmo = s.tmo := rfl
@[simp] theorem State.setHostStores_buf (v : List (List BufStore)) :
    (s.setHostStores v).buf = s.buf := rfl
@[simp] theorem State.setHostStores_env (v : List (List BufStore)) :
    (s.setHostStores v).env = s.env := rfl
@[simp] theorem State.setHostStores_trace (v : List (List BufStore)) :
    (s.setHostStores v).trace = s.trace := rfl
@[simp] theorem State.setHostStores_cause (v : List (List BufStore)) :
    (s.setHostStores v).cause = s.cause := rfl
@[simp] theorem State.setHostStores_host (v : List (List BufStore)) :
    (s.setHostStores v).host = s.host := rfl
@[simp] theorem State.setHostStores_hostStores (v : List (List BufStore)) :
    (s.setHostStores v).hostStores = v := rfl

/-! ### `State.accept` -/

@[simp] theorem State.accept_cfg (op : Byte) (a n : Word) : (s.accept op a n).cfg = s.cfg := rfl
@[simp] theorem State.accept_phase (op : Byte) (a n : Word) :
    (s.accept op a n).phase = s.phase := rfl
@[simp] theorem State.accept_status (op : Byte) (a n : Word) :
    (s.accept op a n).status = s.status := rfl
@[simp] theorem State.accept_inited (op : Byte) (a n : Word) :
    (s.accept op a n).inited = s.inited := rfl
@[simp] theorem State.accept_done (op : Byte) (a n : Word) : (s.accept op a n).done = false := rfl
@[simp] theorem State.accept_req (op : Byte) (a n : Word) :
    (s.accept op a n).req = ⟨op, a, n⟩ := rfl
@[simp] theorem State.accept_work (op : Byte) (a n : Word) : (s.accept op a n).work = s.work := rfl
@[simp] theorem State.accept_scratch (op : Byte) (a n : Word) :
    (s.accept op a n).scratch = s.scratch := rfl
@[simp] theorem State.accept_tmo (op : Byte) (a n : Word) : (s.accept op a n).tmo = s.tmo := rfl
@[simp] theorem State.accept_buf (op : Byte) (a n : Word) : (s.accept op a n).buf = s.buf := rfl
@[simp] theorem State.accept_env (op : Byte) (a n : Word) : (s.accept op a n).env = s.env := rfl
@[simp] theorem State.accept_trace (op : Byte) (a n : Word) : (s.accept op a n).trace = [] := rfl
@[simp] theorem State.accept_cause (op : Byte) (a n : Word) : (s.accept op a n).cause = none := rfl
@[simp] theorem State.accept_host (op : Byte) (a n : Word) : (s.accept op a n).host = s.host := rfl
@[simp] theorem State.accept_hostStores (op : Byte) (a n : Word) :
    (s.accept op a n).hostStores = s.hostStores := rfl

/-! ### `State.finish` -/

@[simp] theorem State.finish_cfg (code : StatusCode) : (s.finish code).cfg = s.cfg := rfl
@[simp] theorem State.finish_phase (code : StatusCode) : (s.finish code).phase = [] := rfl
@[simp] theorem State.finish_status (code : StatusCode) : (s.finish code).status = code := rfl
@[simp] theorem State.finish_inited (code : StatusCode) : (s.finish code).inited = s.inited := rfl
@[simp] theorem State.finish_done (code : StatusCode) : (s.finish code).done = true := rfl
@[simp] theorem State.finish_req (code : StatusCode) : (s.finish code).req = s.req := rfl
@[simp] theorem State.finish_work (code : StatusCode) : (s.finish code).work = s.work := rfl
@[simp] theorem State.finish_scratch (code : StatusCode) :
    (s.finish code).scratch = s.scratch := rfl
@[simp] theorem State.finish_tmo (code : StatusCode) : (s.finish code).tmo = s.tmo := rfl
@[simp] theorem State.finish_buf (code : StatusCode) : (s.finish code).buf = s.buf := rfl
@[simp] theorem State.finish_env (code : StatusCode) : (s.finish code).env = s.env := rfl
@[simp] theorem State.finish_trace (code : StatusCode) : (s.finish code).trace = s.trace := rfl
@[simp] theorem State.finish_cause (code : StatusCode) :
    (s.finish code).cause = if code.isAbort then s.cause else none := rfl
@[simp] theorem State.finish_host (code : StatusCode) : (s.finish code).host = s.host := rfl
@[simp] theorem State.finish_hostStores (code : StatusCode) :
    (s.finish code).hostStores = s.hostStores := rfl

/-! ### `State.afterCall` -/

@[simp] theorem State.afterCall_cfg (c : Call) : (s.afterCall c).cfg = s.cfg := rfl
@[simp] theorem State.afterCall_phase (c : Call) : (s.afterCall c).phase = s.phase := rfl
@[simp] theorem State.afterCall_status (c : Call) : (s.afterCall c).status = s.status := rfl
@[simp] theorem State.afterCall_inited (c : Call) : (s.afterCall c).inited = s.inited := rfl
@[simp] theorem State.afterCall_done (c : Call) : (s.afterCall c).done = s.done := rfl
@[simp] theorem State.afterCall_req (c : Call) : (s.afterCall c).req = s.req := rfl
@[simp] theorem State.afterCall_work (c : Call) : (s.afterCall c).work = s.work := rfl
@[simp] theorem State.afterCall_scratch (c : Call) : (s.afterCall c).scratch = s.scratch := rfl
@[simp] theorem State.afterCall_tmo (c : Call) : (s.afterCall c).tmo = s.tmo := rfl
@[simp] theorem State.afterCall_buf (c : Call) :
    (s.afterCall c).buf = applyStores s.cfg s.buf (s.hostStores.headD []) := rfl
@[simp] theorem State.afterCall_env (c : Call) : (s.afterCall c).env = s.env.after s.cfg c := rfl
@[simp] theorem State.afterCall_trace (c : Call) :
    (s.afterCall c).trace = s.trace ++ [⟨s.phase, c, (s.env.respond s.cfg c).1⟩] := rfl
@[simp] theorem State.afterCall_cause (c : Call) : (s.afterCall c).cause = s.cause := rfl
@[simp] theorem State.afterCall_host (c : Call) : (s.afterCall c).host = s.host := rfl
@[simp] theorem State.afterCall_hostStores (c : Call) :
    (s.afterCall c).hostStores = s.hostStores.tail := rfl

/-! ### `State.logCall` -/

@[simp] theorem State.logCall_cfg (c : Call) (r : Answer) : (s.logCall c r).cfg = s.cfg := rfl
@[simp] theorem State.logCall_phase (c : Call) (r : Answer) : (s.logCall c r).phase = s.phase := rfl
@[simp] theorem State.logCall_status (c : Call) (r : Answer) :
    (s.logCall c r).status = s.status := rfl
@[simp] theorem State.logCall_inited (c : Call) (r : Answer) :
    (s.logCall c r).inited = s.inited := rfl
@[simp] theorem State.logCall_done (c : Call) (r : Answer) : (s.logCall c r).done = s.done := rfl
@[simp] theorem State.logCall_req (c : Call) (r : Answer) : (s.logCall c r).req = s.req := rfl
@[simp] theorem State.logCall_work (c : Call) (r : Answer) : (s.logCall c r).work = s.work := rfl
@[simp] theorem State.logCall_scratch (c : Call) (r : Answer) :
    (s.logCall c r).scratch = s.scratch := rfl
@[simp] theorem State.logCall_tmo (c : Call) (r : Answer) : (s.logCall c r).tmo = s.tmo := rfl
@[simp] theorem State.logCall_buf (c : Call) (r : Answer) : (s.logCall c r).buf = s.buf := rfl
@[simp] theorem State.logCall_env (c : Call) (r : Answer) : (s.logCall c r).env = s.env := rfl
@[simp] theorem State.logCall_trace (c : Call) (r : Answer) :
    (s.logCall c r).trace = s.trace ++ [⟨s.phase, c, r⟩] := rfl
@[simp] theorem State.logCall_cause (c : Call) (r : Answer) : (s.logCall c r).cause = s.cause := rfl
@[simp] theorem State.logCall_host (c : Call) (r : Answer) : (s.logCall c r).host = s.host := rfl
@[simp] theorem State.logCall_hostStores (c : Call) (r : Answer) :
    (s.logCall c r).hostStores = s.hostStores := rfl

/-! ### `State.take` -/

@[simp] theorem State.take_cfg (rest : List PortEvent) : (s.take rest).cfg = s.cfg := rfl
@[simp] theorem State.take_phase (rest : List PortEvent) : (s.take rest).phase = s.phase := rfl
@[simp] theorem State.take_status (rest : List PortEvent) : (s.take rest).status = s.status := rfl
@[simp] theorem State.take_inited (rest : List PortEvent) : (s.take rest).inited = s.inited := rfl
@[simp] theorem State.take_done (rest : List PortEvent) : (s.take rest).done = false := rfl
@[simp] theorem State.take_req (rest : List PortEvent) : (s.take rest).req = s.req := rfl
@[simp] theorem State.take_work (rest : List PortEvent) : (s.take rest).work = s.work := rfl
@[simp] theorem State.take_scratch (rest : List PortEvent) :
    (s.take rest).scratch = s.scratch := rfl
@[simp] theorem State.take_tmo (rest : List PortEvent) : (s.take rest).tmo = s.tmo := rfl
@[simp] theorem State.take_buf (rest : List PortEvent) : (s.take rest).buf = s.buf := rfl
@[simp] theorem State.take_env (rest : List PortEvent) : (s.take rest).env = s.env := rfl
@[simp] theorem State.take_trace (rest : List PortEvent) : (s.take rest).trace = s.trace := rfl
@[simp] theorem State.take_cause (rest : List PortEvent) : (s.take rest).cause = s.cause := rfl
@[simp] theorem State.take_host (rest : List PortEvent) :
    (s.take rest).host = { s.host with inbox := rest } := rfl
@[simp] theorem State.take_hostStores (rest : List PortEvent) :
    (s.take rest).hostStores = s.hostStores := rfl

/-! ### `State.storeBuf` -/

@[simp] theorem State.storeBuf_cfg (off : Nat) (bytes : List Byte) :
    (s.storeBuf off bytes).cfg = s.cfg := rfl
@[simp] theorem State.storeBuf_phase (off : Nat) (bytes : List Byte) :
    (s.storeBuf off bytes).phase = s.phase := rfl
@[simp] theorem State.storeBuf_status (off : Nat) (bytes : List Byte) :
    (s.storeBuf off bytes).status = s.status := rfl
@[simp] theorem State.storeBuf_inited (off : Nat) (bytes : List Byte) :
    (s.storeBuf off bytes).inited = s.inited := rfl
@[simp] theorem State.storeBuf_done (off : Nat) (bytes : List Byte) :
    (s.storeBuf off bytes).done = s.done := rfl
@[simp] theorem State.storeBuf_req (off : Nat) (bytes : List Byte) :
    (s.storeBuf off bytes).req = s.req := rfl
@[simp] theorem State.storeBuf_work (off : Nat) (bytes : List Byte) :
    (s.storeBuf off bytes).work = s.work := rfl
@[simp] theorem State.storeBuf_scratch (off : Nat) (bytes : List Byte) :
    (s.storeBuf off bytes).scratch = s.scratch := rfl
@[simp] theorem State.storeBuf_tmo (off : Nat) (bytes : List Byte) :
    (s.storeBuf off bytes).tmo = s.tmo := rfl
@[simp] theorem State.storeBuf_buf (off : Nat) (bytes : List Byte) :
    (s.storeBuf off bytes).buf = Memory.writeBytes bufBackground s.buf off bytes := rfl
@[simp] theorem State.storeBuf_env (off : Nat) (bytes : List Byte) :
    (s.storeBuf off bytes).env = s.env := rfl
@[simp] theorem State.storeBuf_trace (off : Nat) (bytes : List Byte) :
    (s.storeBuf off bytes).trace = s.trace := rfl
@[simp] theorem State.storeBuf_cause (off : Nat) (bytes : List Byte) :
    (s.storeBuf off bytes).cause = s.cause := rfl
@[simp] theorem State.storeBuf_host (off : Nat) (bytes : List Byte) :
    (s.storeBuf off bytes).host = s.host := rfl
@[simp] theorem State.storeBuf_hostStores (off : Nat) (bytes : List Byte) :
    (s.storeBuf off bytes).hostStores = s.hostStores := rfl

/-! ### `State.writeCsr` -/

@[simp] theorem State.writeCsr_cfg (index : Nat) (v : Word) :
    (s.writeCsr index v).cfg = s.cfg := rfl
@[simp] theorem State.writeCsr_phase (index : Nat) (v : Word) :
    (s.writeCsr index v).phase = s.phase := rfl
@[simp] theorem State.writeCsr_status (index : Nat) (v : Word) :
    (s.writeCsr index v).status = s.status := rfl
@[simp] theorem State.writeCsr_inited (index : Nat) (v : Word) :
    (s.writeCsr index v).inited = s.inited := rfl
@[simp] theorem State.writeCsr_done (index : Nat) (v : Word) :
    (s.writeCsr index v).done = s.done := rfl
@[simp] theorem State.writeCsr_req (index : Nat) (v : Word) :
    (s.writeCsr index v).req = s.req := rfl
@[simp] theorem State.writeCsr_work (index : Nat) (v : Word) :
    (s.writeCsr index v).work = s.work := rfl
@[simp] theorem State.writeCsr_scratch (index : Nat) (v : Word) :
    (s.writeCsr index v).scratch = s.scratch := rfl
@[simp] theorem State.writeCsr_tmo (index : Nat) (v : Word) :
    (s.writeCsr index v).tmo = s.tmo.write index v := rfl
@[simp] theorem State.writeCsr_buf (index : Nat) (v : Word) :
    (s.writeCsr index v).buf = s.buf := rfl
@[simp] theorem State.writeCsr_env (index : Nat) (v : Word) :
    (s.writeCsr index v).env = s.env := rfl
@[simp] theorem State.writeCsr_trace (index : Nat) (v : Word) :
    (s.writeCsr index v).trace = s.trace := rfl
@[simp] theorem State.writeCsr_cause (index : Nat) (v : Word) :
    (s.writeCsr index v).cause = s.cause := rfl
@[simp] theorem State.writeCsr_host (index : Nat) (v : Word) :
    (s.writeCsr index v).host = s.host := rfl
@[simp] theorem State.writeCsr_hostStores (index : Nat) (v : Word) :
    (s.writeCsr index v).hostStores = s.hostStores := rfl

/-! ### `State.latchCsr` -/

@[simp] theorem State.latchCsr_cfg (index : Nat) : (s.latchCsr index).cfg = s.cfg := rfl
@[simp] theorem State.latchCsr_phase (index : Nat) : (s.latchCsr index).phase = s.phase := rfl
@[simp] theorem State.latchCsr_status (index : Nat) : (s.latchCsr index).status = s.status := rfl
@[simp] theorem State.latchCsr_inited (index : Nat) : (s.latchCsr index).inited = s.inited := rfl
@[simp] theorem State.latchCsr_done (index : Nat) : (s.latchCsr index).done = s.done := rfl
@[simp] theorem State.latchCsr_req (index : Nat) : (s.latchCsr index).req = s.req := rfl
@[simp] theorem State.latchCsr_work (index : Nat) : (s.latchCsr index).work = s.work := rfl
@[simp] theorem State.latchCsr_scratch (index : Nat) : (s.latchCsr index).scratch = s.scratch := rfl
@[simp] theorem State.latchCsr_tmo (index : Nat) : (s.latchCsr index).tmo = s.tmo := rfl
@[simp] theorem State.latchCsr_buf (index : Nat) : (s.latchCsr index).buf = s.buf := rfl
@[simp] theorem State.latchCsr_env (index : Nat) : (s.latchCsr index).env = s.env := rfl
@[simp] theorem State.latchCsr_trace (index : Nat) : (s.latchCsr index).trace = s.trace := rfl
@[simp] theorem State.latchCsr_cause (index : Nat) : (s.latchCsr index).cause = s.cause := rfl
@[simp] theorem State.latchCsr_host (index : Nat) :
    (s.latchCsr index).host = { s.host with csrData := s.readCsr index } := rfl
@[simp] theorem State.latchCsr_hostStores (index : Nat) :
    (s.latchCsr index).hostStores = s.hostStores := rfl

/-! ### `State.hardwareReset` -/

@[simp] theorem State.hardwareReset_cfg : (s.hardwareReset).cfg = s.cfg := rfl
@[simp] theorem State.hardwareReset_phase : (s.hardwareReset).phase = [] := rfl
@[simp] theorem State.hardwareReset_status : (s.hardwareReset).status = .ok := rfl
@[simp] theorem State.hardwareReset_inited : (s.hardwareReset).inited = false := rfl
@[simp] theorem State.hardwareReset_done : (s.hardwareReset).done = false := rfl
@[simp] theorem State.hardwareReset_req : (s.hardwareReset).req = Latches.unspecified := rfl
@[simp] theorem State.hardwareReset_work : (s.hardwareReset).work = Work.unspecified := rfl
@[simp] theorem State.hardwareReset_scratch :
    (s.hardwareReset).scratch = Scratch.unspecified := rfl
@[simp] theorem State.hardwareReset_tmo : (s.hardwareReset).tmo = Timeouts.atReset s.cfg := rfl
@[simp] theorem State.hardwareReset_buf : (s.hardwareReset).buf = s.buf := rfl
@[simp] theorem State.hardwareReset_env : (s.hardwareReset).env = s.env := rfl
@[simp] theorem State.hardwareReset_trace : (s.hardwareReset).trace = s.trace := rfl
@[simp] theorem State.hardwareReset_cause : (s.hardwareReset).cause = none := rfl
@[simp] theorem State.hardwareReset_host : (s.hardwareReset).host = s.host := rfl
@[simp] theorem State.hardwareReset_hostStores : (s.hardwareReset).hostStores = s.hostStores := rfl

/-! ### `Env.after` -/

@[simp] theorem Env.after_mode (e : Env) (cfg : Config) (c : Call) : (e.after cfg c).mode = e.mode := rfl
@[simp] theorem Env.after_replies (e : Env) (cfg : Config) (c : Call) : (e.after cfg c).replies = e.replies.tail := rfl
@[simp] theorem Env.after_completions (e : Env) (cfg : Config) (c : Call) : (e.after cfg c).completions = e.completions.tail := rfl
@[simp] theorem Env.after_calls (e : Env) (cfg : Config) (c : Call) : (e.after cfg c).calls = e.calls + 1 := rfl
@[simp] theorem Env.after_lastExec (e : Env) (cfg : Config) (c : Call) : (e.after cfg c).lastExec = c.lastExec e.lastExec := rfl
@[simp] theorem Env.after_lastAnswer (e : Env) (cfg : Config) (c : Call) : (e.after cfg c).lastAnswer = (e.respond cfg c).1 := rfl
@[simp] theorem Env.after_chip (e : Env) (cfg : Config) (c : Call) : (e.after cfg c).chip = (e.respond cfg c).2 := rfl

end Sys2Proof.Machine
end

