-- ==== Sys2Proof/Laws/Memory.lean ====
section
/-!
SUPPORT. The laws of a byte memory: a read after a write, and that every operation keeps the canonical
form `Memory.wf` and the bound `Memory.within`.
-/

namespace Sys2Proof.Machine

variable {bg : Byte} {m : Memory} {x y lo : Nat} {v : Byte}

/-! ### Rising addresses -/

theorem Memory.risingFrom_mono {lo' : Nat} (h : Memory.risingFrom lo m = true) (hl : lo' ≤ lo) :
    Memory.risingFrom lo' m = true := by
  cases m with
  | nil => rfl
  | cons e m =>
    obtain ⟨a, w⟩ := e
    simp only [Memory.risingFrom, Bool.and_eq_true, decide_eq_true_eq] at h ⊢
    exact ⟨by omega, h.2⟩

theorem Memory.read_eq_of_risingFrom (h : Memory.risingFrom lo m = true) (hx : x < lo) :
    Memory.read bg m x = bg := by
  induction m generalizing lo with
  | nil => rfl
  | cons e m ih =>
    obtain ⟨a, w⟩ := e
    simp only [Memory.risingFrom, Bool.and_eq_true, decide_eq_true_eq] at h
    have hne : a ≠ x := by omega
    simp only [Memory.read, hne, if_false]
    exact ih h.2 (by omega)

theorem Memory.insert_risingFrom (h : Memory.risingFrom lo m = true) (hx : lo ≤ x) :
    Memory.risingFrom lo (Memory.insert x v m) = true := by
  induction m generalizing lo with
  | nil => simp [Memory.insert, Memory.risingFrom, hx]
  | cons e m ih =>
    obtain ⟨a, w⟩ := e
    simp only [Memory.risingFrom, Bool.and_eq_true, decide_eq_true_eq] at h
    simp only [Memory.insert]
    split
    · simp only [Memory.risingFrom, Bool.and_eq_true, decide_eq_true_eq]
      exact ⟨hx, by omega, h.2⟩
    · split
      · rename_i hxa
        subst hxa
        simp only [Memory.risingFrom, Bool.and_eq_true, decide_eq_true_eq]
        exact ⟨hx, h.2⟩
      · simp only [Memory.risingFrom, Bool.and_eq_true, decide_eq_true_eq]
        exact ⟨h.1, ih h.2 (by omega)⟩

theorem Memory.remove_risingFrom (h : Memory.risingFrom lo m = true) :
    Memory.risingFrom lo (Memory.remove x m) = true := by
  induction m generalizing lo with
  | nil => rfl
  | cons e m ih =>
    obtain ⟨a, w⟩ := e
    simp only [Memory.risingFrom, Bool.and_eq_true, decide_eq_true_eq] at h
    simp only [Memory.remove]
    split
    · exact Memory.risingFrom_mono (ih h.2) (by omega)
    · simp only [Memory.risingFrom, Bool.and_eq_true, decide_eq_true_eq]
      exact ⟨h.1, ih h.2⟩

theorem Memory.filter_risingFrom (p : Host.Cell → Bool) (h : Memory.risingFrom lo m = true) :
    Memory.risingFrom lo (m.filter p) = true := by
  induction m generalizing lo with
  | nil => rfl
  | cons e m ih =>
    obtain ⟨a, w⟩ := e
    simp only [Memory.risingFrom, Bool.and_eq_true, decide_eq_true_eq] at h
    rw [List.filter_cons]
    split
    · simp only [Memory.risingFrom, Bool.and_eq_true, decide_eq_true_eq]
      exact ⟨h.1, ih h.2⟩
    · exact Memory.risingFrom_mono (ih h.2) (by omega)

/-! ### Entries -/

theorem Memory.mem_insert {e : Host.Cell} (h : e ∈ Memory.insert x v m) : e = (x, v) ∨ e ∈ m := by
  induction m with
  | nil => simpa [Memory.insert] using h
  | cons e' m ih =>
    obtain ⟨a, w⟩ := e'
    simp only [Memory.insert] at h
    split at h
    · simpa using h
    · split at h
      · simp only [List.mem_cons] at h ⊢
        tauto
      · simp only [List.mem_cons] at h ⊢
        rcases h with h | h
        · exact .inr (.inl h)
        · rcases ih h with h | h
          · exact .inl h
          · exact .inr (.inr h)

theorem Memory.mem_remove {e : Host.Cell} (h : e ∈ Memory.remove x m) : e ∈ m := by
  induction m with
  | nil => simp [Memory.remove] at h
  | cons e' m ih =>
    obtain ⟨a, w⟩ := e'
    simp only [Memory.remove] at h
    split at h
    · exact List.mem_cons_of_mem _ (ih h)
    · simp only [List.mem_cons] at h ⊢
      exact h.imp_right ih

/-- What a stored memory may list: the new entry, or an old one. -/
theorem Memory.mem_write {e : Host.Cell} (h : e ∈ Memory.write bg m x v) :
    (e = (x, v) ∧ v ≠ bg) ∨ e ∈ m := by
  unfold Memory.write at h
  split at h
  · exact .inr (Memory.mem_remove h)
  · exact (Memory.mem_insert h).imp_left fun h' => ⟨h', ‹_›⟩

/-! ### Read after write -/

theorem Memory.read_insert (h : Memory.risingFrom lo m = true) :
    Memory.read bg (Memory.insert x v m) y = if x = y then v else Memory.read bg m y := by
  induction m generalizing lo with
  | nil => simp [Memory.insert, Memory.read]
  | cons e m ih =>
    obtain ⟨a, w⟩ := e
    simp only [Memory.risingFrom, Bool.and_eq_true, decide_eq_true_eq] at h
    simp only [Memory.insert]
    split
    · simp [Memory.read]
    · split
      · rename_i hxa
        subst hxa
        by_cases hxy : x = y <;> simp [Memory.read, hxy]
      · rename_i hxa
        simp only [Memory.read, ih h.2]
        by_cases hay : a = y
        · have : ¬x = y := by omega
          simp [hay, this]
        · simp [hay]

theorem Memory.read_remove (h : Memory.risingFrom lo m = true) :
    Memory.read bg (Memory.remove x m) y = if x = y then bg else Memory.read bg m y := by
  induction m generalizing lo with
  | nil => simp [Memory.remove, Memory.read]
  | cons e m ih =>
    obtain ⟨a, w⟩ := e
    simp only [Memory.risingFrom, Bool.and_eq_true, decide_eq_true_eq] at h
    simp only [Memory.remove]
    split
    · rename_i hax
      rw [ih h.2]
      by_cases hxy : x = y
      · simp [hxy]
      · simp [Memory.read, hax, hxy]
    · rename_i hax
      simp only [Memory.read, ih h.2]
      by_cases hay : a = y
      · have : ¬x = y := by omega
        simp [hay, this]
      · simp [hay]

theorem Memory.wf_rising (h : Memory.wf bg m = true) : Memory.risingFrom 0 m = true := by
  simp only [Memory.wf, Bool.and_eq_true] at h
  exact h.1

/-- A read after a write: the stored byte at its address, every other byte as before. -/
theorem Memory.read_write (h : Memory.wf bg m = true) :
    Memory.read bg (Memory.write bg m x v) y = if x = y then v else Memory.read bg m y := by
  unfold Memory.write
  split
  · rename_i hv
    rw [Memory.read_remove (Memory.wf_rising h), hv]
  · exact Memory.read_insert (Memory.wf_rising h)

/-! ### The canonical form is kept -/

@[simp] theorem Memory.wf_nil : Memory.wf bg [] = true := rfl

@[simp] theorem Memory.within_nil {size : Nat} : Memory.within size [] = true := rfl

/-- A store keeps the canonical form. -/
theorem Memory.wf_write (h : Memory.wf bg m = true) : Memory.wf bg (Memory.write bg m x v) = true := by
  have hr := Memory.wf_rising h
  simp only [Memory.wf, Bool.and_eq_true, List.all_eq_true, bne_iff_ne, ne_eq] at h ⊢
  constructor
  · unfold Memory.write
    split
    · exact Memory.remove_risingFrom hr
    · exact Memory.insert_risingFrom hr (Nat.zero_le _)
  · intro e he
    rcases Memory.mem_write he with ⟨rfl, hv⟩ | he
    · exact hv
    · exact h.2 e he

/-- A store below the bound keeps the bound. -/
theorem Memory.within_write {size : Nat} (h : Memory.within size m = true) (hx : x < size) :
    Memory.within size (Memory.write bg m x v) = true := by
  simp only [Memory.within, List.all_eq_true, decide_eq_true_eq] at h ⊢
  intro e he
  rcases Memory.mem_write he with ⟨rfl, -⟩ | he
  · exact hx
  · exact h e he

/-- Storing bytes in order keeps the canonical form. -/
theorem Memory.wf_writeBytes {bs : List Byte} {off : Nat} (h : Memory.wf bg m = true) :
    Memory.wf bg (Memory.writeBytes bg m off bs) = true := by
  induction bs generalizing m off with
  | nil => exact h
  | cons v vs ih => exact ih (Memory.wf_write h)

/-- Storing bytes inside the bound keeps the bound. -/
theorem Memory.within_writeBytes {bs : List Byte} {off size : Nat}
    (h : Memory.within size m = true) (hx : off + bs.length ≤ size) :
    Memory.within size (Memory.writeBytes bg m off bs) = true := by
  induction bs generalizing m off with
  | nil => exact h
  | cons v vs ih =>
    simp only [List.length_cons] at hx
    exact ih (Memory.within_write h (by omega)) (by omega)

/-- What `BufWrite` leaves at an address: its byte of the string, or what stood there. -/
theorem Memory.read_writeBytes {bs : List Byte} {off : Nat} (h : Memory.wf bg m = true) :
    Memory.read bg (Memory.writeBytes bg m off bs) y =
      if off ≤ y ∧ y < off + bs.length then bs.getD (y - off) 0 else Memory.read bg m y := by
  induction bs generalizing m off with
  | nil =>
    have : ¬(off ≤ y ∧ y < off) := by omega
    simp [Memory.writeBytes, this]
  | cons v vs ih =>
    simp only [Memory.writeBytes, List.length_cons]
    rw [ih (Memory.wf_write h), Memory.read_write h]
    by_cases h1 : off + 1 ≤ y ∧ y < off + 1 + vs.length
    · have h2 : off ≤ y ∧ y < off + (vs.length + 1) := by omega
      have h3 : y - off = (y - (off + 1)) + 1 := by omega
      simp [h1, h2, h3]
    · by_cases h4 : off = y
      · subst h4
        simp
      · have h2 : ¬(off ≤ y ∧ y < off + (vs.length + 1)) := by omega
        simp only [h1, h2, h4, if_false]

/-- An erase keeps the canonical form. -/
theorem Memory.wf_clearRange {n : Nat} (h : Memory.wf bg m = true) :
    Memory.wf bg (m.clearRange lo n) = true := by
  simp only [Memory.wf, Bool.and_eq_true, List.all_eq_true, bne_iff_ne, ne_eq] at h ⊢
  refine ⟨Memory.filter_risingFrom _ h.1, fun e he => h.2 e (List.mem_of_mem_filter he)⟩

/-- An erase keeps the bound. -/
theorem Memory.within_clearRange {n size : Nat} (h : Memory.within size m = true) :
    Memory.within size (m.clearRange lo n) = true := by
  simp only [Memory.within, List.all_eq_true, decide_eq_true_eq] at h ⊢
  exact fun e he => h e (List.mem_of_mem_filter he)

/-- After an erase of the range `lo .. lo+n-1` its bytes read as unlisted bytes do, the others as before. -/
theorem Memory.read_clearRange {n lo' : Nat} (h : Memory.risingFrom lo' m = true) :
    Memory.read bg (m.clearRange lo n) y =
      if lo ≤ y ∧ y < lo + n then bg else Memory.read bg m y := by
  induction m generalizing lo' with
  | nil => simp [Memory.clearRange, Memory.read]
  | cons e m ih =>
    obtain ⟨a, w⟩ := e
    simp only [Memory.risingFrom, Bool.and_eq_true, decide_eq_true_eq] at h
    have ih' := ih h.2
    unfold Memory.clearRange at ih' ⊢
    rw [List.filter_cons]
    split
    · rename_i hk
      simp only [Bool.not_eq_true', Bool.and_eq_false_iff, decide_eq_false_iff_not] at hk
      simp only [Memory.read, ih']
      by_cases hay : a = y
      · have : ¬(lo ≤ y ∧ y < lo + n) := by omega
        simp [hay, this]
      · simp [hay]
    · rename_i hk
      simp only [Bool.not_eq_true', Bool.not_eq_false, Bool.and_eq_true, decide_eq_true_eq] at hk
      rw [ih']
      by_cases hay : a = y
      · have : lo ≤ y ∧ y < lo + n := by omega
        simp [this]
      · simp [Memory.read, hay]

/-- `BufRead` gives one byte per offset. -/
@[simp] theorem Memory.length_readBytes {off n : Nat} :
    (Memory.readBytes bg m off n).length = n := by simp [Memory.readBytes]

end Sys2Proof.Machine
end

