-- ==== Sys2Proof/Laws/Chip.lean ====
section
/-!
SUPPORT. The reference chip: everything a command can do to it, and that its array keeps the canonical
form and its size.
-/

namespace Sys2Proof.Machine

/-- The array is in canonical form and inside `FLASH_SIZE`. -/
def Chip.memOk (k : Chip) (c : Config) : Prop :=
  Memory.wf flashBackground k.mem = true ∧ Memory.within c.flashSize k.mem = true

variable {k : Chip} {c : Config}

/-! ### Fields of the updates -/

@[simp] theorem Chip.startCycle_mem (f : Inflight) : (k.startCycle c f).mem = k.mem := rfl
@[simp] theorem Chip.startCycle_sr (f : Inflight) : (k.startCycle c f).sr = k.sr ||| c.mWip := rfl
@[simp] theorem Chip.startCycle_scur (f : Inflight) : (k.startCycle c f).scur = k.scur := rfl
@[simp] theorem Chip.startCycle_cr0 (f : Inflight) : (k.startCycle c f).cr0 = k.cr0 := rfl
@[simp] theorem Chip.startCycle_cr1 (f : Inflight) : (k.startCycle c f).cr1 = k.cr1 := rfl
@[simp] theorem Chip.startCycle_inflight (f : Inflight) : (k.startCycle c f).inflight = f := rfl
@[simp] theorem Chip.startCycle_dpd (f : Inflight) : (k.startCycle c f).dpd = k.dpd := rfl
@[simp] theorem Chip.startCycle_rsten (f : Inflight) : (k.startCycle c f).rsten = k.rsten := rfl

@[simp] theorem Chip.complete_mem : (k.complete c).mem = k.mem := by
  unfold Chip.complete; split <;> rfl
@[simp] theorem Chip.complete_dpd : (k.complete c).dpd = k.dpd := by
  unfold Chip.complete; split <;> rfl
@[simp] theorem Chip.complete_scur : (k.complete c).scur = k.scur := by
  unfold Chip.complete; split <;> rfl

/-- Ending a cycle twice is ending it once. -/
@[simp] theorem Chip.complete_complete : (k.complete c).complete c = k.complete c := by
  unfold Chip.complete; split <;> simp_all

/-! ### What a command can do to the array -/

/-- `Exec` leaves the array, or erases one unit of it, or all of it. -/
theorem Chip.exec_mem (t : Txn) :
    (k.exec c t).mem = k.mem ∨ (k.exec c t).mem = [] ∨
      ∃ lo n, (k.exec c t).mem = k.mem.clearRange lo n := by
  cases t <;> simp only [Chip.exec] <;> (repeat' split) <;>
    first
      | exact .inl rfl
      | exact .inr (.inl rfl)
      | exact .inr (.inr ⟨_, _, rfl⟩)

/-- `Exec` keeps the array's form. -/
theorem Chip.exec_memOk (t : Txn) (h : k.memOk c) : (k.exec c t).memOk c := by
  unfold Chip.memOk at *
  rcases Chip.exec_mem (k := k) (c := c) t with e | e | ⟨lo, n, e⟩ <;> rw [e]
  · exact h
  · exact ⟨rfl, rfl⟩
  · exact ⟨Memory.wf_clearRange h.1, Memory.within_clearRange h.2⟩

/-- Programming keeps the array's form. -/
theorem programFrom_ok {a : Word} {i : Nat} {m : Memory} {bs : List Byte} (hc : 0 < c.flashSize)
    (h : Memory.wf flashBackground m = true ∧ Memory.within c.flashSize m = true) :
    Memory.wf flashBackground (programFrom c a i m bs) = true ∧
      Memory.within c.flashSize (programFrom c a i m bs) = true := by
  induction bs generalizing i m with
  | nil => exact h
  | cons v vs ih =>
    exact ih ⟨Memory.wf_write h.1, Memory.within_write h.2 (Nat.mod_lt _ hc)⟩

@[simp] theorem Chip.writeRegs_mem (bs : List Byte) : (k.writeRegs c bs).mem = k.mem := by
  rcases bs with _ | ⟨b0, _ | ⟨b1, _ | ⟨b2, _ | ⟨b3, bs⟩⟩⟩⟩ <;> rfl

/-- A data phase leaves the array, or programs bytes into it. -/
theorem Chip.transmit_mem (t : Option Txn) (bs : List Byte) :
    (k.transmit c t bs).mem = k.mem ∨
      ∃ a, (k.transmit c t bs).mem = programFrom c a 0 k.mem bs := by
  unfold Chip.transmit
  split
  · exact .inl rfl
  · split
    · exact .inl (Chip.writeRegs_mem bs)
    · exact .inr ⟨_, rfl⟩
    · exact .inl rfl

/-- A data phase keeps the array's form. -/
theorem Chip.transmit_memOk (t : Option Txn) (bs : List Byte) (hc : 0 < c.flashSize)
    (h : k.memOk c) : (k.transmit c t bs).memOk c := by
  unfold Chip.memOk at *
  rcases Chip.transmit_mem (k := k) (c := c) t bs with e | ⟨a, e⟩ <;> rw [e]
  · exact h
  · exact programFrom_ok hc h

/-- A poll leaves the array. -/
@[simp] theorem Chip.poll_mem (p : Pred) : (k.poll c p).2.mem = k.mem := by
  unfold Chip.poll
  split
  · rfl
  · split
    · rfl
    · split
      · simp
      · rfl

/-- A poll leaves the chip, or ends its cycle. -/
theorem Chip.poll_chip (p : Pred) : (k.poll c p).2 = k ∨ (k.poll c p).2 = k.complete c := by
  unfold Chip.poll
  split
  · exact .inl rfl
  · split
    · exact .inl rfl
    · split
      · exact .inr rfl
      · exact .inl rfl

/-- A ready poll of an awake chip answers OK, and the chip's cycle, if it has one, has ended (R80). -/
theorem Chip.poll_ready (h : k.dpd = false) :
    (∃ seen, waitLoop (predReady c) (k.poll c (predReady c)).1 = .ok seen) ∧
      (k.poll c (predReady c)).2 = if anySet k.sr c.mWip then k.complete c else k := by
  have hsat : ∀ v : Byte, (predReady c).sat v = !anySet v c.mWip := fun v => by
    simp [Pred.sat, predReady, anySet, bne]
  have hclr : anySet (k.sr &&& ~~~(c.mWip ||| c.mWel)) c.mWip = false := by
    simp only [anySet, bne_eq_false_iff_eq]
    ext i hi
    simp
    intros
    assumption
  unfold Chip.poll
  cases hw : anySet k.sr c.mWip <;> simp [h, hsat, hw, waitLoop, hclr]

end Sys2Proof.Machine
end

