-- ==== Sys2Proof/Laws/Executor.lean ====
section
/-!
SUPPORT. How a piece of an operation runs. `Seq.Ensures m s Q` says that `m`, started in `s`, ends with a
result and a state that satisfy `Q`; one rewriting lemma per way of building a piece computes it. A call
is said once: `call_ensures`. `Seq.Keeps R m` packages a relation that every step of a piece respects.
-/

namespace Sys2Proof.Machine

/-- Started in `s`, the piece ends with a result and a state that satisfy `Q`. -/
def Seq.Ensures {α : Type} (m : Seq α) (s : State) (Q : Option α → State → Prop) : Prop :=
  Q (m s).1 (m s).2

/-- What an answer gives the piece that made the call: no result where it is never answered. -/
def Answer.result : Answer → Option Answer
  | .never => none
  | .ok bytes => some (.ok bytes)
  | .fail => some .fail

/-- The answer the environment gives a call in this state. -/
def State.answer (s : State) (c : Call) : Answer := (s.env.respond s.cfg c).1

section Rules

variable {α β : Type} {s : State} {Q : Option α → State → Prop}

@[simp] theorem Seq.pure_ensures (x : α) : (Seq.pure x).Ensures s Q ↔ Q (some x) s := Iff.rfl

@[simp] theorem Seq.look_ensures (k : State → Seq α) :
    (Seq.look k).Ensures s Q ↔ (k s).Ensures s Q := Iff.rfl

@[simp] theorem Seq.update_ensures (f : State → State) (k : Seq α) :
    (Seq.update f k).Ensures s Q ↔ k.Ensures (f s) Q := Iff.rfl

@[simp] theorem Seq.stuck_ensures (l : Label) :
    (Seq.stuck (α := α) l).Ensures s Q ↔ Q none (s.setPhase (s.phase ++ [l])) := Iff.rfl

/-- One piece after another. -/
@[simp] theorem Seq.andThen_ensures (m : Seq β) (k : β → Seq α) :
    (m.andThen k).Ensures s Q ↔
      m.Ensures s fun r t => match r with
        | some x => (k x).Ensures t Q
        | none => Q none t := by
  unfold Seq.Ensures Seq.andThen
  split <;> simp_all

/-- A piece at a label: it runs one label deeper and, when it returns, PHASE is as before. -/
@[simp] theorem Seq.label_ensures (l : Label) (m : Seq α) :
    (Seq.label l m).Ensures s Q ↔
      m.Ensures (s.setPhase (s.phase ++ [l])) fun r t => match r with
        | some x => Q (some x) (t.setPhase s.phase)
        | none => Q none t := by
  unfold Seq.Ensures Seq.label
  split <;> simp_all

@[simp] theorem Seq.ite_ensures (p : Prop) [Decidable p] (m k : Seq α) :
    (if p then m else k).Ensures s Q ↔ if p then m.Ensures s Q else k.Ensures s Q := by
  split <;> rfl

end Rules

section Codes

variable {s : State} {Q : Option StatusCode → State → Prop}

@[simp] theorem Seq.abort_ensures (c : Cause) (code : StatusCode) :
    (Seq.abort c code).Ensures s Q ↔ Q (some code) (s.setCause (some c)) := Iff.rfl

/-- A step whose failure ends the piece. -/
@[simp] theorem Seq.orAbort_ensures (m : Seq Answer) (c : Cause) (code : StatusCode)
    (k : List Byte → Seq StatusCode) :
    (m.orAbort c code k).Ensures s Q ↔
      m.Ensures s fun r t => match r with
        | some (.ok bytes) => (k bytes).Ensures t Q
        | some .fail => Q (some code) (t.setCause (some c))
        | some .never => Q (some code) (t.setCause (some c))
        | none => Q none t := by
  unfold Seq.orAbort
  rw [Seq.andThen_ensures]
  unfold Seq.Ensures
  rcases m s with ⟨_ | (bytes | _ | _), t⟩ <;> rfl

/-- A subroutine whose failure ends the piece. -/
@[simp] theorem Seq.orReturn_ensures (m : Seq StatusCode) (code : StatusCode) (k : Seq StatusCode) :
    (m.orReturn code k).Ensures s Q ↔
      m.Ensures s fun r t => match r with
        | some st => if st = .ok then k.Ensures t Q else Q (some code) t
        | none => Q none t := by
  unfold Seq.orReturn
  rw [Seq.andThen_ensures]
  unfold Seq.Ensures
  rcases m s with ⟨_ | st, t⟩
  · rfl
  · dsimp only
    split <;> rfl

end Codes

/-! ### One call -/

/-- Everything a call can do: it gives the answer of the environment in force, and the state moves on by
`State.afterCall`. -/
theorem call_eq (c : Call) (s : State) : call c s = ((s.answer c).result, s.afterCall c) := by
  unfold call State.answer Answer.result
  split <;> simp_all

theorem call_ensures {c : Call} {s : State} {Q : Option Answer → State → Prop} :
    (call c).Ensures s Q ↔ Q (s.answer c).result (s.afterCall c) := by
  unfold Seq.Ensures
  rw [call_eq]

/-- A call by its three answers. -/
theorem call_cases {c : Call} {s : State} {Q : Option Answer → State → Prop}
    (hok : ∀ bytes, s.answer c = .ok bytes → Q (some (.ok bytes)) (s.afterCall c))
    (hfail : s.answer c = .fail → Q (some .fail) (s.afterCall c))
    (hnever : s.answer c = .never → Q none (s.afterCall c)) : (call c).Ensures s Q := by
  rw [call_ensures]
  cases h : s.answer c with
  | ok bytes => exact hok bytes h
  | fail => exact hfail h
  | never => exact hnever h

@[simp] theorem execCall_ensures {t : Txn} {s : State} {Q : Option Answer → State → Prop} :
    (execCall t).Ensures s Q ↔ (call (.exec t s.tmo.dflt)).Ensures s Q := Iff.rfl

@[simp] theorem txCall_ensures {bs : List Byte} {s : State} {Q : Option Answer → State → Prop} :
    (txCall bs).Ensures s Q ↔ (call (.tx bs s.tmo.dflt)).Ensures s Q := Iff.rfl

@[simp] theorem rxCall_ensures {n : Word} {s : State} {Q : Option Answer → State → Prop} :
    (rxCall n).Ensures s Q ↔ (call (.rx n s.tmo.dflt)).Ensures s Q := Iff.rfl

@[simp] theorem pollCall_ensures {p : Config → Pred} {tmo : State → Word} {s : State}
    {Q : Option Answer → State → Prop} :
    (pollCall p tmo).Ensures s Q ↔
      (call (.autoPoll .rdsr (p s.cfg) s.cfg.pollInterval (tmo s))).Ensures s Q := Iff.rfl

@[simp] theorem cmd_ensures {t : Txn} {s : State} {Q : Option Answer → State → Prop} :
    (cmd t).Ensures s Q ↔ (call (.exec t s.tmo.dflt)).Ensures s Q := Iff.rfl

@[simp] theorem busRelease_ensures {s : State} {Q : Option Unit → State → Prop} :
    busRelease.Ensures s Q ↔ Q (some ()) (s.logCall .busRelease (.ok [])) := Iff.rfl

/-! ### Answers that are scripted -/

section Scripted

variable {s : State} {c : Call} {rs : List Reply}

theorem State.answer_ok {bytes : List Byte} (h : s.env.replies = .ok bytes :: rs) :
    s.answer c = deliver s.env.calls c bytes := by
  simp [State.answer, Env.respond, h]

theorem State.answer_fail (h : s.env.replies = .fail :: rs) : s.answer c = .fail := by
  cases hm : s.env.mode <;> simp [State.answer, Env.respond, h, hm]

theorem State.answer_never (h : s.env.replies = .never :: rs) : s.answer c = .never := by
  simp [State.answer, Env.respond, h]

/-- A wait loop answers OK or FAIL. -/
theorem waitLoop_ne_never (p : Pred) (bs : List Byte) : waitLoop p bs ≠ .never := by
  induction bs with
  | nil => simp [waitLoop]
  | cons v vs ih =>
    unfold waitLoop
    split
    · simp
    · split <;> simp_all

theorem deliver_ne_never (i : Nat) (c : Call) (bs : List Byte) : deliver i c bs ≠ .never := by
  cases c <;> simp [deliver, waitLoop_ne_never]

/-- Only a scripted "never" is never answered (20_memory.md R76). -/
theorem State.answer_ne_never (h : s.env.replies.headD .auto ≠ .never) : s.answer c ≠ .never := by
  unfold State.answer Env.respond
  split
  · simp_all
  · exact deliver_ne_never _ _ _
  · simp
  · simp
  · unfold freeAnswer
    split
    · exact deliver_ne_never _ _ _
    · simp
  · cases c <;> simp [chipAnswer, deliver_ne_never]

end Scripted

/-! ### Relations every piece respects -/

/-- Every run of the piece leads from a state to a related one. -/
def Seq.Keeps {α : Type} (R : State → State → Prop) (m : Seq α) : Prop := ∀ s, R s (m s).2

/-- What a relation needs so that every piece made of calls respects it. -/
structure Respects (R : State → State → Prop) : Prop where
  /-- It holds of a state and itself. -/
  refl : ∀ s, R s s
  /-- It composes. -/
  trans : ∀ {s t u}, R s t → R t u → R s u
  /-- PHASE may change. -/
  phase : ∀ s v, R s (s.setPhase v)
  /-- The cause label may change. -/
  cause : ∀ s v, R s (s.setCause v)
  /-- A call may be made. -/
  call : ∀ s c, R s (s.afterCall c)
  /-- A call may be written in the trace. -/
  log : ∀ s c r, R s (s.logCall c r)

section Keeps

variable {R : State → State → Prop} (H : Respects R) {α β : Type}
include H

theorem Respects.pure (x : α) : Seq.Keeps R (Seq.pure x) := fun s => H.refl s

omit H in
theorem Seq.Keeps.look {k : State → Seq α} (hk : ∀ s, Seq.Keeps R (k s)) : Seq.Keeps R (Seq.look k) :=
  fun s => hk s s

theorem Respects.update {f : State → State} {k : Seq α} (hf : ∀ s, R s (f s)) (hk : Seq.Keeps R k) :
    Seq.Keeps R (Seq.update f k) := fun s => H.trans (hf s) (hk (f s))

theorem Respects.andThen {m : Seq β} {k : β → Seq α} (hm : Seq.Keeps R m)
    (hk : ∀ x, Seq.Keeps R (k x)) : Seq.Keeps R (m.andThen k) := by
  intro s
  have h := hm s
  unfold Seq.andThen
  split <;> simp_all only
  exact H.trans h (hk _ _)

theorem Respects.label {m : Seq α} (l : Label) (hm : Seq.Keeps R m) : Seq.Keeps R (Seq.label l m) := by
  intro s
  have h := H.trans (H.phase s (s.phase ++ [l])) (hm _)
  unfold Seq.label
  split <;> simp_all only
  exact H.trans h (H.phase _ _)

theorem Respects.stuck (l : Label) : Seq.Keeps R (Seq.stuck (α := α) l) := fun s => H.phase s _

theorem Respects.abort (c : Cause) (code : StatusCode) : Seq.Keeps R (Seq.abort c code) :=
  fun s => H.cause s _

omit H in
theorem Seq.Keeps.ite {p : Prop} [Decidable p] {m k : Seq α} (hm : Seq.Keeps R m)
    (hk : Seq.Keeps R k) : Seq.Keeps R (if p then m else k) := by
  split <;> assumption

theorem Respects.orAbort {m : Seq Answer} {c : Cause} {code : StatusCode}
    {k : List Byte → Seq StatusCode} (hm : Seq.Keeps R m) (hk : ∀ b, Seq.Keeps R (k b)) :
    Seq.Keeps R (m.orAbort c code k) := by
  refine H.andThen hm fun r => ?_
  cases r with
  | ok b => exact hk b
  | fail => exact H.abort _ _
  | never => exact H.abort _ _

theorem Respects.orReturn {m : Seq StatusCode} {code : StatusCode} {k : Seq StatusCode}
    (hm : Seq.Keeps R m) (hk : Seq.Keeps R k) : Seq.Keeps R (m.orReturn code k) :=
  H.andThen hm fun _ => Seq.Keeps.ite hk (H.pure _)

theorem Respects.anyCall (c : Call) : Seq.Keeps R (Machine.call c) := by
  intro s
  rw [call_eq]
  exact H.call s c

theorem Respects.execCall (t : Txn) : Seq.Keeps R (execCall t) := Seq.Keeps.look fun _ => H.anyCall _
theorem Respects.txCall (bs : List Byte) : Seq.Keeps R (txCall bs) := Seq.Keeps.look fun _ => H.anyCall _
theorem Respects.rxCall (n : Word) : Seq.Keeps R (rxCall n) := Seq.Keeps.look fun _ => H.anyCall _
theorem Respects.pollCall (p : Config → Pred) (tmo : State → Word) : Seq.Keeps R (pollCall p tmo) :=
  Seq.Keeps.look fun _ => H.anyCall _
theorem Respects.cmd (t : Txn) : Seq.Keeps R (cmd t) := H.execCall t
theorem Respects.busRelease : Seq.Keeps R busRelease := fun s => H.log s _ _

theorem Respects.readReg (t : Txn) (n : Word) : Seq.Keeps R (readReg t n) := by
  refine H.andThen (H.label _ (H.execCall t)) fun r => ?_
  cases r with
  | ok _ => exact H.label _ (H.rxCall n)
  | fail => exact H.pure _
  | never => exact H.pure _

theorem Respects.writeReg (t : Txn) (bs : List Byte) : Seq.Keeps R (writeReg t bs) := by
  refine H.andThen (H.label _ (H.execCall t)) fun r => ?_
  cases r with
  | ok _ => exact H.label _ (H.txCall bs)
  | fail => exact H.pure _
  | never => exact H.pure _

theorem Respects.doGetStatus : Seq.Keeps R doGetStatus := by
  refine H.orAbort (H.label _ (H.readReg _ _)) fun b => Seq.Keeps.look fun s => ?_
  split
  · exact H.abort _ _
  · exact H.pure _
  · exact H.orAbort (H.label _ (H.readReg _ _)) fun b' => Seq.Keeps.look fun s' => H.pure _

theorem Respects.doPollReady (tmo : State → Word) : Seq.Keeps R (doPollReady tmo) :=
  H.orAbort (H.label _ (H.pollCall _ _)) fun _ => H.pure _

theorem Respects.doWriteEnable : Seq.Keeps R doWriteEnable :=
  H.orAbort (H.label _ (H.cmd _)) fun _ => H.orAbort (H.label _ (H.pollCall _ _)) fun _ => H.pure _

theorem Respects.doResetChip : Seq.Keeps R doResetChip :=
  H.orAbort (H.label _ (H.cmd _)) fun _ => H.orAbort (H.label _ (H.cmd _)) fun _ =>
    H.andThen (H.label _ (H.doPollReady _)) fun _ => Seq.Keeps.ite (H.pure _) (H.abort _ _)

end Keeps

/-! ### BUF under the host's stores -/

@[simp] theorem State.bufAfter_zero (s : State) : s.bufAfter 0 = s.buf := rfl

/-- A host that stores nothing leaves BUF. -/
@[simp] theorem State.bufAfter_of_nil {s : State} (h : s.hostStores = []) (k : Nat) :
    s.bufAfter k = s.buf := by simp [State.bufAfter, h]

/-- A call takes the first entry of the host's stores. -/
theorem State.bufAfter_afterCall (s : State) (c : Call) (k : Nat) :
    (s.afterCall c).bufAfter k = s.bufAfter (k + 1) := by
  unfold State.bufAfter
  cases h : s.hostStores <;> simp [h, applyStores]

/-- The stores of `j` calls, then of `k` more, are those of `j + k`. -/
theorem State.bufAfter_add {s t : State} {j : Nat} (hc : t.cfg = s.cfg) (hb : t.buf = s.bufAfter j)
    (hs : t.hostStores = s.hostStores.drop j) (k : Nat) : t.bufAfter k = s.bufAfter (j + k) := by
  unfold State.bufAfter at *
  rw [hc, hb, hs, List.take_add, List.foldl_append]

/-- What no piece made of calls alone ever changes: the registers of the block and the host's ports. BUF is
as the host's stores during the calls left it. -/
structure State.BlockKept (s t : State) : Prop where
  /-- The parameters. -/
  cfg : t.cfg = s.cfg
  /-- STATUS. -/
  status : t.status = s.status
  /-- INITED. -/
  inited : t.inited = s.inited
  /-- The done pulse. -/
  done : t.done = s.done
  /-- The operand latches. -/
  req : t.req = s.req
  /-- The working registers. -/
  work : t.work = s.work
  /-- The scratch bytes. -/
  scratch : t.scratch = s.scratch
  /-- The timeout registers. -/
  tmo : t.tmo = s.tmo
  /-- Calls are counted. -/
  calls : s.env.calls ≤ t.env.calls
  /-- The data buffer. -/
  buf : t.buf = s.bufAfter (t.env.calls - s.env.calls)
  /-- The host's stores to come. -/
  stores : t.hostStores = s.hostStores.drop (t.env.calls - s.env.calls)
  /-- The host's ports. -/
  host : t.host = s.host

/-- What leaves the registers, BUF, the host's stores and the call counter alone keeps the block. -/
theorem State.BlockKept.of_eq {s t : State} (hcfg : t.cfg = s.cfg) (hstatus : t.status = s.status)
    (hinited : t.inited = s.inited) (hdone : t.done = s.done) (hreq : t.req = s.req)
    (hwork : t.work = s.work) (hscratch : t.scratch = s.scratch) (htmo : t.tmo = s.tmo)
    (henv : t.env = s.env) (hbuf : t.buf = s.buf) (hstores : t.hostStores = s.hostStores)
    (hhost : t.host = s.host) : s.BlockKept t :=
  ⟨hcfg, hstatus, hinited, hdone, hreq, hwork, hscratch, htmo, by rw [henv], by simp [henv, hbuf],
    by simp [henv, hstores], hhost⟩

/-- Calls, labels and cause labels touch no register of the block. -/
theorem State.blockKept_respects : Respects State.BlockKept where
  refl _ := .of_eq rfl rfl rfl rfl rfl rfl rfl rfl rfl rfl rfl rfl
  trans {s t u} h h' := by
    have e : u.env.calls - s.env.calls =
        (t.env.calls - s.env.calls) + (u.env.calls - t.env.calls) := by
      have := h.calls
      have := h'.calls
      omega
    exact ⟨h'.cfg.trans h.cfg, h'.status.trans h.status, h'.inited.trans h.inited,
      h'.done.trans h.done, h'.req.trans h.req, h'.work.trans h.work, h'.scratch.trans h.scratch,
      h'.tmo.trans h.tmo, h.calls.trans h'.calls,
      by rw [h'.buf, State.bufAfter_add h.cfg h.buf h.stores, ← e],
      by rw [h'.stores, h.stores, List.drop_drop, ← e], h'.host.trans h.host⟩
  phase _ _ := .of_eq rfl rfl rfl rfl rfl rfl rfl rfl rfl rfl rfl rfl
  cause _ _ := .of_eq rfl rfl rfl rfl rfl rfl rfl rfl rfl rfl rfl rfl
  call s c := by
    refine ⟨rfl, rfl, rfl, rfl, rfl, rfl, rfl, rfl, by simp, ?_, ?_, rfl⟩
    · cases h : s.hostStores <;> simp [State.bufAfter, h, applyStores]
    · simp
  log _ _ _ := .of_eq rfl rfl rfl rfl rfl rfl rfl rfl rfl rfl rfl rfl

/-- `DoGetStatus` touches no register of the block (40_status_poll_wren.md R132). -/
theorem doGetStatus_blockKept (s : State) : s.BlockKept (doGetStatus s).2 :=
  State.blockKept_respects.doGetStatus s

/-- `DoPollReady` touches no register of the block (R133). -/
theorem doPollReady_blockKept (tmo : State → Word) (s : State) :
    s.BlockKept (doPollReady tmo s).2 := State.blockKept_respects.doPollReady tmo s

/-- `DoWriteEnable` touches no register of the block (R135). -/
theorem doWriteEnable_blockKept (s : State) : s.BlockKept (doWriteEnable s).2 :=
  State.blockKept_respects.doWriteEnable s

/-- `DoResetChip` touches no register of the block (44_boundary_ops.md R205). -/
theorem doResetChip_blockKept (s : State) : s.BlockKept (doResetChip s).2 :=
  State.blockKept_respects.doResetChip s

end Sys2Proof.Machine
end

