-- ==== Sys2Proof/Laws/Ops.lean ====
section
/-!
SUPPORT. What the shared operations can do, said once each: an operation run to its return, a lone
transaction, the answers of the environment, the event a step takes. A proof about an instruction cites
these and unfolds none of them.
-/

namespace Sys2Proof.Machine

/-! ### Operations and transactions -/

/-- An operation gives the state `finishRun` leaves, whatever its body does. -/
theorem runOp_of_ensures {op : Byte} {a n : Word} {body : Seq StatusCode} {s : State}
    {P : State → Prop} (h : body.Ensures (s.accept op a n) fun r t => P (finishRun (r, t))) :
    ∃ t, runOp op a n body s = .next t ∧ P t := ⟨_, rfl, h⟩

/-- Inversion: what an operation's next state is. -/
theorem runOp_next {op : Byte} {a n : Word} {body : Seq StatusCode} {s t : State} :
    runOp op a n body s = .next t ↔ finishRun (body (s.accept op a n)) = t := by
  unfold runOp
  exact ⟨fun h => by injection h, fun h => by rw [h]⟩

@[simp] theorem finishRun_some (code : StatusCode) (t : State) :
    finishRun (some code, t) = t.finish code := rfl

@[simp] theorem finishRun_none (t : State) : finishRun (none, t) = t := rfl

/-- A lone transaction gives the state its calls leave. -/
theorem runTxn_of_ensures {m : Seq Answer} {s : State} {P : State → Prop}
    (h : m.Ensures s fun _ t => P t) : ∃ t, runTxn m s = .next t ∧ P t := ⟨_, rfl, h⟩

/-- An instruction stops exactly where it would reach past BUF_SIZE (20_memory.md R63; log 15). -/
theorem exec_fault_iff (i : Instr) (s : State) :
    exec i s = .fault .bufferRange ↔ bufInRange s i = false := by
  cases i <;>
    simp [exec, bufInRange, runOp, runTxn, runCmd, execGetStatus, execPollReady, execWriteEnable,
      execWrite, execQuadMode, execHpMode, execEraseBlock, execEraseSector, execEraseChip,
      execSuspendErase, execResumeErase, execSleep, execWakeup, execRead, execInit, execDeinit,
      execGetGeometry, execResetChip, execTRdsr, execTRdscur, execTRdcr, execTWren, execTWrsr,
      execTPp4, execTSe, execTBe, execTCe, execTSusp, execTResm, execTDp, execTWake, execTRsten,
      execTQread, execTRst]

/-- Everything an instruction answers: a next state, or the one fault. -/
theorem exec_next_of_bufInRange {i : Instr} {s : State} (h : bufInRange s i = true) :
    ∃ t, exec i s = .next t := by
  cases i <;> first
    | exact ⟨_, rfl⟩
    | exact ⟨_, if_pos h⟩

/-! ### Answers -/

/-- An `Rx` delivers exactly its number of bytes (20_memory.md R73). -/
@[simp] theorem fitBytes_length (i : Nat) (n : Word) (bs : List Byte) :
    (fitBytes i n bs).length = n.toNat := by simp [fitBytes]

/-- A byte that was given is delivered as it is. -/
theorem fitBytes_getD {i : Nat} {n : Word} {bs : List Byte} {j : Nat} (h : j < n.toNat)
    (hb : j < bs.length) (d : Byte) : (fitBytes i n bs).getD j d = bs.getD j d := by
  simp [fitBytes, List.getD_eq_getElem?_getD, h, hb]

/-- Bytes of the right number are delivered as they are. -/
theorem fitBytes_eq {i : Nat} {n : Word} {bs : List Byte} (h : bs.length = n.toNat) :
    fitBytes i n bs = bs := by
  apply List.ext_getElem (by simp [h])
  intro j h1 h2
  simp [fitBytes, List.getD_eq_getElem?_getD, h2]

/-- The wait loop answers OK only after a byte that satisfies the predicate, its last (20_memory.md R74). -/
theorem waitLoop_ok {p : Pred} {bs seen : List Byte} (h : waitLoop p bs = .ok seen) :
    (seen.getLast?.map p.sat).getD false = true := by
  induction bs generalizing seen with
  | nil => simp [waitLoop] at h
  | cons v vs ih =>
    unfold waitLoop at h
    split at h
    · injection h with h
      subst h
      simpa
    · split at h
      · rename_i rest hr
        injection h with h
        subst h
        have := ih hr
        cases rest with
        | nil => simp at this
        | cons w ws => simpa [List.getLast?_cons_cons] using this
      · cases h
      · cases h

/-- One read that satisfies the predicate ends the wait loop. -/
@[simp] theorem waitLoop_singleton {p : Pred} {v : Byte} (h : p.sat v = true) :
    waitLoop p [v] = .ok [v] := by simp [waitLoop, h]

/-- Before a call the chip is as it was, or its cycle has ended; the latter on the reference chip alone. -/
theorem Env.chipNow_cases (e : Env) (cfg : Config) :
    e.chipNow cfg = e.chip ∨
      (e.chipNow cfg = e.chip.complete cfg ∧ e.mode = .refchip ∧ e.completions.head? = some true) := by
  unfold Env.chipNow
  split
  · rename_i hm hb
    refine .inr ⟨rfl, hm, ?_⟩
    cases hc : e.completions <;> simp_all
  · exact .inl rfl
  · exact .inl rfl

@[simp] theorem Env.chipNow_mem (e : Env) (cfg : Config) : (e.chipNow cfg).mem = e.chip.mem := by
  rcases e.chipNow_cases cfg with h | ⟨h, -⟩ <;> simp [h]

/-- With no event of the chip's own to come, a call finds the chip as the call before left it. -/
@[simp] theorem Env.chipNow_of_nil {e : Env} {cfg : Config} (h : e.completions = []) :
    e.chipNow cfg = e.chip := by
  rcases e.chipNow_cases cfg with h' | ⟨-, -, h'⟩ <;> simp_all

/-- A call keeps the form and the size of the reference chip's array. -/
theorem Env.respond_memOk {e : Env} {cfg : Config} (c : Call) (hc : 0 < cfg.flashSize)
    (hm : e.chip.memOk cfg) : (e.respond cfg c).2.memOk cfg := by
  have h : (e.chipNow cfg).memOk cfg := by simpa [Chip.memOk] using hm
  unfold Env.respond
  split
  · exact h
  · exact h
  · exact h
  · unfold chipAfterFail
    split
    · split
      · exact h
      · exact Chip.transmit_memOk _ _ hc h
    all_goals exact h
  · exact h
  · unfold chipAnswer
    split
    · exact Chip.exec_memOk _ h
    · exact Chip.transmit_memOk _ _ hc h
    · exact h
    · simpa [Chip.memOk] using h
    all_goals exact h

/-! ### The host's stores during calls -/

/-- One store of the host keeps BUF's canonical form and size. -/
theorem BufStore.apply_ok {c : Config} {m : Memory} (b : BufStore)
    (h : Memory.wf bufBackground m = true ∧ Memory.within c.bufSize m = true) :
    Memory.wf bufBackground (b.apply c m) = true ∧ Memory.within c.bufSize (b.apply c m) = true := by
  unfold BufStore.apply
  refine ⟨Memory.wf_writeBytes h.1, ?_⟩
  by_cases hb : b.off.toNat ≤ c.bufSize
  · exact Memory.within_writeBytes h.2 (by simp; omega)
  · rw [Nat.sub_eq_zero_of_le (by omega), List.take_zero]
    exact h.2

/-- The host's stores keep BUF's canonical form and size. -/
theorem applyStores_ok {c : Config} {m : Memory} {bs : List BufStore}
    (h : Memory.wf bufBackground m = true ∧ Memory.within c.bufSize m = true) :
    Memory.wf bufBackground (applyStores c m bs) = true ∧
      Memory.within c.bufSize (applyStores c m bs) = true := by
  unfold applyStores
  induction bs generalizing m with
  | nil => exact h
  | cons b bs ih => exact ih (b.apply_ok h)

/-- BUF keeps its canonical form and size under the host's stores of any number of calls. -/
theorem State.bufAfter_ok {s : State} (k : Nat)
    (h : Memory.wf bufBackground s.buf = true ∧ Memory.within s.cfg.bufSize s.buf = true) :
    Memory.wf bufBackground (s.bufAfter k) = true ∧
      Memory.within s.cfg.bufSize (s.bufAfter k) = true := by
  have step : ∀ (l : List (List BufStore)) (m : Memory),
      Memory.wf bufBackground m = true ∧ Memory.within s.cfg.bufSize m = true →
      Memory.wf bufBackground (l.foldl (applyStores s.cfg) m) = true ∧
        Memory.within s.cfg.bufSize (l.foldl (applyStores s.cfg) m) = true := by
    intro l
    induction l with
    | nil => exact fun m hm => hm
    | cons b l ih => exact fun m hm => ih _ (applyStores_ok hm)
  exact step _ _ h

/-! ### The event a step takes -/

/-- What a busy block takes from the inbox needs no idle block, and every event that does stays, in
order (10_state.md R28, R36). -/
theorem nextEvent_busy {es rest : List PortEvent} {e : PortEvent}
    (h : nextEvent false es = some (e, rest)) :
    e.needsIdle = false ∧ rest.filter PortEvent.needsIdle = es.filter PortEvent.needsIdle := by
  induction es generalizing e rest with
  | nil => simp [nextEvent] at h
  | cons x es ih =>
    unfold nextEvent at h
    split at h
    · simp only [Option.some.injEq, Prod.mk.injEq] at h
      obtain ⟨rfl, rfl⟩ := h
      simp_all
    · split at h
      · rename_i f r hf
        simp only [Option.some.injEq, Prod.mk.injEq] at h
        obtain ⟨rfl, rfl⟩ := h
        have := ih hf
        simp_all [List.filter]
      · cases h

/-- An idle block takes the first event. -/
@[simp] theorem nextEvent_idle (e : PortEvent) (es : List PortEvent) :
    nextEvent true (e :: es) = some (e, es) := by simp [nextEvent]

/-- Everything a step can do. -/
theorem step_cases {s t : State} (h : step s = .next t) :
    s.cfg.wf = true ∧
      ((nextEvent s.idle s.host.inbox = none ∧ t = s.setDone false) ∨
        ∃ e rest, nextEvent s.idle s.host.inbox = some (e, rest) ∧
          runEvent e (s.take rest) = .next t) := by
  unfold step at h
  split at h
  · refine ⟨‹_›, ?_⟩
    split at h
    · injection h with h
      exact .inl ⟨‹_›, h.symm⟩
    · exact .inr ⟨_, _, ‹_›, h⟩
  · cases h

end Sys2Proof.Machine
end

