-- ==== Sys2Proof/Laws/PerInstr.lean ====
section
/-!
SUPPORT. The family of statements made per instruction: which of the two formats an instruction has, that
its word is of that format, and that its operation code or opcode stands in the lowest byte.
-/

namespace Sys2Proof.Laws.EncodeFormat

open Sys2Proof

/-- Every instruction has exactly one format, and its word carries what selects it in bits 7 to 0: an
operation its code and its two operands (30_encoding.md R90, R91), a template its opcode (R95). -/
def Statement (i : Instr) : Prop :=
  ∀ c : Config,
    (∃ op a n, i.opreq? = some (op, a, n) ∧ i.txn? = none ∧
        encode c i = .request (packReq op a n) ∧ reqOp (packReq op a n) = op ∧
        reqA (packReq op a n) = a ∧ reqN (packReq op a n) = n) ∨
      (∃ t, i.opreq? = none ∧ i.txn? = some t ∧ encode c i = .descriptor (t.desc c).pack ∧
        (t.desc c).pack.extractLsb' 0 8 = (t.desc c).instr)

/-- The code is read back from bits 7 to 0 (R90). -/
theorem reqOp_packReq (op : Byte) (a n : Word) : reqOp (packReq op a n) = op := by
  change (n ++ a ++ op : BitVec (32 + 32 + 8)).extractLsb' 0 8 = op
  ext j hj
  rw [BitVec.getElem_extractLsb', BitVec.getLsbD_append]
  simp [hj]

/-- Operand `A` is read back from bits 39 to 8 (R90). -/
theorem reqA_packReq (op : Byte) (a n : Word) : reqA (packReq op a n) = a := by
  change (n ++ a ++ op : BitVec (32 + 32 + 8)).extractLsb' 8 32 = a
  ext j hj
  rw [BitVec.getElem_extractLsb', BitVec.getLsbD_append, BitVec.getLsbD_append]
  simp [hj]

/-- Operand `N` is read back from bits 71 to 40 (R90). -/
theorem reqN_packReq (op : Byte) (a n : Word) : reqN (packReq op a n) = n := by
  change (n ++ a ++ op : BitVec (32 + 32 + 8)).extractLsb' 40 32 = n
  ext j hj
  rw [BitVec.getElem_extractLsb', BitVec.getLsbD_append, BitVec.getLsbD_append]
  have h1 : ¬ (40 + j < 8) := by omega
  have h2 : ¬ (40 + j - 8 < 32) := by omega
  have h3 : 40 + j - 8 - 32 = j := by omega
  simp [h1, h2, h3, BitVec.getLsbD_eq_getElem hj]

/-- The opcode stands in bits 7 to 0 of a packed descriptor (R95). -/
theorem instr_pack (d : Desc) : d.pack.extractLsb' 0 8 = d.instr := by
  change (d.dataLen ++ d.dataLines.code ++ d.dataDir.code ++ d.dummy ++ d.altLines.code ++ d.alt
    ++ d.addrLines.code ++ d.addrBits ++ d.addr ++ d.instrLines.code ++ d.instr :
      BitVec (32 + 2 + 2 + 5 + 2 + 8 + 2 + 6 + 32 + 2 + 8)).extractLsb' 0 8 = d.instr
  ext j hj
  rw [BitVec.getElem_extractLsb', BitVec.getLsbD_append]
  simp [hj]

/-- An operation has the request format. -/
theorem ofOpreq {i : Instr} {op : Byte} {a n : Word} (h : i.opreq? = some (op, a, n))
    (ht : i.txn? = none) : Statement i := fun c =>
  .inl ⟨op, a, n, h, ht, by simp [encode, h], reqOp_packReq op a n, reqA_packReq op a n,
    reqN_packReq op a n⟩

/-- A template has the descriptor format. -/
theorem ofTxn {i : Instr} {t : Txn} (h : i.opreq? = none) (ht : i.txn? = some t) : Statement i :=
  fun c => .inr ⟨t, h, ht, by simp [encode, h, ht], instr_pack _⟩

theorem getStatus (a n : Word) : Statement (.getStatus a n) := ofOpreq rfl rfl
theorem pollReady (a n : Word) : Statement (.pollReady a n) := ofOpreq rfl rfl
theorem writeEnable (a n : Word) : Statement (.writeEnable a n) := ofOpreq rfl rfl
theorem write (a n : Word) : Statement (.write a n) := ofOpreq rfl rfl
theorem quadMode (a n : Word) : Statement (.quadMode a n) := ofOpreq rfl rfl
theorem hpMode (a n : Word) : Statement (.hpMode a n) := ofOpreq rfl rfl
theorem eraseBlock (a n : Word) : Statement (.eraseBlock a n) := ofOpreq rfl rfl
theorem eraseSector (a n : Word) : Statement (.eraseSector a n) := ofOpreq rfl rfl
theorem eraseChip (a n : Word) : Statement (.eraseChip a n) := ofOpreq rfl rfl
theorem suspendErase (a n : Word) : Statement (.suspendErase a n) := ofOpreq rfl rfl
theorem resumeErase (a n : Word) : Statement (.resumeErase a n) := ofOpreq rfl rfl
theorem sleep (a n : Word) : Statement (.sleep a n) := ofOpreq rfl rfl
theorem wakeup (a n : Word) : Statement (.wakeup a n) := ofOpreq rfl rfl
theorem read (a n : Word) : Statement (.read a n) := ofOpreq rfl rfl
theorem init (a n : Word) : Statement (.init a n) := ofOpreq rfl rfl
theorem deinit (a n : Word) : Statement (.deinit a n) := ofOpreq rfl rfl
theorem getGeometry (a n : Word) : Statement (.getGeometry a n) := ofOpreq rfl rfl
theorem resetChip (a n : Word) : Statement (.resetChip a n) := ofOpreq rfl rfl
theorem tRdsr : Statement .tRdsr := ofTxn rfl rfl
theorem tRdscur : Statement .tRdscur := ofTxn rfl rfl
theorem tRdcr : Statement .tRdcr := ofTxn rfl rfl
theorem tWren : Statement .tWren := ofTxn rfl rfl
theorem tWrsr (n : Word) : Statement (.tWrsr n) := ofTxn rfl rfl
theorem tPp4 (a n : Word) : Statement (.tPp4 a n) := ofTxn rfl rfl
theorem tSe (a : Word) : Statement (.tSe a) := ofTxn rfl rfl
theorem tBe (a : Word) : Statement (.tBe a) := ofTxn rfl rfl
theorem tCe : Statement .tCe := ofTxn rfl rfl
theorem tSusp : Statement .tSusp := ofTxn rfl rfl
theorem tResm : Statement .tResm := ofTxn rfl rfl
theorem tDp : Statement .tDp := ofTxn rfl rfl
theorem tWake : Statement .tWake := ofTxn rfl rfl
theorem tRsten : Statement .tRsten := ofTxn rfl rfl
theorem tQread (a n : Word) : Statement (.tQread a n) := ofTxn rfl rfl
theorem tRst : Statement .tRst := ofTxn rfl rfl

end Sys2Proof.Laws.EncodeFormat
end

