-- ==== Sys2Proof/Laws/Program.lean ====
section
/-!
SUPPORT. The arithmetic of WRITE's chunks on natural numbers (41_program.md R151, R152).
-/

namespace Sys2Proof.Machine

variable {c : Config}

/-- A page size the spec allows is a power of two not above 2^31 (00_scope.md R8). -/
theorem Config.pageSize_pow (h : c.wf = true) : ∃ k, k < 32 ∧ c.pageSize = 2 ^ k := by
  simp only [Config.wf, Config.geometryOk, isPageSize, Bool.and_eq_true, List.any_eq_true,
    List.mem_range, beq_iff_eq] at h
  exact h.1.1.1.1.2

theorem Config.pageSize_pos (h : c.wf = true) : 0 < c.pageSize := by
  obtain ⟨k, -, hk⟩ := Config.pageSize_pow h
  rw [hk]
  exact Nat.two_pow_pos k

theorem Config.pageSize_lt (h : c.wf = true) : c.pageSize < 2 ^ 32 := by
  obtain ⟨k, hk, e⟩ := Config.pageSize_pow h
  rw [e]
  exact Nat.pow_lt_pow_right (by decide) hk

/-- "`P` divides 2^32" (41_program.md R152). -/
theorem Config.pageSize_dvd (h : c.wf = true) : c.pageSize ∣ 2 ^ 32 := by
  obtain ⟨k, hk, e⟩ := Config.pageSize_pow h
  rw [e]
  exact Nat.pow_dvd_pow 2 hk.le

@[simp] theorem pageWord_toNat (h : c.wf = true) : (pageWord c).toNat = c.pageSize := by
  simp only [pageWord, BitVec.toNat_ofNat]
  exact Nat.mod_eq_of_lt (Config.pageSize_lt h)

theorem minWord_toNat (x y : Word) : (minWord x y).toNat = min x.toNat y.toNat := by
  unfold minWord
  split <;> rename_i h <;> rw [BitVec.lt_def] at h <;> omega

/-- Step X0: the first chunk fills the page or takes the whole length. -/
theorem firstChunk_toNat (h : c.wf = true) (a n : Word) :
    (firstChunk c a n).toNat = min (c.pageSize - a.toNat % c.pageSize) n.toNat := by
  have hp := Config.pageSize_pos h
  have hl := Config.pageSize_lt h
  have hm := Nat.mod_lt a.toNat hp
  rw [firstChunk, minWord_toNat, BitVec.toNat_sub, BitVec.toNat_umod, pageWord_toNat h]
  congr 1
  omega

/-- Step X5: a later chunk is a page or what is left. -/
theorem nextChunk_toNat (h : c.wf = true) (e x : Word) :
    (nextChunk c e x).toNat = min c.pageSize (e - x).toNat := by
  rw [nextChunk, minWord_toNat, pageWord_toNat h]

end Sys2Proof.Machine
end

