-- ==== Sys2Proof/Tests/Slice0.lean ====
section
/-!
SUPPORT. Tests of the model. Expected values come from 95_test_vectors.md (the vector is named) or are
read from the rule named. Each runs one step. At the end, for each statement with premises, a state and
operands that meet them.
-/

namespace Sys2Proof.Tests

open Sys2Proof Sys2Proof.Machine

/-! ### States to test in -/

/-- The reset state with these answers still to come. -/
def scripted (rs : List Reply) : State := State.reset.setEnv { Env.atReset with replies := rs }

/-- The reset state with the reference chip as its environment. -/
def withChip (k : Chip) : State := State.reset.setEnv { Env.atReset with mode := .refchip, chip := k }

/-- The chip of program P1 at its start, but for the array. -/
def quadChip : Chip := ⟨[], 0x40, 0x00, 0x00, 0x02, .none, false, false⟩

/-- The state after an instruction. -/
def after (i : Instr) (s : State) : State :=
  match exec i s with
  | .next t => t
  | .fault _ => s
  | .refused _ => s

/-- The state after a step. -/
def stepped (s : State) : State :=
  match step s with
  | .next t => t
  | .fault _ => s
  | .refused _ => s

/-- The reset state with one event at its ports. -/
def withEvent (e : PortEvent) : State := State.reset.setHost ⟨[e], 0⟩

/-- `Exec`, then a poll that reads WEL set. -/
def enabled : List Reply := [.ok [], .ok [0x02]]

/-! ### WellFormed refuses an ill-formed term for each check -/

theorem test_wf_wrsr_two_bytes : (Instr.tWrsr 2).wf Config.default = false := by decide
theorem test_wf_wrsr_three_bytes : (Instr.tWrsr 3).wf Config.default = true := by decide
theorem test_wf_pp4_crosses_page : (Instr.tPp4 0xF1 16).wf Config.default = false := by decide
theorem test_wf_pp4_ends_page : (Instr.tPp4 0xF0 16).wf Config.default = true := by decide
theorem test_wf_se_misaligned : (Instr.tSe 0x5001).wf Config.default = false := by decide
theorem test_wf_se_outside : (Instr.tSe 0x800000).wf Config.default = false := by decide
theorem test_wf_se_last : (Instr.tSe 0x7FF000).wf Config.default = true := by decide

/-- U20: a page size that is no power of two is refused. -/
theorem test_wf_page_size : ({ Config.default with pageSize := 192 }).wf = false := by decide

/-- R42: two masks of SCUR on one bit are refused. -/
theorem test_wf_masks : ({ Config.default with mEsb := 0x04 }).wf = false := by decide

/-- U20: the step refuses such a configuration. -/
theorem test_step_bad_config :
    step { State.reset with cfg := { Config.default with pageSize := 192 } } =
      .refused .configInvalid := rfl

/-! ### Decoding: every constructor, from a word written out (95 part 2.8; R90, R91, R95) -/

theorem test_decode_getStatus : decodeTableWord 72 0x000000000000000001 = some (.getStatus 0 0) := by
  decide
theorem test_decode_pollReady :
    decodeTableWord 72 0x000013880000000002 = some (.pollReady 0 5000) := by decide
theorem test_decode_writeEnable :
    decodeTableWord 72 0x000000000000000003 = some (.writeEnable 0 0) := by decide
theorem test_decode_write :
    decodeTableWord 72 0x00000020000000F004 = some (.write 0xF0 32) := by decide
theorem test_decode_quadMode :
    decodeTableWord 72 0x000000000000000105 = some (.quadMode 1 0) := by decide
theorem test_decode_hpMode :
    decodeTableWord 72 0x000000000000000006 = some (.hpMode 0 0) := by decide
theorem test_decode_eraseBlock :
    decodeTableWord 72 0x000000000001000007 = some (.eraseBlock 0x10000 0) := by decide
theorem test_decode_eraseSector :
    decodeTableWord 72 0xDEADBEEF0000000508 = some (.eraseSector 5 0xDEADBEEF) := by decide
theorem test_decode_eraseChip :
    decodeTableWord 72 0x000000000000000009 = some (.eraseChip 0 0) := by decide
theorem test_decode_suspendErase :
    decodeTableWord 72 0x00000000000000000A = some (.suspendErase 0 0) := by decide
theorem test_decode_resumeErase :
    decodeTableWord 72 0x00000000000000000B = some (.resumeErase 0 0) := by decide
theorem test_decode_sleep : decodeTableWord 72 0x00000000000000000C = some (.sleep 0 0) := by decide
theorem test_decode_wakeup :
    decodeTableWord 72 0x00000000000000000D = some (.wakeup 0 0) := by decide
theorem test_decode_read :
    decodeTableWord 72 0x000000040000010010 = some (.read 0x100 4) := by decide
theorem test_decode_init : decodeTableWord 72 0x000000000000000011 = some (.init 0 0) := by decide
theorem test_decode_deinit :
    decodeTableWord 72 0x000000000000000012 = some (.deinit 0 0) := by decide
theorem test_decode_getGeometry :
    decodeTableWord 72 0x000000000000000013 = some (.getGeometry 0 0) := by decide
theorem test_decode_resetChip :
    decodeTableWord 72 0x000000000000000014 = some (.resetChip 0 0) := by decide
theorem test_decode_reserved : decodeTableWord 72 0x00000000000000000E = none := by decide

theorem test_decode_tRdsr : decodeTableWord 101 0x000000002A0000000000000105 = some .tRdsr := by
  decide
theorem test_decode_tRdscur : decodeTableWord 101 0x000000002A000000000000012B = some .tRdscur := by
  decide
theorem test_decode_tRdcr : decodeTableWord 101 0x000000004A0000000000000115 = some .tRdcr := by
  decide
theorem test_decode_tWren : decodeTableWord 101 0x00000000000000000000000106 = some .tWren := by
  decide
theorem test_decode_tWrsr : decodeTableWord 101 0x000000006C0000000000000101 = some (.tWrsr 3) := by
  decide
theorem test_decode_tPp4 :
    decodeTableWord 101 0x0000001014000263FFFFFE0138 = some (.tPp4 0xFFFFFF80 128) := by decide
theorem test_decode_tSe :
    decodeTableWord 101 0x00000000000001600001400120 = some (.tSe 0x5000) := by decide
theorem test_decode_tBe :
    decodeTableWord 101 0x000000000000016000040001D8 = some (.tBe 0x10000) := by decide
theorem test_decode_tCe : decodeTableWord 101 0x00000000000000000000000160 = some .tCe := by decide
theorem test_decode_tSusp : decodeTableWord 101 0x00000000000000000000000175 = some .tSusp := by
  decide
theorem test_decode_tResm : decodeTableWord 101 0x0000000000000000000000017A = some .tResm := by
  decide
theorem test_decode_tDp : decodeTableWord 101 0x000000000000000000000001B9 = some .tDp := by decide
theorem test_decode_tWake : decodeTableWord 101 0x00000000000000000000000100 = some .tWake := by
  decide
theorem test_decode_tRsten : decodeTableWord 101 0x00000000000000000000000166 = some .tRsten := by
  decide
theorem test_decode_tRst : decodeTableWord 101 0x00000000000000000000000199 = some .tRst := by decide
theorem test_decode_tQread :
    decodeTableWord 101 0x00000000924AAA6000000401EB = some (.tQread 0x100 4) := by decide

/-- R97: lines code 3 is no instruction (here in bits 9:8 of `T_WREN`). -/
theorem test_decode_lines_three : decodeTableWord 101 0x00000000000000000000000306 = none := by
  decide

/-- The encoder writes the word of 95 part 2.8. -/
theorem test_encode_tPp4 :
    encode Config.default (.tPp4 0xF0 16) = .descriptor 0x0000000214000260000003C138 := by decide

/-- R121, R154: each pseudo-operation is what its expansion says. -/
theorem test_pseudo_operations :
    writeB 0x100 0x5A = [.bufWrite 0 [0x5A], .request 0x000000010000010004] ∧
      quadEnable = [.request 0x000000000000000105] ∧
      quadDisable = [.request 0x000000000000000005] ∧
      hpEnable = [.request 0x000000000000000106] ∧
      hpDisable = [.request 0x000000000000000006] ∧
      eraseAt 0x12345 = [.request 0x000000000001234507] := by decide

/-! ### One step on vectors of the spec -/

/-- GS2. -/
theorem test_getStatus_busy :
    (after (.getStatus 0 0) (scripted [.ok [], .ok [0x00], .ok [], .ok [0x01]])).status = .busy := by
  decide

/-- GS13: fail and suspend together; SR is never read. -/
theorem test_getStatus_fail_wins :
    let t := after (.getStatus 0 0) (scripted [.ok [], .ok [0x28]])
    t.status = .error ∧ t.cause = some .chipFail ∧ t.trace.length = 2 := by decide

/-- PL4: the timeout is `N`, `A` is ignored. -/
theorem test_pollReady_timeout :
    (after (.pollReady 0x12345678 0xFFFFFFFF) (scripted [.ok [0x00]])).trace.map (fun e => e.call) =
      [.autoPoll .rdsr ⟨0x00, 0x01⟩ 16 0xFFFFFFFF] := by decide

/-- WL5: the poll for WEL reads 0x00, then 0x02. -/
theorem test_writeEnable_polls :
    (after (.writeEnable 0 0) (scripted [.ok [], .ok [0x00, 0x02]])).status = .ok := by decide

/-- WE3. -/
theorem test_writeEnable_timeout :
    let t := after (.writeEnable 0 0) (scripted [.ok [], .fail])
    t.status = .error ∧ t.cause = some .bus ∧ t.trace.length = 2 := by decide

/-- CH16: the range wraps at 2^32; `END` is below `A`. -/
theorem test_write_wraps :
    programCommands
        (after (.write 0xFFFFFFFE 4)
          (scripted [.ok [], .ok [2], .ok [], .ok [], .ok [0], .ok [], .ok [2], .ok [], .ok [],
            .ok [0]])).trace = [(0xFFFFFFFE, 2), (0, 2)] := by decide +kernel

/-- AB7, for `WRITE 0xFE, 4`: the second program command fails; `CUR` and `PTR` keep the chunk's values. -/
theorem test_write_abort :
    let t := after (.write 0xFE 4)
      (scripted [.ok [], .ok [2], .ok [], .ok [], .ok [0], .ok [], .ok [2], .fail])
    t.status = .error ∧ t.work.cur = 0x100 ∧ t.work.ptr = 2 ∧ t.trace.length = 8 := by
  decide +kernel

/-- R264: each byte is read at step X3 of its chunk. What the host stores during X2 goes out (BUF[0]), during
X3 it does not (BUF[1]), and after the first chunk it reaches the second (BUF[2]). -/
theorem test_write_unstable_buffer :
    let s := (scripted (List.replicate 10 (Reply.ok [2]))).storeBuf 0 [1, 2, 3, 4]
    sentBytes (after (.write 0xFE 4)
      (s.setHostStores [[], [], [⟨0, [0xA0]⟩], [⟨1, [0xA1, 0xA2]⟩]])).trace = [0xA0, 2, 0xA2, 4] := by
  decide +kernel

/-- QM7: the chip did not take the write. -/
theorem test_quadMode_verify :
    let t := after (.quadMode 1 0) (scripted
      [.ok [], .ok [0x00], .ok [], .ok [2], .ok [], .ok [], .ok [0], .ok [], .ok [0x00]])
    t.status = .error ∧ t.cause = some .verify ∧ t.scratch.rb0 = 0x40 := by decide +kernel

/-- QM10: only bit 0 of `A` is the operand; the byte written is 0x00. -/
theorem test_quadMode_operand :
    let t := after (.quadMode 0xFFFFFFFE 0) (scripted
      [.ok [], .ok [0x40], .ok [], .ok [2], .ok [], .ok [], .ok [0], .ok [], .ok [0x00]])
    t.status = .ok ∧ sentBytes t.trace = [0x00] := by decide +kernel

/-- HP2: disable keeps the other bits; two reinitialisations. -/
theorem test_hpMode_disable :
    let t := after (.hpMode 0 0) (scripted
      [.ok [], .ok [0x40], .ok [], .ok [0x08, 0x02], .ok [], .ok [2], .ok [], .ok [], .ok [0],
        .ok [], .ok [0x08, 0x00], .ok [], .ok []])
    t.status = .ok ∧ sentBytes t.trace = [0x40, 0x08, 0x00] ∧ collaboratorEvents t.trace = 2 := by
  decide +kernel

/-- HP5: the bit is looked for in the second byte only. -/
theorem test_hpMode_second_byte :
    let t := after (.hpMode 1 0) (scripted
      [.ok [], .ok [0x40], .ok [], .ok [0x00, 0x00], .ok [], .ok [2], .ok [], .ok [], .ok [0],
        .ok [], .ok [0x02, 0x00]])
    t.cause = some .verify ∧ collaboratorEvents t.trace = 0 := by decide +kernel

/-- EB2: the address goes out unchanged. -/
theorem test_eraseBlock_address :
    ((after (.eraseBlock 0x12345 0) (scripted (enabled ++ [.ok [], .ok [0]]))).trace.getLast?.map
        fun e => e.call) = some (.autoPoll .rdsr ⟨0x00, 0x01⟩ 16 3500) ∧
      ((after (.eraseBlock 0x12345 0) (scripted (enabled ++ [.ok [], .ok [0]]))).trace.map
        fun e => e.call).contains (.exec (.be 0x12345) 5000) = true := by decide

/-- ES3: the last legal index. -/
theorem test_eraseSector_last :
    ((after (.eraseSector 2047 0) (scripted (enabled ++ [.ok []]))).trace.getLast?.map
      fun e => e.call) = some (.exec (.se 0x7FF000) 5000) := by decide

/-- ES4. -/
theorem test_eraseSector_range :
    let t := after (.eraseSector 2048 0) (scripted [])
    t.status = .error ∧ t.cause = some .range ∧ t.trace = [] := by decide

/-- EC2: the timeout register as the host set it. -/
theorem test_eraseChip_timeout :
    ((after (.eraseChip 0 0)
      ((scripted (enabled ++ [.ok [], .ok [0]])).writeCsr 3 7)).trace.getLast?.map
        fun e => e.call) = some (.autoPoll .rdsr ⟨0x00, 0x01⟩ 16 7) := by decide

/-- SU4. -/
theorem test_suspendErase_busy :
    let t := after (.suspendErase 0 0) (scripted
      [.ok [], .ok [0x00], .ok [], .ok [0x43], .ok [], .ok [], .ok [0x08]])
    t.status = .ok ∧ t.work.st = .suspended ∧ t.trace.length = 7 := by decide +kernel

/-- SU3: a first status of ERROR is a no-op returning OK. -/
theorem test_suspendErase_error :
    let t := after (.suspendErase 0 0) (scripted [.ok [], .ok [0x40]])
    t.status = .ok ∧ t.cause = none ∧ t.work.st = .error := by decide

/-- SU10: the resumed erase has already ended. -/
theorem test_resumeErase_verify :
    let t := after (.resumeErase 0 0) (scripted
      [.ok [], .ok [0x08], .ok [], .ok [], .ok [0x00], .ok [], .ok [0x40]])
    t.status = .error ∧ t.cause = some .suspendVerify := by decide +kernel

/-- PW2. -/
theorem test_sleep_fail : (after (.sleep 0 0) (scripted [.fail])).status = .error := by decide

/-- PW3: the one call. -/
theorem test_wakeup_call :
    (after (.wakeup 0 0) (scripted [.ok []])).trace.map (fun e => e.call) = [.exec .wake 5000] := by
  decide

/-- RD1. -/
theorem test_read_bytes :
    (after (.read 0x100 4) (scripted [.ok [], .ok [0xDE, 0xAD, 0xBE, 0xEF]])).bufRead 0 5 =
      [0xDE, 0xAD, 0xBE, 0xEF, 0x00] := by decide

/-- RD4: BUF is not written. -/
theorem test_read_fail :
    let t := after (.read 0x100 4) ((scripted [.ok [], .fail]).storeBuf 0 [0x11])
    t.status = .error ∧ t.bufRead 0 1 = [0x11] := by decide

/-- GG1. -/
theorem test_getGeometry :
    let t := after (.getGeometry 0 0) (scripted [])
    t.status = .ok ∧ t.readCsr 0x0B = 256 ∧ t.readCsr 0x0C = 32768 := by decide

/-- RC3. -/
theorem test_resetChip_fail :
    let t := after (.resetChip 0 0) (scripted [.ok [], .fail])
    t.status = .notSupported ∧ t.cause = some .reset ∧ t.trace.length = 2 := by decide

/-- P4: INIT on the reference chip, SR = 0x00. -/
theorem test_init_chip :
    let t := after (.init 0 0) (withChip ⟨[], 0, 0, 0, 0, .none, false, false⟩)
    t.status = .ok ∧ t.stateCsr = 2 ∧ t.env.chip.sr = 0x40 ∧ t.env.chip.cr1 = 0x02 := by
  decide +kernel

/-- IN7: a failed binding clears INITED. -/
theorem test_init_bind :
    let t := after (.init 0 0) ((scripted [.fail]).setInited true)
    t.status = .error ∧ t.cause = some .bind ∧ t.inited = false := by decide

/-- DI2: after a failed reset the bus is not released. -/
theorem test_deinit_fail :
    let t := after (.deinit 0 0) ((scripted [.ok [], .fail]).setInited true)
    t.status = .notSupported ∧ collaboratorEvents t.trace = 0 ∧ t.inited = false := by decide

/-- RS3, by the step. -/
theorem test_step_reserved :
    let t := stepped (withEvent (.request 0x123456789ABCDEF00F))
    t.status = .error ∧ t.cause = some .reservedOp ∧ t.req = ⟨0x0F, 0x9ABCDEF0, 0x12345678⟩ := by
  decide

/-- CS4, CS5, CS7: a timeout is written, a read-only index is not, a reserved index reads 0. -/
theorem test_csr :
    (stepped (withEvent (.csrWrite 1 1234))).tmo.program = 1234 ∧
      (stepped (withEvent (.csrWrite 4 5))).readCsr 4 = 0 ∧
      (stepped (withEvent (.csrRead 0))).host.csrData = 5000 ∧
      State.reset.readCsr 0x0D = 0 := by decide

/-- U22: a call never answered leaves the block at its step, BUSY. -/
theorem test_never_answers :
    let t := after (.eraseSector 5 0) (scripted [.ok [], .never])
    t.phase = [.E1, .W1] ∧ t.stateCsr = 1 ∧ t.done = false ∧ t.status = .ok := by decide

/-! ### Transactions alone, on the reference chip of R80 -/

theorem test_tRdsr : (after .tRdsr (withChip quadChip)).env.lastAnswer = .ok [0x40] := by decide
theorem test_tRdscur :
    (after .tRdscur (withChip { quadChip with scur := 0x08 })).env.lastAnswer = .ok [0x08] := by
  decide
theorem test_tRdcr : (after .tRdcr (withChip quadChip)).env.lastAnswer = .ok [0x00, 0x02] := by decide
theorem test_tWren : (after .tWren (withChip quadChip)).env.chip.sr = 0x42 := by decide
theorem test_tWren_busy :
    (after .tWren (withChip { quadChip with sr := 0x41 })).env.chip.sr = 0x41 := by decide

/-- R80: WIP and WEL keep their values, and three bytes write CR. -/
theorem test_tWrsr :
    let t := after (.tWrsr 3)
      ((withChip { quadChip with sr := 0x02 }).setScratch ⟨0x7D, 0x11, 0x22, 0, 0⟩)
    t.env.chip.sr = 0x7F ∧ t.env.chip.cr0 = 0x11 ∧ t.env.chip.cr1 = 0x22 := by decide

/-- R80: a program clears bits. -/
theorem test_tPp4 :
    let t := after (.tPp4 0x10 2)
      ((withChip { quadChip with sr := 0x42, mem := [(0x10, 0x0F)] }).storeBuf 0 [0x3C, 0x81])
    t.flashByte 0x10 = 0x0C ∧ t.flashByte 0x11 = 0x81 ∧ t.env.chip.inflight = .program := by decide
theorem test_tSe :
    let t := after (.tSe 0x1000)
      (withChip { quadChip with sr := 0x42, mem := [(0xFFF, 1), (0x1000, 2), (0x1FFF, 3)] })
    t.env.chip.mem = [(0xFFF, 1)] ∧ t.env.chip.sr = 0x43 := by decide

/-- EB2: the aligned block that contains the address. -/
theorem test_tBe :
    (after (.tBe 0x12345)
      (withChip { quadChip with
        sr := 0x42, mem := [(0xFFFF, 1), (0x10000, 2), (0x1FFFF, 3), (0x20000, 4)] })).env.chip.mem =
      [(0xFFFF, 1), (0x20000, 4)] := by decide
theorem test_tCe :
    (after .tCe (withChip { quadChip with sr := 0x42, mem := [(9, 1)] })).env.chip.mem = [] := by
  decide
theorem test_tSusp :
    let k := (after .tSusp (withChip { quadChip with sr := 0x43, inflight := .erase })).env.chip
    k.sr = 0x40 ∧ k.scur = 0x08 := by decide
theorem test_tResm :
    let k := (after .tResm (withChip { quadChip with scur := 0x08, inflight := .erase })).env.chip
    k.sr = 0x41 ∧ k.scur = 0x00 := by decide
theorem test_tDp : (after .tDp (withChip quadChip)).env.chip.dpd = true := by decide
theorem test_tWake :
    (after .tWake (withChip { quadChip with dpd := true })).env.chip.dpd = false := by decide
theorem test_tRsten : (after .tRsten (withChip quadChip)).env.chip.rsten = true := by decide
theorem test_tRst :
    let k := (after .tRst (withChip { quadChip with sr := 0x43, scur := 0x28, rsten := true })).env.chip
    k.sr = 0x40 ∧ k.scur = 0 ∧ k.cr1 = 0x02 ∧ k.rsten = false := by decide
theorem test_tQread :
    (after (.tQread 0x100 3)
      (withChip { quadChip with mem := [(0x100, 0xDE), (0x102, 0xBE)] })).env.lastAnswer =
      .ok [0xDE, 0xFF, 0xBE] := by decide

/-- R80, U11: the resumed erase ends on its own before the verify reads the status (call 4 of 7). -/
theorem test_complete_between_calls :
    let s := withChip { quadChip with scur := 0x08, inflight := .erase }
    let t := after (.resumeErase 0 0)
      (s.setEnv { s.env with completions := [false, false, false, true] })
    t.cause = some .suspendVerify ∧ t.env.chip.sr = 0x40 ∧ t.env.chip.inflight = .none := by
  decide +kernel

/-- R80: a ready poll with WIP set answers OK, also with no cycle in flight (log 12). -/
theorem test_poll_without_cycle :
    let t := after (.pollReady 0 5000) (withChip { quadChip with sr := 0x41 })
    t.status = .ok ∧ t.env.chip.sr = 0x41 := by decide

/-- `withFetchWord` places a word where the next step runs it: GET_GEOMETRY from reset. -/
theorem test_withFetchWord :
    (stepped (State.reset.withFetchWord 8 0x13)).status = .ok ∧
      (stepped (State.reset.withFetchWord 8 0x13)).done = true := by decide

/-- The same at the executor's port: T_WREN. -/
theorem test_withFetchWord_txn :
    ((stepped ((withChip quadChip).withFetchWord 101 0x106)).env.chip).sr = 0x42 := by decide

/-! ### States and operands that meet the premises of each statement

`Ran i s` is the premise "`i` is an operation, accepted in IDLE under an allowed configuration, and it
answers a next state". -/

/-- An operation that runs from an idle state under an allowed configuration. -/
def Ran (i : Instr) (s : State) : Prop :=
  i.txn? = none ∧ s.cfg.wf = true ∧ s.phase = [] ∧ ∃ t, exec i s = .next t

/-- A host that stores nothing holds BUF stable. -/
theorem stable_of_nil {s : State} (h : s.hostStores = []) (n : Nat) : s.bufStable n := by
  intro k x _
  rw [State.bufAfter_of_nil h]
  rfl

theorem witness_DecodeOfEncode : Config.default.opcodesDistinct = true := by decide

theorem witness_EncodeOfDecode :
    decode Config.default (.request 0x00000020000000F004) = .ok (.write 0xF0 32) ∧
      decode Config.default (.descriptor 0x00000000924AAA6000000401EB) = .ok (.tQread 0x100 4) := by
  decide

theorem witness_AssignedOperationCodes :
    ∀ op ∈ ([0x00, 0x0E, 0x0F, 0x15, 0xFF] : List Byte),
      op ∉ ([0x01, 0x02, 0x03, 0x04, 0x05, 0x06, 0x07, 0x08, 0x09, 0x0A, 0x0B, 0x0C, 0x0D, 0x10,
        0x11, 0x12, 0x13, 0x14] : List Byte) := by decide

theorem witness_EmittedDescriptorsKeepTheirInvariant : Ran (.write 0xF0 32) State.reset :=
  ⟨rfl, by decide, rfl, _, rfl⟩

theorem witness_StepRunsDecodedInstruction_request :
    (withEvent (.request 0x11)).cfg.wf = true ∧ (withEvent (.request 0x11)).phase = [] ∧
      (withEvent (.request 0x11)).host.inbox = [.request 0x11] ∧
      storesInBuf (withEvent (.request 0x11)).cfg (withEvent (.request 0x11)).hostStores = true ∧
      decode (withEvent (.request 0x11)).cfg (.request 0x11) = .ok (.init 0 0) := by decide

theorem witness_StepRunsDecodedInstruction_descriptor :
    (withEvent (.descriptor 0x106)).host.inbox = [.descriptor 0x106] ∧
      decode (withEvent (.descriptor 0x106)).cfg (.descriptor 0x106) = .ok .tWren := by decide

theorem witness_ReservedCodeReturnsError :
    (withEvent (.request 0x0E)).cfg.wf = true ∧ (withEvent (.request 0x0E)).phase = [] ∧
      (withEvent (.request 0x0E)).host.inbox = [.request 0x0E] ∧
      storesInBuf (withEvent (.request 0x0E)).cfg (withEvent (.request 0x0E)).hostStores = true ∧
      reqOp 0x0E ∉ ([0x01, 0x02, 0x03, 0x04, 0x05, 0x06, 0x07, 0x08, 0x09, 0x0A, 0x0B, 0x0C, 0x0D,
        0x10, 0x11, 0x12, 0x13, 0x14] : List Byte) := by decide

/-- A request that waits behind an operation standing at a call, and a reset that ends it. -/
theorem witness_BusyBlockHoldsRequests :
    let s := (withEvent (.request 0x11)).setPhase [.D0]
    let r := (State.reset.setHost ⟨[.request 0x11, .hardwareReset], 0⟩).setPhase [.D0]
    s.cfg.wf = true ∧ s.phase ≠ [] ∧ step s = .next (s.setDone false) ∧
      nextEvent false r.host.inbox = some (.hardwareReset, [.request 0x11]) :=
  ⟨by decide, by decide, rfl, rfl⟩

theorem witness_CsrMapAndAccess_read :
    ∀ k ∈ [0x00, 0x01, 0x02, 0x03, 0x04, 0x05, 0x06, 0x07, 0x08, 0x09, 0x0A, 0x0B, 0x0C, 0x0D],
      (withEvent (.csrRead k)).cfg.wf = true ∧
        (withEvent (.csrRead k)).host.inbox = [.csrRead k] := by decide

theorem witness_CsrMapAndAccess_write :
    ∀ k ∈ [0x00, 0x03, 0x04],
      (withEvent (.csrWrite k 9)).host.inbox = [.csrWrite k 9] ∧
        (withEvent (.csrWrite k 9)).phase = [] ∧
        ((withEvent (.csrWrite k 9)).setPhase [.D0]).phase ≠ [] := by decide

theorem witness_HardwareResetAbandonsOperation :
    let s := (withEvent .hardwareReset).setPhase [.D0]
    s.cfg.wf = true ∧ nextEvent s.idle s.host.inbox = some (.hardwareReset, []) := by decide

theorem witness_StepKeepsInvariant :
    (withEvent (.request 0x13)).inv = true ∧ ∃ t, step (withEvent (.request 0x13)) = .next t :=
  ⟨by decide, _, rfl⟩

theorem witness_StatusChangesOnlyAtReturn :
    ∃ t, step ((withEvent (.request 0x13)).setStatus .busy) = .next t ∧ t.status ≠ .busy :=
  ⟨_, rfl, by decide⟩

/-- A buffer of four bytes: a store that ends at its end, one that goes beyond, and lengths beyond it. -/
theorem witness_BufferStoresAndBounds :
    let c := { Config.default with bufSize := 4 }
    let s := (withEvent (.bufWrite 2 [5, 6]))
    let r := (withEvent (.bufWrite 3 [5, 6]))
    ({ s with cfg := c }).inv = true ∧ ({ r with cfg := c }).inv = true ∧
      (2 : Word).toNat + 2 ≤ c.bufSize ∧ ¬ (3 : Word).toNat + 2 ≤ c.bufSize ∧
      c.bufSize < (5 : Word).toNat ∧ c.bufSize < (State.reset.work.ptr).toNat + (5 : Word).toNat := by
  decide

/-- A request with a host store one byte too long still to come. -/
theorem witness_BufferStoresAndBounds_later :
    let s := { (withEvent (.request 0x13)) with
      cfg := { Config.default with bufSize := 4 }, hostStores := [[], [⟨3, [5, 6]⟩]] }
    s.cfg.wf = true ∧ s.phase = [] ∧ s.host.inbox = [.request 0x13] ∧
      (∃ bs ∈ s.hostStores, ∃ b ∈ bs, s.cfg.bufSize < b.off.toNat + b.bytes.length) ∧
      step s = .fault .bufferRange := ⟨by decide, rfl, rfl, by decide, rfl⟩

/-- A fail bit, a suspend bit, bits no field has, and the write-in-progress bit. -/
theorem witness_StatusDecoderReadsNamedBits :
    ((0x20 : Byte).getLsbD 5 ∧ Config.default.mPfail.getLsbD 5) ∧
      ((0x08 : Byte).getLsbD 3 ∧ Config.default.mEsb.getLsbD 3) ∧
      (∀ k, k < 8 → ¬ ((0x93 : Byte).getLsbD k ∧
        (Config.default.mPfail ||| Config.default.mEfail ||| Config.default.mPsb
          ||| Config.default.mEsb).getLsbD k)) ∧
      ((0x43 : Byte).getLsbD 0 ∧ Config.default.mWip.getLsbD 0) := by decide

/-! Scripts of answers that meet the completion clause of each per-operation statement; the byte 0x02
satisfies both predicates. -/

theorem witness_PollReadyOutcome :
    let rs : List Reply := [.ok [0x02]]
    (scripted rs).phase = [] ∧ (scripted rs).script rs ∧
      (predReady Config.default).sat 0x02 = true ∧ (scripted [.fail]).script [.fail] :=
  ⟨rfl, List.prefix_refl _, by decide, List.prefix_refl _⟩

theorem witness_WriteEnableOutcome :
    let rs : List Reply := [.ok [], .ok [0x02]]
    (scripted rs).phase = [] ∧ (scripted rs).script rs ∧
      (predWel Config.default).sat 0x02 = true ∧ (scripted [.ok [], .fail]).script [.ok [], .fail] :=
  ⟨rfl, List.prefix_refl _, by decide, List.prefix_refl _⟩

theorem witness_EraseBlockOutcome :
    let rs : List Reply := [.ok [], .ok [0x02], .ok [], .ok [0x02]]
    (scripted rs).phase = [] ∧ (scripted rs).script rs ∧
      (predReady Config.default).sat 0x02 = true ∧ (predWel Config.default).sat 0x02 = true :=
  ⟨rfl, List.prefix_refl _, by decide, by decide⟩

theorem witness_EraseChipOutcome :
    let rs : List Reply := [.ok [], .ok [0x02], .ok [], .ok [0x02]]
    (scripted rs).phase = [] ∧ (scripted rs).script rs ∧
      (predReady Config.default).sat 0x02 = true ∧ (predWel Config.default).sat 0x02 = true :=
  ⟨rfl, List.prefix_refl _, by decide, by decide⟩

theorem witness_GetGeometryReturnsOk : State.reset.phase = [] := rfl

theorem witness_ResetChipOutcome :
    let rs : List Reply := [.ok [], .ok [], .ok [0x02]]
    (scripted rs).phase = [] ∧ (scripted rs).script rs ∧
      (predReady Config.default).sat 0x02 = true :=
  ⟨rfl, List.prefix_refl _, by decide⟩

theorem witness_DeinitOutcome :
    let rs : List Reply := [.ok [], .ok [], .ok [0x02]]
    (scripted rs).phase = [] ∧ (scripted rs).script rs ∧
      (predReady Config.default).sat 0x02 = true :=
  ⟨rfl, List.prefix_refl _, by decide⟩

theorem witness_QuadModeOutcome :
    let rs : List Reply := [.ok [], .ok [0x7C], .ok [], .ok [0x02], .ok [], .ok [], .ok [0x02], .ok [],
      .ok [0x3C]]
    (scripted rs).phase = [] ∧ (scripted rs).script rs ∧
      (predReady Config.default).sat 0x02 = true ∧ (predWel Config.default).sat 0x02 = true ∧
      anySet 0x3C Config.default.mQe = (0x0 : Word).getLsbD 0 ∧
      anySet 0x40 Config.default.mQe = (0x1 : Word).getLsbD 0 :=
  ⟨rfl, List.prefix_refl _, by decide, by decide, by decide, by decide⟩

theorem witness_HpModeOutcome :
    let rs : List Reply := [.ok [], .ok [0x40], .ok [], .ok [0x00, 0x00], .ok [], .ok [0x02], .ok [],
      .ok [], .ok [0x02], .ok [], .ok [0x00, 0x02], .ok [], .ok []]
    (scripted rs).phase = [] ∧ (scripted rs).script rs ∧
      (predReady Config.default).sat 0x02 = true ∧ (predWel Config.default).sat 0x02 = true ∧
      anySet 0x02 Config.default.mLh = (0x1 : Word).getLsbD 0 ∧
      anySet 0xFD Config.default.mLh = (0x0 : Word).getLsbD 0 :=
  ⟨rfl, List.prefix_refl _, by decide, by decide, by decide, by decide⟩

/-- GET_STATUS, decided by SCUR and decided by SR. -/
theorem witness_GetStatusOutcome :
    State.reset.phase = [] ∧ (scripted [.ok [], .ok [0x08], .ok [], .ok [0x01]]).script
        [.ok [], .ok [0x08], .ok [], .ok [0x01]] ∧
      decode1 Config.default 0x08 = some .suspended ∧ decode1 Config.default 0x93 = none :=
  ⟨rfl, List.prefix_refl _, by decide, by decide⟩

/-- ERASE_SECTOR at the two sides of the last index. -/
theorem witness_EraseSectorOutcome :
    let rs : List Reply := [.ok [], .ok [0x02], .ok []]
    (scripted rs).phase = [] ∧ (scripted rs).script rs ∧
      (predWel Config.default).sat 0x02 = true ∧
      (0x7FF : Word).toNat < (scripted rs).cfg.sectorCount ∧
      (scripted rs).cfg.sectorCount ≤ (0x800 : Word).toNat :=
  ⟨rfl, List.prefix_refl _, by decide, by decide, by decide⟩

theorem witness_SuspendEraseOutcome :
    let rs : List Reply := [.ok [], .ok [0x00], .ok [], .ok [0x43], .ok [], .ok [], .ok [0x08]]
    (scripted rs).phase = [] ∧ (scripted rs).script rs ∧
      decode1 Config.default 0x00 = none ∧ decode2 Config.default 0x43 = .busy ∧
      decode1 Config.default 0x08 = some .suspended :=
  ⟨rfl, List.prefix_refl _, by decide, by decide, by decide⟩

theorem witness_ResumeEraseOutcome :
    let rs : List Reply := [.ok [], .ok [0x04], .ok [], .ok [], .ok [0x00], .ok [], .ok [0x41]]
    (scripted rs).phase = [] ∧ (scripted rs).script rs ∧
      decode1 Config.default 0x04 = some .suspended ∧ decode1 Config.default 0x00 = none ∧
      decode2 Config.default 0x41 = .busy :=
  ⟨rfl, List.prefix_refl _, by decide, by decide, by decide⟩

theorem witness_SleepAndWakeupOutcome :
    (scripted [.ok []]).script [.ok []] ∧ (withChip quadChip).onChip ∧
      (withChip quadChip).phase = [] := ⟨List.prefix_refl _, ⟨rfl, rfl, rfl⟩, rfl⟩

theorem witness_ReadOutcome :
    State.reset.phase = [] ∧ Memory.wf bufBackground State.reset.buf = true ∧
      (4 : Word).toNat ≤ State.reset.cfg.bufSize ∧
      ([0xDE, 0xAD, 0xBE, 0xEF] : List Byte).length = (4 : Word).toNat := by decide

/-- INIT with every answer OK completes, so its completion clause has a state to speak of. -/
theorem witness_InitOutcome :
    let rs : List Reply :=
      [.ok [], .ok [], .ok [], .ok [], .ok [0], .ok [], .ok [0], .ok [], .ok [2], .ok [], .ok [],
        .ok [0], .ok [], .ok [0x40], .ok [], .ok [0x40], .ok [], .ok [0, 0], .ok [], .ok [2],
        .ok [], .ok [], .ok [0], .ok [], .ok [0, 2], .ok [], .ok []]
    (scripted rs).script rs ∧ (scripted rs).phase = [] ∧
      (after (.init 0 0) (scripted rs)).inited = true :=
  ⟨List.prefix_refl _, rfl, by decide +kernel⟩

/-- WRITE of two chunks with every answer scripted. -/
theorem witness_WriteFollowsItsPlan :
    let rs := List.replicate (5 * chunkCount 256 0xFE 4) (Reply.ok [0x02])
    (scripted rs).script rs ∧ (scripted rs).cfg.wf = true ∧ (scripted rs).phase = [] ∧
      (4 : Word).toNat ≤ (scripted rs).cfg.bufSize ∧ (scripted rs).cfg.pageSize = 256 :=
  ⟨List.prefix_refl _, by decide, rfl, by decide, rfl⟩

theorem witness_WriteOfLengthZero : State.reset.cfg.wf = true ∧ State.reset.phase = [] := by decide

theorem witness_ProgramCommandsCoverTheRange :
    let s := scripted (List.replicate 10 (Reply.ok [0x02]))
    s.cfg.wf = true ∧ s.phase = [] ∧ 1 ≤ (4 : Word).toNat ∧
      ∃ t, exec (.write 0xFE 4) s = .next t ∧ t.completed .ok :=
  ⟨by decide, rfl, by decide, _, rfl, ⟨⟨by decide +kernel, by decide +kernel, by decide +kernel⟩,
    by decide +kernel⟩⟩

theorem witness_WriteSendsTheBuffer :
    let s := scripted (List.replicate 10 (Reply.ok [0x02]))
    s.cfg.wf = true ∧ s.phase = [] ∧
      (∃ t, exec (.write 0xFE 4) s = .next t ∧ t.completed .ok) ∧ s.bufStable 4 ∧
      chunkIndex 256 0xFE 1 = 0 ∧ chunkIndex 256 0xFE 2 = 1 :=
  ⟨by decide, rfl, ⟨_, rfl, ⟨⟨by decide +kernel, by decide +kernel, by decide +kernel⟩,
    by decide +kernel⟩⟩, stable_of_nil rfl 4, by decide, by decide⟩

theorem witness_WriteEnablePrecedesEveryCommand : Ran (.eraseChip 0 0) State.reset :=
  ⟨rfl, by decide, rfl, _, rfl⟩

theorem witness_EmittedDescriptorsAreWellFormed : Ran (.eraseSector 5 0) State.reset :=
  ⟨rfl, by decide, rfl, _, rfl⟩

theorem witness_NoCallAfterAFailure : Ran (.deinit 0 0) State.reset := ⟨rfl, by decide, rfl, _, rfl⟩

theorem witness_CallCountsStayInBounds :
    Ran (.write 0 1) State.reset ∧ Ran (.getStatus 0 0) State.reset :=
  ⟨⟨rfl, by decide, rfl, _, rfl⟩, ⟨rfl, by decide, rfl, _, rfl⟩⟩

theorem witness_StatusCodesByOperation :
    ∃ t, exec (.getGeometry 0 0) State.reset = .next t ∧ t.done = true := ⟨_, rfl, rfl⟩

/-- An operation that returned with a cause, and one that returned without. -/
theorem witness_CausesByOperation :
    (∃ t, exec (.eraseSector 2048 0) State.reset = .next t ∧ t.done = true ∧
      t.cause = some .range) ∧
    ∃ t, exec (.getGeometry 0 0) State.reset = .next t ∧ t.done = true ∧ t.cause = none :=
  ⟨⟨_, rfl, by decide, by decide⟩, ⟨_, rfl, rfl, rfl⟩⟩

theorem witness_EveryOperationReturns :
    State.reset.cfg.wf = true ∧ State.reset.phase = [] ∧ State.reset.answersAll ∧
      bufInRange State.reset (.write 0xF0 32) = true :=
  ⟨by decide, rfl, by unfold State.answersAll; decide, by decide⟩

theorem witness_TimeoutClassOfEveryCall : Ran (.write 0xF0 32) State.reset :=
  ⟨rfl, by decide, rfl, _, rfl⟩

/-- A byte outside the sector of an erase command. -/
theorem witness_FlashFrame :
    (withChip quadChip).phase = [] ∧
      Memory.wf flashBackground (withChip quadChip).env.chip.mem = true ∧
      ∃ t, exec (.tSe 0x1000) (withChip quadChip) = .next t ∧
        ¬ mayTouchFlash (withChip quadChip).cfg t.trace (.tSe 0x1000) 0xFFF :=
  ⟨rfl, rfl, _, rfl, by unfold mayTouchFlash; decide⟩

theorem witness_EnvironmentFrame : ∃ t, exec .tWren State.reset = .next t := ⟨_, rfl⟩

/-- Two enable operands that agree on bit 0. -/
theorem witness_IgnoredOperandsHaveNoEffect :
    (1 : Word).getLsbD 0 = (3 : Word).getLsbD 0 ∧
      (∃ t, exec (.quadMode 1 0) State.reset = .next t) ∧
      ∃ t, exec (.getStatus 1 2) State.reset = .next t := ⟨by decide, ⟨_, rfl⟩, ⟨_, rfl⟩⟩

theorem witness_WorkingRegistersAreWrittenBeforeRead :
    (Instr.suspendErase 0 0).txn? = none ∧
      ∃ t, exec (.suspendErase 0 0) State.reset = .next t := ⟨rfl, _, rfl⟩

theorem witness_LoneCommandOutcome :
    Instr.tWren ∈ ([.tWren, .tCe, .tSusp, .tResm, .tDp, .tWake, .tRsten, .tRst] : List Instr) ∧
      Instr.txn? .tWren = some .wren ∧ (Instr.tSe 0x1000).txn? = some (.se 0x1000) ∧
      (scripted [.ok []]).script [.ok []] ∧ (withChip quadChip).onChip :=
  ⟨by decide, rfl, rfl, List.prefix_refl _, ⟨rfl, rfl, rfl⟩⟩

theorem witness_LoneReadOutcome :
    (scripted [.ok [], .ok [1, 2]]).script [.ok [], .ok [1, 2]] ∧
      ([1, 2] : List Byte).length = (2 : Word).toNat ∧ (withChip quadChip).onChip ∧
      (withChip quadChip).env.chip.dpd = false := ⟨List.prefix_refl _, rfl, ⟨rfl, rfl, rfl⟩, rfl⟩

theorem witness_LoneWriteOutcome :
    (scripted [.ok [], .ok []]).script [.ok [], .ok []] ∧ (withChip quadChip).onChip ∧
      (State.reset.work.ptr).toNat + (4 : Word).toNat ≤ State.reset.cfg.bufSize :=
  ⟨List.prefix_refl _, ⟨rfl, rfl, rfl⟩, by decide⟩

/-- The erase commands on a chip with the latch set, and on one without. -/
theorem witness_EraseCommandsOnTheChip :
    let s := withChip { quadChip with sr := 0x42 }
    let r := withChip quadChip
    s.onChip ∧ s.env.chip.dpd = false ∧ Memory.wf flashBackground s.env.chip.mem = true ∧
      (∃ t, exec (.tSe 0x1000) s = .next t) ∧
      (anySet s.env.chip.sr s.cfg.mWel = true ∧ ¬ anySet s.env.chip.sr s.cfg.mWip = true) ∧
      anySet r.env.chip.sr r.cfg.mWel = false :=
  ⟨⟨rfl, rfl, rfl⟩, rfl, rfl, ⟨_, rfl⟩, by decide, by decide⟩

theorem witness_ProgramCommandOnTheChip :
    let s := withChip { quadChip with sr := 0x42 }
    s.onChip ∧ s.inv = true ∧ s.env.chip.dpd = false ∧ anySet s.env.chip.sr s.cfg.mWel = true ∧
      anySet s.env.chip.sr s.cfg.mWip = false ∧ (4 : Word).toNat ≤ s.cfg.flashSize ∧
      (∃ t, exec (.tPp4 0x10 4) s = .next t) ∧
      anySet (withChip quadChip).env.chip.sr s.cfg.mWel = false :=
  ⟨⟨rfl, rfl, rfl⟩, by decide, rfl, by decide, by decide, by decide, ⟨_, rfl⟩, by decide⟩

theorem witness_EraseSectorLeavesTheEraseInFlight :
    let s := withChip quadChip
    s.onChip ∧ s.inv = true ∧ s.phase = [] ∧ s.env.chip.ready s.cfg ∧ srDistinct s.cfg ∧
      (2047 : Word).toNat < s.cfg.sectorCount ∧ decode1 s.cfg s.env.chip.scur = none :=
  ⟨⟨rfl, rfl, rfl⟩, by decide, rfl, ⟨rfl, by decide⟩, by unfold srDistinct; decide, by decide, by decide⟩

/-- A chip erasing, and a chip with no cycle running. -/
theorem witness_SuspendThenResumeOnTheChip :
    let s := withChip { quadChip with sr := 0x43, inflight := .erase }
    let r := withChip quadChip
    s.onChip ∧ s.cfg.wf = true ∧ s.phase = [] ∧ s.env.chip.dpd = false ∧
      decode1 s.cfg s.env.chip.scur = none ∧ s.env.chip.inflight = .erase ∧
      anySet s.env.chip.sr s.cfg.mWip = true ∧ anySet r.env.chip.sr r.cfg.mWip = false :=
  ⟨⟨rfl, rfl, rfl⟩, by decide, rfl, rfl, by decide, rfl, by decide, by decide⟩

theorem witness_InitConfiguresTheChip :
    let s := withChip { quadChip with sr := 0x43, inflight := .erase }
    s.onChip ∧ s.cfg.wf = true ∧ s.phase = [] ∧ s.env.chip.dpd = false ∧ srDistinct s.cfg :=
  ⟨⟨rfl, rfl, rfl⟩, by decide, rfl, rfl, by unfold srDistinct; decide⟩

/-- A busy chip with its latch still set, and one with its latch clear; a WRITE beyond the sector count. -/
theorem witness_BusyChipLosesCommands :
    let s := withChip { quadChip with sr := 0x43, inflight := .erase }
    let r := withChip { quadChip with sr := 0x41, inflight := .erase }
    s.onChip ∧ s.cfg.wf = true ∧ s.phase = [] ∧ srDistinct s.cfg ∧ s.env.chip.dpd = false ∧
      anySet s.env.chip.sr s.cfg.mWip = true ∧
      (2047 : Word).toNat < s.cfg.sectorCount ∧ (16 : Word).toNat ≤ s.cfg.bufSize ∧
      (16 : Word).toNat ≤ s.cfg.pageSize - (0x7FFFF0 : Word).toNat % s.cfg.pageSize ∧
      anySet s.env.chip.sr s.cfg.mWel = true ∧ anySet r.env.chip.sr r.cfg.mWel = false :=
  ⟨⟨rfl, rfl, rfl⟩, by decide, rfl, by unfold srDistinct; decide, rfl, by decide, by decide, by decide,
    by decide, by decide, by decide⟩

theorem witness_SleepingChipIgnoresCommands :
    let s := withChip { quadChip with dpd := true }
    s.env.mode = .refchip ∧ s.onChip ∧ s.env.chip.dpd = true ∧ s.phase = [] ∧
      (∀ a n, Instr.sleep 0 0 ≠ .wakeup a n) ∧ Instr.sleep 0 0 ≠ .tWake ∧
      ∃ t, exec (.sleep 0 0) s = .next t :=
  ⟨rfl, ⟨rfl, rfl, rfl⟩, rfl, rfl, fun _ _ h => (by cases h), by decide, _, rfl⟩

/-- The last page of the array, erased. -/
theorem witness_WriteReadRoundTrip :
    let s := withChip quadChip
    s.onChip ∧ s.inv = true ∧ s.phase = [] ∧ srDistinct s.cfg ∧ s.env.chip.ready s.cfg ∧
      (256 : Word).toNat ≤ s.cfg.bufSize ∧
      (0x7FFF00 : Word).toNat + (256 : Word).toNat ≤ s.cfg.flashSize ∧ s.bufStable 256 ∧
      (∀ x, (0x7FFF00 : Word).toNat ≤ x → x < (0x7FFF00 : Word).toNat + (256 : Word).toNat →
        s.flashByte x = 0xFF) ∧ Memory.wf bufBackground [] = true :=
  ⟨⟨rfl, rfl, rfl⟩, by decide, rfl, by unfold srDistinct; decide, ⟨rfl, by decide⟩, by decide, by decide,
    stable_of_nil rfl 256, fun _ _ _ => rfl, rfl⟩

end Sys2Proof.Tests
end

