-- ==== Sys2Proof/Proofs/Ports.lean ====
section
/-!
The ports of the block: what each kind of event does to the state, and the statements about the step that
need no operation (10_state.md R21, R28, R32 to R36, R50).
-/

namespace Sys2Proof.Machine

/-! ### What a step takes from the inbox -/

theorem State.idle_iff {s : State} : s.idle = true ↔ s.phase = [] := by
  simp [State.idle]

theorem State.idle_of_phase {s : State} (h : s.phase = []) : s.idle = true := State.idle_iff.2 h

theorem State.idle_eq_false {s : State} (h : s.phase ≠ []) : s.idle = false := by
  simpa [State.idle] using h

/-- An event that needs no idle block is taken at any time when it comes first (10_state.md R36). -/
theorem nextEvent_of_not_needsIdle {e : PortEvent} (h : e.needsIdle = false) (idle : Bool)
    (es : List PortEvent) : nextEvent idle (e :: es) = some (e, es) := by
  simp [nextEvent, h]

/-- A request, a descriptor or a CSR write is taken by an idle block only (10_state.md R28, R36). -/
theorem State.phase_nil_of_needsIdle {s : State} {es rest : List PortEvent} {e : PortEvent}
    (h : nextEvent s.idle es = some (e, rest)) (he : e.needsIdle = true) : s.phase = [] := by
  by_contra hne
  rw [State.idle_eq_false hne] at h
  simp [(nextEvent_busy h).1] at he

/-- The step on the event it takes. -/
theorem step_of_nextEvent {s : State} {e : PortEvent} {rest : List PortEvent} (hwf : s.cfg.wf = true)
    (h : nextEvent s.idle s.host.inbox = some (e, rest)) : step s = runEvent e (s.take rest) := by
  unfold step
  rw [if_pos hwf, h]

/-- The step when every event of the inbox has to wait. -/
theorem step_of_no_event {s : State} (hwf : s.cfg.wf = true)
    (h : nextEvent s.idle s.host.inbox = none) : step s = .next (s.setDone false) := by
  unfold step
  rw [if_pos hwf, h]

/-- In IDLE the first event of the inbox happens. -/
theorem step_of_idle {s : State} {e : PortEvent} {rest : List PortEvent} (hwf : s.cfg.wf = true)
    (hp : s.phase = []) (h : s.host.inbox = e :: rest) : step s = runEvent e (s.take rest) :=
  step_of_nextEvent hwf (by rw [State.idle_of_phase hp, h, nextEvent_idle])

/-! ### Words at the ports -/

/-- A word that decodes runs its instruction, while the host's stores to come stay inside BUF. -/
theorem runPacket_of_decode {p : Packet} {s : State} {i : Instr}
    (hst : storesInBuf s.cfg s.hostStores = true) (hd : decode s.cfg p = .ok i) :
    runPacket p s = exec i s := by
  unfold runPacket
  rw [if_pos hst, hd]

/-- Everything a word at a port can do: an instruction runs, or a reserved code is ended by ERROR. -/
theorem runPacket_cases {p : Packet} {s t : State} (h : runPacket p s = .next t) :
    (∃ i, exec i s = .next t) ∨ ∃ op a n, execReserved op a n s = .next t := by
  unfold runPacket at h
  split at h
  · split at h
    · exact .inl ⟨_, h⟩
    · split at h
      · exact .inr ⟨_, _, _, h⟩
      · cases h
  · cases h

/-- The chip's own event changes the environment alone. -/
theorem State.chipComplete_eq (s : State) : ∃ e, s.chipComplete = s.setEnv e := by
  unfold State.chipComplete
  split
  · exact ⟨s.env, rfl⟩
  · exact ⟨_, rfl⟩

/-- Everything an event that an operation need not be over for can do. -/
theorem runEvent_cases {e : PortEvent} {s t : State} (h : runEvent e s = .next t)
    (he : e.needsIdle = false) :
    (∃ k, t = s.latchCsr k) ∨
      (∃ off bytes, inBuf s.cfg off bytes.length = true ∧ t = s.storeBuf off.toNat bytes) ∨
      t = s.chipComplete ∨ (e = .hardwareReset ∧ t = s.hardwareReset) := by
  cases e with
  | request | descriptor | csrWrite => cases he
  | csrRead k =>
    injection h with h
    exact .inl ⟨k, h.symm⟩
  | bufWrite off bytes =>
    simp only [runEvent] at h
    split at h
    · injection h with h
      exact .inr (.inl ⟨off, bytes, ‹_›, h.symm⟩)
    · cases h
  | complete =>
    injection h with h
    exact .inr (.inr (.inl h.symm))
  | hardwareReset =>
    injection h with h
    exact .inr (.inr (.inr ⟨rfl, h.symm⟩))

/-- Everything an event that waits for an idle block can do: a CSR write, an instruction, or a reserved
code. -/
theorem runEvent_idle_cases {e : PortEvent} {s t : State} (h : runEvent e s = .next t)
    (he : e.needsIdle = true) :
    (∃ k v, t = s.writeCsr k v) ∨ (∃ i, exec i s = .next t) ∨
      ∃ op a n, execReserved op a n s = .next t := by
  cases e with
  | request w => exact .inr (runPacket_cases h)
  | descriptor d => exact .inr (runPacket_cases h)
  | csrWrite k v =>
    injection h with h
    exact .inl ⟨k, v, h.symm⟩
  | csrRead | bufWrite | complete | hardwareReset => cases he

/-! ### The statements -/

/-- Settles O6. -/
theorem stepRunsDecodedInstruction : Obligations.StepRunsDecodedInstruction := by
  intro s i rest hwf hp hst
  refine ⟨fun w hin hd => ?_, fun d hin hd => ?_, rfl⟩
  · rw [step_of_idle hwf hp hin]
    exact runPacket_of_decode (s := s.take rest) hst hd
  · rw [step_of_idle hwf hp hin]
    exact runPacket_of_decode (s := s.take rest) hst hd

/-- What an operation under way keeps when an event that does not wait happens: PHASE, STATUS, INITED, the
latches, the working, scratch and timeout registers, and the trace. -/
def State.OperationKept (s t : State) : Prop :=
  t.phase = s.phase ∧ t.status = s.status ∧ t.req = s.req ∧ t.work = s.work ∧
    t.scratch = s.scratch ∧ t.tmo = s.tmo ∧ t.trace = s.trace ∧ t.inited = s.inited

/-- An event that does not wait takes nothing more from the inbox and keeps the operation, or is a hardware
reset. -/
theorem runEvent_keeps_operation {e : PortEvent} {s t : State} (h : runEvent e s = .next t)
    (he : e.needsIdle = false) :
    t.host.inbox = s.host.inbox ∧ (e = .hardwareReset ∨ s.OperationKept t) := by
  have kept : ∀ u : State, u = s → s.OperationKept u := by
    rintro u rfl
    exact ⟨rfl, rfl, rfl, rfl, rfl, rfl, rfl, rfl⟩
  rcases runEvent_cases h he with ⟨k, rfl⟩ | ⟨off, bytes, -, rfl⟩ | rfl | ⟨rfl, rfl⟩
  · exact ⟨rfl, .inr (kept s rfl)⟩
  · exact ⟨rfl, .inr (kept s rfl)⟩
  · obtain ⟨env, henv⟩ := s.chipComplete_eq
    rw [henv]
    exact ⟨rfl, .inr (kept s rfl)⟩
  · exact ⟨rfl, .inl rfl⟩

/-- Settles O8: what a busy block takes from the inbox needs no idle block, and keeps the operation. -/
theorem busyBlockHoldsRequests : Obligations.BusyBlockHoldsRequests := by
  refine ⟨fun s t _ hp hstep => ?_, fun s e rest hwf hp hin => step_of_idle hwf hp hin⟩
  obtain ⟨-, hcase⟩ := step_cases hstep
  rw [State.idle_eq_false hp] at hcase
  rcases hcase with ⟨-, rfl⟩ | ⟨e, rest, hnext, hrun⟩
  · exact ⟨rfl, .inr ⟨rfl, rfl, rfl, rfl, rfl, rfl, rfl, rfl⟩⟩
  · obtain ⟨he, hfilter⟩ := nextEvent_busy hnext
    obtain ⟨hinbox, hkept⟩ := runEvent_keeps_operation hrun he
    refine ⟨by rw [hinbox]; exact hfilter, hkept.imp ?_ id⟩
    rintro rfl
    exact ⟨rest, hnext⟩

/-! ### The CSR map -/

/-- `STATE` as a number: BUSY is bit 0, INITED is bit 1 (10_state.md R34). -/
theorem State.stateCsr_toNat (s : State) :
    s.stateCsr.toNat = (if s.phase = [] then 0 else 1) + (if s.inited then 2 else 0) := by
  unfold State.stateCsr
  by_cases hp : s.phase = [] <;> cases hi : s.inited <;> simp [hp]

/-- A reserved index reads 0 (10_state.md R36). -/
theorem State.readCsr_reserved (s : State) {k : Nat} (h : k = 0x06 ∨ k = 0x07 ∨ 0x0D ≤ k) :
    s.readCsr k = 0 := by
  rcases h with rfl | rfl | h
  · rfl
  · rfl
  · obtain ⟨j, rfl⟩ := Nat.exists_eq_add_of_le' h
    rfl

/-- A CSR write sets the timeout register of its index and no other (10_state.md R32, R36). -/
theorem Timeouts.write_eq (t : Timeouts) (k : Nat) (v : Word) :
    t.write k v = ⟨if k = 0x00 then v else t.dflt, if k = 0x01 then v else t.program,
      if k = 0x02 then v else t.blockErase, if k = 0x03 then v else t.chipErase⟩ := by
  unfold Timeouts.write
  split <;> simp_all

/-- A CSR read at the head of the inbox happens at any time. -/
theorem step_csrRead {s : State} {k : Nat} {rest : List PortEvent} (hwf : s.cfg.wf = true)
    (hin : s.host.inbox = .csrRead k :: rest) :
    step s = .next { s with host := ⟨rest, s.readCsr k⟩, done := false } := by
  have hnext : nextEvent s.idle s.host.inbox = some (.csrRead k, rest) := by
    rw [hin]
    exact nextEvent_of_not_needsIdle rfl _ _
  rw [step_of_nextEvent hwf hnext]
  rfl

/-- Settles O9. -/
theorem csrMapAndAccess : Obligations.CsrMapAndAccess := by
  refine ⟨fun s k rest hwf hin => ⟨s.readCsr k, step_csrRead hwf hin, ?_⟩,
    fun s k v rest hwf hin => ⟨fun hp => ⟨s.tmo.write k v, step_of_idle hwf hp hin, ?_⟩, ?_⟩⟩
  · refine ⟨?_, ?_, ?_, ?_, ?_, ?_, ?_, ?_, ?_, ?_, ?_, fun h => s.readCsr_reserved h⟩ <;> rintro rfl
    · rfl
    · rfl
    · rfl
    · rfl
    · exact BitVec.toNat_setWidth_of_le (by decide)
    · exact s.stateCsr_toNat
    · exact BitVec.toNat_ofNat _ _
    · exact BitVec.toNat_ofNat _ _
    · exact BitVec.toNat_ofNat _ _
    · exact pageWord_toNat hwf
    · exact BitVec.toNat_ofNat _ _
  · rw [Timeouts.write_eq]
    exact ⟨rfl, rfl, rfl, rfl⟩
  · rintro hp rfl
    exact step_of_no_event hwf (by rw [hin, State.idle_eq_false hp]; rfl)

/-! ### Reset -/

/-- Settles O10: the fields of the reset state, one by one. -/
theorem resetState : Obligations.ResetState := ⟨rfl, rfl, rfl, rfl, rfl, rfl, rfl, rfl, rfl⟩

/-- The default parameters meet the constraints of 00_scope.md R8. -/
theorem Config.default_wf : Config.default.wf = true := by decide

/-- Settles O12: the default configuration is allowed, and every other part of the invariant speaks of an
empty field. -/
theorem invariantAtReset : Obligations.InvariantAtReset := by
  have hcfg : State.reset.cfg.wf = true := Config.default_wf
  unfold Obligations.InvariantAtReset State.inv
  rw [hcfg]
  rfl

end Sys2Proof.Machine
end

