-- ==== Sys2Proof/Proofs/Built.lean ====
section
/-!
How the pieces of an operation are built. `Seq.Built` lists the steps a piece may be made of; every
operation and every lone transaction is shown to be built so once, and each property of all of them
is then one induction over `Seq.Built`.
-/

namespace Sys2Proof.Machine

/-- The register writes of the operations: the working registers, the scratch bytes, INITED, and bytes at
the start of BUF, at most `room` of them. -/
inductive State.RegWrite (room : Nat) (s : State) : State → Prop
  | work (w : Work) : RegWrite room s (s.setWork w)
  | scratch (x : Scratch) : RegWrite room s (s.setScratch x)
  | inited (b : Bool) : RegWrite room s (s.setInited b)
  | buf (bytes : List Byte) (h : bytes.length ≤ room) : RegWrite room s (s.storeBuf 0 bytes)

/-- `m.Built room sticks clean d Q`: started at `d` labels on PHASE, the piece is made of calls at one to
three labels, polls with one of the two predicates, and register writes. `clean` says that no cause label has
been written so far, which a call asks for; a result `x` comes with `Q x clean'` for the value of `clean`
then. A piece may stand for ever without a call only if `sticks`. -/
inductive Seq.Built (room : Nat) (sticks : Prop) :
    {α : Type} → Bool → Nat → (α → Bool → Prop) → Seq α → Prop
  | pure {α : Type} {clean d} {Q : α → Bool → Prop} {x : α} (h : Q x clean) :
      Built room sticks clean d Q (Seq.pure x)
  | andThen {α β : Type} {clean d} {P : β → Bool → Prop} {Q : α → Bool → Prop} {m : Seq β}
      {k : β → Seq α} (hm : Built room sticks clean d P m)
      (hk : ∀ x clean', P x clean' → Built room sticks clean' d Q (k x)) :
      Built room sticks clean d Q (m.andThen k)
  | look {α : Type} {clean d} {Q : α → Bool → Prop} {k : State → Seq α}
      (hk : ∀ s, Built room sticks clean d Q (k s)) : Built room sticks clean d Q (Seq.look k)
  | update {α : Type} {clean d} {Q : α → Bool → Prop} {f : State → State} {k : Seq α}
      (hf : ∀ s, State.RegWrite room s (f s)) (hk : Built room sticks clean d Q k) :
      Built room sticks clean d Q (Seq.update f k)
  | label {α : Type} {clean d} {Q : α → Bool → Prop} {l : Label} {m : Seq α}
      (hm : Built room sticks clean (d + 1) Q m) : Built room sticks clean d Q (Seq.label l m)
  | stuck {α : Type} {d} {Q : α → Bool → Prop} {l : Label} (h : sticks) (hd : d < 3) :
      Built room sticks true d Q (Seq.stuck l)
  | abort {clean d} {Q : StatusCode → Bool → Prop} {c : Cause} {code : StatusCode}
      (h : Q code false) : Built room sticks clean d Q (Seq.abort c code)
  | call {d} {Q : Answer → Bool → Prop} {c : Call} (hlo : 1 ≤ d) (hhi : d ≤ 3)
      (hc : ∀ cfg site r, Event.pollContract cfg ⟨site, c, r⟩ = true)
      (hQ : ∀ s : State, Q (s.answer c) true) : Built room sticks true d Q (call c)
  | poll {d} {Q : Answer → Bool → Prop} {p : Config → Pred} {tmo : State → Word} (hlo : 1 ≤ d)
      (hhi : d ≤ 3) (hp : p = predReady ∨ p = predWel) (hQ : ∀ r, Q r true) :
      Built room sticks true d Q (pollCall p tmo)
  | busRelease {clean d} {Q : Unit → Bool → Prop} (hlo : 1 ≤ d) (hhi : d ≤ 3) (h : Q () clean) :
      Built room sticks clean d Q busRelease

/-! ### The helpers and subroutines are built so -/

section Pieces

variable {room : Nat} {sticks : Prop} {clean : Bool} {d : Nat}

/-- The piece ends in an answer, with no cause label written. -/
def Seq.Asks (room : Nat) (sticks : Prop) (d : Nat) (m : Seq Answer) : Prop :=
  m.Built room sticks true d fun _ clean => clean = true

/-- A subroutine that returns OK has written no cause label. -/
def okIsClean (code : StatusCode) (clean : Bool) : Prop := code = .ok → clean = true

theorem okIsClean_of_ne {code : StatusCode} (h : code ≠ .ok) (clean : Bool) : okIsClean code clean :=
  fun e => absurd e h

theorem okIsClean_true (code : StatusCode) : okIsClean code true := fun _ => rfl

theorem Seq.Built.ite {α : Type} {Q : α → Bool → Prop} {p : Prop} [Decidable p] {m k : Seq α}
    (hm : p → m.Built room sticks clean d Q) (hk : ¬p → k.Built room sticks clean d Q) :
    (if p then m else k).Built room sticks clean d Q := by
  split
  · exact hm ‹_›
  · exact hk ‹_›

/-- A step whose failure ends the piece. -/
theorem Seq.Built.orAbort {Q : StatusCode → Bool → Prop} {m : Seq Answer} {c : Cause}
    {code : StatusCode} {k : List Byte → Seq StatusCode} (hm : m.Asks room sticks d)
    (hcode : Q code false) (hk : ∀ b, (k b).Built room sticks true d Q) :
    (m.orAbort c code k).Built room sticks true d Q := by
  refine .andThen hm ?_
  rintro (b | _ | _) _ rfl
  · exact hk b
  · exact .abort hcode
  · exact .abort hcode

/-- A subroutine whose failure ends the piece. -/
theorem Seq.Built.orReturn {Q : StatusCode → Bool → Prop} {m : Seq StatusCode} {code : StatusCode}
    {k : Seq StatusCode} (hm : m.Built room sticks clean d okIsClean) (hcode : ∀ clean', Q code clean')
    (hk : k.Built room sticks true d Q) : (m.orReturn code k).Built room sticks clean d Q := by
  refine .andThen hm fun st clean' h => ?_
  refine .ite (fun hst => ?_) (fun _ => .pure (hcode clean'))
  rw [h hst]
  exact hk

theorem execCall_asks (t : Txn) (hlo : 1 ≤ d) (hhi : d ≤ 3) : (execCall t).Asks room sticks d :=
  .look fun _ => .call hlo hhi (fun _ _ _ => rfl) fun _ => rfl

theorem cmd_asks (t : Txn) (hlo : 1 ≤ d) (hhi : d ≤ 3) : (cmd t).Asks room sticks d :=
  execCall_asks t hlo hhi

theorem txCall_asks (bs : List Byte) (hlo : 1 ≤ d) (hhi : d ≤ 3) : (txCall bs).Asks room sticks d :=
  .look fun _ => .call hlo hhi (fun _ _ _ => rfl) fun _ => rfl

theorem rxCall_built {Q : Answer → Bool → Prop} (n : Word) (hlo : 1 ≤ d) (hhi : d ≤ 3)
    (hQ : ∀ (s : State) tmo, Q (s.answer (.rx n tmo)) true) :
    (rxCall n).Built room sticks true d Q :=
  .look fun _ => .call hlo hhi (fun _ _ _ => rfl) fun s => hQ s _

/-- A collaborator event asks at its label. -/
theorem label_call_asks (l : Label) {c : Call} (hc : c.isExecutor = false) (hd : d < 3) :
    (Seq.label l (call c)).Asks room sticks d := by
  refine .label (.call (by omega) (by omega) ?_ fun _ => rfl)
  cases c with
  | exec | tx | rx | autoPoll => cases hc
  | pinBind | busInit | busReinit | busRelease => exact fun _ _ _ => rfl

theorem label_cmd_asks (l : Label) (t : Txn) (hd : d < 3) :
    (Seq.label l (cmd t)).Asks room sticks d := .label (cmd_asks t (by omega) (by omega))

theorem label_execCall_asks (l : Label) (t : Txn) (hd : d < 3) :
    (Seq.label l (execCall t)).Asks room sticks d := label_cmd_asks l t hd

theorem label_poll_asks (l : Label) {p : Config → Pred} (tmo : State → Word)
    (hp : p = predReady ∨ p = predWel) (hd : d < 3) :
    (Seq.label l (pollCall p tmo)).Asks room sticks d :=
  .label (.poll (by omega) (by omega) hp fun _ => rfl)

/-- An `Exec`, then a data phase if it answered OK. -/
theorem exec_then_asks {t : Txn} {k : Seq Answer} (hd : d < 3) (hk : k.Asks room sticks (d + 1)) :
    ((Seq.label .a (execCall t)).andThen fun r =>
      match r with
      | .ok _ => Seq.label .b k
      | .fail | .never => Seq.pure .fail).Asks room sticks d := by
  refine .andThen (label_execCall_asks _ t hd) ?_
  rintro (b | _ | _) _ rfl
  · exact .label hk
  · exact .pure rfl
  · exact .pure rfl

theorem readReg_asks (t : Txn) (n : Word) (hd : d < 3) : (readReg t n).Asks room sticks d :=
  exec_then_asks hd (rxCall_built n (by omega) (by omega) fun _ _ => rfl)

theorem writeReg_asks (t : Txn) (bs : List Byte) (hd : d < 3) : (writeReg t bs).Asks room sticks d :=
  exec_then_asks hd (txCall_asks bs (by omega) (by omega))

theorem label_readReg_asks (l : Label) (t : Txn) (n : Word) (hd : d < 2) :
    (Seq.label l (readReg t n)).Asks room sticks d := .label (readReg_asks t n (by omega))

theorem label_writeReg_asks (l : Label) (t : Txn) (bs : List Byte) (hd : d < 2) :
    (Seq.label l (writeReg t bs)).Asks room sticks d := .label (writeReg_asks t bs (by omega))

variable {Q : StatusCode → Bool → Prop}

theorem doPollReady_built (tmo : State → Word) (hd : d < 3) (hok : Q .ok true) (herr : Q .error false) :
    (doPollReady tmo).Built room sticks true d Q :=
  .orAbort (label_poll_asks _ tmo (.inl rfl) hd) herr fun _ => .pure hok

theorem doWriteEnable_built (hd : d < 3) (hok : Q .ok true) (herr : Q .error false) :
    doWriteEnable.Built room sticks true d Q :=
  .orAbort (label_cmd_asks _ _ hd) herr fun _ =>
    .orAbort (label_poll_asks _ _ (.inr rfl) hd) herr fun _ => .pure hok

/-- The fail bits decide ERROR, the suspend bits SUSPENDED (40_status_poll_wren.md R130). -/
theorem decode1_cases (c : Config) (scur : Byte) :
    decode1 c scur = some .error ∨ decode1 c scur = some .suspended ∨ decode1 c scur = none := by
  unfold decode1
  split
  · exact .inl rfl
  · split
    · exact .inr (.inl rfl)
    · exact .inr (.inr rfl)

theorem decode2_cases (c : Config) (sr : Byte) : decode2 c sr = .busy ∨ decode2 c sr = .ok := by
  unfold decode2
  split
  · exact .inl rfl
  · exact .inr rfl

theorem doGetStatus_built (hd : d < 2) (hok : Q .ok true) (hbusy : Q .busy true)
    (hsusp : Q .suspended true) (herr : Q .error false) :
    doGetStatus.Built room sticks true d Q := by
  refine .orAbort (label_readReg_asks _ _ _ hd) herr fun b => .look fun s => ?_
  rcases decode1_cases s.cfg (b.getD 0 0) with h | h | h <;> rw [h]
  · exact .abort herr
  · exact .pure hsusp
  · refine .orAbort (label_readReg_asks _ _ _ hd) herr fun b' => .look fun s' => .pure ?_
    rcases decode2_cases s'.cfg (b'.getD 0 0) with h' | h' <;> rw [h']
    · exact hbusy
    · exact hok

theorem doResetChip_built (hd : d < 2) (hok : Q .ok true) (hns : Q .notSupported false) :
    doResetChip.Built room sticks true d Q := by
  have poll : (Seq.label .T2 (doPollReady fun s => s.tmo.dflt)).Built room sticks true d okIsClean :=
    .label (doPollReady_built _ (by omega) (okIsClean_true _) (okIsClean_of_ne (by decide) _))
  refine .orAbort (label_cmd_asks _ _ (by omega)) hns fun _ =>
    .orAbort (label_cmd_asks _ _ (by omega)) hns fun _ => .andThen poll fun st clean' h => ?_
  refine .ite (fun hst => ?_) (fun _ => .abort hns)
  rw [h hst]
  exact .pure hok

theorem label_doWriteEnable_built (l : Label) (hd : d < 2) :
    (Seq.label l doWriteEnable).Built room sticks true d okIsClean :=
  .label (doWriteEnable_built (by omega) (okIsClean_true _) (okIsClean_of_ne (by decide) _))

theorem label_doPollReady_built (l : Label) (tmo : State → Word) (hd : d < 2) :
    (Seq.label l (doPollReady tmo)).Built room sticks true d okIsClean :=
  .label (doPollReady_built tmo (by omega) (okIsClean_true _) (okIsClean_of_ne (by decide) _))

theorem doQuadMode_built (en : Bool) (hd : d < 2) (hok : Q .ok true) (herr : ∀ c, Q .error c) :
    (doQuadMode en).Built room sticks true d Q := by
  refine .orAbort (label_readReg_asks _ _ _ hd) (herr _) fun b => .update (fun _ => .scratch _) ?_
  refine .orReturn (label_doWriteEnable_built _ hd) herr (.look fun s => ?_)
  refine .orAbort (label_writeReg_asks _ _ _ hd) (herr _) fun _ => ?_
  refine .orReturn (label_doPollReady_built _ _ hd) herr ?_
  refine .orAbort (label_readReg_asks _ _ _ hd) (herr _) fun v => .update (fun _ => .scratch _) ?_
  exact .look fun t => .ite (fun _ => .pure hok) (fun _ => .abort (herr _))

theorem hpWriteBack_built (en : Bool) (hd : d < 2) (hok : Q .ok true) (herr : ∀ c, Q .error c) :
    (hpWriteBack en).Built room sticks true d Q := by
  refine .orReturn (label_doWriteEnable_built _ hd) herr (.look fun s => ?_)
  refine .orAbort (label_writeReg_asks _ _ _ hd) (herr _) fun _ => ?_
  refine .orReturn (label_doPollReady_built _ _ hd) herr ?_
  refine .orAbort (label_readReg_asks _ _ _ hd) (herr _) fun v => .update (fun _ => .scratch _) ?_
  refine .look fun t => .ite (fun _ => ?_) (fun _ => .abort (herr _))
  exact .orAbort (label_call_asks _ rfl (by omega)) (herr _) fun _ =>
    .orAbort (label_call_asks _ rfl (by omega)) (herr _) fun _ => .pure hok

theorem doHpMode_built (en : Bool) (hd : d < 2) (hok : Q .ok true) (herr : ∀ c, Q .error c) :
    (doHpMode en).Built room sticks true d Q :=
  .orAbort (label_readReg_asks _ _ _ hd) (herr _) fun _ => .update (fun _ => .scratch _) <|
    .orAbort (label_readReg_asks _ _ _ hd) (herr _) fun _ => .update (fun _ => .scratch _) <|
      hpWriteBack_built en hd hok herr

theorem doInit_built (hok : Q .ok true) (herr : ∀ c, Q .error c) (hns : ∀ c, Q .notSupported c) :
    doInit.Built room sticks true 0 Q := by
  have reset : (Seq.label .I3 doResetChip).Built room sticks true 0 okIsClean :=
    .label (doResetChip_built (by omega) (okIsClean_true _) (okIsClean_of_ne (by decide) _))
  have quad : (Seq.label .I4 (doQuadMode true)).Built room sticks true 0 okIsClean :=
    .label (doQuadMode_built _ (by omega) (okIsClean_true _) (okIsClean_of_ne (by decide)))
  have hp : (Seq.label .I5 (doHpMode true)).Built room sticks true 0 okIsClean :=
    .label (doHpMode_built _ (by omega) (okIsClean_true _) (okIsClean_of_ne (by decide)))
  refine .update (fun _ => .inited _) ?_
  refine .orAbort (label_call_asks _ rfl (by omega)) (herr _) fun _ => ?_
  refine .orAbort (label_call_asks _ rfl (by omega)) (herr _) fun _ => ?_
  exact .orReturn reset hns <| .orReturn quad herr <| .orReturn hp herr <|
    .update (fun _ => .inited _) (.pure hok)

/-- SUSPEND_ERASE and RESUME_ERASE: a status read that wrote a cause label gave ERROR, which is no source
status, so no call follows it. -/
theorem changeEraseState_built {l0 l2 l3 : Label} {source target : StatusCode} {t : Txn}
    (hsource : source ≠ .error) (hok : ∀ c, Q .ok c) (herr : Q .error false) :
    (changeEraseState l0 l2 l3 source target t).Built room sticks true 0 Q := by
  have status : ∀ l, (Seq.label l doGetStatus).Built room sticks true 0
      fun st clean => st ≠ .error → clean = true := fun _ =>
    .label (doGetStatus_built (by omega) (fun _ => rfl) (fun _ => rfl) (fun _ => rfl)
      fun h => absurd rfl h)
  refine .andThen (status l0) fun st clean hst => .update (fun _ => .work _) ?_
  refine .ite (fun hs => ?_) (fun _ => .pure (hok _))
  rw [hst (hs ▸ hsource)]
  refine .orAbort (label_cmd_asks _ _ (by omega)) herr fun _ => ?_
  refine .andThen (status l3) fun st' _ _ => .update (fun _ => .work _) ?_
  exact .ite (fun _ => .pure (hok _)) (fun _ => .abort herr)

theorem writeChunk_built {k : Seq StatusCode} (herr : ∀ c, Q .error c)
    (hk : k.Built room sticks true 0 Q) : (writeChunk k).Built room sticks true 0 Q := by
  refine .orReturn (label_doWriteEnable_built _ (by omega)) herr (.look fun s => ?_)
  refine .orAbort (label_execCall_asks _ _ (by omega)) (herr _) fun _ => .look fun t => ?_
  refine .orAbort (.label (txCall_asks _ (by omega) (by omega))) (herr _) fun _ => ?_
  exact .orReturn (label_doPollReady_built _ _ (by omega)) herr hk

theorem writeLoop_built (hs : sticks) (hok : Q .ok true) (herr : ∀ c, Q .error c) (fuel : Nat) :
    (writeLoop fuel).Built room sticks true 0 Q := by
  induction fuel with
  | zero => exact .stuck hs (by omega)
  | succ fuel ih =>
    exact writeChunk_built herr <| .update (fun _ => .work _) <|
      .look fun _ => .ite (fun _ => .pure hok) fun _ => ih

theorem doWrite_built (a n : Word) (hs : sticks) (hok : Q .ok true) (herr : ∀ c, Q .error c) :
    (doWrite a n).Built room sticks true 0 Q :=
  .update (fun _ => .work _) (writeLoop_built hs hok herr _)

end Pieces

/-! ### The operations are built so -/

/-- The piece an operation runs between its acceptance and its return; for a template nothing. -/
def opBody : Instr → Seq StatusCode
  | .getStatus _ _ => Seq.label .S0 doGetStatus
  | .pollReady _ _ => Seq.label .S0 (doPollReady fun t => t.req.n)
  | .writeEnable _ _ => Seq.label .S0 doWriteEnable
  | .write a n => doWrite a n
  | .quadMode a _ => Seq.label .S0 (doQuadMode (enableOf a))
  | .hpMode a _ => Seq.label .S0 (doHpMode (enableOf a))
  | .eraseBlock a _ =>
    (Seq.label .B0 doWriteEnable).orReturn .error <|
      (Seq.label .B1 (cmd (.be a))).orAbort .bus .error fun _ =>
        (Seq.label .B2 (doPollReady fun t => t.tmo.blockErase)).orReturn .error (Seq.pure .ok)
  | .eraseSector a _ =>
    Seq.look fun t =>
      if sectorExists t.cfg a then
        (Seq.label .E1 doWriteEnable).orReturn .error <|
          (Seq.label .E2 (cmd (.se (sectorAddr t.cfg a)))).orAbort .bus .error fun _ => Seq.pure .ok
      else Seq.abort .range .error
  | .eraseChip _ _ =>
    (Seq.label .C0 doWriteEnable).orReturn .error <|
      (Seq.label .C1 (cmd .ce)).orAbort .bus .error fun _ =>
        (Seq.label .C2 (doPollReady fun t => t.tmo.chipErase)).orReturn .error (Seq.pure .ok)
  | .suspendErase _ _ => changeEraseState .U0 .U2 .U3 .busy .suspended .susp
  | .resumeErase _ _ => changeEraseState .V0 .V2 .V3 .suspended .busy .resm
  | .sleep _ _ => (Seq.label .D0 (cmd .dp)).orAbort .bus .error fun _ => Seq.pure .ok
  | .wakeup _ _ => (Seq.label .K0 (cmd .wake)).orAbort .bus .error fun _ => Seq.pure .ok
  | .read a n =>
    (Seq.label .L0 (execCall (.qread a n))).orAbort .bus .error fun _ =>
      (Seq.label .L1 (rxCall n)).orAbort .bus .error fun b =>
        Seq.update (fun t => t.storeBuf 0 b) (Seq.pure .ok)
  | .init _ _ => doInit
  | .deinit _ _ =>
    Seq.update (fun t => t.setInited false) <|
      (Seq.label .Z1 doResetChip).orReturn .notSupported <|
        (Seq.label .Z2 busRelease).andThen fun _ => Seq.pure .ok
  | .resetChip _ _ => Seq.label .S0 doResetChip
  | .getGeometry _ _ | .tRdsr | .tRdscur | .tRdcr | .tWren | .tWrsr _ | .tPp4 _ _ | .tSe _ | .tBe _
  | .tCe | .tSusp | .tResm | .tDp | .tWake | .tRsten | .tQread _ _ | .tRst => Seq.pure .ok

/-- The bytes at the start of BUF an operation writes: READ those it receives (44_boundary_ops.md R201). -/
def opStoreLength : Instr → Nat
  | .read _ n => n.toNat
  | _ => 0

/-- An operation accepts its request and runs its body. -/
theorem exec_eq_runOp {i : Instr} {op : Byte} {a n : Word} {s : State}
    (h : i.opreq? = some (op, a, n)) (hb : bufInRange s i = true) :
    exec i s = runOp op a n (opBody i) s := by
  cases i <;> cases h
  case write => exact if_pos hb
  case read => exact if_pos hb
  all_goals rfl

/-- What is no template is an operation. -/
theorem opreq_of_no_txn {i : Instr} (h : i.txn? = none) : ∃ op a n, i.opreq? = some (op, a, n) := by
  cases i <;> cases h <;> exact ⟨_, _, _, rfl⟩

/-- An instruction that gives a next state reaches no byte beyond BUF. -/
theorem bufInRange_of_exec {i : Instr} {s t : State} (h : exec i s = .next t) :
    bufInRange s i = true := by
  by_contra hb
  rw [(exec_fault_iff i s).2 (by simpa using hb)] at h
  cases h

/-- Everything an operation can do: accept its request, run its body, and return or stand at a call. -/
theorem exec_operation {i : Instr} {s t : State} (hi : i.txn? = none) (h : exec i s = .next t) :
    ∃ op a n, finishRun (opBody i (s.accept op a n)) = t := by
  obtain ⟨op, a, n, hop⟩ := opreq_of_no_txn hi
  rw [exec_eq_runOp hop (bufInRange_of_exec h)] at h
  exact ⟨op, a, n, runOp_next.1 h⟩

/-- The bytes READ stores stay inside BUF, where READ gives a next state. -/
theorem opStoreLength_le {i : Instr} {s : State} (h : bufInRange s i = true) :
    opStoreLength i ≤ s.cfg.bufSize := by
  cases i with
  | read a n => simpa [bufInRange, inBuf, opStoreLength] using h
  | _ => exact Nat.zero_le _

theorem eraseBody_built {room : Nat} {sticks : Prop} {Q : StatusCode → Bool → Prop} (l0 l1 l2 : Label)
    (t : Txn) (tmo : State → Word) (hok : Q .ok true) (herr : ∀ c, Q .error c) :
    ((Seq.label l0 doWriteEnable).orReturn .error <|
      (Seq.label l1 (cmd t)).orAbort .bus .error fun _ =>
        (Seq.label l2 (doPollReady tmo)).orReturn .error (Seq.pure .ok)).Built room sticks true 0 Q :=
  .orReturn (label_doWriteEnable_built _ (by omega)) herr <|
    .orAbort (label_cmd_asks _ _ (by omega)) (herr _) fun _ =>
      .orReturn (label_doPollReady_built _ _ (by omega)) herr (.pure hok)

theorem powerBody_built {room : Nat} {sticks : Prop} {Q : StatusCode → Bool → Prop} (l : Label)
    (t : Txn) (hok : Q .ok true) (herr : Q .error false) :
    ((Seq.label l (cmd t)).orAbort .bus .error fun _ => Seq.pure .ok).Built room sticks true 0 Q :=
  .orAbort (label_cmd_asks _ _ (by omega)) herr fun _ => .pure hok

/-- An answer OK delivers bytes to the call, whoever gives it. -/
theorem State.deliver_of_answer_ok {s : State} {c : Call} {b : List Byte} (h : s.answer c = .ok b) :
    ∃ i bytes, deliver i c bytes = .ok b := by
  unfold State.answer Env.respond at h
  split at h
  · cases h
  · exact ⟨_, _, h⟩
  · cases h
  · cases h
  · unfold freeAnswer at h
    split at h
    · exact ⟨_, _, h⟩
    · cases h
  · cases c with
    | exec | tx | pinBind | busInit | busReinit | busRelease => exact ⟨0, [], h⟩
    | rx | autoPoll => exact ⟨s.env.calls, _, h⟩

/-- An `Rx(n)` that answers OK received `n` bytes (20_memory.md R73). -/
theorem State.answer_rx_length {s : State} {n tmo : Word} {b : List Byte}
    (h : s.answer (.rx n tmo) = .ok b) : b.length = n.toNat := by
  obtain ⟨i, bytes, hd⟩ := State.deliver_of_answer_ok h
  rw [← Answer.ok.inj hd, fitBytes_length]

theorem readBody_built {sticks : Prop} {Q : StatusCode → Bool → Prop} (a n : Word)
    (hok : Q .ok true) (herr : Q .error false) :
    (opBody (.read a n)).Built n.toNat sticks true 0 Q := by
  have receive : (Seq.label .L1 (rxCall n)).Built n.toNat sticks true 0
      fun r clean => clean = true ∧ ∀ b, r = .ok b → b.length = n.toNat :=
    .label (rxCall_built n (by omega) (by omega) fun _ _ => ⟨rfl, fun _ => State.answer_rx_length⟩)
  refine .orAbort (label_execCall_asks _ _ (by omega)) herr fun _ => .andThen receive ?_
  rintro (b | _ | _) _ ⟨rfl, hlen⟩
  · exact .update (fun _ => .buf b (hlen b rfl).le) (.pure hok)
  · exact .abort herr
  · exact .abort herr

/-- Every operation is built of calls and register writes, and gives only codes it may return
(10_state.md R30). -/
theorem opBody_built {i : Instr} (hi : i.txn? = none) :
    (opBody i).Built (opStoreLength i) (∃ a n, i = .write a n) true 0
      fun code _ => mayReturn i code = true := by
  cases i with
  | getStatus => exact .label (doGetStatus_built (by omega) rfl rfl rfl rfl)
  | pollReady => exact .label (doPollReady_built _ (by omega) rfl rfl)
  | writeEnable => exact .label (doWriteEnable_built (by omega) rfl rfl)
  | write a n => exact doWrite_built a n ⟨a, n, rfl⟩ rfl fun _ => rfl
  | quadMode => exact .label (doQuadMode_built _ (by omega) rfl fun _ => rfl)
  | hpMode => exact .label (doHpMode_built _ (by omega) rfl fun _ => rfl)
  | eraseBlock => exact eraseBody_built _ _ _ _ _ rfl fun _ => rfl
  | eraseSector a n =>
    unfold opBody
    refine .look fun t => .ite (fun _ => ?_) fun _ => .abort rfl
    exact .orReturn (label_doWriteEnable_built _ (by omega)) (fun _ => rfl)
      (powerBody_built _ _ rfl rfl)
  | eraseChip => exact eraseBody_built _ _ _ _ _ rfl fun _ => rfl
  | suspendErase => exact changeEraseState_built (by decide) (fun _ => rfl) rfl
  | resumeErase => exact changeEraseState_built (by decide) (fun _ => rfl) rfl
  | sleep => exact powerBody_built _ _ rfl rfl
  | wakeup => exact powerBody_built _ _ rfl rfl
  | read a n => exact readBody_built a n rfl rfl
  | init => exact doInit_built rfl (fun _ => rfl) fun _ => rfl
  | deinit =>
    unfold opBody
    refine .update (fun _ => .inited _) (.orReturn (.label ?_) (fun _ => rfl) ?_)
    · exact doResetChip_built (by omega) (okIsClean_true _) (okIsClean_of_ne (by decide) _)
    · exact .andThen (P := fun _ _ => True) (.label (.busRelease (by omega) (by omega) trivial))
        fun _ _ _ => .pure rfl
  | getGeometry => exact .pure rfl
  | resetChip => exact .label (doResetChip_built (by omega) rfl rfl)
  | tRdsr | tRdscur | tRdcr | tWren | tWrsr | tPp4 | tSe | tBe | tCe | tSusp | tResm | tDp | tWake
  | tRsten | tQread | tRst => cases hi

/-- A lone transaction is one piece that asks, or the fault of a transfer beyond BUF. -/
theorem exec_transaction {i : Instr} {s : State} (hi : i.txn? ≠ none) (hb : bufInRange s i = true) :
    ∃ m : Seq Answer, exec i s = runTxn m s ∧ m.Asks 0 False 0 := by
  cases i with
  | tRdsr | tRdscur | tRdcr | tQread => exact ⟨_, rfl, readReg_asks _ _ (by omega)⟩
  | tWrsr => exact ⟨_, rfl, writeReg_asks _ _ (by omega)⟩
  | tPp4 => exact ⟨_, if_pos hb, writeReg_asks _ _ (by omega)⟩
  | tWren | tSe | tBe | tCe | tSusp | tResm | tDp | tWake | tRsten | tRst =>
    exact ⟨_, rfl, label_cmd_asks _ _ (by omega)⟩
  | _ => exact absurd rfl hi

end Sys2Proof.Machine
end

