-- ==== Sys2Proof/Proofs/Runs.lean ====
section
/-!
One induction over `Seq.Built`: what every call and every register write carries on, a run of the whole piece
carries on. The statements about every operation apply it.
-/

namespace Sys2Proof.Machine

/-- `I clean d` is carried on by every step a piece may be made of, at `d` labels on PHASE; `N` holds where
the piece stands for ever. `clean` and the other parameters are those of `Seq.Built`. -/
structure Carried (room : Nat) (sticks : Prop) (I : Bool → Nat → State → Prop) (N : State → Prop) :
    Prop where
  /-- A register is written. -/
  write : ∀ {clean d s t}, I clean d s → State.RegWrite room s t → I clean d t
  /-- A label is pushed on PHASE. -/
  push : ∀ {clean d s} l, I clean d s → I clean (d + 1) (s.setPhase (s.phase ++ [l]))
  /-- The label is popped, and PHASE is as it was in `s`. -/
  pop : ∀ {clean clean' d s t}, I clean d s → I clean' (d + 1) t → I clean' d (t.setPhase s.phase)
  /-- A cause label is written. -/
  cause : ∀ {clean d s} c, I clean d s → I false d (s.setCause c)
  /-- A call is made and answered. -/
  call : ∀ {d s c}, I true d s → 1 ≤ d → d ≤ 3 →
    Event.pollContract s.cfg ⟨s.phase, c, s.answer c⟩ = true → s.answer c ≠ .never →
    I true d (s.afterCall c)
  /-- A call is made and never answered. -/
  never : ∀ {d s c}, I true d s → 1 ≤ d → d ≤ 3 →
    Event.pollContract s.cfg ⟨s.phase, c, s.answer c⟩ = true → s.answer c = .never →
    N (s.afterCall c)
  /-- The bus is released. -/
  log : ∀ {clean d s}, I clean d s → 1 ≤ d → d ≤ 3 → I clean d (s.logCall .busRelease (.ok []))
  /-- The sequencer stands at a label without a call. -/
  stuck : ∀ {d s} l, I true d s → sticks → d < 3 → N (s.setPhase (s.phase ++ [l]))

/-- How a run of a piece ends: with a result as `Q` says and `I` carried on, or in `N`. -/
def Ends {α : Type} (I : Bool → Nat → State → Prop) (N : State → Prop) (d : Nat)
    (Q : α → Bool → Prop) : Option α → State → Prop
  | some x, t => ∃ clean, Q x clean ∧ I clean d t
  | none, t => N t

/-- A consequence of what a run ensures. -/
theorem Seq.Ensures.imp {α : Type} {m : Seq α} {s : State} {Q Q' : Option α → State → Prop}
    (h : m.Ensures s Q) (hQ : ∀ r t, Q r t → Q' r t) : m.Ensures s Q' := hQ _ _ h

/-- The poll of a piece keeps the contract of `AutoPoll` (20_memory.md R74). -/
theorem State.pollContract_answer {s : State} {p : Config → Pred} (hp : p = predReady ∨ p = predWel)
    (site : List Label) (tmo : Word) :
    Event.pollContract s.cfg ⟨site, .autoPoll .rdsr (p s.cfg) s.cfg.pollInterval tmo,
      s.answer (.autoPoll .rdsr (p s.cfg) s.cfg.pollInterval tmo)⟩ = true := by
  have hpred : (p s.cfg == predReady s.cfg || p s.cfg == predWel s.cfg) = true := by
    rcases hp with rfl | rfl <;> simp
  simp only [Event.pollContract, hpred, beq_self_eq_true, Bool.true_and]
  split
  · rename_i bytes h
    obtain ⟨i, read, hd⟩ := State.deliver_of_answer_ok h
    exact waitLoop_ok hd
  · rfl
  · rfl

section Run

variable {room : Nat} {sticks : Prop} {I : Bool → Nat → State → Prop} {N : State → Prop}

/-- A call ends as its answer says. -/
theorem Carried.call_ends (H : Carried room sticks I N) {d : Nat} {Q : Answer → Bool → Prop}
    {c : Call} {s : State} (hlo : 1 ≤ d) (hhi : d ≤ 3)
    (hc : Event.pollContract s.cfg ⟨s.phase, c, s.answer c⟩ = true) (hQ : Q (s.answer c) true)
    (hs : I true d s) : (Machine.call c).Ensures s (Ends I N d Q) := by
  refine call_cases (fun bytes h => ?_) (fun h => ?_) (fun h => H.never hs hlo hhi hc h)
  · exact ⟨true, h ▸ hQ, H.call hs hlo hhi hc (by rw [h]; nofun)⟩
  · exact ⟨true, h ▸ hQ, H.call hs hlo hhi hc (by rw [h]; nofun)⟩

/-- The induction: a piece built of steps that carry `I` on carries it on. -/
theorem Seq.Built.ends (H : Carried room sticks I N) {α : Type} {clean : Bool} {d : Nat}
    {Q : α → Bool → Prop} {m : Seq α} (h : m.Built room sticks clean d Q) {s : State}
    (hs : I clean d s) : m.Ensures s (Ends I N d Q) := by
  induction h generalizing s with
  | pure h => exact ⟨_, h, hs⟩
  | andThen _ _ ihm ihk =>
    rw [Seq.andThen_ensures]
    refine (ihm hs).imp fun r t ht => ?_
    cases r with
    | none => exact ht
    | some x =>
      obtain ⟨clean', hP, hI⟩ := ht
      exact ihk x clean' hP hI
  | look _ ih => exact ih s hs
  | update hf _ ih => exact ih (H.write hs (hf s))
  | label _ ih =>
    rw [Seq.label_ensures]
    refine (ih (H.push _ hs)).imp fun r t ht => ?_
    cases r with
    | none => exact ht
    | some x =>
      obtain ⟨clean', hQ, hI⟩ := ht
      exact ⟨clean', hQ, H.pop hs hI⟩
  | stuck h hd => exact H.stuck _ hs h hd
  | abort h => exact ⟨false, h, H.cause _ hs⟩
  | call hlo hhi hc hQ => exact H.call_ends hlo hhi (hc _ _ _) (hQ s) hs
  | poll hlo hhi hp hQ =>
    exact H.call_ends hlo hhi (State.pollContract_answer hp _ _) (hQ _) hs
  | busRelease hlo hhi h => exact ⟨_, h, H.log hs hlo hhi⟩

/-- Everything an operation can do that carries `I` on from its acceptance: it returns with a code it may
return, or it stands at a call. -/
theorem exec_operation_ends {i : Instr} {s t : State}
    (H : Carried (opStoreLength i) (∃ a n, i = .write a n) I N) (hi : i.txn? = none)
    (h0 : ∀ op a n, I true 0 (s.accept op a n)) (h : exec i s = .next t) :
    (∃ code clean u, mayReturn i code = true ∧ I clean 0 u ∧ t = u.finish code) ∨ N t := by
  obtain ⟨op, a, n, rfl⟩ := exec_operation hi h
  have hrun := (opBody_built hi).ends H (h0 op a n)
  unfold Seq.Ensures at hrun
  generalize opBody i (s.accept op a n) = run at hrun ⊢
  rcases run with ⟨_ | code, u⟩
  · exact .inr hrun
  · obtain ⟨clean, hcode, hI⟩ := hrun
    exact .inl ⟨code, clean, u, hcode, hI, rfl⟩

/-- Everything a lone transaction can do that carries `I` on: it is answered with no cause label written, or
it stands at a call. -/
theorem exec_transaction_ends {i : Instr} {s t : State} (H : Carried 0 False I N)
    (hi : i.txn? ≠ none) (h0 : I true 0 s) (h : exec i s = .next t) : I true 0 t ∨ N t := by
  obtain ⟨m, hm, hbuilt⟩ := exec_transaction hi (bufInRange_of_exec h)
  obtain rfl : (m s).2 = t := by
    rw [hm] at h
    exact Host.Outcome.next.inj h
  have hrun := hbuilt.ends H h0
  unfold Seq.Ensures at hrun
  generalize m s = run at hrun ⊢
  rcases run with ⟨_ | r, u⟩
  · exact .inr hrun
  · obtain ⟨_, rfl, hI⟩ := hrun
    exact .inl hI

/-- A reserved code runs its abort, which writes a cause label and nothing else. -/
theorem execReserved_next {op : Byte} {a n : Word} {s t : State}
    (h : execReserved op a n s = .next t) :
    t = ((s.accept op a n).setCause (some .reservedOp)).finish .error := (runOp_next.1 h).symm

end Run

/-! ### STATUS and the done pulse -/

/-- No step inside an operation writes STATUS or the done pulse (10_state.md R26). -/
theorem carried_status_done (room : Nat) (sticks : Prop) (st : StatusCode) (b : Bool) :
    Carried room sticks (fun _ _ s => s.status = st ∧ s.done = b)
      (fun s => s.status = st ∧ s.done = b) where
  write h hw := by cases hw <;> exact h
  push _ h := h
  pop _ h := h
  cause _ h := h
  call h _ _ _ _ := h
  never h _ _ _ _ := h
  log h _ _ := h
  stuck _ h _ _ := h

/-- An operation returned, with a code it may return and the done pulse up, or STATUS is as before and the
pulse is down. -/
theorem exec_operation_status {i : Instr} {s t : State} (hi : i.txn? = none)
    (h : exec i s = .next t) :
    (t.phase = [] ∧ t.done = true ∧ mayReturn i t.status = true) ∨
      (t.status = s.status ∧ t.done = false) := by
  have H := carried_status_done (opStoreLength i) (∃ a n, i = .write a n) s.status false
  rcases exec_operation_ends H hi (fun _ _ _ => ⟨rfl, rfl⟩) h with ⟨code, _, u, hcode, -, rfl⟩ | hN
  · exact .inl ⟨rfl, rfl, hcode⟩
  · exact .inr hN

/-- A lone transaction leaves STATUS and the done pulse. -/
theorem exec_transaction_status {i : Instr} {s t : State} (hi : i.txn? ≠ none)
    (h : exec i s = .next t) : t.status = s.status ∧ t.done = s.done := by
  have H := carried_status_done 0 False s.status s.done
  exact (exec_transaction_ends H hi ⟨rfl, rfl⟩ h).elim id id

/-- Settles O42: a body gives only codes its operation may return, and without a return done is down. -/
theorem statusCodesByOperation : Obligations.StatusCodesByOperation := by
  intro i s t hi h hdone
  rcases exec_operation_status hi h with ⟨-, -, hcode⟩ | ⟨-, hdown⟩
  · exact hcode
  · simp [hdown] at hdone

/-- STATUS is written only by a return, which leaves IDLE with the done pulse up (10_state.md R26). -/
def State.StatusByReturn (s t : State) : Prop :=
  (t.done = true → t.phase = []) ∧ (t.done = false → t.status = s.status)

theorem State.statusByReturn_of_down {s t : State} (hd : t.done = false) (hs : t.status = s.status) :
    s.StatusByReturn t := ⟨fun h => by simp [hd] at h, fun _ => hs⟩

theorem State.statusByReturn_of_return {s t : State} (hd : t.done = true) (hp : t.phase = []) :
    s.StatusByReturn t := ⟨fun _ => hp, fun h => by simp [hd] at h⟩

theorem exec_statusByReturn {i : Instr} {s t : State} (hs : s.done = false)
    (h : exec i s = .next t) : s.StatusByReturn t := by
  by_cases hi : i.txn? = none
  · rcases exec_operation_status hi h with ⟨hp, hd, -⟩ | ⟨hst, hd⟩
    · exact State.statusByReturn_of_return hd hp
    · exact State.statusByReturn_of_down hd hst
  · obtain ⟨hst, hd⟩ := exec_transaction_status hi h
    exact State.statusByReturn_of_down (hd.trans hs) hst

/-- Settles O14: each event that may happen in a step, with done down once it is taken from the inbox. -/
theorem statusChangesOnlyAtReturn : Obligations.StatusChangesOnlyAtReturn := by
  intro s t hstep
  obtain ⟨-, ⟨-, rfl⟩ | ⟨e, rest, hnext, hrun⟩⟩ := step_cases hstep
  · exact .inr (State.statusByReturn_of_down rfl rfl)
  cases he : e.needsIdle with
  | false =>
    rcases runEvent_cases hrun he with ⟨k, rfl⟩ | ⟨off, bytes, -, rfl⟩ | rfl | ⟨rfl, -⟩
    · exact .inr (State.statusByReturn_of_down rfl rfl)
    · exact .inr (State.statusByReturn_of_down rfl rfl)
    · obtain ⟨env, henv⟩ := (s.take rest).chipComplete_eq
      rw [henv]
      exact .inr (State.statusByReturn_of_down rfl rfl)
    · exact .inl ⟨rest, hnext⟩
  | true =>
    rcases runEvent_idle_cases hrun he with ⟨k, v, rfl⟩ | ⟨i, hexec⟩ | ⟨op, a, n, hres⟩
    · exact .inr (State.statusByReturn_of_down rfl rfl)
    · exact .inr (exec_statusByReturn (s := s.take rest) rfl hexec)
    · rw [execReserved_next hres]
      exact .inr (State.statusByReturn_of_return rfl rfl)

/-! ### The invariant -/

/-- The parts of the invariant that hold at every point of an operation: an allowed configuration, both
memories in canonical form and inside their sizes, well-formed trace lines. -/
structure State.Sound (s : State) : Prop where
  /-- The configuration is allowed. -/
  cfg : s.cfg.wf = true
  /-- BUF is in canonical form and inside `BUF_SIZE`. -/
  buf : Memory.wf bufBackground s.buf = true ∧ Memory.within s.cfg.bufSize s.buf = true
  /-- The flash array is in canonical form and inside `FLASH_SIZE`. -/
  flash : s.env.chip.memOk s.cfg
  /-- Every line of the trace is well formed. -/
  trace : s.trace.all (Event.wf s.cfg) = true

/-- The invariant by its parts. -/
theorem State.inv_iff {s : State} :
    s.inv = true ↔ s.Sound ∧ s.phase.length ≤ 3 ∧ (s.done = true → s.phase = []) ∧
      (s.cause = none ∨ s.status.isAbort = true) := by
  have hdone : (!s.done || s.idle) = true ↔ (s.done = true → s.phase = []) := by
    rw [← State.idle_iff]
    cases s.done <;> simp
  have hcause : (s.cause.isNone || s.status.isAbort) = true ↔
      (s.cause = none ∨ s.status.isAbort = true) := by
    simp
  unfold State.inv
  simp only [Bool.and_eq_true, decide_eq_true_eq, hdone, hcause]
  constructor
  · rintro ⟨⟨⟨⟨⟨⟨⟨⟨hcfg, hbw⟩, hbi⟩, hfw⟩, hfi⟩, hp⟩, hd⟩, ht⟩, hc⟩
    exact ⟨⟨hcfg, ⟨hbw, hbi⟩, ⟨hfw, hfi⟩, ht⟩, hp, hd, hc⟩
  · rintro ⟨⟨hcfg, ⟨hbw, hbi⟩, ⟨hfw, hfi⟩, ht⟩, hp, hd, hc⟩
    exact ⟨⟨⟨⟨⟨⟨⟨⟨hcfg, hbw⟩, hbi⟩, hfw⟩, hfi⟩, hp⟩, hd⟩, ht⟩, hc⟩

/-- An allowed configuration has a flash array (00_scope.md R8). -/
theorem Config.flashSize_pos {c : Config} (h : c.wf = true) : 0 < c.flashSize := by
  simp only [Config.wf, Config.geometryOk, Bool.and_eq_true, beq_iff_eq, decide_eq_true_eq] at h
  obtain ⟨⟨⟨⟨⟨⟨⟨⟨⟨⟨hsize, -⟩, -⟩, hsec⟩, hcount⟩, -⟩, -⟩, -⟩, -⟩, -⟩, -⟩ := h
  rw [hsize]
  exact Nat.mul_pos hcount hsec

/-- The line of a call at one to three labels is well formed. -/
theorem State.event_wf {s : State} {c : Call} (hlo : 1 ≤ s.phase.length) (hhi : s.phase.length ≤ 3)
    (hc : Event.pollContract s.cfg ⟨s.phase, c, s.answer c⟩ = true) :
    Event.wf s.cfg ⟨s.phase, c, s.answer c⟩ = true := by
  have hrx : Event.rxLength ⟨s.phase, c, s.answer c⟩ = true := by
    unfold Event.rxLength
    split
    · rename_i n tmo bytes hcall hans
      dsimp only at hcall hans
      subst hcall
      simpa using State.answer_rx_length hans
    · rfl
  simp [Event.wf, hc, hrx, Event.siteDepth, hlo, hhi]

/-- A call leaves a sound state sound. -/
theorem State.Sound.afterCall {s : State} {c : Call} (h : s.Sound) (hlo : 1 ≤ s.phase.length)
    (hhi : s.phase.length ≤ 3)
    (hc : Event.pollContract s.cfg ⟨s.phase, c, s.answer c⟩ = true) : (s.afterCall c).Sound where
  cfg := h.cfg
  buf := applyStores_ok h.buf
  flash := Env.respond_memOk c (Config.flashSize_pos h.cfg) h.flash
  trace := by
    have hnew := State.event_wf hlo hhi hc
    unfold State.answer at hnew
    simp [h.trace, hnew]

/-- The release of the bus leaves a sound state sound. -/
theorem State.Sound.logRelease {s : State} (h : s.Sound) (hlo : 1 ≤ s.phase.length)
    (hhi : s.phase.length ≤ 3) : (s.logCall .busRelease (.ok [])).Sound where
  cfg := h.cfg
  buf := h.buf
  flash := h.flash
  trace := by
    simp [h.trace, Event.wf, Event.pollContract, Event.rxLength, Event.siteDepth, hlo, hhi]

/-- A register write leaves a sound state sound, if it writes no byte beyond BUF. -/
theorem State.Sound.regWrite {room : Nat} {s t : State} (h : s.Sound) (hroom : room ≤ s.cfg.bufSize)
    (hw : State.RegWrite room s t) : t.Sound := by
  cases hw with
  | work | scratch | inited => exact ⟨h.cfg, h.buf, h.flash, h.trace⟩
  | buf bytes hlen =>
    have hfit : 0 + bytes.length ≤ s.cfg.bufSize := by omega
    exact ⟨h.cfg, ⟨Memory.wf_writeBytes h.buf.1, Memory.within_writeBytes h.buf.2 hfit⟩, h.flash,
      h.trace⟩

/-- The invariant of a piece under way at `d` labels: the state is sound, and the cause label is `c0` as long
as none was written. -/
structure State.UnderWay (room : Nat) (c0 : Option Cause) (clean : Bool) (d : Nat) (s : State) :
    Prop where
  /-- PHASE holds `d` labels. -/
  depth : s.phase.length = d
  /-- What the piece stores fits in BUF. -/
  fits : room ≤ s.cfg.bufSize
  /-- The state is sound. -/
  sound : s.Sound
  /-- No cause label was written since. -/
  cause : clean = true → s.cause = c0

/-- A piece that stands for ever stands in a sound state, with no cause label written. -/
def State.Stands (c0 : Option Cause) (s : State) : Prop :=
  s.Sound ∧ s.phase.length ≤ 3 ∧ s.cause = c0

theorem carried_underWay (room : Nat) (sticks : Prop) (c0 : Option Cause) :
    Carried room sticks (State.UnderWay room c0) (State.Stands c0) where
  write h hw := by
    have hs := h.sound.regWrite h.fits hw
    cases hw <;> exact ⟨h.depth, h.fits, hs, h.cause⟩
  push l h := ⟨by simp [h.depth], h.fits, ⟨h.sound.cfg, h.sound.buf, h.sound.flash, h.sound.trace⟩,
    h.cause⟩
  pop h h' := ⟨h.depth, h'.fits, ⟨h'.sound.cfg, h'.sound.buf, h'.sound.flash, h'.sound.trace⟩,
    h'.cause⟩
  cause _ h := ⟨h.depth, h.fits, ⟨h.sound.cfg, h.sound.buf, h.sound.flash, h.sound.trace⟩, nofun⟩
  call h hlo hhi hc _ :=
    ⟨h.depth, h.fits, h.sound.afterCall (h.depth ▸ hlo) (h.depth ▸ hhi) hc, h.cause⟩
  never h hlo hhi hc _ :=
    ⟨h.sound.afterCall (h.depth ▸ hlo) (h.depth ▸ hhi) hc, h.depth ▸ hhi, h.cause rfl⟩
  log h hlo hhi :=
    ⟨h.depth, h.fits, h.sound.logRelease (h.depth ▸ hlo) (h.depth ▸ hhi), h.cause⟩
  stuck l h _ hd := by
    refine ⟨⟨h.sound.cfg, h.sound.buf, h.sound.flash, h.sound.trace⟩, ?_, h.cause rfl⟩
    simp only [State.setPhase_phase, List.length_append, List.length_singleton, h.depth]
    omega

/-- Acceptance leaves a sound state sound: the trace starts empty. -/
theorem State.Sound.accept {s : State} (h : s.Sound) (op : Byte) (a n : Word) :
    (s.accept op a n).Sound := ⟨h.cfg, h.buf, h.flash, rfl⟩

/-- A return gives the invariant: the label of a cause stands only with an error code. -/
theorem State.Sound.finish_inv {s : State} (h : s.Sound) (code : StatusCode) :
    (s.finish code).inv = true := by
  refine State.inv_iff.2 ⟨⟨h.cfg, h.buf, h.flash, h.trace⟩, by simp, fun _ => rfl, ?_⟩
  cases hc : code.isAbort <;> simp [hc]

/-- An instruction in IDLE keeps the invariant. -/
theorem exec_inv {i : Instr} {s t : State} (hinv : s.inv = true) (hp : s.phase = [])
    (hd : s.done = false) (h : exec i s = .next t) : t.inv = true := by
  obtain ⟨hs, -, -, hcause⟩ := State.inv_iff.1 hinv
  by_cases hi : i.txn? = none
  · have H := carried_underWay (opStoreLength i) (∃ a n, i = .write a n) none
    have hroom : opStoreLength i ≤ s.cfg.bufSize := opStoreLength_le (bufInRange_of_exec h)
    have hstart : ∀ op a n, State.UnderWay (opStoreLength i) none true 0 (s.accept op a n) :=
      fun op a n => ⟨by simp [hp], hroom, hs.accept op a n, fun _ => rfl⟩
    have hdone := exec_operation_status hi h
    rcases exec_operation_ends H hi hstart h with ⟨code, _, u, -, hu, rfl⟩ | ⟨ht, hlen, hc⟩
    · exact hu.sound.finish_inv code
    · refine State.inv_iff.2 ⟨ht, hlen, fun hup => ?_, .inl hc⟩
      rcases hdone with ⟨hidle, -⟩ | ⟨-, hdown⟩
      · exact hidle
      · simp [hdown] at hup
  · have H := carried_underWay 0 False s.cause
    obtain ⟨hst, hdn⟩ := exec_transaction_status hi h
    have hend : t.Sound ∧ t.phase.length ≤ 3 ∧ t.cause = s.cause := by
      rcases exec_transaction_ends H hi ⟨by simp [hp], Nat.zero_le _, hs, fun _ => rfl⟩ h with ht | ht
      · exact ⟨ht.sound, by simp [ht.depth], ht.cause rfl⟩
      · exact ht
    obtain ⟨ht, hlen, hc⟩ := hend
    exact State.inv_iff.2 ⟨ht, hlen, fun hup => by simp [hdn, hd] at hup, by rwa [hc, hst]⟩

/-- An event that does not wait keeps the invariant. -/
theorem runEvent_inv {e : PortEvent} {s t : State} (hinv : s.inv = true) (hd : s.done = false)
    (he : e.needsIdle = false) (h : runEvent e s = .next t) : t.inv = true := by
  obtain ⟨hs, hlen, -, hcause⟩ := State.inv_iff.1 hinv
  have down : ∀ {p : Prop}, s.done = true → p := fun hup => by simp [hd] at hup
  rcases runEvent_cases h he with ⟨k, rfl⟩ | ⟨off, bytes, hin, rfl⟩ | rfl | ⟨-, rfl⟩
  · exact State.inv_iff.2 ⟨⟨hs.cfg, hs.buf, hs.flash, hs.trace⟩, hlen, down, hcause⟩
  · have hfit : off.toNat + bytes.length ≤ s.cfg.bufSize := by simpa [inBuf] using hin
    have hbuf := And.intro (Memory.wf_writeBytes (bs := bytes) (off := off.toNat) hs.buf.1)
      (Memory.within_writeBytes (bg := bufBackground) hs.buf.2 hfit)
    exact State.inv_iff.2 ⟨⟨hs.cfg, hbuf, hs.flash, hs.trace⟩, hlen, down, hcause⟩
  · unfold State.chipComplete
    split
    · exact hinv
    · have hflash : (s.env.chip.complete s.cfg).memOk s.cfg := by
        simpa [Chip.memOk] using hs.flash
      exact State.inv_iff.2 ⟨⟨hs.cfg, hs.buf, hflash, hs.trace⟩, hlen, down, hcause⟩
  · exact State.inv_iff.2 ⟨⟨hs.cfg, hs.buf, hs.flash, hs.trace⟩, by simp, nofun, .inl rfl⟩

/-- Taking an event from the inbox keeps the invariant and lowers the done pulse. -/
theorem State.take_inv {s : State} (h : s.inv = true) (rest : List PortEvent) :
    (s.take rest).inv = true := by
  obtain ⟨hs, hlen, -, hcause⟩ := State.inv_iff.1 h
  exact State.inv_iff.2 ⟨⟨hs.cfg, hs.buf, hs.flash, hs.trace⟩, hlen, nofun, hcause⟩

/-- Settles O13: by the event a step takes; inside an operation the invariant is `State.UnderWay`. -/
theorem stepKeepsInvariant : Obligations.StepKeepsInvariant := by
  intro s t hinv hstep
  obtain ⟨-, ⟨-, rfl⟩ | ⟨e, rest, hnext, hrun⟩⟩ := step_cases hstep
  · exact State.take_inv hinv s.host.inbox
  have htake := State.take_inv hinv rest
  cases he : e.needsIdle with
  | false => exact runEvent_inv htake rfl he hrun
  | true =>
    have hp : (s.take rest).phase = [] := State.phase_nil_of_needsIdle hnext he
    obtain ⟨hs, hlen, -, hcause⟩ := State.inv_iff.1 htake
    rcases runEvent_idle_cases hrun he with ⟨k, v, rfl⟩ | ⟨i, hexec⟩ | ⟨op, a, n, hres⟩
    · exact State.inv_iff.2 ⟨⟨hs.cfg, hs.buf, hs.flash, hs.trace⟩, hlen, nofun, hcause⟩
    · exact exec_inv htake hp rfl hexec
    · have haborted : ((s.take rest).accept op a n |>.setCause (some .reservedOp)).Sound :=
        ⟨hs.cfg, hs.buf, hs.flash, rfl⟩
      rw [execReserved_next hres]
      exact haborted.finish_inv _

end Sys2Proof.Machine
end

