-- ==== Sys2Proof/Proofs/Returns.lean ====
section
/-!
Every operation returns when every call is answered (10_state.md R26, 20_memory.md R76): no call stands for
ever, and the loop of WRITE never uses up its visits, because each chunk takes at least one of the bytes left
(41_program.md R152).
-/

namespace Sys2Proof.Machine

/-! ### Calls that are all answered -/

/-- A call takes one scripted answer and adds none. -/
theorem State.answersAll_afterCall {s : State} (h : s.answersAll) (c : Call) :
    (s.afterCall c).answersAll := fun hm => h (List.mem_of_mem_tail hm)

/-- Where no scripted answer is "never", the next call is answered. -/
theorem State.answersAll_answer {s : State} (h : s.answersAll) (c : Call) : s.answer c ≠ .never := by
  refine State.answer_ne_never ?_
  unfold State.answersAll at h
  cases hr : s.env.replies with
  | nil => exact nofun
  | cons r rs =>
    rintro rfl
    exact h (by rw [hr]; exact List.mem_cons_self)

/-- With every call answered no piece stands for ever, unless it may stick without a call. -/
theorem carried_answersAll (room : Nat) {sticks : Prop} (h : ¬sticks) :
    Carried room sticks (fun _ d s => s.phase.length = d ∧ s.answersAll) (fun _ => False) where
  write hs hw := by cases hw <;> exact hs
  push l hs := ⟨by simp [hs.1], hs.2⟩
  pop hs ht := ⟨hs.1, ht.2⟩
  cause _ hs := hs
  call hs _ _ _ _ := ⟨hs.1, State.answersAll_afterCall hs.2 _⟩
  never hs _ _ _ hn := State.answersAll_answer hs.2 _ hn
  log hs _ _ := hs
  stuck _ _ hst _ := h hst

/-- An operation other than WRITE returns. -/
theorem exec_operation_returns {i : Instr} {s t : State} (hi : i.txn? = none)
    (hw : ¬∃ a n, i = .write a n) (hp : s.phase = []) (ha : s.answersAll)
    (h : exec i s = .next t) : t.phase = [] ∧ t.done = true := by
  have H := carried_answersAll (opStoreLength i) hw
  have hstart : ∀ op a n, (s.accept op a n).phase.length = 0 ∧ (s.accept op a n).answersAll :=
    fun _ _ _ => ⟨by simp [hp], ha⟩
  rcases exec_operation_ends H hi hstart h with ⟨code, _, u, -, -, rfl⟩ | hfalse
  · exact ⟨rfl, rfl⟩
  · exact hfalse.elim

/-- A lone transaction leaves PHASE in IDLE. -/
theorem exec_transaction_returns {i : Instr} {s t : State} (hi : i.txn? ≠ none) (hp : s.phase = [])
    (ha : s.answersAll) (h : exec i s = .next t) : t.phase = [] := by
  have H := carried_answersAll 0 (sticks := False) id
  rcases exec_transaction_ends H hi ⟨by simp [hp], ha⟩ h with ⟨hlen, -⟩ | hfalse
  · exact List.length_eq_zero_iff.1 hlen
  · exact hfalse.elim

/-! ### The loop of WRITE -/

/-- WRITE at the top of a step of its loop: its parameters, its working registers, every call to come
answered. -/
structure State.Writing (c : Config) (w : Work) (s : State) : Prop where
  /-- The parameters. -/
  cfg : s.cfg = c
  /-- The working registers. -/
  work : s.work = w
  /-- No label on PHASE. -/
  idle : s.phase.length = 0
  /-- Every call to come is answered. -/
  answers : s.answersAll

/-- The piece ends with a result. -/
def Seq.ReturnsFrom (s : State) (m : Seq StatusCode) : Prop := m.Ensures s fun r _ => r ≠ none

section Loop

variable {c : Config} {w : Work} {s : State}

/-- A piece made of calls alone ends with a result and keeps the working registers. -/
theorem State.Writing.ensures {α : Type} {Q : α → Bool → Prop} {m : Seq α} (h : s.Writing c w)
    (hb : m.Built 0 False true 0 Q) (hk : Seq.Keeps State.BlockKept m) :
    m.Ensures s fun r t => r ≠ none ∧ t.Writing c w := by
  have hends := hb.ends (carried_answersAll 0 id) (s := s) ⟨h.idle, h.answers⟩
  have hkept := hk s
  unfold Seq.Ensures at hends ⊢
  generalize m s = run at hends hkept ⊢
  rcases run with ⟨_ | x, t⟩
  · exact hends.elim
  · obtain ⟨_, -, hlen, hall⟩ := hends
    exact ⟨nofun, ⟨hkept.cfg.trans h.cfg, hkept.work.trans h.work, hlen, hall⟩⟩

/-- A subroutine of calls alone, then a piece that returns. -/
theorem State.Writing.orReturn {Q : StatusCode → Bool → Prop} {m k : Seq StatusCode}
    {code : StatusCode} (h : s.Writing c w) (hb : m.Built 0 False true 0 Q)
    (hkept : Seq.Keeps State.BlockKept m) (hk : ∀ t : State, t.Writing c w → k.ReturnsFrom t) :
    (m.orReturn code k).ReturnsFrom s := by
  refine (Seq.orReturn_ensures _ _ _).2 ((h.ensures hb hkept).imp fun r t ⟨hr, ht⟩ => ?_)
  cases r with
  | none => exact absurd rfl hr
  | some st =>
    dsimp only
    split
    · exact hk t ht
    · exact nofun

/-- A step of calls alone, then a piece that returns. -/
theorem State.Writing.orAbort {m : Seq Answer} {cause : Cause} {code : StatusCode}
    {k : List Byte → Seq StatusCode} (h : s.Writing c w) (hb : m.Asks 0 False 0)
    (hkept : Seq.Keeps State.BlockKept m)
    (hk : ∀ (t : State) b, t.Writing c w → (k b).ReturnsFrom t) :
    (m.orAbort cause code k).ReturnsFrom s := by
  refine (Seq.orAbort_ensures _ _ _ _).2 ((h.ensures hb hkept).imp fun r t ⟨hr, ht⟩ => ?_)
  rcases r with _ | b | _ | _
  · exact absurd rfl hr
  · exact hk t b ht
  · exact nofun
  · exact nofun

/-- One visit of the loop ends with ERROR or goes on with the registers it started with. -/
theorem State.Writing.writeChunk {k : Seq StatusCode} (h : s.Writing c w)
    (hk : ∀ t : State, t.Writing c w → k.ReturnsFrom t) : (writeChunk k).ReturnsFrom s := by
  have H := State.blockKept_respects
  refine h.orReturn (label_doWriteEnable_built _ (by omega)) (H.label _ H.doWriteEnable)
    fun s1 h1 => (Seq.look_ensures _).2 ?_
  refine h1.orAbort (label_execCall_asks _ _ (by omega)) (H.label _ (H.execCall _))
    fun s2 _ h2 => (Seq.look_ensures _).2 ?_
  refine h2.orAbort (.label (txCall_asks _ (by omega) (by omega))) (H.label _ (H.txCall _))
    fun s3 _ h3 => ?_
  exact h3.orReturn (label_doPollReady_built _ _ (by omega)) (H.label _ (H.doPollReady _)) hk

/-- The bytes WRITE has still to program (41_program.md R151: `END -32 CUR`). -/
def Work.left (w : Work) : Nat := (w.endAddr - w.cur).toNat

/-- CHUNK is one of the bytes left at least, and no more than all of them. -/
def Work.chunkFits (w : Work) : Prop := w.chunk.toNat ≤ w.left ∧ (0 < w.left → 0 < w.chunk.toNat)

/-- Step X0 gives a chunk that fits. -/
theorem Work.startWrite_fits (hc : c.wf = true) (w : Work) (a n : Word) :
    (w.startWrite c a n).left = n.toNat ∧ (w.startWrite c a n).chunkFits := by
  have hleft : (w.startWrite c a n).left = n.toNat := by
    have : a + n - a = n := by bv_omega
    simp [Work.left, Work.startWrite, this]
  have hchunk : (w.startWrite c a n).chunk.toNat = min (c.pageSize - a.toNat % c.pageSize) n.toNat :=
    firstChunk_toNat hc a n
  have hmod := Nat.mod_lt a.toNat (Config.pageSize_pos hc)
  refine ⟨hleft, ?_⟩
  unfold Work.chunkFits
  rw [hleft, hchunk]
  omega

/-- Step X5 takes CHUNK off the bytes left. -/
theorem Work.advance_left {w : Work} (h : w.chunkFits) :
    (w.advance c).left = w.left - w.chunk.toNat := by
  obtain ⟨hle, -⟩ := h
  have hsub : w.endAddr - (w.cur + w.chunk) = (w.endAddr - w.cur) - w.chunk := by bv_omega
  unfold Work.left at *
  simp only [Work.advance, hsub]
  exact BitVec.toNat_sub_of_le (BitVec.le_def.2 hle)

/-- Step X5 gives a chunk that fits. -/
theorem Work.advance_fits (hc : c.wf = true) (w : Work) : (w.advance c).chunkFits := by
  have hchunk : (w.advance c).chunk.toNat = min c.pageSize (w.advance c).left := nextChunk_toNat hc _ _
  have hpos := Config.pageSize_pos hc
  unfold Work.chunkFits
  rw [hchunk]
  omega

/-- Bytes are left as long as CUR is not END. -/
theorem Work.left_pos {w : Work} (h : w.cur ≠ w.endAddr) : 0 < w.left := by
  unfold Work.left
  bv_omega

/-- The loop returns within one visit more than there are bytes left: each visit takes one of them. -/
theorem writeLoop_returns (hc : c.wf = true) (fuel : Nat) (h : s.Writing c w) (hfit : w.chunkFits)
    (hfuel : w.left < fuel) : (writeLoop fuel).ReturnsFrom s := by
  induction fuel generalizing s w with
  | zero => omega
  | succ fuel ih =>
    refine h.writeChunk fun t ht => ?_
    have hwork : (t.setWork (t.work.advance t.cfg)).Writing c (w.advance c) :=
      ⟨ht.cfg, by simp [ht.work, ht.cfg], ht.idle, ht.answers⟩
    refine (Seq.update_ensures _ _).2 ((Seq.look_ensures _).2 ((Seq.ite_ensures _ _ _).2 ?_))
    split
    · exact nofun
    · rename_i hne
      rw [hwork.work] at hne
      have hpos := Work.left_pos hne
      have hleft : (w.advance c).left = w.left - w.chunk.toNat := Work.advance_left hfit
      obtain ⟨-, hchunk⟩ := hfit
      exact ih hwork (Work.advance_fits hc w) (by omega)

/-- The body of WRITE returns. -/
theorem doWrite_returns (hc : c.wf = true) (h : s.Writing c w) (a n : Word) :
    (doWrite a n).ReturnsFrom s := by
  obtain ⟨hleft, hfit⟩ := Work.startWrite_fits hc w a n
  have hwork : (s.setWork (s.work.startWrite s.cfg a n)).Writing c (w.startWrite c a n) :=
    ⟨h.cfg, by simp [h.work, h.cfg], h.idle, h.answers⟩
  exact (Seq.update_ensures _ _).2 (writeLoop_returns hc _ hwork hfit (by omega))

end Loop

/-- WRITE returns. -/
theorem exec_write_returns {a n : Word} {s t : State} (hc : s.cfg.wf = true) (hp : s.phase = [])
    (ha : s.answersAll) (h : exec (.write a n) s = .next t) : t.phase = [] ∧ t.done = true := by
  obtain ⟨op, a', n', rfl⟩ := exec_operation rfl h
  have hstart : (s.accept op a' n').Writing s.cfg s.work := ⟨rfl, rfl, by simp [hp], ha⟩
  have hret : (opBody (.write a n)).ReturnsFrom (s.accept op a' n') := doWrite_returns hc hstart a n
  unfold Seq.ReturnsFrom Seq.Ensures at hret
  generalize opBody (.write a n) (s.accept op a' n') = run at hret ⊢
  rcases run with ⟨_ | code, u⟩
  · exact absurd rfl hret
  · exact ⟨rfl, rfl⟩

/-- Settles O44: WRITE by the bytes its loop has left, every other instruction because no call of it stands
for ever. -/
theorem everyOperationReturns : Obligations.EveryOperationReturns := by
  intro i s hc hp ha hb
  obtain ⟨t, ht⟩ := exec_next_of_bufInRange hb
  refine ⟨t, ht, ?_⟩
  by_cases hi : i.txn? = none
  · have hret : t.phase = [] ∧ t.done = true := by
      by_cases hw : ∃ a n, i = .write a n
      · obtain ⟨a, n, rfl⟩ := hw
        exact exec_write_returns hc hp ha ht
      · exact exec_operation_returns hi hw hp ha ht
    exact ⟨hret.1, fun _ => hret.2⟩
  · exact ⟨exec_transaction_returns hi hp ha ht, fun h => absurd h hi⟩

end Sys2Proof.Machine
end

