-- ==== Sys2Proof/Proofs/Registers.lean ====
section
/-!
No operation reads a working register or a scratch byte that an earlier one left (10_state.md R29). Two runs
are compared that start in states equal but for these registers: a piece made of calls keeps the difference
as it is, and a piece that writes a register before it reads it ends in states that again differ in nothing
else.
-/

namespace Sys2Proof.Machine

/-! ### States that differ in the registers alone -/

/-- The state with other values in the working registers and the scratch bytes. -/
def State.withRegs (s : State) (w : Work) (x : Scratch) : State := (s.setWork w).setScratch x

section Fields

variable (s : State) (w : Work) (x : Scratch)

@[simp] theorem State.withRegs_cfg : (s.withRegs w x).cfg = s.cfg := rfl
@[simp] theorem State.withRegs_phase : (s.withRegs w x).phase = s.phase := rfl
@[simp] theorem State.withRegs_req : (s.withRegs w x).req = s.req := rfl
@[simp] theorem State.withRegs_work : (s.withRegs w x).work = w := rfl
@[simp] theorem State.withRegs_scratch : (s.withRegs w x).scratch = x := rfl
@[simp] theorem State.withRegs_tmo : (s.withRegs w x).tmo = s.tmo := rfl

theorem State.setPhase_withRegs (v : List Label) :
    (s.withRegs w x).setPhase v = (s.setPhase v).withRegs w x := rfl

end Fields

/-! ### Pieces that ignore the registers -/

/-- The piece neither reads nor writes a working register or a scratch byte. -/
def Seq.Ignores {α : Type} (m : Seq α) : Prop :=
  ∀ (s : State) (w : Work) (x : Scratch), m (s.withRegs w x) = ((m s).1, (m s).2.withRegs w x)

section Ignores

variable {α β : Type}

/-- A piece that ignores the registers leaves them. -/
theorem Seq.Ignores.keeps {m : Seq α} (h : m.Ignores) (s : State) :
    (m s).2.work = s.work ∧ (m s).2.scratch = s.scratch := by
  have hs : (m s).2 = (m s).2.withRegs s.work s.scratch := congrArg Prod.snd (h s s.work s.scratch)
  exact ⟨by rw [hs]; rfl, by rw [hs]; rfl⟩

theorem Seq.Ignores.pure (x : α) : (Seq.pure x).Ignores := fun _ _ _ => rfl

theorem Seq.Ignores.andThen {m : Seq β} {k : β → Seq α} (hm : m.Ignores)
    (hk : ∀ x, (k x).Ignores) : (m.andThen k).Ignores := by
  intro s w x
  unfold Seq.andThen
  rw [hm s w x]
  rcases m s with ⟨_ | r, t⟩
  · rfl
  · exact hk r t w x

theorem Seq.Ignores.look {k : State → Seq α} (hread : ∀ s w x, k (State.withRegs s w x) = k s)
    (hk : ∀ s, (k s).Ignores) : (Seq.look k).Ignores := by
  intro s w x
  unfold Seq.look
  rw [hread s w x]
  exact hk s s w x

theorem Seq.Ignores.label {m : Seq α} (l : Label) (hm : m.Ignores) : (Seq.label l m).Ignores := by
  intro s w x
  have hrun := hm (s.setPhase (s.phase ++ [l])) w x
  unfold Seq.label
  rw [State.withRegs_phase, State.setPhase_withRegs, hrun]
  rcases m (s.setPhase (s.phase ++ [l])) with ⟨_ | r, t⟩ <;> rfl

theorem Seq.Ignores.stuck (l : Label) : (Seq.stuck (α := α) l).Ignores := fun _ _ _ => rfl

theorem Seq.Ignores.abort (c : Cause) (code : StatusCode) : (Seq.abort c code).Ignores :=
  fun _ _ _ => rfl

theorem Seq.Ignores.ite {p : Prop} [Decidable p] {m k : Seq α} (hm : m.Ignores) (hk : k.Ignores) :
    (if p then m else k).Ignores := by
  split
  · exact hm
  · exact hk

theorem Seq.Ignores.orAbort {m : Seq Answer} {c : Cause} {code : StatusCode}
    {k : List Byte → Seq StatusCode} (hm : m.Ignores) (hk : ∀ b, (k b).Ignores) :
    (m.orAbort c code k).Ignores := by
  refine hm.andThen fun r => ?_
  cases r with
  | ok b => exact hk b
  | fail => exact .abort _ _
  | never => exact .abort _ _

/-- The environment sees no register of the block (20_memory.md R70). -/
theorem call_ignores (c : Call) : (call c).Ignores := by
  intro s w x
  rw [call_eq, call_eq]
  rfl

theorem execCall_ignores (t : Txn) : (execCall t).Ignores :=
  .look (fun _ _ _ => rfl) fun _ => call_ignores _
theorem cmd_ignores (t : Txn) : (cmd t).Ignores := execCall_ignores t
theorem txCall_ignores (bs : List Byte) : (txCall bs).Ignores :=
  .look (fun _ _ _ => rfl) fun _ => call_ignores _
theorem rxCall_ignores (n : Word) : (rxCall n).Ignores :=
  .look (fun _ _ _ => rfl) fun _ => call_ignores _
theorem busRelease_ignores : busRelease.Ignores := fun _ _ _ => rfl

theorem pollCall_ignores (p : Config → Pred) {tmo : State → Word}
    (ht : ∀ s w x, tmo (State.withRegs s w x) = tmo s) : (pollCall p tmo).Ignores :=
  .look (fun s w x => by rw [ht, State.withRegs_cfg]) fun _ => call_ignores _

theorem readReg_ignores (t : Txn) (n : Word) : (readReg t n).Ignores := by
  refine .andThen (.label _ (execCall_ignores t)) fun r => ?_
  cases r with
  | ok => exact .label _ (rxCall_ignores n)
  | fail => exact .pure _
  | never => exact .pure _

theorem writeReg_ignores (t : Txn) (bs : List Byte) : (writeReg t bs).Ignores := by
  refine .andThen (.label _ (execCall_ignores t)) fun r => ?_
  cases r with
  | ok => exact .label _ (txCall_ignores bs)
  | fail => exact .pure _
  | never => exact .pure _

theorem doGetStatus_ignores : doGetStatus.Ignores := by
  refine .orAbort (.label _ (readReg_ignores _ _)) fun b => .look (fun _ _ _ => rfl) fun s => ?_
  split
  · exact .abort _ _
  · exact .pure _
  · exact .orAbort (.label _ (readReg_ignores _ _)) fun _ => .look (fun _ _ _ => rfl) fun _ => .pure _

theorem doPollReady_ignores {tmo : State → Word}
    (ht : ∀ s w x, tmo (State.withRegs s w x) = tmo s) : (doPollReady tmo).Ignores :=
  .orAbort (.label _ (pollCall_ignores _ ht)) fun _ => .pure _

theorem doWriteEnable_ignores : doWriteEnable.Ignores :=
  .orAbort (.label _ (cmd_ignores _)) fun _ =>
    .orAbort (.label _ (pollCall_ignores _ fun _ _ _ => rfl)) fun _ => .pure _

theorem doResetChip_ignores : doResetChip.Ignores :=
  .orAbort (.label _ (cmd_ignores _)) fun _ => .orAbort (.label _ (cmd_ignores _)) fun _ =>
    .andThen (.label _ (doPollReady_ignores fun _ _ _ => rfl)) fun _ => .ite (.pure _) (.abort _ _)

end Ignores

/-! ### Pieces that write a register before they read it -/

/-- Which values of the registers two runs agree on: those of the first run, then those of the second. -/
abbrev Agreement : Type := Work → Scratch → Work → Scratch → Prop

/-- The runs need not agree on any register. -/
def noRegs : Agreement := fun _ _ _ _ => True

/-- The runs agree on `RB[0]`. -/
def sameRb0 : Agreement := fun _ x _ y => y.rb0 = x.rb0

/-- The runs agree on the image `RB[0]`, `RB[1]`, `RB[2]`. -/
def sameImage : Agreement := fun _ x _ y => y.rb0 = x.rb0 ∧ y.rb1 = x.rb1 ∧ y.rb2 = x.rb2

/-- The runs agree on `VB[0]`. -/
def sameVb0 : Agreement := fun _ x _ y => y.vb0 = x.vb0

/-- The runs agree on `VB[1]`. -/
def sameVb1 : Agreement := fun _ x _ y => y.vb1 = x.vb1

/-- The runs agree on the registers of WRITE: `CUR`, `END`, `CHUNK`, `PTR`. -/
def sameChunk : Agreement := fun w _ v _ =>
  v.cur = w.cur ∧ v.endAddr = w.endAddr ∧ v.chunk = w.chunk ∧ v.ptr = w.ptr

/-- Started with other values of the registers the runs do not agree on, the piece gives the same result and
a state that differs in the registers alone. -/
def Seq.Insensitive {α : Type} (K : Agreement) (m : Seq α) : Prop :=
  ∀ (s : State) (w : Work) (x : Scratch), K s.work s.scratch w x →
    ∃ w' x', m (s.withRegs w x) = ((m s).1, (m s).2.withRegs w' x')

section Insensitive

variable {α β : Type} {K K' : Agreement}

theorem Seq.Ignores.insensitive {m : Seq α} (h : m.Ignores) : m.Insensitive K :=
  fun s w x _ => ⟨w, x, h s w x⟩

theorem Seq.Insensitive.pure (x : α) : (Seq.pure x).Insensitive K := (Seq.Ignores.pure x).insensitive

theorem Seq.Insensitive.abort (c : Cause) (code : StatusCode) : (Seq.abort c code).Insensitive K :=
  (Seq.Ignores.abort c code).insensitive

/-- A piece that ignores the registers keeps what the runs agree on. -/
theorem Seq.Insensitive.andThen {m : Seq β} {k : β → Seq α} (hm : m.Ignores)
    (hk : ∀ r, (k r).Insensitive K) : (m.andThen k).Insensitive K := by
  intro s w x h
  obtain ⟨hwork, hscratch⟩ := hm.keeps s
  rw [← hwork, ← hscratch] at h
  unfold Seq.andThen
  rw [hm s w x]
  generalize m s = run at h ⊢
  rcases run with ⟨_ | r, t⟩
  · exact ⟨w, x, rfl⟩
  · exact hk r t w x h

/-- After a piece that writes registers the runs agree on none of them. -/
theorem Seq.Insensitive.andThen_noRegs {m : Seq β} {k : β → Seq α} (hm : m.Insensitive K)
    (hk : ∀ r, (k r).Insensitive noRegs) : (m.andThen k).Insensitive K := by
  intro s w x h
  obtain ⟨w', x', hrun⟩ := hm s w x h
  unfold Seq.andThen
  rw [hrun]
  rcases m s with ⟨_ | r, t⟩
  · exact ⟨w', x', rfl⟩
  · exact hk r t w' x' trivial

/-- A piece may read what the runs agree on. -/
theorem Seq.Insensitive.look {k : State → Seq α}
    (hread : ∀ (s : State) w x, K s.work s.scratch w x → k (s.withRegs w x) = k s)
    (hk : ∀ s, (k s).Insensitive K) : (Seq.look k).Insensitive K := by
  intro s w x h
  unfold Seq.look
  rw [hread s w x h]
  exact hk s s w x h

/-- After a write the runs agree on what it wrote. -/
theorem Seq.Insensitive.update {f : State → State} {k : Seq α}
    (hf : ∀ (s : State) w x, K s.work s.scratch w x →
      ∃ w' x', f (s.withRegs w x) = (f s).withRegs w' x' ∧ K' (f s).work (f s).scratch w' x')
    (hk : k.Insensitive K') : (Seq.update f k).Insensitive K := by
  intro s w x h
  obtain ⟨w', x', hfs, hK⟩ := hf s w x h
  unfold Seq.update
  rw [hfs]
  exact hk (f s) w' x' hK

theorem Seq.Insensitive.label {m : Seq α} (l : Label) (hm : m.Insensitive K) :
    (Seq.label l m).Insensitive K := by
  intro s w x h
  obtain ⟨w', x', hrun⟩ := hm (s.setPhase (s.phase ++ [l])) w x h
  refine ⟨w', x', ?_⟩
  unfold Seq.label
  rw [State.withRegs_phase, State.setPhase_withRegs, hrun]
  rcases m (s.setPhase (s.phase ++ [l])) with ⟨_ | r, t⟩ <;> rfl

theorem Seq.Insensitive.ite {p : Prop} [Decidable p] {m k : Seq α} (hm : m.Insensitive K)
    (hk : k.Insensitive K) : (if p then m else k).Insensitive K := by
  split
  · exact hm
  · exact hk

theorem Seq.Insensitive.orAbort {m : Seq Answer} {c : Cause} {code : StatusCode}
    {k : List Byte → Seq StatusCode} (hm : m.Ignores) (hk : ∀ b, (k b).Insensitive K) :
    (m.orAbort c code k).Insensitive K := by
  refine .andThen hm fun r => ?_
  cases r with
  | ok b => exact hk b
  | fail => exact .abort _ _
  | never => exact .abort _ _

theorem Seq.Insensitive.orReturn {m k : Seq StatusCode} {code : StatusCode} (hm : m.Ignores)
    (hk : k.Insensitive K) : (m.orReturn code k).Insensitive K :=
  .andThen hm fun _ => .ite hk (.pure _)

theorem Seq.Insensitive.orReturn_noRegs {m k : Seq StatusCode} {code : StatusCode}
    (hm : m.Insensitive K) (hk : k.Insensitive noRegs) : (m.orReturn code k).Insensitive K :=
  .andThen_noRegs hm fun _ => .ite hk (.pure _)

end Insensitive

/-! ### The operations -/

theorem label_doPollReady_ignores (l : Label) {tmo : State → Word}
    (ht : ∀ s w x, tmo (State.withRegs s w x) = tmo s) : (Seq.label l (doPollReady tmo)).Ignores :=
  .label l (doPollReady_ignores ht)

/-- QUAD_MODE writes `RB[0]` before it sends it and `VB[0]` before it tests it (42_mode_config.md R166). -/
theorem doQuadMode_insensitive (en : Bool) : (doQuadMode en).Insensitive noRegs := by
  refine .orAbort (.label _ (readReg_ignores _ _)) fun b =>
    .update (K' := sameRb0) (fun s w x _ => ⟨w, _, rfl, rfl⟩) ?_
  refine .orReturn (.label _ doWriteEnable_ignores) (.look ?_ fun s => ?_)
  · intro s w x (h : x.rb0 = s.scratch.rb0)
    simp only [State.withRegs_scratch, h]
  refine .orAbort (.label _ (writeReg_ignores _ _)) fun _ => ?_
  refine .orReturn (label_doPollReady_ignores _ fun _ _ _ => rfl) ?_
  refine .orAbort (.label _ (readReg_ignores _ _)) fun v =>
    .update (K' := sameVb0) (fun s w x _ => ⟨w, _, rfl, rfl⟩) ?_
  refine .look ?_ fun t => .ite (.pure _) (.abort _ _)
  intro s w x (h : x.vb0 = s.scratch.vb0)
  simp only [State.withRegs_scratch, State.withRegs_cfg, h]

/-- Steps H3 to H9 of HP_MODE send the image and write `VB` before they test it (42_mode_config.md R168). -/
theorem hpWriteBack_insensitive (en : Bool) : (hpWriteBack en).Insensitive sameImage := by
  refine .orReturn (.label _ doWriteEnable_ignores) (.look ?_ fun s => ?_)
  · intro s w x ⟨h0, h1, h2⟩
    simp only [State.withRegs_scratch, h0, h1, h2]
  refine .orAbort (.label _ (writeReg_ignores _ _)) fun _ => ?_
  refine .orReturn (label_doPollReady_ignores _ fun _ _ _ => rfl) ?_
  refine .orAbort (.label _ (readReg_ignores _ _)) fun v =>
    .update (K' := sameVb1) (fun s w x _ => ⟨w, _, rfl, rfl⟩) ?_
  refine .look ?_ fun t => .ite ?_ (.abort _ _)
  · intro s w x (h : x.vb1 = s.scratch.vb1)
    simp only [State.withRegs_scratch, State.withRegs_cfg, h]
  · exact .orAbort (.label _ (call_ignores _)) fun _ =>
      .orAbort (.label _ (call_ignores _)) fun _ => .pure _

/-- HP_MODE writes the image before it sends it (42_mode_config.md R168). -/
theorem doHpMode_insensitive (en : Bool) : (doHpMode en).Insensitive noRegs := by
  refine .orAbort (.label _ (readReg_ignores _ _)) fun b =>
    .update (K' := sameRb0) (fun s w x _ => ⟨w, _, rfl, rfl⟩) ?_
  refine .orAbort (.label _ (readReg_ignores _ _)) fun d =>
    .update (K' := sameImage) (fun s w x h => ⟨w, _, rfl, h, rfl, rfl⟩) ?_
  exact hpWriteBack_insensitive en

theorem doInit_insensitive : doInit.Insensitive noRegs :=
  .update (K' := noRegs) (fun _ w x _ => ⟨w, x, rfl, trivial⟩) <|
    .orAbort (.label _ (call_ignores _)) fun _ => .orAbort (.label _ (call_ignores _)) fun _ =>
      .orReturn (.label _ doResetChip_ignores) <|
        .orReturn_noRegs (.label _ (doQuadMode_insensitive true)) <|
          .orReturn_noRegs (.label _ (doHpMode_insensitive true)) <|
            .update (K' := noRegs) (fun _ w x _ => ⟨w, x, rfl, trivial⟩) (.pure _)

/-- SUSPEND_ERASE and RESUME_ERASE write `ST` and test the status read, not the register
(43_erase_power.md R186, R187). -/
theorem changeEraseState_insensitive (l0 l2 l3 : Label) (source target : StatusCode) (t : Txn) :
    (changeEraseState l0 l2 l3 source target t).Insensitive noRegs := by
  refine .andThen (.label _ doGetStatus_ignores) fun st =>
    .update (K' := noRegs) (fun _ w x _ => ⟨_, x, rfl, trivial⟩) (.ite ?_ (.pure _))
  refine .orAbort (.label _ (cmd_ignores _)) fun _ =>
    .andThen (.label _ doGetStatus_ignores) fun st' => ?_
  exact .update (K' := noRegs) (fun _ w x _ => ⟨_, x, rfl, trivial⟩) (.ite (.pure _) (.abort _ _))

/-- A chunk of WRITE reads its address, length and place in BUF (41_program.md R151). -/
theorem writeChunk_insensitive {k : Seq StatusCode} (hk : k.Insensitive sameChunk) :
    (writeChunk k).Insensitive sameChunk := by
  refine .orReturn (.label _ doWriteEnable_ignores) (.look ?_ fun s => ?_)
  · intro s w x ⟨hcur, _, hchunk, _⟩
    simp only [State.withRegs_work, hcur, hchunk]
  refine .orAbort (.label _ (execCall_ignores _)) fun _ => .look ?_ fun t => ?_
  · intro s w x ⟨_, _, hchunk, hptr⟩
    have hread : ∀ off n, (s.withRegs w x).bufRead off n = s.bufRead off n := fun _ _ => rfl
    simp only [State.withRegs_work, hchunk, hptr, hread]
  refine .orAbort (.label _ (txCall_ignores _)) fun _ => ?_
  exact .orReturn (label_doPollReady_ignores _ fun _ _ _ => rfl) hk

theorem writeLoop_insensitive (fuel : Nat) : (writeLoop fuel).Insensitive sameChunk := by
  induction fuel with
  | zero => exact (Seq.Ignores.stuck _).insensitive
  | succ fuel ih =>
    refine writeChunk_insensitive (.update (K' := sameChunk) ?_ (.look ?_ fun s => .ite (.pure _) ih))
    · intro s w x ⟨hcur, hend, hchunk, hptr⟩
      refine ⟨w.advance s.cfg, x, rfl, ?_⟩
      simp [sameChunk, Work.advance, hcur, hend, hchunk, hptr]
    · intro s w x ⟨hcur, hend, _, _⟩
      simp only [State.withRegs_work, hcur, hend]

/-- WRITE sets its four registers at step X0 (41_program.md R151). -/
theorem doWrite_insensitive (a n : Word) : (doWrite a n).Insensitive noRegs :=
  .update (K' := sameChunk) (fun s w x _ => ⟨w.startWrite s.cfg a n, x, rfl, rfl, rfl, rfl, rfl⟩)
    (writeLoop_insensitive _)

theorem eraseBody_insensitive (l0 l1 l2 : Label) (t : Txn) {tmo : State → Word}
    (ht : ∀ s w x, tmo (State.withRegs s w x) = tmo s) :
    ((Seq.label l0 doWriteEnable).orReturn .error <|
      (Seq.label l1 (cmd t)).orAbort .bus .error fun _ =>
        (Seq.label l2 (doPollReady tmo)).orReturn .error (Seq.pure .ok)).Insensitive noRegs :=
  .orReturn (.label _ doWriteEnable_ignores) <|
    .orAbort (.label _ (cmd_ignores _)) fun _ =>
      .orReturn (label_doPollReady_ignores _ ht) (.pure _)

theorem powerBody_insensitive (l : Label) (t : Txn) :
    ((Seq.label l (cmd t)).orAbort .bus .error fun _ => Seq.pure .ok).Insensitive noRegs :=
  .orAbort (.label _ (cmd_ignores _)) fun _ => .pure _

/-- Every operation writes a working register or a scratch byte before it reads it (10_state.md R29). -/
theorem opBody_insensitive (i : Instr) : (opBody i).Insensitive noRegs := by
  cases i with
  | getStatus => exact (doGetStatus_ignores.label _).insensitive
  | pollReady => exact (label_doPollReady_ignores _ fun _ _ _ => rfl).insensitive
  | writeEnable => exact (doWriteEnable_ignores.label _).insensitive
  | write a n => exact doWrite_insensitive a n
  | quadMode => exact .label _ (doQuadMode_insensitive _)
  | hpMode => exact .label _ (doHpMode_insensitive _)
  | eraseBlock => exact eraseBody_insensitive _ _ _ _ fun _ _ _ => rfl
  | eraseSector a =>
    unfold opBody
    refine .look (fun _ _ _ _ => rfl) fun t => .ite ?_ (.abort _ _)
    exact .orReturn (.label _ doWriteEnable_ignores) (powerBody_insensitive _ _)
  | eraseChip => exact eraseBody_insensitive _ _ _ _ fun _ _ _ => rfl
  | suspendErase => exact changeEraseState_insensitive _ _ _ _ _ _
  | resumeErase => exact changeEraseState_insensitive _ _ _ _ _ _
  | sleep => exact powerBody_insensitive _ _
  | wakeup => exact powerBody_insensitive _ _
  | read a n =>
    refine .orAbort (.label _ (execCall_ignores _)) fun _ =>
      .orAbort (.label _ (rxCall_ignores _)) fun b => ?_
    exact .update (K' := noRegs) (fun _ w x _ => ⟨w, x, rfl, trivial⟩) (.pure _)
  | init => exact doInit_insensitive
  | deinit =>
    unfold opBody
    refine .update (K' := noRegs) (fun _ w x _ => ⟨w, x, rfl, trivial⟩) ?_
    exact .orReturn (.label _ doResetChip_ignores) <|
      .andThen (.label _ busRelease_ignores) fun _ => .pure _
  | resetChip => exact (doResetChip_ignores.label _).insensitive
  | getGeometry | tRdsr | tRdscur | tRdcr | tWren | tWrsr | tPp4 | tSe | tBe | tCe | tSusp | tResm
  | tDp | tWake | tRsten | tQread | tRst => exact .pure _

/-- A return and a stand at a call leave the difference of the registers as it is. -/
theorem finishRun_withRegs (r : Option StatusCode) (t : State) (w : Work) (x : Scratch) :
    finishRun (r, t.withRegs w x) = (finishRun (r, t)).withRegs w x := by
  cases r <;> rfl

/-- How far into BUF an operation reaches does not depend on these registers. -/
theorem bufInRange_withRegs {i : Instr} (hi : i.txn? = none) (s : State) (w : Work) (x : Scratch) :
    bufInRange (s.withRegs w x) i = bufInRange s i := by
  cases i <;> cases hi <;> rfl

/-- Settles O49: the two runs accept the request alike, and their bodies end in states that differ in these
registers alone. -/
theorem workingRegistersAreWrittenBeforeRead :
    Obligations.WorkingRegistersAreWrittenBeforeRead := by
  intro i s t w x hi h
  have hb := bufInRange_of_exec h
  obtain ⟨op, a, n, hop⟩ := opreq_of_no_txn hi
  obtain ⟨w', x', hrun⟩ := opBody_insensitive i (s.accept op a n) w x trivial
  have hsecond : exec i (s.withRegs w x) = .next (t.withRegs w' x') := by
    rw [exec_eq_runOp hop hb, runOp_next] at h
    rw [exec_eq_runOp hop ((bufInRange_withRegs hi s w x).trans hb), runOp_next]
    calc finishRun (opBody i ((s.withRegs w x).accept op a n))
        = finishRun (opBody i ((s.accept op a n).withRegs w x)) := rfl
      _ = (finishRun (opBody i (s.accept op a n))).withRegs w' x' := by
          rw [hrun, finishRun_withRegs]
      _ = t.withRegs w' x' := by rw [h]
  exact ⟨_, hsecond, rfl⟩

end Sys2Proof.Machine
end

