-- ==== Sys2Proof/Proofs/Calls.lean ====
section
/-!
Which calls every instruction makes: the templates it may emit, the timeout of each call (20_memory.md R75),
and that the bytes of a `Tx` belong to the `Exec` before it (R72). What such calls keep, a run of the whole
instruction keeps: the walk over the pieces is made once here.
-/

namespace Sys2Proof.Machine

/-! ### The calls an instruction may make -/

/-- The last call was `Exec` of this template, and it answered OK: a `Tx` may follow. -/
def State.opened (s : State) (u : Txn) : Prop :=
  s.env.lastExec = some u ∧ s.trace.getLast?.bind Event.openTransfer = some u

/-- The programs and erases an instruction emits are its own: WRITE programs, an erase operation erases the
unit its operand names. Any other template may come from any instruction. -/
def templateOf (c : Config) (i : Instr) : Txn → Prop
  | .pp4 a n => (∃ a' n', i = .write a' n') ∨ i = .tPp4 a n
  | .se a => (∃ k n, i = .eraseSector k n ∧ a = sectorAddr c k) ∨ i = .tSe a
  | .be a => (∃ n, i = .eraseBlock a n) ∨ i = .tBe a
  | .ce => (∃ a n, i = .eraseChip a n) ∨ i = .tCe
  | .rdsr | .rdscur | .rdcr | .wren | .wrsr _ | .susp | .resm | .dp | .wake | .rsten | .qread _ _
  | .rst => True

/-- The templates an instruction emits; those of an operation are well formed under an allowed configuration
(20_memory.md R65, 30_encoding.md R99, R105). -/
def emits (c : Config) (i : Instr) (t : Txn) : Prop :=
  (i.txn? = none → c.wf = true → t.wf c = true) ∧ templateOf c i t

/-- The calls instruction `i`, run from `s0`, may make in state `s`. -/
def State.plans (s0 : State) (i : Instr) (s : State) : Call → Prop
  | .exec t tmo => tmo = s0.tmo.dflt ∧ emits s0.cfg i t
  | .tx bytes tmo => tmo = s0.tmo.dflt ∧
      ∃ u, s.opened u ∧ emits s0.cfg i u ∧ (u.desc s0.cfg).dataLen.toNat = bytes.length
  | .rx _ tmo => tmo = s0.tmo.dflt
  | .autoPoll _ p _ tmo =>
      (p = predReady s0.cfg ∧ tmo = readyTimeout s0 i) ∨ (p = predWel s0.cfg ∧ tmo = s0.tmo.dflt)
  | .pinBind | .busInit | .busReinit | .busRelease => True

/-- Inside a run of `i` from `s0`: the parameters and timeout registers are those of `s0`, the timeout of
POLL_READY stands in its latch, and `P` holds of the trace and the environment. -/
structure State.During (s0 : State) (i : Instr) (P : List Event → Env → Prop) (s : State) : Prop where
  /-- The parameters. -/
  cfg : s.cfg = s0.cfg
  /-- The timeout registers. -/
  tmo : s.tmo = s0.tmo
  /-- The operand of POLL_READY (40_status_poll_wren.md R134). -/
  timeout : ∀ a n, i = .pollReady a n → s.req.n = n
  /-- What is kept. -/
  hist : P s.trace s.env

/-- `P` is kept by every call the instruction may make, and by the release of the bus. -/
structure CallsKeep (s0 : State) (i : Instr) (P : List Event → Env → Prop) : Prop where
  /-- A call is made. -/
  call : ∀ {s c}, s0.During i P s → s0.plans i s c →
    P (s.trace ++ [⟨s.phase, c, s.answer c⟩]) (s.env.after s.cfg c)
  /-- The bus is released. -/
  logged : ∀ {s}, s0.During i P s → P (s.trace ++ [⟨s.phase, .busRelease, .ok []⟩]) s.env

/-- Started in `s`, the piece stays inside the run and ends with working registers as `W` says. -/
def Seq.KeepsFrom {α : Type} (s0 : State) (i : Instr) (P : List Event → Env → Prop) (W : Work → Prop)
    (m : Seq α) (s : State) : Prop :=
  m.Ensures s fun r t => s0.During i P t ∧ (r ≠ none → W t.work)

/-- Started inside the run with working registers as `W` says, the piece stays inside it and leaves them as
`W'` says. -/
def Seq.Stays {α : Type} (s0 : State) (i : Instr) (P : List Event → Env → Prop) (W W' : Work → Prop)
    (m : Seq α) : Prop :=
  ∀ s, s0.During i P s → W s.work → m.KeepsFrom s0 i P W' s

/-! ### The ways to build a piece -/

section Pieces

variable {s0 : State} {i : Instr} {P : List Event → Env → Prop} {W W' W'' : Work → Prop}
  {α β : Type}

theorem Seq.Stays.pure {x : α} (h : ∀ w, W w → W' w) : (Seq.pure x).Stays s0 i P W W' :=
  fun _ hs hw => ⟨hs, fun _ => h _ hw⟩

theorem Seq.Stays.done {x : α} : (Seq.pure x).Stays s0 i P W W := .pure fun _ => id

theorem Seq.Stays.look {k : State → Seq α}
    (hk : ∀ s, s0.During i P s → W s.work → (k s).Stays s0 i P W W') :
    (Seq.look k).Stays s0 i P W W' := fun s hs hw => hk s hs hw s hs hw

theorem Seq.Stays.update {f : State → State} {k : Seq α}
    (hf : ∀ s, s0.During i P s → W s.work → s0.During i P (f s) ∧ W' (f s).work)
    (hk : k.Stays s0 i P W' W'') : (Seq.update f k).Stays s0 i P W W'' :=
  fun s hs hw => hk _ (hf s hs hw).1 (hf s hs hw).2

theorem Seq.Stays.writeScratch {f : State → Scratch} {k : Seq α} (hk : k.Stays s0 i P W W') :
    (Seq.update (fun s => s.setScratch (f s)) k).Stays s0 i P W W' :=
  .update (fun _ hs hw => ⟨⟨hs.cfg, hs.tmo, hs.timeout, hs.hist⟩, hw⟩) hk

theorem Seq.Stays.writeInited {b : Bool} {k : Seq α} (hk : k.Stays s0 i P W W') :
    (Seq.update (fun s => s.setInited b) k).Stays s0 i P W W' :=
  .update (fun _ hs hw => ⟨⟨hs.cfg, hs.tmo, hs.timeout, hs.hist⟩, hw⟩) hk

theorem Seq.Stays.storeBuf {off : Nat} {bytes : List Byte} {k : Seq α} (hk : k.Stays s0 i P W W') :
    (Seq.update (fun s => s.storeBuf off bytes) k).Stays s0 i P W W' :=
  .update (fun _ hs hw => ⟨⟨hs.cfg, hs.tmo, hs.timeout, hs.hist⟩, hw⟩) hk

theorem Seq.Stays.writeWork {f : State → Work} {k : Seq α}
    (hf : ∀ s, s0.During i P s → W s.work → W' (f s)) (hk : k.Stays s0 i P W' W'') :
    (Seq.update (fun s => s.setWork (f s)) k).Stays s0 i P W W'' :=
  .update (fun s hs hw => ⟨⟨hs.cfg, hs.tmo, hs.timeout, hs.hist⟩, hf s hs hw⟩) hk

/-- One piece after another, from a state. -/
theorem Seq.KeepsFrom.andThen {m : Seq β} {k : β → Seq α} {s : State}
    (hm : m.KeepsFrom s0 i P W s) (hk : ∀ x, (k x).Stays s0 i P W W') :
    (m.andThen k).KeepsFrom s0 i P W' s := by
  refine (Seq.andThen_ensures _ _).2 (hm.imp fun r t ⟨ht, hwt⟩ => ?_)
  cases r with
  | none => exact ⟨ht, fun h => absurd rfl h⟩
  | some x => exact hk x t ht (hwt nofun)

theorem Seq.Stays.andThen {m : Seq β} {k : β → Seq α} (hm : m.Stays s0 i P W W')
    (hk : ∀ x, (k x).Stays s0 i P W' W'') : (m.andThen k).Stays s0 i P W W'' :=
  fun s hs hw => (hm s hs hw).andThen hk

theorem State.During.setPhase {s : State} (h : s0.During i P s) (v : List Label) :
    s0.During i P (s.setPhase v) := ⟨h.cfg, h.tmo, h.timeout, h.hist⟩

/-- A piece at a label, from a state. -/
theorem Seq.KeepsFrom.label {l : Label} {m : Seq α} {s : State}
    (hm : m.KeepsFrom s0 i P W (s.setPhase (s.phase ++ [l]))) :
    (Seq.label l m).KeepsFrom s0 i P W s := by
  refine (Seq.label_ensures _ _).2 (hm.imp fun r t ⟨ht, hwt⟩ => ?_)
  cases r with
  | none => exact ⟨ht, fun h => absurd rfl h⟩
  | some x => exact ⟨ht.setPhase _, fun _ => hwt nofun⟩

theorem Seq.Stays.label {l : Label} {m : Seq α} (hm : m.Stays s0 i P W W') :
    (Seq.label l m).Stays s0 i P W W' := fun _ hs hw => .label (hm _ (hs.setPhase _) hw)

theorem Seq.Stays.stuck {l : Label} : (Seq.stuck (α := α) l).Stays s0 i P W W' :=
  fun _ hs _ => ⟨hs.setPhase _, fun h => absurd rfl h⟩

theorem Seq.Stays.abort {c : Cause} {code : StatusCode} (h : ∀ w, W w → W' w) :
    (Seq.abort c code).Stays s0 i P W W' :=
  fun _ hs hw => ⟨⟨hs.cfg, hs.tmo, hs.timeout, hs.hist⟩, fun _ => h _ hw⟩

theorem Seq.Stays.fail {c : Cause} {code : StatusCode} : (Seq.abort c code).Stays s0 i P W W :=
  .abort fun _ => id

theorem Seq.Stays.ite {p : Prop} [Decidable p] {m k : Seq α} (hm : p → m.Stays s0 i P W W')
    (hk : ¬p → k.Stays s0 i P W W') : (if p then m else k).Stays s0 i P W W' := by
  split
  · exact hm ‹_›
  · exact hk ‹_›

/-- A step whose failure ends the piece, from a state. -/
theorem Seq.KeepsFrom.orAbort {m : Seq Answer} {c : Cause} {code : StatusCode}
    {k : List Byte → Seq StatusCode} {s : State} (h : ∀ w, W w → W' w) (hm : m.KeepsFrom s0 i P W s)
    (hk : ∀ b, (k b).Stays s0 i P W W') : (m.orAbort c code k).KeepsFrom s0 i P W' s := by
  refine hm.andThen fun r => ?_
  cases r with
  | ok b => exact hk b
  | fail => exact .abort h
  | never => exact .abort h

theorem Seq.Stays.orAbort {m : Seq Answer} {c : Cause} {code : StatusCode}
    {k : List Byte → Seq StatusCode} (hm : m.Stays s0 i P W W)
    (hk : ∀ b, (k b).Stays s0 i P W W) : (m.orAbort c code k).Stays s0 i P W W :=
  fun s hs hw => .orAbort (fun _ => id) (hm s hs hw) hk

/-- A subroutine whose failure ends the piece. -/
theorem Seq.Stays.orReturn_imp {m k : Seq StatusCode} {code : StatusCode} (h : ∀ w, W w → W' w)
    (hm : m.Stays s0 i P W W) (hk : k.Stays s0 i P W W') : (m.orReturn code k).Stays s0 i P W W' :=
  .andThen hm fun _ => .ite (fun _ => hk) fun _ => .pure h

theorem Seq.Stays.orReturn {m k : Seq StatusCode} {code : StatusCode} (hm : m.Stays s0 i P W W)
    (hk : k.Stays s0 i P W W) : (m.orReturn code k).Stays s0 i P W W :=
  .orReturn_imp (fun _ => id) hm hk

/-! ### The calls -/

variable (H : CallsKeep s0 i P)
include H

theorem CallsKeep.afterCall {s : State} {c : Call} (hs : s0.During i P s) (hc : s0.plans i s c) :
    s0.During i P (s.afterCall c) := ⟨hs.cfg, hs.tmo, hs.timeout, H.call hs hc⟩

/-- A planned call stays inside the run. -/
theorem CallsKeep.call_from {s : State} {c : Call} (hs : s0.During i P s) (hw : W s.work)
    (hc : s0.plans i s c) : (Machine.call c).KeepsFrom s0 i P W s :=
  call_ensures.2 ⟨H.afterCall hs hc, fun _ => hw⟩

theorem CallsKeep.event {c : Call} (hc : c.isExecutor = false) :
    (Machine.call c).Stays s0 i P W W := by
  refine fun s hs hw => H.call_from hs hw ?_
  cases c with
  | exec | tx | rx | autoPoll => cases hc
  | pinBind | busInit | busReinit | busRelease => trivial

theorem CallsKeep.exec {t : Txn} (ht : emits s0.cfg i t) : (execCall t).Stays s0 i P W W :=
  fun _ hs hw => execCall_ensures.2 (H.call_from hs hw ⟨by rw [hs.tmo], ht⟩)

theorem CallsKeep.cmd {t : Txn} (ht : emits s0.cfg i t) : (cmd t).Stays s0 i P W W := H.exec ht

theorem CallsKeep.rx (n : Word) : (rxCall n).Stays s0 i P W W :=
  fun _ hs hw => rxCall_ensures.2 (H.call_from hs hw (congrArg Timeouts.dflt hs.tmo))

theorem CallsKeep.pollWel : (pollCall predWel fun s => s.tmo.dflt).Stays s0 i P W W :=
  fun _ hs hw => pollCall_ensures.2
    (H.call_from hs hw (.inr ⟨by rw [hs.cfg], congrArg Timeouts.dflt hs.tmo⟩))

theorem CallsKeep.pollReady {tmo : State → Word}
    (hr : ∀ s, s0.During i P s → tmo s = readyTimeout s0 i) :
    (pollCall predReady tmo).Stays s0 i P W W :=
  fun s hs hw => pollCall_ensures.2 (H.call_from hs hw (.inl ⟨by rw [hs.cfg], hr s hs⟩))

theorem CallsKeep.release : busRelease.Stays s0 i P W W :=
  fun _ hs hw => busRelease_ensures.2 ⟨⟨hs.cfg, hs.tmo, hs.timeout, H.logged hs⟩, fun _ => hw⟩

theorem CallsKeep.tx {s : State} {u : Txn} {bytes : List Byte} {l : Label} (hs : s0.During i P s)
    (hw : W s.work) (hu : s.opened u) (hemit : emits s0.cfg i u)
    (hlen : (u.desc s0.cfg).dataLen.toNat = bytes.length) :
    (Seq.label l (txCall bytes)).KeepsFrom s0 i P W s :=
  .label <| txCall_ensures.2 <| H.call_from (hs.setPhase _) hw
    ⟨congrArg Timeouts.dflt hs.tmo, u, hu, hemit, hlen⟩

/-- `Exec`, then a piece that may send the bytes its template asks for. -/
theorem CallsKeep.exec_then {l : Label} {t : Txn} {k : Answer → Seq α} (ht : emits s0.cfg i t)
    (hok : ∀ b s, s0.During i P s → W s.work → s.opened t → (k (.ok b)).KeepsFrom s0 i P W' s)
    (hfail : (k .fail).Stays s0 i P W W') :
    ((Seq.label l (execCall t)).andThen k).Stays s0 i P W W' := by
  intro s hs hw
  have hpush := hs.setPhase (s.phase ++ [l])
  have hrun : s0.During i P ((s.setPhase (s.phase ++ [l])).afterCall (.exec t s.tmo.dflt)) :=
    H.afterCall hpush ⟨congrArg Timeouts.dflt hs.tmo, ht⟩
  refine (Seq.andThen_ensures _ _).2 ((Seq.label_ensures _ _).2 (execCall_ensures.2 ?_))
  refine call_cases (fun b hb => ?_) (fun _ => ?_) (fun _ => ⟨hrun, fun h => absurd rfl h⟩)
  · refine hok b _ (hrun.setPhase _) hw ⟨rfl, ?_⟩
    change (s.env.respond s.cfg (.exec t s.tmo.dflt)).1 = .ok b at hb
    simp [hb, Event.openTransfer]
  · exact hfail _ (hrun.setPhase _) hw

theorem CallsKeep.readReg {t : Txn} (n : Word) (ht : emits s0.cfg i t) :
    (readReg t n).Stays s0 i P W W := by
  refine .andThen (.label (H.exec ht)) fun r => ?_
  cases r with
  | ok b => exact .label (H.rx n)
  | fail => exact .done
  | never => exact .done

theorem CallsKeep.writeReg {t : Txn} {bytes : List Byte} (ht : emits s0.cfg i t)
    (hlen : (t.desc s0.cfg).dataLen.toNat = bytes.length) : (writeReg t bytes).Stays s0 i P W W :=
  H.exec_then ht (fun _ _ hs hw ho => H.tx hs hw ho ht hlen) .done

/-! ### The subroutines -/

theorem CallsKeep.doGetStatus : doGetStatus.Stays s0 i P W W := by
  refine .orAbort (.label (H.readReg _ ⟨fun _ _ => rfl, trivial⟩)) fun b => .look fun s _ _ => ?_
  split
  · exact .fail
  · exact .done
  · exact .orAbort (.label (H.readReg _ ⟨fun _ _ => rfl, trivial⟩)) fun b' =>
      .look fun _ _ _ => .done

theorem CallsKeep.doPollReady {tmo : State → Word}
    (hr : ∀ s, s0.During i P s → tmo s = readyTimeout s0 i) : (doPollReady tmo).Stays s0 i P W W :=
  .orAbort (.label (H.pollReady hr)) fun _ => .done

theorem CallsKeep.doWriteEnable : doWriteEnable.Stays s0 i P W W :=
  .orAbort (.label (H.cmd ⟨fun _ _ => rfl, trivial⟩)) fun _ =>
    .orAbort (.label H.pollWel) fun _ => .done

/-- The completion poll of the operations that wait with `TMO_DEFAULT` (20_memory.md R75). -/
theorem CallsKeep.doPollReady_dflt (hr : readyTimeout s0 i = s0.tmo.dflt) :
    (Machine.doPollReady fun s => s.tmo.dflt).Stays s0 i P W W :=
  H.doPollReady fun _ hs => (congrArg Timeouts.dflt hs.tmo).trans hr.symm

theorem CallsKeep.doResetChip (hr : readyTimeout s0 i = s0.tmo.dflt) :
    doResetChip.Stays s0 i P W W :=
  .orAbort (.label (H.cmd ⟨fun _ _ => rfl, trivial⟩)) fun _ =>
    .orAbort (.label (H.cmd ⟨fun _ _ => rfl, trivial⟩)) fun _ =>
      .andThen (.label (H.doPollReady_dflt hr)) fun _ => .ite (fun _ => .done) fun _ => .fail

theorem CallsKeep.doQuadMode (en : Bool) (hr : readyTimeout s0 i = s0.tmo.dflt) :
    (doQuadMode en).Stays s0 i P W W := by
  refine .orAbort (.label (H.readReg _ ⟨fun _ _ => rfl, trivial⟩)) fun b =>
    .writeScratch ?_
  refine .orReturn (.label H.doWriteEnable) (.look fun s _ _ => ?_)
  refine .orAbort (.label (H.writeReg ⟨fun _ _ => rfl, trivial⟩ rfl)) fun _ => ?_
  refine .orReturn (.label (H.doPollReady_dflt hr)) ?_
  refine .orAbort (.label (H.readReg _ ⟨fun _ _ => rfl, trivial⟩)) fun v =>
    .writeScratch ?_
  exact .look fun t _ _ => .ite (fun _ => .done) fun _ => .fail

theorem CallsKeep.hpWriteBack (en : Bool) (hr : readyTimeout s0 i = s0.tmo.dflt) :
    (hpWriteBack en).Stays s0 i P W W := by
  refine .orReturn (.label H.doWriteEnable) (.look fun s _ _ => ?_)
  refine .orAbort (.label (H.writeReg ⟨fun _ _ => rfl, trivial⟩ rfl)) fun _ => ?_
  refine .orReturn (.label (H.doPollReady_dflt hr)) ?_
  refine .orAbort (.label (H.readReg _ ⟨fun _ _ => rfl, trivial⟩)) fun v =>
    .writeScratch ?_
  refine .look fun t _ _ => .ite (fun _ => ?_) fun _ => .fail
  exact .orAbort (.label (H.event rfl)) fun _ => .orAbort (.label (H.event rfl)) fun _ => .done

theorem CallsKeep.doHpMode (en : Bool) (hr : readyTimeout s0 i = s0.tmo.dflt) :
    (doHpMode en).Stays s0 i P W W :=
  .orAbort (.label (H.readReg _ ⟨fun _ _ => rfl, trivial⟩)) fun _ =>
    .writeScratch <|
      .orAbort (.label (H.readReg _ ⟨fun _ _ => rfl, trivial⟩)) fun _ =>
        .writeScratch <| H.hpWriteBack en hr

theorem CallsKeep.doInit (hr : readyTimeout s0 i = s0.tmo.dflt) : doInit.Stays s0 i P W W :=
  .writeInited <|
    .orAbort (.label (H.event rfl)) fun _ => .orAbort (.label (H.event rfl)) fun _ =>
      .orReturn (.label (H.doResetChip hr)) <| .orReturn (.label (H.doQuadMode true hr)) <|
        .orReturn (.label (H.doHpMode true hr)) <|
          .writeInited .done

/-- The working registers of which nothing is asked. -/
def anyWork (_ : Work) : Prop := True

theorem CallsKeep.changeEraseState {l0 l2 l3 : Label} {source target : StatusCode} {t : Txn}
    (ht : emits s0.cfg i t) :
    (changeEraseState l0 l2 l3 source target t).Stays s0 i P anyWork anyWork := by
  refine .andThen (.label H.doGetStatus) fun st =>
    .writeWork (W' := anyWork) (fun _ _ _ => trivial) (.ite (fun _ => ?_) fun _ => .done)
  refine .orAbort (.label (H.cmd ht)) fun _ => .andThen (.label H.doGetStatus) fun st' => ?_
  exact .writeWork (W' := anyWork) (fun _ _ _ => trivial) (.ite (fun _ => .done) fun _ => .fail)

theorem CallsKeep.eraseBody {l0 l1 l2 : Label} {t : Txn} {tmo : State → Word}
    (ht : emits s0.cfg i t) (hr : ∀ s, s0.During i P s → tmo s = readyTimeout s0 i) :
    ((Seq.label l0 Machine.doWriteEnable).orReturn .error <|
      (Seq.label l1 (Machine.cmd t)).orAbort .bus .error fun _ =>
        (Seq.label l2 (Machine.doPollReady tmo)).orReturn .error (Seq.pure .ok)).Stays s0 i P W W :=
  .orReturn (.label H.doWriteEnable) <| .orAbort (.label (H.cmd ht)) fun _ =>
    .orReturn (.label (H.doPollReady hr)) .done

theorem CallsKeep.powerBody {l : Label} {t : Txn} (ht : emits s0.cfg i t) :
    ((Seq.label l (Machine.cmd t)).orAbort .bus .error fun _ => Seq.pure .ok).Stays s0 i P W W :=
  .orAbort (.label (H.cmd ht)) fun _ => .done

/-! ### The chunks of WRITE -/

/-- The chunk lies inside one page, and is the last one or fills the page (41_program.md R152). -/
def Work.inPage (c : Config) (w : Work) : Prop :=
  w.cur.toNat % c.pageSize + w.chunk.toNat ≤ c.pageSize ∧
    (w.chunk.toNat = w.left ∨ (w.cur.toNat + w.chunk.toNat) % c.pageSize = 0)

omit H in
/-- Step X0 gives a chunk inside one page. -/
theorem Work.startWrite_inPage {c : Config} (hc : c.wf = true) (w : Work) (a n : Word) :
    (w.startWrite c a n).inPage c := by
  obtain ⟨hleft, -⟩ := Work.startWrite_fits hc w a n
  have hchunk : (w.startWrite c a n).chunk.toNat = min (c.pageSize - a.toNat % c.pageSize) n.toNat :=
    firstChunk_toNat hc a n
  have hmod := Nat.mod_lt a.toNat (Config.pageSize_pos hc)
  unfold Work.inPage
  rw [hleft, hchunk]
  refine ⟨by change a.toNat % _ + _ ≤ _; omega, ?_⟩
  rcases Nat.le_total n.toNat (c.pageSize - a.toNat % c.pageSize) with h | h
  · exact .inl (Nat.min_eq_right h)
  · refine .inr ?_
    have hfill : a.toNat + (c.pageSize - a.toNat % c.pageSize) =
        c.pageSize * (a.toNat / c.pageSize + 1) := by
      have := Nat.div_add_mod a.toNat c.pageSize
      rw [Nat.mul_add]
      omega
    change (a.toNat + _) % _ = 0
    rw [Nat.min_eq_left h, hfill, Nat.mul_mod_right]

omit H in
/-- Step X5 gives a chunk inside one page, as long as bytes are left. -/
theorem Work.advance_inPage {c : Config} {w : Work} (hc : c.wf = true) (h : w.inPage c)
    (hne : (w.advance c).cur ≠ (w.advance c).endAddr) : (w.advance c).inPage c := by
  have hchunk : (w.advance c).chunk.toNat = min c.pageSize (w.advance c).left := nextChunk_toNat hc _ _
  have hcur : (w.advance c).cur.toNat = (w.cur.toNat + w.chunk.toNat) % 2 ^ 32 := BitVec.toNat_add _ _
  have haligned : (w.advance c).cur.toNat % c.pageSize = 0 := by
    rcases h.2 with hlast | hfull
    · refine absurd ?_ hne
      change w.cur + w.chunk = w.endAddr
      rw [BitVec.eq_of_toNat_eq hlast]
      bv_omega
    · rw [hcur, Nat.mod_mod_of_dvd _ (Config.pageSize_dvd hc), hfull]
  unfold Work.inPage
  rw [haligned, hchunk]
  refine ⟨by omega, ?_⟩
  rcases Nat.le_total (w.advance c).left c.pageSize with hle | hle
  · exact .inl (Nat.min_eq_right hle)
  · refine .inr ?_
    rw [Nat.min_eq_left hle, Nat.add_mod_right, haligned]

/-- One visit of the loop sends the bytes of the chunk its registers name. -/
theorem CallsKeep.writeChunk {w : Work} {k : Seq StatusCode}
    (hr : readyTimeout s0 i = s0.tmo.program) (ht : emits s0.cfg i (.pp4 w.cur w.chunk))
    (hk : k.Stays s0 i P (· = w) anyWork) : (writeChunk k).Stays s0 i P (· = w) anyWork := by
  refine .orReturn_imp (fun _ _ => trivial) (.label H.doWriteEnable) (.look fun s _ hw => ?_)
  rw [hw]
  refine H.exec_then ht (fun _ t hs htw ho => ?_) (.abort fun _ _ => trivial)
  have hlen : ((Txn.pp4 w.cur w.chunk).desc s0.cfg).dataLen.toNat =
      (t.bufRead t.work.ptr.toNat t.work.chunk.toNat).length := by
    simp [htw, State.bufRead, Txn.desc]
  refine (Seq.look_ensures _).2 <|
    Seq.KeepsFrom.orAbort (fun _ _ => trivial) (H.tx (W := (· = w)) hs htw ho ht hlen) fun _ => ?_
  exact .orReturn_imp (fun _ _ => trivial)
    (.label (H.doPollReady fun _ hs => (congrArg Timeouts.program hs.tmo).trans hr.symm)) hk

/-- The loop: every chunk lies inside its page. -/
theorem CallsKeep.writeLoop {a n : Word} (hi : i = .write a n) (fuel : Nat) {w : Work}
    (hw : s0.cfg.wf = true → w.inPage s0.cfg) :
    (writeLoop fuel).Stays s0 i P (· = w) anyWork := by
  induction fuel generalizing w with
  | zero => exact .stuck
  | succ fuel ih =>
    have hemit : emits s0.cfg i (.pp4 w.cur w.chunk) :=
      ⟨fun _ hc => decide_eq_true (hw hc).1, .inl ⟨a, n, hi⟩⟩
    refine H.writeChunk (by rw [hi]; rfl) hemit (.writeWork (W' := (· = w.advance s0.cfg)) ?_ ?_)
    · exact fun s hs hsw => by rw [← hs.cfg, ← hsw]
    · refine .look fun s _ hsw => .ite (fun _ => .pure fun _ _ => trivial) fun hne => ih fun hc => ?_
      rw [hsw] at hne
      exact Work.advance_inPage hc (hw hc) hne

theorem CallsKeep.doWrite {a n : Word} (hi : i = .write a n) :
    (doWrite a n).Stays s0 i P anyWork anyWork := by
  intro s hs hw
  have hloop := H.writeLoop hi (n.toNat + 1) (w := s.work.startWrite s0.cfg a n)
    fun hc => Work.startWrite_inPage hc _ _ _
  exact hloop _ ⟨hs.cfg, hs.tmo, hs.timeout, hs.hist⟩ (by rw [← hs.cfg]; rfl)

end Pieces

/-! ### The instructions -/

/-- What an allowed configuration says of the sectors (00_scope.md R8). -/
theorem Config.sectors {c : Config} (h : c.wf = true) :
    c.flashSize = c.sectorCount * c.sectorSize ∧ c.flashSize ≤ 2 ^ 32 ∧ 0 < c.sectorSize := by
  simp only [Config.wf, Config.geometryOk, Bool.and_eq_true, beq_iff_eq, decide_eq_true_eq] at h
  obtain ⟨⟨⟨⟨⟨⟨⟨⟨⟨⟨hsize, -⟩, haddr⟩, hsec⟩, -⟩, -⟩, -⟩, -⟩, hbits⟩, -⟩, -⟩ := h
  exact ⟨hsize, haddr.trans (Nat.pow_le_pow_right (by decide) hbits), hsec⟩

/-- The address of an existing sector does not wrap (30_encoding.md R99). -/
theorem sectorAddr_toNat {c : Config} {a : Word} (hc : c.wf = true) (h : sectorExists c a = true) :
    (sectorAddr c a).toNat = a.toNat * c.sectorSize ∧ a.toNat * c.sectorSize < c.flashSize := by
  obtain ⟨hsize, hmax, hpos⟩ := Config.sectors hc
  have hlt : a.toNat * c.sectorSize < c.flashSize := by
    rw [hsize]
    exact Nat.mul_lt_mul_of_pos_right (of_decide_eq_true h) hpos
  refine ⟨?_, hlt⟩
  rw [sectorAddr, BitVec.toNat_mul, BitVec.toNat_ofNat, Nat.mul_mod_mod]
  exact Nat.mod_eq_of_lt (hlt.trans_le hmax)

/-- The erase of an existing sector is well formed. -/
theorem emits_sector {c : Config} {a n : Word} (h : sectorExists c a = true) :
    emits c (.eraseSector a n) (.se (sectorAddr c a)) := by
  refine ⟨fun _ hc => ?_, .inl ⟨a, n, rfl, rfl⟩⟩
  obtain ⟨haddr, hlt⟩ := sectorAddr_toNat hc h
  simp [Txn.wf, haddr, hlt]

section Instructions

variable {s0 : State} {i : Instr} {P : List Event → Env → Prop}

/-- Every operation makes only the calls it may make. -/
theorem CallsKeep.opBody (H : CallsKeep s0 i P) (hi : i.txn? = none) :
    (opBody i).Stays s0 i P anyWork anyWork := by
  cases i with
  | getStatus => exact .label H.doGetStatus
  | pollReady a n => exact .label (H.doPollReady fun s hs => hs.timeout a n rfl)
  | writeEnable => exact .label H.doWriteEnable
  | write => exact H.doWrite rfl
  | quadMode => exact .label (H.doQuadMode _ rfl)
  | hpMode => exact .label (H.doHpMode _ rfl)
  | eraseBlock a n =>
    exact H.eraseBody ⟨fun _ _ => rfl, .inl ⟨n, rfl⟩⟩ fun _ hs => congrArg Timeouts.blockErase hs.tmo
  | eraseSector a n =>
    unfold Machine.opBody
    refine .look fun s hs _ => .ite (fun he => ?_) fun _ => .fail
    rw [hs.cfg] at he ⊢
    exact .orReturn (.label H.doWriteEnable) (H.powerBody (emits_sector he))
  | eraseChip a n =>
    exact H.eraseBody ⟨fun _ _ => rfl, .inl ⟨a, n, rfl⟩⟩ fun _ hs => congrArg Timeouts.chipErase hs.tmo
  | suspendErase => exact H.changeEraseState ⟨fun _ _ => rfl, trivial⟩
  | resumeErase => exact H.changeEraseState ⟨fun _ _ => rfl, trivial⟩
  | sleep => exact H.powerBody ⟨fun _ _ => rfl, trivial⟩
  | wakeup => exact H.powerBody ⟨fun _ _ => rfl, trivial⟩
  | read a n =>
    refine .orAbort (.label (H.exec ⟨fun _ _ => rfl, trivial⟩)) fun _ =>
      .orAbort (.label (H.rx n)) fun b => ?_
    exact .storeBuf .done
  | init => exact H.doInit rfl
  | deinit =>
    unfold Machine.opBody
    refine .writeInited ?_
    exact .orReturn (.label (H.doResetChip rfl)) (.andThen (.label H.release) fun _ => .done)
  | getGeometry => exact .done
  | resetChip => exact .label (H.doResetChip rfl)
  | tRdsr | tRdscur | tRdcr | tWren | tWrsr | tPp4 | tSe | tBe | tCe | tSusp | tResm | tDp | tWake
  | tRsten | tQread | tRst => cases hi

/-- What a lone transaction runs at the executor (20_memory.md R77 to R79; log 18). -/
def State.txnPiece (s : State) : Txn → Seq Answer
  | .rdsr => readReg .rdsr 1
  | .rdscur => readReg .rdscur 1
  | .rdcr => readReg .rdcr 2
  | .qread a n => readReg (.qread a n) n
  | .wrsr n => writeReg (.wrsr n) (imageBytes n s)
  | .pp4 a n => writeReg (.pp4 a n) (s.bufRead s.work.ptr.toNat n.toNat)
  | u => Seq.label .a (cmd u)

/-- A template runs its transaction. -/
theorem exec_txn {u : Txn} {s : State} (hu : i.txn? = some u) (hb : bufInRange s i = true) :
    exec i s = .next (s.txnPiece u s).2 := by
  cases i <;> cases hu
  case tPp4 => exact if_pos hb
  all_goals rfl

/-- A lone transaction emits its own template. -/
theorem emits_of_txn {c : Config} {u : Txn} (hu : i.txn? = some u) : emits c i u := by
  refine ⟨fun hi => by simp [hu] at hi, ?_⟩
  cases i <;> cases hu
  case tPp4 | tSe | tBe | tCe => exact .inr rfl
  all_goals trivial

/-- A lone transaction makes only the calls it may make. -/
theorem CallsKeep.txnPiece {u : Txn} (H : CallsKeep s0 i P) (hu : i.txn? = some u) :
    (s0.txnPiece u).Stays s0 i P anyWork anyWork := by
  have he : emits s0.cfg i u := emits_of_txn hu
  cases u with
  | rdsr | rdscur | rdcr | qread => exact H.readReg _ he
  | wrsr n => exact H.writeReg he (fitBytes_length _ _ _).symm
  | pp4 a n => exact H.writeReg he Memory.length_readBytes.symm
  | wren | se | be | ce | susp | resm | dp | wake | rsten | rst => exact .label (H.cmd he)

variable {s t : State}

/-- What the calls of an operation keep, the operation keeps from its acceptance on. -/
theorem exec_operation_keeps (H : CallsKeep s i P) (hi : i.txn? = none) (h0 : P [] s.env)
    (h : exec i s = .next t) : P t.trace t.env := by
  obtain ⟨op, a, n, hop⟩ := opreq_of_no_txn hi
  rw [exec_eq_runOp hop (bufInRange_of_exec h), runOp_next] at h
  have htimeout : ∀ a' n', i = .pollReady a' n' → n = n' := by
    rintro a' n' rfl
    cases hop
    rfl
  have hstart : s.During i P (s.accept op a n) := ⟨rfl, rfl, htimeout, h0⟩
  obtain ⟨hend, -⟩ := H.opBody hi _ hstart trivial
  rw [← h]
  generalize Machine.opBody i (s.accept op a n) = run at hend
  rcases run with ⟨_ | code, u⟩
  · exact hend.hist
  · exact hend.hist

/-- What the calls of a lone transaction keep, the transaction keeps. -/
theorem exec_txn_keeps (H : CallsKeep s i P) (hi : i.txn? ≠ none) (h0 : P s.trace s.env)
    (h : exec i s = .next t) : P t.trace t.env := by
  obtain ⟨u, hu⟩ := Option.ne_none_iff_exists'.1 hi
  rw [exec_txn hu (bufInRange_of_exec h)] at h
  obtain rfl := Host.Outcome.next.inj h
  have hstart : s.During i P s := ⟨rfl, rfl, by rintro a n rfl; exact absurd rfl hi, h0⟩
  obtain ⟨hend, -⟩ := H.txnPiece hu _ hstart trivial
  exact hend.hist

/-! ### What holds of every call -/

/-- What holds of every call an instruction may make holds of every line of its trace. -/
theorem callsKeep_all {p : Event → Bool}
    (hp : ∀ (s : State) c site r, s0.plans i s c → p ⟨site, c, r⟩ = true) :
    CallsKeep s0 i fun es _ => es.all p = true where
  call hs hc := by simpa [hs.hist] using hp _ _ _ _ hc
  logged {s} hs := by simpa [hs.hist] using hp s .busRelease _ _ trivial

end Instructions

/-- Settles O39: every template an operation emits is well formed; for the chunks of WRITE this is the
invariant `Work.inPage` of its loop. -/
theorem emittedDescriptorsAreWellFormed : Obligations.EmittedDescriptorsAreWellFormed := by
  intro i s t hi hc _ h
  refine exec_operation_keeps (callsKeep_all fun u c site r hplan => ?_) hi rfl h
  cases c with
  | exec x tmo =>
    obtain ⟨-, hwf, -⟩ := hplan
    exact hwf hi hc
  | tx | rx | autoPoll | pinBind | busInit | busReinit | busRelease => rfl

/-- A mask of one bit is not zero. -/
theorem isOneBit_ne_zero {m : Byte} (h : isOneBit m = true) : m ≠ 0 := by
  rintro rfl
  revert h
  decide

/-- The two predicates of `AutoPoll` differ under an allowed configuration: WEL is a bit (20_memory.md R74). -/
theorem predWel_ne_predReady {c : Config} (h : c.wf = true) : predWel c ≠ predReady c := by
  have hwel : isOneBit c.mWel = true := by
    simp only [Config.wf, Config.masksOk, Bool.and_eq_true] at h
    exact List.all_eq_true.1 h.2.1 _ (by simp [Config.masks])
  intro heq
  exact isOneBit_ne_zero hwel (congrArg Pred.want heq)

/-- Settles O45: the timeout is part of what an operation may call, and the poll for WEL is told from the
completion poll by its predicate. -/
theorem timeoutClassOfEveryCall : Obligations.TimeoutClassOfEveryCall := by
  intro i s t hi hc _ h
  refine exec_operation_keeps (callsKeep_all fun u c site r hplan => ?_) hi rfl h
  cases c with
  | exec x tmo =>
    obtain ⟨htmo, -⟩ := hplan
    exact beq_iff_eq.2 htmo
  | tx bytes tmo =>
    obtain ⟨htmo, -⟩ := hplan
    exact beq_iff_eq.2 htmo
  | rx n tmo => exact beq_iff_eq.2 hplan
  | autoPoll x p k tmo =>
    rcases hplan with ⟨rfl, rfl⟩ | ⟨rfl, rfl⟩
    · simp
    · simp [predWel_ne_predReady hc]
  | pinBind | busInit | busReinit | busRelease => rfl

end Sys2Proof.Machine
end

