-- ==== Sys2Proof/Proofs/Flash.lean ====
section
/-!
The array of the reference chip and the environment around it: which bytes a command reaches, that every call
leaves the others (20_memory.md R61, R80), and what no call changes of the environment (R70, R86).
-/

namespace Sys2Proof.Machine

/-! ### The bytes a command reaches -/

/-- The bytes of the array the command of a template reaches: those its address and length name, the sector
or block of its address, or all. -/
def templateReaches (c : Config) (x : Nat) : Txn → Prop
  | .pp4 a n => ∃ j < n.toNat, x = flashByteAddr c a j
  | .se a =>
    flashAddr c a / c.sectorSize * c.sectorSize ≤ x ∧
      x < flashAddr c a / c.sectorSize * c.sectorSize + c.sectorSize
  | .be a =>
    flashAddr c a / c.blockSize * c.blockSize ≤ x ∧
      x < flashAddr c a / c.blockSize * c.blockSize + c.blockSize
  | .ce => True
  | .rdsr | .rdscur | .rdcr | .wren | .wrsr _ | .susp | .resm | .dp | .wake | .rsten | .qread _ _
  | .rst => False

section Chip

variable {k : Chip} {c : Config} {x : Nat}

/-- `T_SE`, `T_BE` and `T_CE` (30_encoding.md R107 to R109). -/
def isErase : Txn → Bool
  | .se _ | .be _ | .ce => true
  | .rdsr | .rdscur | .rdcr | .wren | .wrsr _ | .pp4 _ _ | .susp | .resm | .dp | .wake | .rsten
  | .qread _ _ | .rst => false

/-- The array an accepted erase leaves. -/
def erasedMem (c : Config) (m : Memory) : Txn → Memory
  | .se a => m.clearRange (flashAddr c a / c.sectorSize * c.sectorSize) c.sectorSize
  | .be a => m.clearRange (flashAddr c a / c.blockSize * c.blockSize) c.blockSize
  | _ => []

/-- A sleeping chip ignores all but `T_WAKE` (20_memory.md R80). -/
theorem Chip.exec_asleep {t : Txn} (hd : k.dpd = true) (ht : t ≠ .wake) : k.exec c t = k := by
  unfold Chip.exec
  rw [if_pos hd]
  cases t with
  | wake => exact absurd rfl ht
  | _ => rfl

/-- An awake chip that accepts an erase clears its unit and starts a cycle; otherwise it ignores it. -/
theorem Chip.exec_erase {t : Txn} (ht : isErase t = true) (hd : k.dpd = false) :
    k.exec c t =
      if k.accepts c then { k with mem := erasedMem c k.mem t }.startCycle c .erase else k := by
  unfold Chip.exec
  rw [if_neg (by simp [hd])]
  cases t with
  | se | be | ce => rfl
  | rdsr | rdscur | rdcr | wren | wrsr | pp4 | susp | resm | dp | wake | rsten | qread | rst => cases ht

/-- An erase sets the bytes it reaches to 0xFF. -/
theorem erasedMem_read {t : Txn} {m : Memory} (ht : isErase t = true)
    (hm : Memory.wf flashBackground m = true) (hx : templateReaches c x t) :
    Memory.read flashBackground (erasedMem c m t) x = flashBackground := by
  cases t with
  | se a => exact (Memory.read_clearRange (Memory.wf_rising hm)).trans (if_pos hx)
  | be a => exact (Memory.read_clearRange (Memory.wf_rising hm)).trans (if_pos hx)
  | ce => rfl
  | rdsr | rdscur | rdcr | wren | wrsr | pp4 | susp | resm | dp | wake | rsten | qread | rst => cases ht

/-- An erase leaves the bytes it does not reach. -/
theorem erasedMem_read_of_not {t : Txn} {m : Memory} (ht : isErase t = true)
    (hm : Memory.wf flashBackground m = true) (hx : ¬templateReaches c x t) :
    Memory.read flashBackground (erasedMem c m t) x = Memory.read flashBackground m x := by
  cases t with
  | se a => exact (Memory.read_clearRange (Memory.wf_rising hm)).trans (if_neg hx)
  | be a => exact (Memory.read_clearRange (Memory.wf_rising hm)).trans (if_neg hx)
  | ce => exact absurd trivial hx
  | rdsr | rdscur | rdcr | wren | wrsr | pp4 | susp | resm | dp | wake | rsten | qread | rst => cases ht

/-- `Exec` of a template that is no erase leaves the array. -/
theorem Chip.exec_mem_of_not_erase {t : Txn} (ht : isErase t = false) : (k.exec c t).mem = k.mem := by
  cases t with
  | se | be | ce => cases ht
  | rdsr | rdscur | rdcr | wren | wrsr | pp4 | susp | resm | dp | wake | rsten | qread | rst =>
    simp only [Chip.exec]
    repeat' split
    all_goals rfl

/-- `Exec` of a template leaves every byte its command does not reach. -/
theorem Chip.exec_read {t : Txn} (hm : Memory.wf flashBackground k.mem = true)
    (hx : ¬templateReaches c x t) :
    Memory.read flashBackground (k.exec c t).mem x = Memory.read flashBackground k.mem x := by
  cases ht : isErase t with
  | false => rw [Chip.exec_mem_of_not_erase ht]
  | true =>
    cases hd : k.dpd with
    | true => rw [Chip.exec_asleep hd (by rintro rfl; cases ht)]
    | false =>
      rw [Chip.exec_erase ht hd]
      split
      · exact erasedMem_read_of_not ht hm hx
      · rfl

/-- Programming leaves every byte it is not sent to. -/
theorem programFrom_read_of_ne {a : Word} {i : Nat} {m : Memory} {bs : List Byte}
    (hm : Memory.wf flashBackground m = true)
    (hx : ∀ j, i ≤ j → j < i + bs.length → x ≠ flashByteAddr c a j) :
    Memory.read flashBackground (programFrom c a i m bs) x = Memory.read flashBackground m x := by
  induction bs generalizing i m with
  | nil => rfl
  | cons v vs ih =>
    have hne : x ≠ flashByteAddr c a i := hx i le_rfl (by simp)
    unfold programFrom
    rw [ih (Memory.wf_write hm) fun j hj hlt => hx j (by omega) (by simp; omega),
      Memory.read_write hm, if_neg hne.symm]

/-- A data phase leaves every byte the command of its template does not reach. -/
theorem Chip.transmit_read {u : Txn} {bs : List Byte} (hm : Memory.wf flashBackground k.mem = true)
    (hlen : bs.length ≤ (u.desc c).dataLen.toNat) (hx : ¬templateReaches c x u) :
    Memory.read flashBackground (k.transmit c (some u) bs).mem x =
      Memory.read flashBackground k.mem x := by
  unfold Chip.transmit
  split
  · rfl
  · cases u with
    | wrsr n => exact congrArg (Memory.read flashBackground · x) (Chip.writeRegs_mem bs)
    | pp4 a n =>
      refine programFrom_read_of_ne hm fun j _ hj he => hx ⟨j, ?_, he⟩
      exact (by simpa using hj : j < bs.length).trans_le hlen
    | _ => rfl

theorem programFrom_wf {a : Word} {i : Nat} {m : Memory} {bs : List Byte}
    (hm : Memory.wf flashBackground m = true) :
    Memory.wf flashBackground (programFrom c a i m bs) = true := by
  induction bs generalizing i m with
  | nil => exact hm
  | cons v vs ih => exact ih (Memory.wf_write hm)

theorem Chip.exec_wf {t : Txn} (hm : Memory.wf flashBackground k.mem = true) :
    Memory.wf flashBackground (k.exec c t).mem = true := by
  rcases Chip.exec_mem (k := k) (c := c) t with h | h | ⟨lo, n, h⟩ <;> rw [h]
  · exact hm
  · rfl
  · exact Memory.wf_clearRange hm

theorem Chip.transmit_wf {t : Option Txn} {bs : List Byte}
    (hm : Memory.wf flashBackground k.mem = true) :
    Memory.wf flashBackground (k.transmit c t bs).mem = true := by
  rcases Chip.transmit_mem (k := k) (c := c) t bs with h | ⟨a, h⟩ <;> rw [h]
  · exact hm
  · exact programFrom_wf hm

end Chip

/-! ### One call and the array -/

/-- Everything a call can do to the array: nothing; an `Exec` its command; a `Tx` the data phase of the last
`Exec` with its bytes, or with the first of them (log 10). -/
theorem Env.respond_mem_cases (e : Env) (cfg : Config) (c : Call) :
    (e.respond cfg c).2.mem = e.chip.mem ∨
      (∃ t tmo, c = .exec t tmo ∧ (e.respond cfg c).2.mem = ((e.chipNow cfg).exec cfg t).mem) ∨
      ∃ bytes tmo k, c = .tx bytes tmo ∧
        (e.respond cfg c).2.mem = ((e.chipNow cfg).transmit cfg e.lastExec (bytes.take k)).mem := by
  unfold Env.respond
  split
  · exact .inl (e.chipNow_mem cfg)
  · exact .inl (e.chipNow_mem cfg)
  · exact .inl (e.chipNow_mem cfg)
  · unfold chipAfterFail
    split
    · rename_i bytes tmo
      split
      · exact .inl (e.chipNow_mem cfg)
      · exact .inr (.inr ⟨bytes, tmo, _, rfl, rfl⟩)
    all_goals exact .inl (e.chipNow_mem cfg)
  · exact .inl (e.chipNow_mem cfg)
  · cases c with
    | exec t tmo => exact .inr (.inl ⟨t, tmo, rfl, rfl⟩)
    | tx bytes tmo =>
      refine .inr (.inr ⟨bytes, tmo, bytes.length, rfl, ?_⟩)
      rw [List.take_length]
      rfl
    | autoPoll t p k tmo => exact .inl ((Chip.poll_mem p).trans (e.chipNow_mem cfg))
    | rx | pinBind | busInit | busReinit | busRelease => exact .inl (e.chipNow_mem cfg)

/-- A call keeps the array's canonical form. -/
theorem Env.respond_wf {e : Env} {cfg : Config} (c : Call)
    (hm : Memory.wf flashBackground e.chip.mem = true) :
    Memory.wf flashBackground (e.respond cfg c).2.mem = true := by
  have hnow : Memory.wf flashBackground (e.chipNow cfg).mem = true := by rwa [e.chipNow_mem]
  rcases e.respond_mem_cases cfg c with h | ⟨t, tmo, -, h⟩ | ⟨bytes, tmo, k, -, h⟩ <;> rw [h]
  · exact hm
  · exact Chip.exec_wf hnow
  · exact Chip.transmit_wf hnow

/-- A planned call leaves every byte that no template it stands for reaches. -/
theorem State.plans_read {s0 s : State} {i : Instr} {c : Call} {x : Nat} (hc : s0.plans i s c)
    (hcfg : s.cfg = s0.cfg) (hm : Memory.wf flashBackground s.env.chip.mem = true)
    (hx : ∀ u, emits s0.cfg i u → s.opened u ∨ (∃ tmo, c = .exec u tmo) →
      ¬templateReaches s0.cfg x u) :
    Memory.read flashBackground (s.env.respond s.cfg c).2.mem x = s.flashByte x := by
  have hnow : Memory.wf flashBackground (s.env.chipNow s.cfg).mem = true := by rwa [Env.chipNow_mem]
  have hread : Memory.read flashBackground (s.env.chipNow s.cfg).mem x = s.flashByte x := by
    rw [Env.chipNow_mem, State.flashByte]
  rcases s.env.respond_mem_cases s.cfg c with h | ⟨t, tmo, rfl, h⟩ | ⟨bytes, tmo, k, rfl, h⟩ <;> rw [h]
  · rfl
  · obtain ⟨-, hemit⟩ := hc
    rw [Chip.exec_read hnow (hcfg ▸ hx t hemit (.inr ⟨tmo, rfl⟩)), hread]
  · obtain ⟨-, u, hopen, hemit, hlen⟩ := hc
    have htake : (bytes.take k).length ≤ (u.desc s.cfg).dataLen.toNat := by
      rw [hcfg, hlen]
      exact List.length_take_le' k bytes
    rw [hopen.1, Chip.transmit_read hnow htake (hcfg ▸ hx u hemit (.inl hopen)), hread]

/-! ### The bytes an instruction may touch -/

theorem mayTouchFlash_append {c : Config} {es : List Event} {i : Instr} {x : Nat} (e : Event)
    (h : mayTouchFlash c es i x) : mayTouchFlash c (es ++ [e]) i x := by
  cases i with
  | write a n =>
    obtain ⟨p, hp, hj⟩ := h
    exact ⟨p, by simp only [programCommands, List.filterMap_append]; exact List.mem_append_left _ hp, hj⟩
  | _ => exact h

/-- An instruction may touch what a template it emitted reaches. -/
theorem mayTouchFlash_of_emitted {c : Config} {es : List Event} {i : Instr} {x : Nat} {u : Txn}
    (hemit : emits c i u) (he : ∃ e ∈ es, ∃ tmo, e.call = .exec u tmo) (hx : templateReaches c x u) :
    mayTouchFlash c es i x := by
  obtain ⟨-, hof⟩ := hemit
  cases u with
  | pp4 a n =>
    rcases hof with ⟨a', n', rfl⟩ | rfl
    · obtain ⟨e, hes, tmo, hcall⟩ := he
      exact ⟨(a, n), List.mem_filterMap.2 ⟨e, hes, by rw [hcall]; rfl⟩, hx⟩
    · exact hx
  | se a =>
    rcases hof with ⟨k, n, rfl, rfl⟩ | rfl
    · exact hx
    · exact hx
  | be a =>
    rcases hof with ⟨n, rfl⟩ | rfl
    · exact hx
    · exact hx
  | ce =>
    rcases hof with ⟨a, n, rfl⟩ | rfl
    · exact hx
    · exact hx
  | rdsr | rdscur | rdcr | wren | wrsr | susp | resm | dp | wake | rsten | qread | rst => exact hx.elim

/-- The template that is open was emitted by the last line of the trace. -/
theorem State.opened_emitted {s : State} {u : Txn} (h : s.opened u) :
    ∃ e ∈ s.trace, ∃ tmo, e.call = .exec u tmo := by
  obtain ⟨-, hlast⟩ := h
  obtain ⟨e, he, hopen⟩ := Option.bind_eq_some_iff.1 hlast
  refine ⟨e, List.mem_of_getLast? he, ?_⟩
  unfold Event.openTransfer at hopen
  split at hopen
  · rename_i t tmo bytes hcall _
    exact ⟨tmo, by rw [hcall, Option.some.inj hopen]⟩
  · cases hopen

/-- Byte `x` of the array is `v`, or the instruction may touch it; the array is in canonical form. -/
def byteKept (c : Config) (i : Instr) (x : Nat) (v : Byte) (es : List Event) (e : Env) : Prop :=
  Memory.wf flashBackground e.chip.mem = true ∧
    (Memory.read flashBackground e.chip.mem x = v ∨ mayTouchFlash c es i x)

/-- Every call an instruction may make keeps every byte the instruction may not touch. -/
theorem callsKeep_byteKept (s0 : State) (i : Instr) (x : Nat) (v : Byte) :
    CallsKeep s0 i (byteKept s0.cfg i x v) where
  logged {s} hs := ⟨hs.hist.1, hs.hist.2.imp_right (mayTouchFlash_append _)⟩
  call {s c} hs hc := by
    obtain ⟨hm, hbyte⟩ := hs.hist
    refine ⟨Env.respond_wf c hm, ?_⟩
    rcases hbyte with hv | htouch
    · by_contra hnot
      obtain ⟨hne, huntouched⟩ := not_or.1 hnot
      refine hne ((State.plans_read hc hs.cfg hm fun u hemit hu hx => huntouched ?_).trans hv)
      refine mayTouchFlash_of_emitted hemit ?_ hx
      rcases hu with hopen | ⟨tmo, rfl⟩
      · obtain ⟨e, he, hcall⟩ := State.opened_emitted hopen
        exact ⟨e, List.mem_append_left _ he, hcall⟩
      · exact ⟨_, List.mem_append_right _ (List.mem_singleton.2 rfl), tmo, rfl⟩
    · exact .inr (mayTouchFlash_append _ htouch)

/-- Settles O46: every call keeps the bytes the instruction may not touch, whether it answers or not. -/
theorem flashFrame : Obligations.FlashFrame := by
  intro i s t x _ hm h hx
  have H := callsKeep_byteKept s i x (s.flashByte x)
  have hend : byteKept s.cfg i x (s.flashByte x) t.trace t.env := by
    by_cases hi : i.txn? = none
    · exact exec_operation_keeps H hi ⟨hm, .inl rfl⟩ h
    · exact exec_txn_keeps H hi ⟨hm, .inl rfl⟩ h
  exact hend.2.resolve_right hx

/-! ### What no call changes of the environment -/

/-- Who answers is as before, the chip too where it is not the one that answers, and of the script, of the
chip's own events and of the host's stores one entry was taken for each call. -/
structure State.EnvKept (s t : State) : Prop where
  /-- Who answers. -/
  mode : t.env.mode = s.env.mode
  /-- The chip in the unconstrained environment (log 6). -/
  chip : s.env.mode = .free → t.env.chip = s.env.chip
  /-- Calls are counted. -/
  calls : s.env.calls ≤ t.env.calls
  /-- The scripted answers left. -/
  replies : t.env.replies = s.env.replies.drop (t.env.calls - s.env.calls)
  /-- The chip's own events left. -/
  completions : t.env.completions = s.env.completions.drop (t.env.calls - s.env.calls)
  /-- The host's stores left. -/
  stores : t.hostStores = s.hostStores.drop (t.env.calls - s.env.calls)

theorem State.EnvKept.refl (s : State) : s.EnvKept s :=
  ⟨rfl, fun _ => rfl, le_rfl, by simp, by simp, by simp⟩

/-- The unconstrained environment leaves the chip (log 6). -/
theorem Env.respond_chip_of_free {e : Env} (h : e.mode = .free) (cfg : Config) (c : Call) :
    (e.respond cfg c).2 = e.chip := by
  have hnow : e.chipNow cfg = e.chip := by simp [Env.chipNow, h]
  unfold Env.respond
  split <;> simp_all

/-- A call takes one entry of each list. -/
theorem State.EnvKept.afterCall {s t : State} (h : s.EnvKept t) (c : Call) :
    s.EnvKept (t.afterCall c) := by
  have hcalls : t.env.calls + 1 - s.env.calls = t.env.calls - s.env.calls + 1 := by
    have := h.calls
    omega
  refine ⟨h.mode, fun hf => ?_, by simp [h.calls.trans], ?_, ?_, ?_⟩
  · exact (Env.respond_chip_of_free (h.mode.trans hf) _ _).trans (h.chip hf)
  · simp [hcalls, h.replies]
  · simp [hcalls, h.completions]
  · simp [hcalls, h.stores]

theorem carried_envKept (room : Nat) (sticks : Prop) (s : State) :
    Carried room sticks (fun _ _ t => s.EnvKept t) s.EnvKept where
  write h hw := by cases hw <;> exact ⟨h.mode, h.chip, h.calls, h.replies, h.completions, h.stores⟩
  push _ h := ⟨h.mode, h.chip, h.calls, h.replies, h.completions, h.stores⟩
  pop _ h := ⟨h.mode, h.chip, h.calls, h.replies, h.completions, h.stores⟩
  cause _ h := ⟨h.mode, h.chip, h.calls, h.replies, h.completions, h.stores⟩
  call h _ _ _ _ := h.afterCall _
  never h _ _ _ _ := h.afterCall _
  log h _ _ := ⟨h.mode, h.chip, h.calls, h.replies, h.completions, h.stores⟩
  stuck _ h _ _ := ⟨h.mode, h.chip, h.calls, h.replies, h.completions, h.stores⟩

/-- Settles O47: only calls write the environment, and each takes one entry of each list. -/
theorem environmentFrame : Obligations.EnvironmentFrame := by
  intro i s t h
  have hend : s.EnvKept t := by
    by_cases hi : i.txn? = none
    · have hstart : ∀ op a n, s.EnvKept (s.accept op a n) := fun _ _ _ =>
        ⟨rfl, fun _ => rfl, le_rfl, by simp, by simp, by simp⟩
      rcases exec_operation_ends (carried_envKept _ _ s) hi hstart h with ⟨code, _, u, -, hu, rfl⟩ | hN
      · exact ⟨hu.mode, hu.chip, hu.calls, hu.replies, hu.completions, hu.stores⟩
      · exact hN
    · exact (exec_transaction_ends (carried_envKept _ _ s) hi (.refl s) h).elim id id
  exact ⟨hend.mode, hend.chip, hend.calls, hend.replies, hend.completions, hend.stores⟩

end Sys2Proof.Machine
end

