-- ==== Sys2Proof/Proofs/Buffer.lean ====
section
/-!
The host's stores to BUF and the bounds of BUF (20_memory.md R63; log 15, 33), and the masked-bit wait loop
(R74).
-/

namespace Sys2Proof.Machine

/-! ### Stores and bounds -/

/-- The step on a store of the host (20_memory.md R63). -/
theorem step_bufWrite {s : State} {off : Word} {bytes : List Byte} {rest : List PortEvent}
    (hwf : s.cfg.wf = true) (h : s.host.inbox = .bufWrite off bytes :: rest) :
    step s = if inBuf s.cfg off bytes.length then .next ((s.take rest).storeBuf off.toNat bytes)
      else .fault .bufferRange := by
  rw [step_of_nextEvent hwf (by rw [h]; exact nextEvent_of_not_needsIdle rfl _ _)]
  rfl

/-- A store of the host leaves every field but BUF, its port and the done pulse. -/
theorem State.take_storeBuf_eq (s : State) (rest : List PortEvent) (off : Nat) (bytes : List Byte) :
    (s.take rest).storeBuf off bytes =
      { s with
        host := ⟨rest, s.host.csrData⟩, done := false
        buf := Memory.writeBytes bufBackground s.buf off bytes } := rfl

/-- An instruction stops while a store of the host beyond BUF is still to come (log 33). -/
theorem runPacket_of_storeOutside {s : State} (p : Packet)
    (h : ∃ bs ∈ s.hostStores, ∃ b ∈ bs, s.cfg.bufSize < b.off.toNat + b.bytes.length) :
    runPacket p s = .fault .bufferRange := by
  obtain ⟨bs, hbs, b, hb, hlt⟩ := h
  refine if_neg fun hall => ?_
  have hin := List.all_eq_true.1 (List.all_eq_true.1 hall bs hbs) b hb
  simp only [inBuf, decide_eq_true_eq] at hin
  omega

/-- Settles O15: the store law of `Memory.writeBytes`, and `exec_fault_iff` for the instructions. -/
theorem bufferStoresAndBounds : Obligations.BufferStoresAndBounds := by
  refine ⟨?store, ?operations, ?template, ?later⟩
  case store =>
    intro s off bytes rest hinv h
    obtain ⟨hs, -⟩ := State.inv_iff.1 hinv
    rw [step_bufWrite hs.cfg h]
    split
    · rename_i hfit
      refine ⟨_, (if_pos (decide_eq_true hfit)).trans (congrArg _ (s.take_storeBuf_eq rest _ _)), ?_, ?_⟩
      · intro j hj
        rw [Memory.read_writeBytes hs.buf.1, if_pos (by omega), Nat.add_sub_cancel_left]
      · intro x hx
        rw [Memory.read_writeBytes hs.buf.1, if_neg (by omega)]
        rfl
    · rename_i hout
      exact if_neg (by simpa [inBuf] using hout)
  case operations =>
    intro s a n hlt
    constructor
    · exact (exec_fault_iff _ s).2 (by simpa [bufInRange, inBuf] using hlt)
    · exact (exec_fault_iff _ s).2 (by simpa [bufInRange, inBuf] using hlt)
  case template =>
    intro s a n hlt
    exact (exec_fault_iff _ s).2 (by simpa [bufInRange, inBuf] using hlt)
  case later =>
    intro s e rest hwf hp h he hstore
    rw [step_of_idle hwf hp h]
    rcases he with ⟨w, rfl⟩ | ⟨d, rfl⟩
    · exact runPacket_of_storeOutside _ hstore
    · exact runPacket_of_storeOutside _ hstore

/-! ### The wait loop -/

theorem Pred.sat_iff {p : Pred} {v : Byte} : p.sat v = true ↔ v &&& p.mask = p.want := beq_iff_eq

/-- The loop ends with FAIL exactly if no byte satisfies the predicate (20_memory.md R74). -/
theorem waitLoop_fail_iff {p : Pred} {bytes : List Byte} :
    waitLoop p bytes = .fail ↔ ∀ b ∈ bytes, p.sat b = false := by
  induction bytes with
  | nil => simp [waitLoop]
  | cons v vs ih =>
    unfold waitLoop
    cases hv : p.sat v with
    | true => simp [hv]
    | false =>
      rw [List.forall_mem_cons, ← ih]
      cases hr : waitLoop p vs <;> simp [hv]

/-- The loop ends with OK exactly at the first byte that satisfies the predicate (20_memory.md R74). -/
theorem waitLoop_ok_iff {p : Pred} {bytes seen : List Byte} :
    waitLoop p bytes = .ok seen ↔
      ∃ before v after, bytes = before ++ v :: after ∧ seen = before ++ [v] ∧
        (∀ b ∈ before, p.sat b = false) ∧ p.sat v = true := by
  induction bytes generalizing seen with
  | nil => simp [waitLoop]
  | cons w ws ih =>
    constructor
    · intro h
      cases hw : p.sat w with
      | true =>
        simp only [waitLoop, hw, if_true, Answer.ok.injEq] at h
        exact ⟨[], w, ws, rfl, h.symm, nofun, hw⟩
      | false =>
        cases hr : waitLoop p ws with
        | ok rest =>
          obtain ⟨before, v, after, rfl, rfl, hbefore, hv⟩ := ih.1 hr
          simp only [waitLoop, hw, hr] at h
          refine ⟨w :: before, v, after, rfl, by simpa using h.symm, ?_, hv⟩
          exact List.forall_mem_cons.2 ⟨hw, hbefore⟩
        | fail => simp [waitLoop, hw, hr] at h
        | never => exact absurd hr (waitLoop_ne_never p ws)
    · rintro ⟨_ | ⟨b, before⟩, v, after, hbytes, rfl, hbefore, hv⟩
      · obtain ⟨rfl, rfl⟩ := List.cons.inj hbytes
        simp [waitLoop, hv]
      · obtain ⟨rfl, rfl⟩ := List.cons.inj hbytes
        obtain ⟨hw, hrest⟩ := List.forall_mem_cons.1 hbefore
        have hrest' : waitLoop p (before ++ v :: after) = .ok (before ++ [v]) :=
          ih.2 ⟨before, v, after, rfl, rfl, hrest, hv⟩
        simp [waitLoop, hw, hrest']

/-- Settles O16: by induction on the bytes the reads return, with the predicate as the mask equation. -/
theorem waitLoopStopsAtFirstMatch : Obligations.WaitLoopStopsAtFirstMatch := by
  intro p bytes
  have hsat : ∀ b : Byte, p.sat b = false ↔ b &&& p.mask ≠ p.want := fun b => by
    rw [ne_eq, ← Pred.sat_iff, Bool.not_eq_true]
  simp only [← hsat, ← Pred.sat_iff]
  exact ⟨fun _ => waitLoop_ok_iff, waitLoop_fail_iff⟩

end Sys2Proof.Machine
end

