-- ==== Sys2Proof/Proofs/Lone.lean ====
section
/-!
The templates run alone at the executor (30_encoding.md R101 to R116; log 18): the state one call leaves, the
state an `Exec` and its data phase leave, and the statements about the lone transactions that need no more of
the reference chip than one command's effect.
-/

namespace Sys2Proof.Machine

/-! ### One call at a label -/

/-- The state a call made at a label leaves: PHASE is as before, unless the call is never answered. -/
def State.asked (s : State) (l : Label) (c : Call) : State :=
  ((s.setPhase (s.phase ++ [l])).afterCall c).setPhase
    (if s.answer c = .never then s.phase ++ [l] else s.phase)

section Asked

variable {s : State} {l : Label} {c : Call}

theorem label_call_eq : Seq.label l (call c) s = ((s.answer c).result, s.asked l c) := by
  have hans : (s.setPhase (s.phase ++ [l])).answer c = s.answer c := rfl
  unfold Seq.label State.asked
  rw [call_eq, hans]
  cases s.answer c <;> rfl

@[simp] theorem State.asked_cause : (s.asked l c).cause = s.cause := rfl
@[simp] theorem State.asked_env : (s.asked l c).env = s.env.after s.cfg c := rfl
@[simp] theorem State.asked_trace :
    (s.asked l c).trace = s.trace ++ [⟨s.phase ++ [l], c, s.answer c⟩] := rfl

theorem State.asked_lastAnswer : (s.asked l c).env.lastAnswer = s.answer c := rfl

theorem State.asked_phase :
    (s.asked l c).phase = if s.answer c = .never then s.phase ++ [l] else s.phase := rfl

theorem State.asked_phase_of_ne (h : s.answer c ≠ .never) : (s.asked l c).phase = s.phase := if_neg h

theorem Answer.ne_never_of_isOk {r : Answer} (h : r.isOk = true) : r ≠ .never := by
  rintro rfl
  cases h

theorem State.asked_blockKept : s.BlockKept (s.asked l c) :=
  have H := State.blockKept_respects
  H.trans (H.trans (H.phase s _) (H.call _ c)) (H.phase _ _)

end Asked

/-! ### An `Exec` and its data phase -/

/-- The state an `Exec` and, if it answered OK, its data phase leave (20_memory.md R77, R78). -/
def State.transacted (s : State) (t : Txn) (c : Call) : State :=
  if (s.answer (.exec t s.tmo.dflt)).isOk = true then (s.asked .a (.exec t s.tmo.dflt)).asked .b c
  else s.asked .a (.exec t s.tmo.dflt)

section Transacted

variable {s : State} {t : Txn} {c : Call}

theorem State.transacted_of_ok (h : (s.answer (.exec t s.tmo.dflt)).isOk = true) :
    s.transacted t c = (s.asked .a (.exec t s.tmo.dflt)).asked .b c := if_pos h

theorem label_execCall_eq :
    Seq.label .a (execCall t) s =
      ((s.answer (.exec t s.tmo.dflt)).result, s.asked .a (.exec t s.tmo.dflt)) := label_call_eq

/-- `ReadReg` makes its transaction. -/
theorem readReg_state (n : Word) : (readReg t n s).2 = s.transacted t (.rx n s.tmo.dflt) := by
  unfold readReg Seq.andThen State.transacted
  rw [label_execCall_eq]
  cases s.answer (.exec t s.tmo.dflt) with
  | ok b => exact congrArg Prod.snd (label_call_eq (s := s.asked .a (.exec t s.tmo.dflt)))
  | fail => rfl
  | never => rfl

/-- `WriteReg` makes its transaction. -/
theorem writeReg_state (bytes : List Byte) :
    (writeReg t bytes s).2 = s.transacted t (.tx bytes s.tmo.dflt) := by
  unfold writeReg Seq.andThen State.transacted
  rw [label_execCall_eq]
  cases s.answer (.exec t s.tmo.dflt) with
  | ok b => exact congrArg Prod.snd (label_call_eq (s := s.asked .a (.exec t s.tmo.dflt)))
  | fail => rfl
  | never => rfl

end Transacted

/-! ### What ran -/

theorem State.BlockKept.dataKept {s t : State} (h : s.BlockKept t) : s.dataKept t := by
  refine ⟨h.inited, h.work, h.scratch, fun x => ?_, fun hnil x => ?_⟩
  · rw [State.bufByte, h.buf]
  · rw [State.bufByte, h.buf, State.bufAfter_of_nil hnil]
    rfl

/-- A transaction ran alone: its lines by what the last call was answered. -/
theorem State.ranTxn_of {s t : State} {es : List Event} {plan : List (List Label × Call)}
    (hb : s.BlockKept t) (hcause : t.cause = s.cause) (hne : es ≠ []) (htrace : t.trace = s.trace ++ es)
    (hplan : es.map (fun e => (e.site, e.call)) <+: plan)
    (hearlier : es.dropLast.all (fun e => e.ans.isOk) = true)
    (hlast : es.getLast?.map (fun e => e.ans) = some t.env.lastAnswer)
    (hok : t.env.lastAnswer.isOk = true → es.map (fun e => (e.site, e.call)) = plan ∧ t.phase = s.phase)
    (hfail : t.env.lastAnswer = .fail → t.phase = s.phase)
    (hnever : t.env.lastAnswer = .never → es.getLast?.map (fun e => e.site) = some t.phase) :
    s.ranTxn t plan := by
  refine ⟨⟨es, hne, htrace, hplan, hearlier, hlast, ?_⟩, hb.cfg, hb.status, hb.done, hb.req, hb.tmo,
    hb.host, hcause, hb.dataKept⟩
  cases h : t.env.lastAnswer with
  | ok b =>
    obtain ⟨hall, hphase⟩ := hok (by rw [h]; rfl)
    exact .inl ⟨hall, rfl, hphase⟩
  | fail => exact .inr (.inl ⟨rfl, hfail h⟩)
  | never => exact .inr (.inr ⟨rfl, hnever h⟩)

/-- One call ran alone; where it answered OK, no other was to follow. -/
theorem State.asked_ranTxn {s : State} {l : Label} {c : Call} {plan : List (List Label × Call)}
    (hplan : [(s.phase ++ [l], c)] <+: plan)
    (hok : (s.answer c).isOk = true → [(s.phase ++ [l], c)] = plan) :
    s.ranTxn (s.asked l c) plan := by
  refine State.ranTxn_of State.asked_blockKept rfl (List.cons_ne_nil _ _) State.asked_trace hplan rfl rfl
    (fun h => ⟨hok h, State.asked_phase_of_ne (Answer.ne_never_of_isOk h)⟩) (fun h => ?_) (fun h => ?_)
  · exact State.asked_phase_of_ne (by rw [← State.asked_lastAnswer (l := l), h]; nofun)
  · exact congrArg some (if_pos h).symm

/-- An `Exec` and its data phase ran alone. -/
theorem State.transacted_ranTxn (s : State) (t : Txn) (c : Call) :
    s.ranTxn (s.transacted t c)
      [(s.phase ++ [.a], .exec t s.tmo.dflt), (s.phase ++ [.b], c)] := by
  cases hexec : (s.answer (.exec t s.tmo.dflt)).isOk with
  | false =>
    rw [State.transacted, if_neg (by simp [hexec])]
    exact State.asked_ranTxn ⟨[_], rfl⟩ fun h => by simp [hexec] at h
  | true =>
    have hphase : (s.asked .a (.exec t s.tmo.dflt)).phase = s.phase :=
      State.asked_phase_of_ne (Answer.ne_never_of_isOk hexec)
    have hkept := State.blockKept_respects.trans (State.asked_blockKept (s := s) (l := .a)
      (c := .exec t s.tmo.dflt)) (State.asked_blockKept (l := .b) (c := c))
    rw [State.transacted_of_ok hexec]
    generalize hmid : s.asked .a (.exec t s.tmo.dflt) = u at hphase hkept ⊢
    have htrace : u.trace = s.trace ++ [⟨s.phase ++ [.a], .exec t s.tmo.dflt,
        s.answer (.exec t s.tmo.dflt)⟩] := by rw [← hmid, State.asked_trace]
    refine State.ranTxn_of
      (es := [⟨s.phase ++ [.a], .exec t s.tmo.dflt, s.answer (.exec t s.tmo.dflt)⟩,
        ⟨s.phase ++ [.b], c, u.answer c⟩])
      hkept (by rw [State.asked_cause, ← hmid, State.asked_cause]) (List.cons_ne_nil _ _)
      (by rw [State.asked_trace, htrace, hphase, List.append_assoc]; rfl) (List.prefix_refl _)
      (by simp [hexec]) rfl (fun h => ⟨rfl, ?_⟩) (fun h => ?_) (fun h => ?_)
    · rw [State.asked_lastAnswer] at h
      exact (State.asked_phase_of_ne (Answer.ne_never_of_isOk h)).trans hphase
    · rw [State.asked_lastAnswer] at h
      exact (State.asked_phase_of_ne (by rw [h]; nofun)).trans hphase
    · rw [State.asked_lastAnswer] at h
      rw [State.asked_phase, if_pos h, hphase]
      rfl

/-! ### Scripted answers and the reference chip -/

section Answers

variable {s : State} {l : Label} {c : Call}

/-- The reference chip answers an unscripted call of itself (20_memory.md R80). -/
theorem Env.respond_chip {e : Env} {cfg : Config} (hm : e.mode = .refchip) (hr : e.replies = []) :
    e.respond cfg c = chipAnswer e.calls cfg e.lastExec c (e.chipNow cfg) := by
  simp [Env.respond, hm, hr]

theorem State.onChip.respond (h : s.onChip) :
    s.env.respond s.cfg c = chipAnswer s.env.calls s.cfg s.env.lastExec c s.env.chip := by
  obtain ⟨hm, hr, hc⟩ := h
  rw [Env.respond_chip hm hr, Env.chipNow_of_nil hc]

theorem State.onChip.asked (h : s.onChip) : (s.asked l c).onChip := by
  obtain ⟨hm, hr, hc⟩ := h
  exact ⟨hm, by simp [hr], by simp [hc]⟩

theorem State.script.asked {r : Reply} {rs : List Reply} (h : s.script (r :: rs)) :
    (s.asked l c).script rs := by
  obtain ⟨rest, hrest⟩ := h
  refine ⟨rest, ?_⟩
  rw [State.asked_env, Env.after_replies, ← hrest]
  rfl

theorem State.script.answer {bytes : List Byte} {rs : List Reply} (h : s.script (.ok bytes :: rs)) :
    s.answer c = deliver s.env.calls c bytes := by
  obtain ⟨rest, hrest⟩ := h
  exact State.answer_ok hrest.symm

/-- An `Exec` or a `Tx` with a scripted OK, or on the reference chip, answers OK. -/
theorem State.answer_ok_of_script_or_chip {rs : List Reply} (h : s.script (.ok [] :: rs) ∨ s.onChip)
    (hc : (∃ t tmo, c = .exec t tmo) ∨ ∃ bytes tmo, c = .tx bytes tmo) : s.answer c = .ok [] := by
  rcases h with h | h
  · rw [h.answer]
    rcases hc with ⟨t, tmo, rfl⟩ | ⟨bytes, tmo, rfl⟩
    · rfl
    · rfl
  · rw [State.answer, h.respond]
    rcases hc with ⟨t, tmo, rfl⟩ | ⟨bytes, tmo, rfl⟩
    · rfl
    · rfl

end Answers

/-! ### Commands -/

section Commands

variable {k : Chip} {c : Config}

theorem anySet_eq_true {v mask : Byte} : anySet v mask = true ↔ v &&& mask ≠ 0 := bne_iff_ne

theorem anySet_eq_false {v mask : Byte} : anySet v mask = false ↔ v &&& mask = 0 := by
  simp [anySet]

/-- A mask of two fields is set where one of them is. -/
theorem anySet_or {v m m' : Byte} : anySet v (m ||| m') = true ↔ v &&& m ≠ 0 ∨ v &&& m' ≠ 0 := by
  rw [anySet_eq_true, BitVec.and_or_distrib_left]
  simp only [ne_eq, BitVec.ofNat_eq_ofNat, BitVec.or_eq_zero_iff]
  tauto

theorem and_not_or (v m m' : Byte) : v &&& ~~~(m ||| m') = v &&& ~~~m &&& ~~~m' := by
  rw [BitVec.not_or, BitVec.and_assoc]

theorem Chip.exec_wren (hd : k.dpd = false) :
    k.exec c .wren =
      { k with sr := if k.sr &&& c.mWip = 0 then k.sr ||| c.mWel else k.sr } := by
  have hexec : k.exec c .wren = if anySet k.sr c.mWip then k else { k with sr := k.sr ||| c.mWel } := by
    simp [Chip.exec, hd]
  rw [hexec]
  cases h : anySet k.sr c.mWip with
  | true => rw [if_neg (anySet_eq_true.1 h), if_pos rfl]
  | false => rw [if_pos (anySet_eq_false.1 h), if_neg nofun]

theorem Chip.exec_susp (hd : k.dpd = false) :
    k.exec c .susp =
      if k.sr &&& c.mWip ≠ 0 ∧ (k.inflight = .erase ∨ k.inflight = .program) then
        { k with
          sr := k.sr &&& ~~~c.mWip &&& ~~~c.mWel
          scur := k.scur ||| (if k.inflight = .erase then c.mEsb else c.mPsb) }
      else k := by
  simp only [Chip.exec, hd, anySet_eq_true, and_not_or]
  cases hf : k.inflight <;> simp

theorem Chip.exec_resm (hd : k.dpd = false) :
    k.exec c .resm =
      if k.scur &&& c.mEsb ≠ 0 ∨ k.scur &&& c.mPsb ≠ 0 then
        { k with scur := k.scur &&& ~~~c.mEsb &&& ~~~c.mPsb, sr := k.sr ||| c.mWip }
      else k := by
  simp only [Chip.exec, hd, anySet_or, and_not_or]
  rfl

end Commands

/-- The templates with no data phase run one `Exec`. -/
theorem exec_command {i : Instr} {u : Txn} {s : State}
    (hi : i ∈ ([.tWren, .tCe, .tSusp, .tResm, .tDp, .tWake, .tRsten, .tRst] : List Instr) ∨
      (∃ a, i = .tSe a) ∨ (∃ a, i = .tBe a))
    (hu : i.txn? = some u) : exec i s = .next (s.asked .a (.exec u s.tmo.dflt)) := by
  have hrun : exec i s = .next (Seq.label .a (cmd u) s).2 := by
    simp only [List.mem_cons, List.not_mem_nil, or_false] at hi
    rcases hi with (rfl | rfl | rfl | rfl | rfl | rfl | rfl | rfl) | ⟨a, rfl⟩ | ⟨a, rfl⟩ <;>
      (cases hu; rfl)
  rw [hrun]
  exact congrArg (fun r => Host.Outcome.next r.2) label_execCall_eq

/-- Settles O50: one `Exec`, and on the reference chip the template's own effect. -/
theorem loneCommandOutcome : Obligations.LoneCommandOutcome := by
  intro i u s hi hu
  have hchip : s.onChip → (s.asked .a (.exec u s.tmo.dflt)).env.chip = s.env.chip.exec s.cfg u :=
    fun h => by rw [State.asked_env, Env.after_chip, h.respond]; rfl
  refine ⟨_, exec_command hi hu, State.asked_ranTxn (List.prefix_refl _) fun _ => rfl, fun h => ?_,
    fun hm hr => ?_, fun h hd => ?_, fun h hd => ?_⟩
  · have hans : s.answer (.exec u s.tmo.dflt) = .ok [] :=
      State.answer_ok_of_script_or_chip h (.inl ⟨u, _, rfl⟩)
    exact ⟨hans, State.asked_phase_of_ne (by rw [hans]; nofun)⟩
  · rw [State.asked_env, Env.after_chip, Env.respond_chip hm hr]
    rfl
  · rw [hchip h]
    by_cases hw : i = .tWake
    · subst hw
      cases hu
      simp [Chip.exec, hd]
    · have hne : u ≠ .wake := by
        rintro rfl
        cases i <;> cases hu
        exact hw rfl
      rw [Chip.exec_asleep hd hne]
      simp [hw, ← hd]
  · rw [hchip h]
    refine ⟨?_, ?_, ?_, ?_, ?_, ?_, ?_⟩ <;> (rintro rfl; cases hu)
    · exact Chip.exec_wren hd
    · exact Chip.exec_susp hd
    · exact Chip.exec_resm hd
    · simp [Chip.exec, hd]
    · simp [Chip.exec, ← hd]
    · simp [Chip.exec, hd]
    · simp [Chip.exec, hd]

end Sys2Proof.Machine
end

