-- ==== Sys2Proof/Proofs/LoneData.lean ====
section
/-!
The templates with a data phase run alone, and what programs and erases do to the reference chip's array
(20_memory.md R80, 30_encoding.md R101 to R109, R115; log 9, 13, 18, 19).
-/

namespace Sys2Proof.Machine

/-! ### A transaction whose calls are answered OK -/

/-- A template with a data phase acts at that phase: its `Exec` leaves the chip (20_memory.md R80). -/
theorem Chip.exec_of_data {k : Chip} {c : Config} {t : Txn} (ht : (t.desc c).dataDir ≠ .none) :
    k.exec c t = k := by
  cases t with
  | rdsr | rdscur | rdcr | wrsr | pp4 | qread =>
    unfold Chip.exec
    split
    · rfl
    · rfl
  | wren | se | be | ce | susp | resm | dp | wake | rsten | rst => exact absurd rfl ht

section Transacted

variable {s : State} {t : Txn} {c : Call}

/-- On the reference chip the `Exec` of a template with a data phase answers OK and leaves the chip. -/
theorem State.onChip.asked_exec (h : s.onChip) (ht : (t.desc s.cfg).dataDir ≠ .none) :
    (s.answer (.exec t s.tmo.dflt)).isOk = true ∧
      (s.asked .a (.exec t s.tmo.dflt)).env.chip = s.env.chip := by
  have hans : s.answer (.exec t s.tmo.dflt) = .ok [] :=
    State.answer_ok_of_script_or_chip (rs := []) (.inr h) (.inl ⟨t, _, rfl⟩)
  refine ⟨by rw [hans]; rfl, ?_⟩
  rw [State.asked_env, Env.after_chip, h.respond]
  exact Chip.exec_of_data ht

/-- On the reference chip the data phase finds the template and the chip as they were. -/
theorem State.onChip.transacted (h : s.onChip) (ht : (t.desc s.cfg).dataDir ≠ .none) :
    ∃ i, (s.transacted t c).env.lastAnswer = (chipAnswer i s.cfg (some t) c s.env.chip).1 ∧
      (s.transacted t c).env.chip = (chipAnswer i s.cfg (some t) c s.env.chip).2 := by
  obtain ⟨hok, hchip⟩ := h.asked_exec ht
  have hresp := (h.asked (l := .a) (c := .exec t s.tmo.dflt)).respond (c := c)
  rw [hchip] at hresp
  refine ⟨(s.asked .a (.exec t s.tmo.dflt)).env.calls, ?_⟩
  rw [State.transacted_of_ok hok, State.asked_lastAnswer, State.answer, State.asked_env (c := c),
    Env.after_chip, hresp]
  exact ⟨rfl, rfl⟩

/-- PHASE is as before where the last answer is one. -/
theorem State.transacted_phase (h : (s.transacted t c).env.lastAnswer.isOk = true) :
    (s.transacted t c).phase = s.phase := by
  obtain ⟨⟨es, -, -, -, -, -, hend⟩, -⟩ := s.transacted_ranTxn t c
  rcases hend with ⟨-, -, hphase⟩ | ⟨hfail, -⟩ | ⟨hnever, -⟩
  · exact hphase
  · rw [hfail] at h
    cases h
  · rw [hnever] at h
    cases h

/-- The data phase answers what is scripted for it. -/
theorem State.script.transacted {bytes : List Byte} (h : s.script [.ok [], .ok bytes]) :
    ∃ i, (s.transacted t c).env.lastAnswer = deliver i c bytes := by
  have hans : s.answer (.exec t s.tmo.dflt) = .ok [] := h.answer
  rw [State.transacted_of_ok (by rw [hans]; rfl), State.asked_lastAnswer, h.asked.answer]
  exact ⟨_, rfl⟩

/-- A lone write whose answers are scripted OK, or on the reference chip, answers OK. -/
theorem State.transacted_tx_ok {bytes : List Byte} {tmo : Word} (ht : (t.desc s.cfg).dataDir ≠ .none)
    (h : s.script [.ok [], .ok []] ∨ s.onChip) :
    (s.transacted t (.tx bytes tmo)).env.lastAnswer = .ok [] ∧
      (s.transacted t (.tx bytes tmo)).phase = s.phase := by
  have hans : (s.transacted t (.tx bytes tmo)).env.lastAnswer = .ok [] := by
    rcases h with h | h
    · obtain ⟨i, hi⟩ := h.transacted (t := t) (c := .tx bytes tmo)
      exact hi
    · obtain ⟨i, hi, -⟩ := h.transacted (c := .tx bytes tmo) ht
      exact hi
  exact ⟨hans, State.transacted_phase (by rw [hans]; rfl)⟩

end Transacted

/-! ### Reads -/

/-- The reads run `Exec` and `Rx`. -/
theorem exec_read_template {i : Instr} {u : Txn} {k : Word} {s : State}
    (h : (i = .tRdsr ∧ u = .rdsr ∧ k = 1) ∨ (i = .tRdscur ∧ u = .rdscur ∧ k = 1) ∨
      (i = .tRdcr ∧ u = .rdcr ∧ k = 2) ∨ (∃ a, i = .tQread a k ∧ u = .qread a k)) :
    exec i s = .next (s.transacted u (.rx k s.tmo.dflt)) ∧ (u.desc s.cfg).dataDir = .read := by
  rw [← readReg_state]
  rcases h with ⟨rfl, rfl, rfl⟩ | ⟨rfl, rfl, rfl⟩ | ⟨rfl, rfl, rfl⟩ | ⟨a, rfl, rfl⟩ <;>
    exact ⟨rfl, rfl⟩

/-- An awake chip gives an `Rx` of the template's length the bytes it has. -/
theorem State.onChip.read {s : State} {u : Txn} {k : Word} {bytes : List Byte} (h : s.onChip)
    (hu : (u.desc s.cfg).dataDir = .read)
    (hbytes : s.env.chip.receive s.cfg (some u) k = some bytes) (hlen : bytes.length = k.toNat) :
    (s.transacted u (.rx k s.tmo.dflt)).env.lastAnswer = .ok bytes := by
  obtain ⟨i, hans, -⟩ := h.transacted (c := .rx k s.tmo.dflt) (t := u) (by rw [hu]; nofun)
  rw [hans]
  simp only [chipAnswer, deliver, hbytes, Option.getD_some]
  rw [fitBytes_eq hlen]

/-- Settles O51: `Exec` leaves the chip, and `Rx` gets the bytes the template names. -/
theorem loneReadOutcome : Obligations.LoneReadOutcome := by
  intro i u k s hi
  obtain ⟨hexec, hdir⟩ := exec_read_template (s := s) hi
  have hdata : (u.desc s.cfg).dataDir ≠ .none := by rw [hdir]; nofun
  refine ⟨_, hexec, s.transacted_ranTxn u _, fun bytes hlen hscript => ?_, fun h hd => ?_⟩
  · obtain ⟨j, hj⟩ := hscript.transacted (t := u) (c := .rx k s.tmo.dflt)
    have hans : (s.transacted u (.rx k s.tmo.dflt)).env.lastAnswer = .ok bytes := by
      rw [hj]
      exact congrArg Answer.ok (fitBytes_eq hlen)
    exact ⟨hans, State.transacted_phase (by rw [hans]; rfl)⟩
  · obtain ⟨j, hans, hchip⟩ := h.transacted (c := .rx k s.tmo.dflt) hdata
    refine ⟨hchip, State.transacted_phase (by rw [hans]; rfl), ?_, ?_, ?_, ?_⟩
    · rintro rfl
      obtain ⟨rfl, rfl⟩ : u = .rdsr ∧ k = 1 := by simpa using hi
      exact h.read hdir (by simp [Chip.receive, hd]) rfl
    · rintro rfl
      obtain ⟨rfl, rfl⟩ : u = .rdscur ∧ k = 1 := by simpa using hi
      exact h.read hdir (by simp [Chip.receive, hd]) rfl
    · rintro rfl
      obtain ⟨rfl, rfl⟩ : u = .rdcr ∧ k = 2 := by simpa using hi
      exact h.read hdir (by simp [Chip.receive, hd]) rfl
    · rintro a rfl l hl
      obtain rfl : u = .qread a k := by simpa using hi
      rw [h.read hdir (by simp only [Chip.receive, hd]; rfl) (by simp)]
      simp [Answer.bytes, List.getD_eq_getElem?_getD, hl, State.flashByte]

/-! ### Writes -/

section Writes

variable {k : Chip} {c : Config}

theorem Chip.accepts_iff :
    k.accepts c = true ↔ anySet k.sr c.mWel = true ∧ anySet k.sr c.mWip = false := by
  simp [Chip.accepts]

/-- A chip that sleeps, or does not accept, ignores a data phase. -/
theorem Chip.transmit_ignored {t : Option Txn} {bs : List Byte}
    (h : ¬(k.dpd = false ∧ k.accepts c = true)) : k.transmit c t bs = k := by
  refine if_pos ?_
  cases hd : k.dpd <;> simp_all

/-- An awake chip that accepts takes the bytes of a register write. -/
theorem Chip.transmit_wrsr {n : Word} {bs : List Byte} (hd : k.dpd = false) (ha : k.accepts c = true) :
    k.transmit c (some (.wrsr n)) bs = k.writeRegs c bs := if_neg (by simp [hd, ha])

/-- An awake chip that accepts programs the bytes sent. -/
theorem Chip.transmit_pp4 {a n : Word} {bs : List Byte} (hd : k.dpd = false)
    (ha : k.accepts c = true) :
    k.transmit c (some (.pp4 a n)) bs =
      { k with mem := programFrom c a 0 k.mem bs }.startCycle c .program :=
  if_neg (by simp [hd, ha])

/-- A register write of one byte or more: CR is written by exactly three (30_encoding.md R105). -/
theorem Chip.writeRegs_cons (b : Byte) (rest : List Byte) :
    k.writeRegs c (b :: rest) =
      { k with
        sr := k.sr &&& (c.mWip ||| c.mWel) ||| b &&& ~~~(c.mWip ||| c.mWel) ||| c.mWip
        cr0 := if rest.length = 2 then rest.getD 0 0 else k.cr0
        cr1 := if rest.length = 2 then rest.getD 1 0 else k.cr1
        inflight := .wrsr } := by
  rcases rest with _ | ⟨b1, _ | ⟨b2, _ | ⟨b3, bs⟩⟩⟩
  · rfl
  · rfl
  · rfl
  · simp [Chip.writeRegs, Chip.startCycle]

end Writes

/-- The image that goes out with `T_WRSR(n)`: `n` bytes, the first three of them the scratch bytes. -/
theorem imageBytes_getD {n : Word} {s : State} {j : Nat} (h3 : j < 3) (hn : j < n.toNat) :
    (imageBytes n s).getD j 0 = [s.scratch.rb0, s.scratch.rb1, s.scratch.rb2].getD j 0 :=
  fitBytes_getD (bs := [s.scratch.rb0, s.scratch.rb1, s.scratch.rb2]) hn h3 0

@[simp] theorem imageBytes_length (n : Word) (s : State) : (imageBytes n s).length = n.toNat :=
  fitBytes_length _ _ _

/-- A register write of the image of `n` bytes, `n` not 0. -/
theorem Chip.writeRegs_image {k : Chip} {c : Config} {n : Word} {s : State} (hn : n ≠ 0) :
    k.writeRegs c (imageBytes n s) =
      { k with
        sr := k.sr &&& (c.mWip ||| c.mWel) ||| s.scratch.rb0 &&& ~~~(c.mWip ||| c.mWel) ||| c.mWip
        cr0 := if n = 3 then s.scratch.rb1 else k.cr0
        cr1 := if n = 3 then s.scratch.rb2 else k.cr1
        inflight := .wrsr } := by
  have hpos : 0 < n.toNat := by bv_omega
  have h0 := imageBytes_getD (s := s) (by omega : 0 < 3) hpos
  have hlen := imageBytes_length n s
  have hthree : n.toNat = 3 → (imageBytes n s).getD 1 0 = s.scratch.rb1 ∧
      (imageBytes n s).getD 2 0 = s.scratch.rb2 := fun h =>
    ⟨imageBytes_getD (by omega) (by omega), imageBytes_getD (by omega) (by omega)⟩
  generalize imageBytes n s = bytes at h0 hlen hthree ⊢
  rcases bytes with _ | ⟨b, rest⟩
  · simp at hlen
    omega
  · obtain rfl : b = s.scratch.rb0 := h0
    rw [Chip.writeRegs_cons]
    by_cases h : n = 3
    · obtain ⟨h1, h2⟩ := hthree (by rw [h]; rfl)
      have hrest : rest.length = 2 := by simpa [h] using hlen
      rw [if_pos hrest, if_pos hrest, if_pos h, if_pos h]
      exact congrArg₂ (fun x y => { k with
        sr := k.sr &&& (c.mWip ||| c.mWel) ||| s.scratch.rb0 &&& ~~~(c.mWip ||| c.mWel) ||| c.mWip
        cr0 := x, cr1 := y, inflight := .wrsr }) h1 h2
    · have hrest : rest.length ≠ 2 := fun h2 => h (by
        have : n.toNat = 3 := by rw [← hlen, List.length_cons, h2]
        bv_omega)
      rw [if_neg hrest, if_neg hrest, if_neg h, if_neg h]

/-- The bytes `T_PP4` sends are those of BUF from PTR on. -/
theorem State.bufRead_getD {s : State} {off n j : Nat} (h : j < n) :
    (s.bufRead off n).getD j 0 = s.bufByte (off + j) := by
  simp [State.bufRead, Memory.readBytes, List.getD_eq_getElem?_getD, h, State.bufByte]

/-- `T_PP4` inside BUF runs `Exec` and `Tx`. -/
theorem exec_tPp4 {a n : Word} {s : State} (h : s.work.ptr.toNat + n.toNat ≤ s.cfg.bufSize) :
    exec (.tPp4 a n) s =
      .next (s.transacted (.pp4 a n) (.tx (s.bufRead s.work.ptr.toNat n.toNat) s.tmo.dflt)) := by
  rw [← writeReg_state]
  exact exec_txn (i := .tPp4 a n) rfl (decide_eq_true h)

/-- Settles O52: what goes out is the image or the bytes of BUF, and the chip's effect is that of its data
phase. -/
theorem loneWriteOutcome : Obligations.LoneWriteOutcome := by
  constructor
  · intro n s
    have hexec : exec (.tWrsr n) s =
        .next (s.transacted (.wrsr n) (.tx (imageBytes n s) s.tmo.dflt)) := by
      rw [← writeReg_state]
      rfl
    refine ⟨imageBytes n s, _, hexec, imageBytes_length n s, fun j => imageBytes_getD,
      s.transacted_ranTxn _ _, State.transacted_tx_ok nofun, fun h => ?_⟩
    obtain ⟨_, -, hchip⟩ := h.transacted (t := .wrsr n)
      (c := .tx (imageBytes n s) s.tmo.dflt) nofun
    rw [hchip]
    change s.env.chip.transmit s.cfg (some (.wrsr n)) (imageBytes n s) = _
    by_cases ha : s.env.chip.dpd = false ∧ s.env.chip.accepts s.cfg = true
    · obtain ⟨hd, hacc⟩ := ha
      obtain ⟨hwel, hwip⟩ := Chip.accepts_iff.1 hacc
      rw [Chip.transmit_wrsr hd hacc]
      by_cases hn : n = 0
      · subst hn
        rw [if_neg fun hall => hall.2.2.2 rfl]
        rfl
      · rw [if_pos ⟨hd, anySet_eq_true.1 hwel, anySet_eq_false.1 hwip, hn⟩, Chip.writeRegs_image hn]
    · rw [Chip.transmit_ignored ha, if_neg]
      rintro ⟨hd, hwel, hwip, -⟩
      exact ha ⟨hd, Chip.accepts_iff.2 ⟨anySet_eq_true.2 hwel, anySet_eq_false.2 hwip⟩⟩
  · intro a n s hin
    exact ⟨_, _, exec_tPp4 hin, Memory.length_readBytes, fun j => State.bufRead_getD,
      s.transacted_ranTxn _ _, State.transacted_tx_ok nofun⟩

/-! ### Erases -/

/-- The bytes a lone erase may touch are those its template reaches. -/
theorem mayTouchFlash_iff_of_txn {c : Config} {es : List Event} {i : Instr} {u : Txn} {x : Nat}
    (hu : i.txn? = some u) : mayTouchFlash c es i x ↔ templateReaches c x u := by
  cases i <;> cases hu <;> exact Iff.rfl

/-- Settles O53: the chip takes the erase of its template, or ignores it. -/
theorem eraseCommandsOnTheChip : Obligations.EraseCommandsOnTheChip := by
  intro i u s t a hon hd hm hi hu h
  have hlist : i ∈ ([.tWren, .tCe, .tSusp, .tResm, .tDp, .tWake, .tRsten, .tRst] : List Instr) ∨
      (∃ a, i = .tSe a) ∨ (∃ a, i = .tBe a) := by
    rcases hi with rfl | rfl | rfl
    · exact .inr (.inl ⟨a, rfl⟩)
    · exact .inr (.inr ⟨a, rfl⟩)
    · exact .inl (by simp)
  have herase : isErase u = true := by
    rcases hi with rfl | rfl | rfl <;> (cases hu; rfl)
  rw [exec_command hlist hu] at h
  obtain rfl := Host.Outcome.next.inj h
  have hchip : (s.asked .a (.exec u s.tmo.dflt)).env.chip = s.env.chip.exec s.cfg u := by
    rw [State.asked_env, Env.after_chip, hon.respond]
    rfl
  simp only [State.flashByte, hchip, Chip.exec_erase herase hd, mayTouchFlash_iff_of_txn hu]
  split
  · rename_i hset
    have hacc : s.env.chip.accepts s.cfg = true := Chip.accepts_iff.2 ⟨hset.1, by simpa using hset.2⟩
    rw [if_pos hacc]
    exact ⟨rfl, rfl, rfl, fun x hx => erasedMem_read herase hm hx,
      fun x hx => erasedMem_read_of_not herase hm hx⟩
  · rename_i hset
    refine if_neg fun hacc => hset ?_
    obtain ⟨hwel, hwip⟩ := Chip.accepts_iff.1 hacc
    exact ⟨hwel, by simp [hwip]⟩

/-! ### Programs -/

/-- A byte of the array after a program: the and of its old value and every byte sent to it. -/
theorem programFrom_read {c : Config} {a : Word} {x : Nat} {g : Nat → Byte} {n i : Nat} {m : Memory}
    (hm : Memory.wf flashBackground m = true) :
    Memory.read flashBackground (programFrom c a i m ((List.range' i n).map g)) x =
      ((List.range' i n).filter fun j => flashByteAddr c a j = x).foldl (fun v j => v &&& g j)
        (Memory.read flashBackground m x) := by
  induction n generalizing i m with
  | zero => rfl
  | succ n ih =>
    rw [List.range'_succ, List.map_cons, programFrom, ih (Memory.wf_write hm), Memory.read_write hm]
    by_cases hx : flashByteAddr c a i = x
    · rw [if_pos hx, List.filter_cons_of_pos (by simpa using hx), List.foldl_cons, hx]
    · rw [if_neg hx, List.filter_cons_of_neg (by simpa using hx)]

/-- A transfer no longer than the array goes to one address a byte. -/
theorem flashByteAddr_injOn {c : Config} {a : Word} {j l : Nat} (hj : j < c.flashSize)
    (hl : l < c.flashSize) (h : flashByteAddr c a j = flashByteAddr c a l) : j = l := by
  have hmod : j % c.flashSize = l % c.flashSize := Nat.ModEq.add_left_cancel' (flashAddr c a) h
  rwa [Nat.mod_eq_of_lt hj, Nat.mod_eq_of_lt hl] at hmod

/-- Only byte `j` of such a transfer goes to its address. -/
theorem filter_flashByteAddr {c : Config} {a : Word} {n j : Nat} (hn : n ≤ c.flashSize) (hj : j < n) :
    ((List.range n).filter fun l => flashByteAddr c a l = flashByteAddr c a j) = [j] := by
  have hsame : ∀ l ∈ List.range n,
      decide (flashByteAddr c a l = flashByteAddr c a j) = (l == j) := by
    intro l hl
    have hlt := List.mem_range.1 hl
    rw [beq_eq_decide]
    exact decide_eq_decide.2
      ⟨flashByteAddr_injOn (hlt.trans_le hn) (hj.trans_le hn), fun h => by rw [h]⟩
  rw [List.filter_congr hsame, List.filter_beq,
    List.count_eq_one_of_mem List.nodup_range (List.mem_range.2 hj), List.replicate_one]

/-- Settles O54: the chip programs the bytes of BUF, or ignores the transfer. -/
theorem programCommandOnTheChip : Obligations.ProgramCommandOnTheChip := by
  intro a n s t hon hinv h
  have hin : s.work.ptr.toNat + n.toNat ≤ s.cfg.bufSize := of_decide_eq_true (bufInRange_of_exec h)
  rw [exec_tPp4 hin] at h
  obtain rfl := Host.Outcome.next.inj h
  obtain ⟨hs, -⟩ := State.inv_iff.1 hinv
  obtain ⟨hm, -⟩ := hs.flash
  obtain ⟨_, -, hchip⟩ := hon.transacted (t := .pp4 a n)
    (c := .tx (s.bufRead s.work.ptr.toNat n.toNat) s.tmo.dflt) nofun
  replace hchip : _ = s.env.chip.transmit s.cfg (some (.pp4 a n))
    (s.bufRead s.work.ptr.toNat n.toNat) := hchip
  split
  · rename_i hset
    obtain ⟨hd, hwel, hwip⟩ := hset
    rw [Chip.transmit_pp4 hd (Chip.accepts_iff.2 ⟨hwel, hwip⟩)] at hchip
    generalize s.transacted (.pp4 a n) _ = t at hchip ⊢
    have hread : ∀ x, t.flashByte x =
        ((List.range n.toNat).filter fun j => flashByteAddr s.cfg a j = x).foldl
          (fun v j => v &&& s.bufByte (s.work.ptr.toNat + j)) (s.flashByte x) := by
      intro x
      rw [State.flashByte, hchip, State.bufRead, Memory.readBytes, List.range_eq_range']
      exact programFrom_read hm
    refine ⟨by rw [hchip]; rfl, by rw [hchip]; rfl, by rw [hchip]; rfl, by rw [hchip]; rfl,
      by rw [hchip]; rfl, by rw [hchip]; exact hd, by rw [hchip]; rfl, hread, ?_, ?_⟩
    · intro hn j hj
      rw [hread, filter_flashByteAddr hn hj]
      rfl
    · intro x hx
      have hnone : ((List.range n.toNat).filter fun j => flashByteAddr s.cfg a j = x) = [] :=
        List.filter_eq_nil_iff.2 fun j hj => by simpa using (hx j (List.mem_range.1 hj)).symm
      rw [hread, hnone]
      rfl
  · rename_i hset
    rw [hchip]
    refine Chip.transmit_ignored fun ⟨hd, hacc⟩ => hset ⟨hd, Chip.accepts_iff.1 hacc⟩

end Sys2Proof.Machine
end

