-- ==== Sys2Proof/Proofs/Encoding.lean ====
section
/-!
Encoding and decoding of both formats are inverse to each other: the request word (30_encoding.md R90 to R93)
and the Command Descriptor (R95 to R117). Each format is settled for its packed fields first, then for the
table that names its instructions.
-/

namespace Sys2Proof

open Laws.EncodeFormat (reqOp_packReq reqA_packReq reqN_packReq)

/-! ### The request word -/

/-- The three fields of a request word are all of it (R90). -/
theorem packReq_fields (w : BitVec 72) : packReq (reqOp w) (reqA w) (reqN w) = w := by
  change (w.extractLsb' 40 32 ++ w.extractLsb' 8 32 ++ w.extractLsb' 0 8 : BitVec (32 + 32 + 8)) = w
  simp (disch := decide) only [BitVec.extractLsb'_append_extractLsb'_eq_extractLsb']
  exact BitVec.extractLsb'_eq_self

/-- The table holds the code of every operation (R91). -/
theorem opTable_lookup_of_opreq {i : Instr} {op : Byte} {a n : Word} (h : i.opreq? = some (op, a, n)) :
    ∃ mk, opTable.lookup op = some mk ∧ mk a n = i := by
  cases i <;> cases h <;> exact ⟨_, rfl, rfl⟩

/-- An entry of the table makes the operation of its code, with the operands given (R91). -/
theorem opreq_of_opTable_lookup {op : Byte} {mk : Word → Word → Instr}
    (h : opTable.lookup op = some mk) (a n : Word) : (mk a n).opreq? = some (op, a, n) := by
  obtain ⟨before, after, htable, -⟩ := List.lookup_eq_some_iff.1 h
  have hmem : (op, mk) ∈ opTable := by simp [htable]
  have hall : ∀ e ∈ opTable, (e.2 a n).opreq? = some (e.1, a, n) := by simp [opTable, Instr.opreq?]
  exact hall _ hmem

/-- The request word of an operation decodes to it (R90, R91). -/
theorem decodeReq_packReq {i : Instr} {op : Byte} {a n : Word} (h : i.opreq? = some (op, a, n)) :
    decodeReq (packReq op a n) = .ok i := by
  obtain ⟨mk, hlookup, rfl⟩ := opTable_lookup_of_opreq h
  rw [decodeReq, reqOp_packReq, reqA_packReq, reqN_packReq, hlookup]

/-- A request word decodes to the operation of its three fields only (R90, R91). -/
theorem opreq_of_decodeReq {w : BitVec 72} {i : Instr} (h : decodeReq w = .ok i) :
    i.opreq? = some (reqOp w, reqA w, reqN w) := by
  unfold decodeReq at h
  split at h
  · rename_i mk hlookup
    obtain rfl := Except.ok.inj h
    exact opreq_of_opTable_lookup hlookup _ _
  · cases h

/-- A word whose code the table does not hold is rejected as a reserved code (R93). -/
theorem decodeReq_reserved {w : BitVec 72} (h : reqOp w ∉ opTable.map Prod.fst) :
    decodeReq w = .error (.reservedOp (reqOp w)) := by
  have hlookup : opTable.lookup (reqOp w) = none := by
    refine List.lookup_eq_none_iff.2 fun e he => bne_iff_ne.2 fun heq => h ?_
    exact List.mem_map.2 ⟨e, he, heq.symm⟩
  rw [decodeReq, hlookup]

/-! ### The packed descriptor -/

@[simp] theorem Lines.ofCode_code (l : Lines) : Lines.ofCode l.code = some l := by cases l <;> rfl

@[simp] theorem DataDir.ofCode_code (x : DataDir) : DataDir.ofCode x.code = some x := by
  cases x <;> rfl

theorem Lines.code_of_ofCode {b : BitVec 2} {l : Lines} (h : Lines.ofCode b = some l) :
    l.code = b := by
  cases l <;> revert b <;> decide

/-- A direction code other than 3 is the code of the direction it is read as (R95). -/
theorem DataDir.code_of_ofCode {b : BitVec 2} {x : DataDir} (hb : b ≠ 3)
    (h : DataDir.ofCode b = some x) : x.code = b := by
  cases x <;> revert b <;> decide

/-- The packed layout with the width of each field in its type, so that the laws of `extractLsb'` and `++`
see where a field begins (R95). -/
def Desc.fields (d : Desc) : BitVec (32 + 2 + 2 + 5 + 2 + 8 + 2 + 6 + 32 + 2 + 8) :=
  d.dataLen ++ d.dataLines.code ++ d.dataDir.code ++ d.dummy ++ d.altLines.code ++ d.alt
    ++ d.addrLines.code ++ d.addrBits ++ d.addr ++ d.instrLines.code ++ d.instr

theorem Desc.pack_eq_fields (d : Desc) : d.pack = d.fields := rfl

/-- Every field of a packed descriptor is read back (R95). -/
theorem Desc.unpack_pack (d : Desc) : Desc.unpack d.pack = some d := by
  change Desc.unpack d.fields = some d
  unfold Desc.unpack Desc.fields
  simp (disch := decide) only [BitVec.extractLsb'_append_eq_of_le,
    BitVec.extractLsb'_append_eq_of_add_le, Nat.reduceSub, BitVec.extractLsb'_eq_self,
    Lines.ofCode_code, DataDir.ofCode_code]

/-- The eleven fields of a packed descriptor are all of it (R95). -/
theorem descriptor_fields (w : BitVec 101) :
    (w.extractLsb' 69 32 ++ w.extractLsb' 67 2 ++ w.extractLsb' 65 2 ++ w.extractLsb' 60 5
      ++ w.extractLsb' 58 2 ++ w.extractLsb' 50 8 ++ w.extractLsb' 48 2 ++ w.extractLsb' 42 6
      ++ w.extractLsb' 10 32 ++ w.extractLsb' 8 2 ++ w.extractLsb' 0 8 :
        BitVec (32 + 2 + 2 + 5 + 2 + 8 + 2 + 6 + 32 + 2 + 8)) = w := by
  simp (disch := decide) only [BitVec.extractLsb'_append_extractLsb'_eq_extractLsb']
  exact BitVec.extractLsb'_eq_self

/-- A word whose direction code is not 3 and that unpacks is the packed descriptor it unpacks to (R95). -/
theorem Desc.pack_of_unpack {w : BitVec 101} {d : Desc} (hdir : w.extractLsb' 65 2 ≠ 3)
    (h : Desc.unpack w = some d) : d.pack = w := by
  unfold Desc.unpack at h
  split at h
  · rename_i il al tl dd dl hil hal htl hdd hdl
    obtain rfl := Option.some.inj h
    simp only [Desc.pack_eq_fields, Desc.fields, Lines.code_of_ofCode hil,
      Lines.code_of_ofCode hal, Lines.code_of_ofCode htl, DataDir.code_of_ofCode hdir hdd,
      Lines.code_of_ofCode hdl]
    exact descriptor_fields w
  · cases h

/-! ### The templates -/

/-- The place of a template in the order of R101 to R116. -/
def Txn.place : Txn → Nat
  | .rdsr => 0
  | .rdscur => 1
  | .rdcr => 2
  | .wren => 3
  | .wrsr _ => 4
  | .pp4 _ _ => 5
  | .se _ => 6
  | .be _ => 7
  | .ce => 8
  | .susp => 9
  | .resm => 10
  | .dp => 11
  | .wake => 12
  | .rsten => 13
  | .qread _ _ => 14
  | .rst => 15

/-- The opcode of a template stands at its place in the list of opcodes (R100). -/
theorem opcodes_place (c : Config) (t : Txn) : c.opcodes[t.place]? = some (t.desc c).instr := by
  cases t <;> rfl

/-- A candidate for a descriptor stands at its place in the list of candidates. -/
theorem candidates_place {d : Desc} {t : Txn} (h : t ∈ d.candidates) :
    d.candidates[t.place]? = some t := by
  simp only [Desc.candidates, List.mem_cons, List.not_mem_nil, or_false] at h
  rcases h with rfl | rfl | rfl | rfl | rfl | rfl | rfl | rfl | rfl | rfl | rfl | rfl | rfl | rfl |
    rfl | rfl <;> rfl

/-- A template is a candidate for its own descriptor, which holds its address and length. -/
theorem mem_candidates_desc (c : Config) (t : Txn) : t ∈ (t.desc c).candidates := by
  cases t <;> simp [Desc.candidates, Txn.desc, Desc.erase]

/-- With opcodes that are pairwise different, a descriptor tells the place of its template (R100). -/
theorem Txn.place_of_desc {c : Config} (hc : c.opcodesDistinct = true) {t u : Txn}
    (h : u.desc c = t.desc c) : u.place = t.place := by
  have hopcode : c.opcodes[u.place]? = c.opcodes[t.place]? := by
    rw [opcodes_place, opcodes_place, h]
  obtain ⟨hlt, -⟩ := List.getElem?_eq_some_iff.1 (opcodes_place c u)
  exact (List.getElem?_inj hlt (of_decide_eq_true hc)).1 hopcode

/-- A descriptor that has a template is the template's (R95). -/
theorem desc_of_decodeTxn {c : Config} {d : Desc} {t : Txn} (h : decodeTxn c d = some t) :
    t.desc c = d := by
  unfold decodeTxn at h
  simpa using List.find?_some h

/-- With opcodes that are pairwise different, the template of a descriptor is found (R100, R117). -/
theorem decodeTxn_desc {c : Config} (hc : c.opcodesDistinct = true) (t : Txn) :
    decodeTxn c (t.desc c) = some t := by
  have hsome : (decodeTxn c (t.desc c)).isSome = true :=
    List.find?_isSome.2 ⟨t, mem_candidates_desc c t, beq_self_eq_true _⟩
  obtain ⟨u, hu⟩ := Option.isSome_iff_exists.1 hsome
  have hplace := candidates_place (List.mem_of_find?_eq_some hu)
  rw [Txn.place_of_desc hc (desc_of_decodeTxn hu), candidates_place (mem_candidates_desc c t)] at hplace
  rw [hu, hplace]

theorem Txn.opreq_toInstr (t : Txn) : t.toInstr.opreq? = none := by cases t <;> rfl

theorem Txn.txn_toInstr (t : Txn) : t.toInstr.txn? = some t := by cases t <;> rfl

/-- The constructor of the template an instruction stands for is the instruction. -/
theorem Txn.toInstr_of_txn {i : Instr} {t : Txn} (h : i.txn? = some t) : t.toInstr = i := by
  cases i <;> cases h <;> rfl

/-- A packed descriptor with no direction code 3 decodes to the template it is the descriptor of only (R95,
R117). -/
theorem decodeDesc_ok {c : Config} {w : BitVec 101} {i : Instr} (hdir : w.extractLsb' 65 2 ≠ 3)
    (h : decodeDesc c w = .ok i) : ∃ t : Txn, i = t.toInstr ∧ (t.desc c).pack = w := by
  unfold decodeDesc at h
  split at h
  · cases h
  · rename_i d hd
    split at h
    · rename_i t ht
      obtain rfl := Except.ok.inj h
      exact ⟨t, rfl, by rw [desc_of_decodeTxn ht, Desc.pack_of_unpack hdir hd]⟩
    · cases h

/-! ### The words of both formats -/

theorem encode_of_opreq {c : Config} {i : Instr} {op : Byte} {a n : Word}
    (h : i.opreq? = some (op, a, n)) : encode c i = .request (packReq op a n) := by
  rw [encode, h]

theorem encode_of_txn {c : Config} {i : Instr} {t : Txn} (ho : i.opreq? = none)
    (ht : i.txn? = some t) : encode c i = .descriptor (t.desc c).pack := by
  rw [encode, ho, ht]

/-- Settles O1: an operation through its request word, a template through its descriptor. -/
theorem decodeOfEncode : Obligations.DecodeOfEncode := by
  intro c i hc
  cases ht : i.txn? with
  | none =>
    obtain ⟨op, a, n, hop⟩ := Machine.opreq_of_no_txn ht
    rw [encode_of_opreq hop]
    exact decodeReq_packReq hop
  | some t =>
    obtain rfl := Txn.toInstr_of_txn ht
    rw [encode_of_txn t.opreq_toInstr ht, decode, decodeDesc, Desc.unpack_pack]
    simp only [decodeTxn_desc hc]

/-- `T_WREN` with 3 for its direction code, a code no descriptor has (R95). -/
def wrenWithDirection3 : BitVec 101 := 0x60000000000000106

/-- The decoder takes that word for `T_WREN`: `DataDir.ofCode` reads 3 as "no data phase", because `none` in
its last branch names the constructor `DataDir.none`. -/
theorem decode_wrenWithDirection3 :
    decode Config.default (.descriptor wrenWithDirection3) = .ok .tWren := rfl

/-- Refutes O2: the word decodes to `T_WREN`, whose own word has the direction code 0. -/
theorem not_encodeOfDecode : ¬ Obligations.EncodeOfDecode := by
  intro h
  have hword : encode Config.default .tWren = .descriptor wrenWithDirection3 :=
    h Config.default (.descriptor 0x60000000000000106) .tWren decode_wrenWithDirection3
  exact absurd hword (by decide)

/-- What holds of O2: a word that decodes is the word of its instruction, unless it is a descriptor with
direction code 3. -/
theorem encode_of_decode {c : Config} {p : Packet} {i : Instr}
    (hdir : ∀ w, p = .descriptor w → w.extractLsb' 65 2 ≠ 3) (h : decode c p = .ok i) :
    encode c i = p := by
  cases p with
  | request w => rw [encode_of_opreq (opreq_of_decodeReq h), packReq_fields]
  | descriptor w =>
    obtain ⟨t, rfl, hpack⟩ := decodeDesc_ok (hdir w rfl) h
    rw [encode_of_txn t.opreq_toInstr t.txn_toInstr, hpack]

/-- Settles O3: the eighteen rows of the table, and the codes it does not hold. -/
theorem assignedOperationCodes : Obligations.AssignedOperationCodes := by
  intro a n
  refine ⟨decodeReq_packReq rfl, decodeReq_packReq rfl, decodeReq_packReq rfl, decodeReq_packReq rfl,
    decodeReq_packReq rfl, decodeReq_packReq rfl, decodeReq_packReq rfl, decodeReq_packReq rfl,
    decodeReq_packReq rfl, decodeReq_packReq rfl, decodeReq_packReq rfl, decodeReq_packReq rfl,
    decodeReq_packReq rfl, decodeReq_packReq rfl, decodeReq_packReq rfl, decodeReq_packReq rfl,
    decodeReq_packReq rfl, decodeReq_packReq rfl, fun op hop => ?_⟩
  have hcode := reqOp_packReq op a n
  rw [decodeReq_reserved (by rw [hcode]; exact hop), hcode]

/-- Settles O4: seven closed words, each evaluated. -/
theorem workedEncodingsDecode : Obligations.WorkedEncodingsDecode :=
  ⟨rfl, rfl, rfl, rfl, rfl, rfl, rfl⟩

end Sys2Proof

namespace Sys2Proof.Machine

/-! ### A reserved code at the port -/

/-- A request word whose code is reserved runs to ERROR, while the host's stores to come stay inside BUF
(R93). -/
theorem runPacket_reserved {w : BitVec 72} {s : State} (hst : storesInBuf s.cfg s.hostStores = true)
    (h : reqOp w ∉ opTable.map Prod.fst) :
    runPacket (.request w) s = execReserved (reqOp w) (reqA w) (reqN w) s := by
  unfold runPacket
  rw [if_pos hst, decode, decodeReq_reserved h]

/-- Where no call was made and BUF is as before, the block wrote no byte of BUF. -/
theorem State.bufKept_of_eq {s t : State} (hb : t.buf = s.buf) (he : t.env = s.env) : s.bufKept t := by
  have hread : ∀ x, t.bufByte x = s.bufByte x := fun x => by rw [State.bufByte, State.bufByte, hb]
  refine ⟨fun x => ?_, fun _ => hread⟩
  rw [hread, he, Nat.sub_self, State.bufAfter_zero]
  rfl

/-- What a reserved code leaves: the request accepted, its abort, and every other field as before (R93). -/
theorem execReserved_ensures (op : Byte) (a n : Word) (s : State) :
    ∃ t, execReserved op a n s = .next t ∧ t.aborted .reservedOp .error ∧ t.trace = [] ∧
      t.env = s.env ∧ t.req = ⟨op, a, n⟩ ∧ t.host = s.host ∧ t.tmo = s.tmo ∧ s.dataKept t := by
  have hkept : s.dataKept (((s.accept op a n).setCause (some .reservedOp)).finish .error) :=
    ⟨by simp, by simp, by simp, State.bufKept_of_eq (by simp) (by simp)⟩
  exact ⟨((s.accept op a n).setCause (some .reservedOp)).finish .error, rfl, ⟨⟨rfl, rfl, rfl⟩, rfl⟩,
    by simp, by simp, by simp, by simp, by simp, hkept⟩

/-- Settles O7: the step accepts the request, and its abort leaves what was taken from the inbox. -/
theorem reservedCodeReturnsError : Obligations.ReservedCodeReturnsError := by
  intro s w rest hwf hp hst hin hop
  obtain ⟨t, hrun, haborted, htrace, henv, hreq, hhost, htmo, hkept⟩ :=
    execReserved_ensures (reqOp w) (reqA w) (reqN w) (s.take rest)
  refine ⟨t, ?_, haborted, htrace, henv, hreq, by rw [hhost]; rfl, htmo, hkept⟩
  calc step s = runPacket (.request w) (s.take rest) := step_of_idle hwf hp hin
    _ = execReserved (reqOp w) (reqA w) (reqN w) (s.take rest) := runPacket_reserved hst hop
    _ = .next t := hrun

end Sys2Proof.Machine
end

