-- ==== Sys2Proof/Proofs/Latches.lean ====
section
/-!
An operation reads only the operands in its row (30_encoding.md R92). The operands an operation reads are those
its body is written with; the body itself reads no latch, so that two requests with the same body differ in
nothing but the latches. POLL_READY alone takes its timeout from a latch, `N`, which its row names.
-/

namespace Sys2Proof.Machine

/-! ### Pieces that ignore the latches -/

/-- The piece neither reads nor writes an operand latch. -/
def Seq.IgnoresReq {α : Type} (m : Seq α) : Prop :=
  ∀ (s : State) (v : Latches), m (s.setReq v) = ((m s).1, (m s).2.setReq v)

section IgnoresReq

variable {α β : Type}

theorem Seq.IgnoresReq.pure (x : α) : (Seq.pure x).IgnoresReq := fun _ _ => rfl

theorem Seq.IgnoresReq.abort (c : Cause) (code : StatusCode) : (Seq.abort c code).IgnoresReq :=
  fun _ _ => rfl

theorem Seq.IgnoresReq.andThen {m : Seq β} {k : β → Seq α} (hm : m.IgnoresReq)
    (hk : ∀ x, (k x).IgnoresReq) : (m.andThen k).IgnoresReq := by
  intro s v
  unfold Seq.andThen
  rw [hm s v]
  rcases m s with ⟨_ | r, t⟩
  · rfl
  · exact hk r t v

theorem Seq.IgnoresReq.look {k : State → Seq α} (hread : ∀ s v, k (State.setReq s v) = k s)
    (hk : ∀ s, (k s).IgnoresReq) : (Seq.look k).IgnoresReq := by
  intro s v
  unfold Seq.look
  rw [hread s v]
  exact hk s s v

theorem Seq.IgnoresReq.update {f : State → State} {k : Seq α}
    (hf : ∀ s v, f (State.setReq s v) = (f s).setReq v) (hk : k.IgnoresReq) :
    (Seq.update f k).IgnoresReq := by
  intro s v
  unfold Seq.update
  rw [hf s v]
  exact hk (f s) v

theorem Seq.IgnoresReq.label {m : Seq α} (l : Label) (hm : m.IgnoresReq) :
    (Seq.label l m).IgnoresReq := by
  intro s v
  have hpush : (s.setReq v).setPhase (s.phase ++ [l]) = (s.setPhase (s.phase ++ [l])).setReq v := rfl
  unfold Seq.label
  rw [State.setReq_phase, hpush, hm _ v]
  rcases m (s.setPhase (s.phase ++ [l])) with ⟨_ | r, t⟩ <;> rfl

theorem Seq.IgnoresReq.ite {p : Prop} [Decidable p] {m k : Seq α} (hm : m.IgnoresReq)
    (hk : k.IgnoresReq) : (if p then m else k).IgnoresReq := by
  split
  · exact hm
  · exact hk

theorem Seq.IgnoresReq.orAbort {m : Seq Answer} {c : Cause} {code : StatusCode}
    {k : List Byte → Seq StatusCode} (hm : m.IgnoresReq) (hk : ∀ b, (k b).IgnoresReq) :
    (m.orAbort c code k).IgnoresReq := by
  refine hm.andThen fun r => ?_
  cases r with
  | ok b => exact hk b
  | fail => exact .abort _ _
  | never => exact .abort _ _

theorem Seq.IgnoresReq.orReturn {m k : Seq StatusCode} {code : StatusCode} (hm : m.IgnoresReq)
    (hk : k.IgnoresReq) : (m.orReturn code k).IgnoresReq :=
  .andThen hm fun _ => .ite hk (.pure _)

end IgnoresReq

/-! ### The subroutines -/

/-- The environment sees no latch of the block (20_memory.md R70). -/
theorem call_ignoresReq (c : Call) : (call c).IgnoresReq := by
  intro s v
  rw [call_eq, call_eq]
  rfl

theorem execCall_ignoresReq (t : Txn) : (execCall t).IgnoresReq :=
  .look (fun _ _ => rfl) fun _ => call_ignoresReq _

theorem cmd_ignoresReq (t : Txn) : (cmd t).IgnoresReq := execCall_ignoresReq t

theorem txCall_ignoresReq (bs : List Byte) : (txCall bs).IgnoresReq :=
  .look (fun _ _ => rfl) fun _ => call_ignoresReq _

theorem rxCall_ignoresReq (n : Word) : (rxCall n).IgnoresReq :=
  .look (fun _ _ => rfl) fun _ => call_ignoresReq _

theorem pollCall_ignoresReq (p : Config → Pred) {tmo : State → Word}
    (ht : ∀ s v, tmo (State.setReq s v) = tmo s) : (pollCall p tmo).IgnoresReq :=
  .look (fun s v => by rw [ht, State.setReq_cfg]) fun _ => call_ignoresReq _

theorem readReg_ignoresReq (t : Txn) (n : Word) : (readReg t n).IgnoresReq := by
  refine .andThen (.label _ (execCall_ignoresReq t)) fun r => ?_
  cases r with
  | ok => exact .label _ (rxCall_ignoresReq n)
  | fail => exact .pure _
  | never => exact .pure _

theorem writeReg_ignoresReq (t : Txn) (bs : List Byte) : (writeReg t bs).IgnoresReq := by
  refine .andThen (.label _ (execCall_ignoresReq t)) fun r => ?_
  cases r with
  | ok => exact .label _ (txCall_ignoresReq bs)
  | fail => exact .pure _
  | never => exact .pure _

theorem doGetStatus_ignoresReq : doGetStatus.IgnoresReq := by
  refine .orAbort (.label _ (readReg_ignoresReq _ _)) fun b => .look (fun _ _ => rfl) fun s => ?_
  split
  · exact .abort _ _
  · exact .pure _
  · exact .orAbort (.label _ (readReg_ignoresReq _ _)) fun _ => .look (fun _ _ => rfl) fun _ => .pure _

theorem doPollReady_ignoresReq {tmo : State → Word}
    (ht : ∀ s v, tmo (State.setReq s v) = tmo s) : (doPollReady tmo).IgnoresReq :=
  .orAbort (.label _ (pollCall_ignoresReq _ ht)) fun _ => .pure _

theorem doWriteEnable_ignoresReq : doWriteEnable.IgnoresReq :=
  .orAbort (.label _ (cmd_ignoresReq _)) fun _ =>
    .orAbort (.label _ (pollCall_ignoresReq _ fun _ _ => rfl)) fun _ => .pure _

theorem doResetChip_ignoresReq : doResetChip.IgnoresReq :=
  .orAbort (.label _ (cmd_ignoresReq _)) fun _ => .orAbort (.label _ (cmd_ignoresReq _)) fun _ =>
    .andThen (.label _ (doPollReady_ignoresReq fun _ _ => rfl)) fun _ => .ite (.pure _) (.abort _ _)

theorem doQuadMode_ignoresReq (en : Bool) : (doQuadMode en).IgnoresReq := by
  refine .orAbort (.label _ (readReg_ignoresReq _ _)) fun b => .update (fun _ _ => rfl) ?_
  refine .orReturn (.label _ doWriteEnable_ignoresReq) (.look (fun _ _ => rfl) fun s => ?_)
  refine .orAbort (.label _ (writeReg_ignoresReq _ _)) fun _ => ?_
  refine .orReturn (.label _ (doPollReady_ignoresReq fun _ _ => rfl)) ?_
  refine .orAbort (.label _ (readReg_ignoresReq _ _)) fun v => .update (fun _ _ => rfl) ?_
  exact .look (fun _ _ => rfl) fun t => .ite (.pure _) (.abort _ _)

theorem hpWriteBack_ignoresReq (en : Bool) : (hpWriteBack en).IgnoresReq := by
  refine .orReturn (.label _ doWriteEnable_ignoresReq) (.look (fun _ _ => rfl) fun s => ?_)
  refine .orAbort (.label _ (writeReg_ignoresReq _ _)) fun _ => ?_
  refine .orReturn (.label _ (doPollReady_ignoresReq fun _ _ => rfl)) ?_
  refine .orAbort (.label _ (readReg_ignoresReq _ _)) fun v => .update (fun _ _ => rfl) ?_
  refine .look (fun _ _ => rfl) fun t => .ite ?_ (.abort _ _)
  exact .orAbort (.label _ (call_ignoresReq _)) fun _ =>
    .orAbort (.label _ (call_ignoresReq _)) fun _ => .pure _

theorem doHpMode_ignoresReq (en : Bool) : (doHpMode en).IgnoresReq :=
  .orAbort (.label _ (readReg_ignoresReq _ _)) fun _ => .update (fun _ _ => rfl) <|
    .orAbort (.label _ (readReg_ignoresReq _ _)) fun _ => .update (fun _ _ => rfl) <|
      hpWriteBack_ignoresReq en

theorem doInit_ignoresReq : doInit.IgnoresReq :=
  .update (fun _ _ => rfl) <|
    .orAbort (.label _ (call_ignoresReq _)) fun _ => .orAbort (.label _ (call_ignoresReq _)) fun _ =>
      .orReturn (.label _ doResetChip_ignoresReq) <|
        .orReturn (.label _ (doQuadMode_ignoresReq true)) <|
          .orReturn (.label _ (doHpMode_ignoresReq true)) <|
            .update (fun _ _ => rfl) (.pure _)

theorem changeEraseState_ignoresReq (l0 l2 l3 : Label) (source target : StatusCode) (t : Txn) :
    (changeEraseState l0 l2 l3 source target t).IgnoresReq := by
  refine .andThen (.label _ doGetStatus_ignoresReq) fun st =>
    .update (fun _ _ => rfl) (.ite ?_ (.pure _))
  refine .orAbort (.label _ (cmd_ignoresReq _)) fun _ =>
    .andThen (.label _ doGetStatus_ignoresReq) fun st' => ?_
  exact .update (fun _ _ => rfl) (.ite (.pure _) (.abort _ _))

theorem powerBody_ignoresReq (l : Label) (t : Txn) :
    ((Seq.label l (cmd t)).orAbort .bus .error fun _ => Seq.pure .ok).IgnoresReq :=
  .orAbort (.label _ (cmd_ignoresReq _)) fun _ => .pure _

theorem eraseBody_ignoresReq (l0 l1 l2 : Label) (t : Txn) {tmo : State → Word}
    (ht : ∀ s v, tmo (State.setReq s v) = tmo s) :
    ((Seq.label l0 doWriteEnable).orReturn .error <|
      (Seq.label l1 (cmd t)).orAbort .bus .error fun _ =>
        (Seq.label l2 (doPollReady tmo)).orReturn .error (Seq.pure .ok)).IgnoresReq :=
  .orReturn (.label _ doWriteEnable_ignoresReq) <|
    .orAbort (.label _ (cmd_ignoresReq _)) fun _ =>
      .orReturn (.label _ (doPollReady_ignoresReq ht)) (.pure _)

/-! ### The operations -/

/-- The operations with an operand they ignore (30_encoding.md R92), but for POLL_READY: what they read of `A`
their body is written with. -/
def readsNoLatch : Instr → Bool
  | .getStatus _ _ | .writeEnable _ _ | .quadMode _ _ | .hpMode _ _ | .eraseBlock _ _
  | .eraseSector _ _ | .eraseChip _ _ | .suspendErase _ _ | .resumeErase _ _ | .sleep _ _
  | .wakeup _ _ | .init _ _ | .deinit _ _ | .getGeometry _ _ | .resetChip _ _ => true
  | _ => false

/-- The bodies of these operations ignore the latches. -/
theorem opBody_ignoresReq {i : Instr} (hi : readsNoLatch i = true) : (opBody i).IgnoresReq := by
  cases i with
  | getStatus => exact .label _ doGetStatus_ignoresReq
  | writeEnable => exact .label _ doWriteEnable_ignoresReq
  | quadMode => exact .label _ (doQuadMode_ignoresReq _)
  | hpMode => exact .label _ (doHpMode_ignoresReq _)
  | eraseBlock => exact eraseBody_ignoresReq _ _ _ _ fun _ _ => rfl
  | eraseSector a =>
    unfold opBody
    refine .look (fun _ _ => rfl) fun t => .ite ?_ (.abort _ _)
    exact .orReturn (.label _ doWriteEnable_ignoresReq) (powerBody_ignoresReq _ _)
  | eraseChip => exact eraseBody_ignoresReq _ _ _ _ fun _ _ => rfl
  | suspendErase => exact changeEraseState_ignoresReq _ _ _ _ _ _
  | resumeErase => exact changeEraseState_ignoresReq _ _ _ _ _ _
  | sleep => exact powerBody_ignoresReq _ _
  | wakeup => exact powerBody_ignoresReq _ _
  | init => exact doInit_ignoresReq
  | deinit =>
    unfold opBody
    refine .update (fun _ _ => rfl) (.orReturn (.label _ doResetChip_ignoresReq) ?_)
    exact .andThen (.label _ fun _ _ => rfl) fun _ => .pure _
  | getGeometry => exact .pure _
  | resetChip => exact .label _ doResetChip_ignoresReq
  | _ => cases hi

/-- Two requests of one code whose bodies end alike, but for the latches, end in the same state but for the
latches. -/
theorem exec_of_body {i j : Instr} {op : Byte} {a n a' n' : Word} {s t : State}
    (hi : i.opreq? = some (op, a, n)) (hj : j.opreq? = some (op, a', n'))
    (hb : bufInRange s j = true)
    (hbody : opBody j (s.accept op a' n') =
      ((opBody i (s.accept op a n)).1, (opBody i (s.accept op a n)).2.setReq ⟨op, a', n'⟩))
    (h : exec i s = .next t) : exec j s = .next (t.setReq ⟨op, a', n'⟩) := by
  rw [exec_eq_runOp hi (bufInRange_of_exec h), runOp_next] at h
  rw [exec_eq_runOp hj hb, runOp_next, hbody, ← h]
  rcases opBody i (s.accept op a n) with ⟨_ | code, u⟩ <;> rfl

/-- Two requests of one code with one body that ignores the latches. -/
theorem exec_setReq {i j : Instr} {op : Byte} {a n a' n' : Word} {s t : State}
    (hi : i.opreq? = some (op, a, n)) (hj : j.opreq? = some (op, a', n'))
    (hb : bufInRange s j = true) (hbody : opBody j = opBody i) (hreads : readsNoLatch i = true)
    (h : exec i s = .next t) : exec j s = .next (t.setReq ⟨op, a', n'⟩) := by
  refine exec_of_body hi hj hb ?_ h
  rw [hbody]
  exact opBody_ignoresReq hreads (s.accept op a n) ⟨op, a', n'⟩

/-- The timeout of POLL_READY is its operand `N`, whatever `A` holds (40_status_poll_wren.md R134). -/
theorem exec_pollReady_setReq {a a' n : Word} {s t : State} (h : exec (.pollReady a n) s = .next t) :
    exec (.pollReady a' n) s = .next (t.setReq ⟨0x02, a', n⟩) := by
  have hconst : ∀ b, opBody (.pollReady b n) (s.accept 0x02 b n) =
      Seq.label .S0 (doPollReady fun _ => n) (s.accept 0x02 b n) := fun _ => rfl
  have hignores : (Seq.label .S0 (doPollReady fun _ => n)).IgnoresReq :=
    .label _ (doPollReady_ignoresReq fun _ _ => rfl)
  refine exec_of_body rfl rfl rfl ?_ h
  rw [hconst, hconst]
  exact hignores (s.accept 0x02 a n) ⟨0x02, a', n⟩

/-- Settles O48: the two requests of each row have one body; for the mode operations because bit 0 of `A` is
the same. -/
theorem ignoredOperandsHaveNoEffect : Obligations.IgnoredOperandsHaveNoEffect := by
  intro a n a' n' s t
  refine ⟨exec_setReq rfl rfl rfl rfl rfl, exec_pollReady_setReq, exec_setReq rfl rfl rfl rfl rfl,
    fun hbit => exec_setReq rfl rfl rfl ?quad rfl, fun hbit => exec_setReq rfl rfl rfl ?hp rfl,
    exec_setReq rfl rfl rfl rfl rfl, exec_setReq rfl rfl rfl rfl rfl, exec_setReq rfl rfl rfl rfl rfl,
    exec_setReq rfl rfl rfl rfl rfl, exec_setReq rfl rfl rfl rfl rfl, exec_setReq rfl rfl rfl rfl rfl,
    exec_setReq rfl rfl rfl rfl rfl, exec_setReq rfl rfl rfl rfl rfl, exec_setReq rfl rfl rfl rfl rfl,
    exec_setReq rfl rfl rfl rfl rfl, exec_setReq rfl rfl rfl rfl rfl⟩
  case quad => exact congrArg (fun en => Seq.label .S0 (doQuadMode en)) hbit.symm
  case hp => exact congrArg (fun en => Seq.label .S0 (doHpMode en)) hbit.symm

end Sys2Proof.Machine
end

