-- ==== Sys2Proof/Proofs/Transfers.lean ====
section
/-!
The descriptors an operation emits and the data transfers that follow them (30_encoding.md R98, 20_memory.md R71
to R73). A `Tx` or `Rx` is made in four places only, each right after its `Exec`: in `ReadReg`, in `WriteReg`, in
READ and in the chunks of WRITE. The walk over the pieces uses the combinators of `Seq.Stays`.
-/

namespace Sys2Proof.Machine

/-! ### The fields of a descriptor -/

/-- The size of an address phase is not 0 in the descriptor's six bits (00_scope.md R8). -/
theorem Config.addrBits_ne_zero {c : Config} (hc : c.wf = true) :
    BitVec.ofNat 6 c.addrBits ≠ 0#6 := by
  simp only [Config.wf, Config.geometryOk, Bool.and_eq_true, decide_eq_true_eq] at hc
  obtain ⟨⟨⟨⟨-, hlo⟩, hhi⟩, -⟩, -⟩ := hc
  intro hzero
  have hmod : c.addrBits % 2 ^ 6 = 0 := by simpa using congrArg BitVec.toNat hzero
  omega

/-- The descriptor invariant holds of every template (30_encoding.md R98). -/
theorem descSound_desc {c : Config} (hc : c.wf = true) (t : Txn) : descSound (t.desc c) := by
  have hbits := Config.addrBits_ne_zero hc
  cases t with
  | rdsr | rdscur | rdcr => simp [descSound, Txn.desc, Desc.regRead, Desc.bare]
  | se | be => simp [descSound, Txn.desc, Desc.erase, Desc.bare, hbits]
  | pp4 | qread => simp [descSound, Txn.desc, Desc.bare, hbits]
  | wrsr | wren | ce | susp | resm | dp | wake | rsten | rst =>
    simp [descSound, Txn.desc, Desc.bare]

/-! ### Traces whose transfers are paired -/

/-- The data transfer that may follow a trace. -/
def openAfter (before : Option Txn) (es : List Event) : Option Txn :=
  es.foldl (fun _ e => e.openTransfer) before

@[simp] theorem openAfter_append (before : Option Txn) (es : List Event) (e : Event) :
    openAfter before (es ++ [e]) = e.openTransfer := by
  simp [openAfter]

/-- One more line keeps a trace paired, if its call fits the line before it. -/
theorem pairedFrom_append {c : Config} {before : Option Txn} {es : List Event} {e : Event} :
    pairedFrom c before (es ++ [e]) = true ↔
      pairedFrom c before es = true ∧ e.call.fits c (openAfter before es) = true := by
  induction es generalizing before with
  | nil => simp [pairedFrom, openAfter]
  | cons x es ih =>
    have hopen : openAfter before (x :: es) = openAfter x.openTransfer es := rfl
    simp [pairedFrom, ih, hopen, and_assoc]

/-- What is kept in a run from `s0`: every data transfer so far directly follows its `Exec`. -/
def paired (s0 : State) (es : List Event) (_ : Env) : Prop := pairedFrom s0.cfg none es = true

/-- The piece, run from a paired trace, leaves one, and working registers as `W` says. -/
def Seq.Pairs {α : Type} (s0 : State) (i : Instr) (W : Work → Prop) (m : Seq α) : Prop :=
  m.Stays s0 i (paired s0) W W

/-! ### The calls -/

section Pairs

variable {s0 : State} {i : Instr} {W W' : Work → Prop} {α : Type}

/-- A call that fits the line before it. -/
theorem call_pairs_from {s : State} {c : Call} (hs : s0.During i (paired s0) s) (hw : W s.work)
    (hfit : c.fits s0.cfg (openAfter none s.trace) = true) :
    (call c).KeepsFrom s0 i (paired s0) W s :=
  call_ensures.2 ⟨⟨hs.cfg, hs.tmo, hs.timeout, pairedFrom_append.2 ⟨hs.hist, hfit⟩⟩, fun _ => hw⟩

/-- A call that is no data transfer fits any line. -/
theorem call_pairs {c : Call} (hfit : ∀ u, c.fits s0.cfg u = true) : (call c).Pairs s0 i W :=
  fun _ hs hw => call_pairs_from hs hw (hfit _)

theorem execCall_pairs (t : Txn) : (execCall t).Pairs s0 i W :=
  fun s hs hw => call_pairs (fun _ => rfl) s hs hw

theorem cmd_pairs (t : Txn) : (cmd t).Pairs s0 i W := execCall_pairs t

theorem pollCall_pairs (p : Config → Pred) (tmo : State → Word) : (pollCall p tmo).Pairs s0 i W :=
  fun s hs hw => call_pairs (fun _ => rfl) s hs hw

theorem busRelease_pairs : busRelease.Pairs s0 i W :=
  fun _ hs hw => busRelease_ensures.2
    ⟨⟨hs.cfg, hs.tmo, hs.timeout, pairedFrom_append.2 ⟨hs.hist, rfl⟩⟩, fun _ => hw⟩

/-- `Exec`, then a piece that may make the data transfer its template asks for. -/
theorem exec_then_pairs {l : Label} {t : Txn} {k : Answer → Seq α}
    (hok : ∀ b s, s0.During i (paired s0) s → W s.work → openAfter none s.trace = some t →
      (k (.ok b)).KeepsFrom s0 i (paired s0) W' s)
    (hfail : (k .fail).Stays s0 i (paired s0) W W') :
    ((Seq.label l (execCall t)).andThen k).Stays s0 i (paired s0) W W' := by
  intro s hs hw
  have hrun : s0.During i (paired s0)
      ((s.setPhase (s.phase ++ [l])).afterCall (.exec t s.tmo.dflt)) :=
    ⟨hs.cfg, hs.tmo, hs.timeout, pairedFrom_append.2 ⟨hs.hist, rfl⟩⟩
  refine (Seq.andThen_ensures _ _).2 ((Seq.label_ensures _ _).2 (execCall_ensures.2 ?_))
  refine call_cases (fun b hb => ?_) (fun _ => ?_) (fun _ => ⟨hrun, fun h => absurd rfl h⟩)
  · refine hok b _ (hrun.setPhase _) hw ((openAfter_append _ _ _).trans ?_)
    change (s.env.respond s.cfg (.exec t s.tmo.dflt)).1 = .ok b at hb
    simp [hb, Event.openTransfer]
  · exact hfail _ (hrun.setPhase _) hw

/-- The `Rx` of the descriptor before it. -/
theorem label_rxCall_pairs {l : Label} {t : Txn} {n : Word} {s : State}
    (hfit : ∀ tmo, (Call.rx n tmo).fits s0.cfg (some t) = true) (hs : s0.During i (paired s0) s)
    (hw : W s.work) (ho : openAfter none s.trace = some t) :
    (Seq.label l (rxCall n)).KeepsFrom s0 i (paired s0) W s :=
  .label <| rxCall_ensures.2 <| call_pairs_from (hs.setPhase _) hw <| by
    rw [State.setPhase_trace, ho, hfit]

/-- The `Tx` of the descriptor before it. -/
theorem label_txCall_pairs {l : Label} {t : Txn} {bytes : List Byte} {s : State}
    (hfit : ∀ tmo, (Call.tx bytes tmo).fits s0.cfg (some t) = true)
    (hs : s0.During i (paired s0) s) (hw : W s.work) (ho : openAfter none s.trace = some t) :
    (Seq.label l (txCall bytes)).KeepsFrom s0 i (paired s0) W s :=
  .label <| txCall_ensures.2 <| call_pairs_from (hs.setPhase _) hw <| by
    rw [State.setPhase_trace, ho, hfit]

/-! ### The helpers and subroutines -/

theorem readReg_pairs {t : Txn} {n : Word}
    (hfit : ∀ tmo, (Call.rx n tmo).fits s0.cfg (some t) = true) : (readReg t n).Pairs s0 i W :=
  exec_then_pairs (fun _ _ => label_rxCall_pairs hfit) .done

theorem writeReg_pairs {t : Txn} {bytes : List Byte}
    (hfit : ∀ tmo, (Call.tx bytes tmo).fits s0.cfg (some t) = true) :
    (writeReg t bytes).Pairs s0 i W :=
  exec_then_pairs (fun _ _ => label_txCall_pairs hfit) .done

theorem doGetStatus_pairs : doGetStatus.Pairs s0 i W := by
  refine .orAbort (.label (readReg_pairs fun _ => rfl)) fun b => .look fun s _ _ => ?_
  split
  · exact .fail
  · exact .done
  · exact .orAbort (.label (readReg_pairs fun _ => rfl)) fun b' => .look fun _ _ _ => .done

theorem doPollReady_pairs (tmo : State → Word) : (doPollReady tmo).Pairs s0 i W :=
  .orAbort (.label (pollCall_pairs _ _)) fun _ => .done

theorem doWriteEnable_pairs : doWriteEnable.Pairs s0 i W :=
  .orAbort (.label (cmd_pairs _)) fun _ => .orAbort (.label (pollCall_pairs _ _)) fun _ => .done

theorem doResetChip_pairs : doResetChip.Pairs s0 i W :=
  .orAbort (.label (cmd_pairs _)) fun _ => .orAbort (.label (cmd_pairs _)) fun _ =>
    .andThen (.label (doPollReady_pairs _)) fun _ => .ite (fun _ => .done) fun _ => .fail

theorem doQuadMode_pairs (en : Bool) : (doQuadMode en).Pairs s0 i W := by
  refine .orAbort (.label (readReg_pairs fun _ => rfl)) fun b => .writeScratch ?_
  refine .orReturn (.label doWriteEnable_pairs) (.look fun s _ _ => ?_)
  refine .orAbort (.label (writeReg_pairs fun _ => rfl)) fun _ => ?_
  refine .orReturn (.label (doPollReady_pairs _)) ?_
  refine .orAbort (.label (readReg_pairs fun _ => rfl)) fun v => .writeScratch ?_
  exact .look fun t _ _ => .ite (fun _ => .done) fun _ => .fail

theorem hpWriteBack_pairs (en : Bool) : (hpWriteBack en).Pairs s0 i W := by
  refine .orReturn (.label doWriteEnable_pairs) (.look fun s _ _ => ?_)
  refine .orAbort (.label (writeReg_pairs fun _ => rfl)) fun _ => ?_
  refine .orReturn (.label (doPollReady_pairs _)) ?_
  refine .orAbort (.label (readReg_pairs fun _ => rfl)) fun v => .writeScratch ?_
  refine .look fun t _ _ => .ite (fun _ => ?_) fun _ => .fail
  exact .orAbort (.label (call_pairs fun _ => rfl)) fun _ =>
    .orAbort (.label (call_pairs fun _ => rfl)) fun _ => .done

theorem doHpMode_pairs (en : Bool) : (doHpMode en).Pairs s0 i W :=
  .orAbort (.label (readReg_pairs fun _ => rfl)) fun _ => .writeScratch <|
    .orAbort (.label (readReg_pairs fun _ => rfl)) fun _ => .writeScratch <| hpWriteBack_pairs en

theorem doInit_pairs : doInit.Pairs s0 i W :=
  .writeInited <|
    .orAbort (.label (call_pairs fun _ => rfl)) fun _ =>
      .orAbort (.label (call_pairs fun _ => rfl)) fun _ =>
        .orReturn (.label doResetChip_pairs) <| .orReturn (.label (doQuadMode_pairs true)) <|
          .orReturn (.label (doHpMode_pairs true)) <| .writeInited .done

theorem changeEraseState_pairs (l0 l2 l3 : Label) (source target : StatusCode) (t : Txn) :
    (changeEraseState l0 l2 l3 source target t).Pairs s0 i anyWork := by
  refine .andThen (.label doGetStatus_pairs) fun st =>
    .writeWork (W' := anyWork) (fun _ _ _ => trivial) (.ite (fun _ => ?_) fun _ => .done)
  refine .orAbort (.label (cmd_pairs t)) fun _ => .andThen (.label doGetStatus_pairs) fun st' => ?_
  exact .writeWork (W' := anyWork) (fun _ _ _ => trivial) (.ite (fun _ => .done) fun _ => .fail)

theorem eraseBody_pairs (l0 l1 l2 : Label) (t : Txn) (tmo : State → Word) :
    ((Seq.label l0 doWriteEnable).orReturn .error <|
      (Seq.label l1 (cmd t)).orAbort .bus .error fun _ =>
        (Seq.label l2 (doPollReady tmo)).orReturn .error (Seq.pure .ok)).Pairs s0 i W :=
  .orReturn (.label doWriteEnable_pairs) <| .orAbort (.label (cmd_pairs t)) fun _ =>
    .orReturn (.label (doPollReady_pairs tmo)) .done

theorem powerBody_pairs (l : Label) (t : Txn) :
    ((Seq.label l (cmd t)).orAbort .bus .error fun _ => Seq.pure .ok).Pairs s0 i W :=
  .orAbort (.label (cmd_pairs t)) fun _ => .done

/-- READ receives the bytes its quad read asks for (44_boundary_ops.md R201). -/
theorem readBody_pairs (a n : Word) : (opBody (.read a n)).Pairs s0 i W := by
  have hfit : ∀ tmo, (Call.rx n tmo).fits s0.cfg (some (.qread a n)) = true := fun _ => by
    simp [Call.fits, Txn.desc]
  refine exec_then_pairs (fun _ s hs hw ho => ?_) .fail
  exact Seq.KeepsFrom.orAbort (fun _ => id) (label_rxCall_pairs hfit hs hw ho) fun _ =>
    .storeBuf .done

/-- A chunk of WRITE sends the bytes its program command asks for: `CHUNK` is the same at steps X2 and X3
(41_program.md R151). -/
theorem writeChunk_pairs {k : Seq StatusCode} (hk : k.Pairs s0 i anyWork) :
    (writeChunk k).Pairs s0 i anyWork := by
  refine .orReturn (.label doWriteEnable_pairs) fun s hs hw => (Seq.look_ensures _).2 ?_
  refine exec_then_pairs (W := (· = s.work)) (fun _ t ht htw ho => ?_) (.abort fun _ _ => trivial)
    s hs rfl
  have hfit : ∀ tmo, (Call.tx (t.bufRead t.work.ptr.toNat t.work.chunk.toNat) tmo).fits s0.cfg
      (some (.pp4 s.work.cur s.work.chunk)) = true := fun _ => by
    simp [Call.fits, Txn.desc, htw, State.bufRead]
  refine (Seq.look_ensures _).2 <|
    Seq.KeepsFrom.orAbort (fun _ => id) (label_txCall_pairs hfit ht trivial ho) fun _ => ?_
  exact .orReturn (.label (doPollReady_pairs _)) hk

theorem writeLoop_pairs (fuel : Nat) : (writeLoop fuel).Pairs s0 i anyWork := by
  induction fuel with
  | zero => exact .stuck
  | succ fuel ih =>
    refine writeChunk_pairs (.writeWork (W' := anyWork) (fun _ _ _ => trivial) ?_)
    exact .look fun _ _ _ => .ite (fun _ => .done) fun _ => ih

theorem doWrite_pairs (a n : Word) : (doWrite a n).Pairs s0 i anyWork := by
  unfold doWrite
  exact .writeWork (W' := anyWork) (fun _ _ _ => trivial) (writeLoop_pairs _)

/-! ### The operations -/

/-- Every operation makes its data transfers right after their `Exec`. -/
theorem opBody_pairs (j : Instr) : (opBody j).Pairs s0 i anyWork := by
  cases j with
  | getStatus => exact .label doGetStatus_pairs
  | pollReady => exact .label (doPollReady_pairs _)
  | writeEnable => exact .label doWriteEnable_pairs
  | write => exact doWrite_pairs _ _
  | quadMode => exact .label (doQuadMode_pairs _)
  | hpMode => exact .label (doHpMode_pairs _)
  | eraseBlock => exact eraseBody_pairs _ _ _ _ _
  | eraseSector a n =>
    unfold opBody
    refine .look fun s _ _ => .ite (fun _ => ?_) fun _ => .fail
    exact .orReturn (.label doWriteEnable_pairs) (powerBody_pairs _ _)
  | eraseChip => exact eraseBody_pairs _ _ _ _ _
  | suspendErase => exact changeEraseState_pairs _ _ _ _ _ _
  | resumeErase => exact changeEraseState_pairs _ _ _ _ _ _
  | sleep => exact powerBody_pairs _ _
  | wakeup => exact powerBody_pairs _ _
  | read a n => exact readBody_pairs a n
  | init => exact doInit_pairs
  | deinit =>
    unfold opBody
    refine .writeInited (.orReturn (.label doResetChip_pairs) ?_)
    exact .andThen (.label busRelease_pairs) fun _ => .done
  | resetChip => exact .label doResetChip_pairs
  | getGeometry | tRdsr | tRdscur | tRdcr | tWren | tWrsr | tPp4 | tSe | tBe | tCe | tSusp | tResm
  | tDp | tWake | tRsten | tQread | tRst => exact .done

end Pairs

/-- The trace of an operation is paired: it is empty at acceptance, and a return leaves it. Pairing asks nothing
of the timeout that `State.During` carries for POLL_READY, so the run may be told as one of GET_GEOMETRY. -/
theorem exec_pairs {i : Instr} {s t : State} (hi : i.txn? = none) (h : exec i s = .next t) :
    pairedFrom s.cfg none t.trace = true := by
  obtain ⟨op, a, n, rfl⟩ := exec_operation hi h
  have hstart : s.During (.getGeometry a n) (paired s) (s.accept op a n) := ⟨rfl, rfl, nofun, rfl⟩
  obtain ⟨hend, -⟩ := opBody_pairs i _ hstart trivial
  generalize opBody i (s.accept op a n) = run at hend ⊢
  rcases run with ⟨_ | code, u⟩
  · exact hend.hist
  · exact hend.hist

/-- Settles O5: the descriptor invariant holds of every template, and the trace is paired. -/
theorem emittedDescriptorsKeepTheirInvariant :
    Obligations.EmittedDescriptorsKeepTheirInvariant :=
  fun _ _ _ hi hc _ h => ⟨fun _ _ u _ => descSound_desc hc u, exec_pairs hi h⟩

end Sys2Proof.Machine
end

