-- ==== Sys2Proof/Proofs/Plans.lean ====
section
/-!
Operations that make planned calls: a piece makes the calls of its plan in order and goes on only while each
answers OK, so it ends having made all of them, or cut short at one (60_exceptions.md R223 to R225). Further,
what every operation leaves as it was at acceptance, and what a script says of the answers in a trace.
-/

namespace Sys2Proof.Machine

/-! ### Lines -/

/-- A line of the trace without its answer. -/
def Event.line (e : Event) : List Label × Call := (e.site, e.call)

/-- The calls of the plan, all answered OK. -/
structure Made (plan : List (List Label × Call)) (fs : List Event) : Prop where
  /-- The calls, in order. -/
  lines : fs.map Event.line = plan
  /-- Their answers. -/
  answers : fs.all (fun e => e.ans.isOk) = true

/-- The first calls of the plan, all answered OK but the last, which was answered `r`. -/
structure CutOff (plan : List (List Label × Call)) (r : Answer) (fs : List Event) : Prop where
  /-- The calls, in order. -/
  lines : fs.map Event.line <+: plan
  /-- The answers before the last. -/
  earlier : fs.dropLast.all (fun e => e.ans.isOk) = true
  /-- The last answer. -/
  last : fs.getLast?.map Event.ans = some r

section Lines

variable {plan plan' : List (List Label × Call)} {r : Answer} {fs gs : List Event}

theorem Made.append (h : Made plan fs) (h' : Made plan' gs) : Made (plan ++ plan') (fs ++ gs) :=
  ⟨by rw [List.map_append, h.lines, h'.lines], by rw [List.all_append, h.answers, h'.answers]; rfl⟩

theorem Made.length (h : Made plan fs) : fs.length = plan.length := by rw [← h.lines, List.length_map]

theorem CutOff.append_plan (h : CutOff plan r fs) : CutOff (plan ++ plan') r fs :=
  ⟨h.lines.trans (List.prefix_append _ _), h.earlier, h.last⟩

theorem CutOff.ne_nil (h : CutOff plan r fs) : fs ≠ [] := by
  rintro rfl
  cases h.last

/-- A plan that was made, then one that was cut off. -/
theorem Made.cutOff (h : Made plan fs) (h' : CutOff plan' r gs) :
    CutOff (plan ++ plan') r (fs ++ gs) where
  lines := by
    rw [List.map_append, h.lines]
    exact (List.prefix_append_right_inj _).2 h'.lines
  earlier := by
    rw [List.dropLast_append_of_ne_nil h'.ne_nil, List.all_append, h.answers, h'.earlier]
    rfl
  last := by rw [List.getLast?_append_of_ne_nil _ h'.ne_nil, h'.last]

end Lines

/-! ### Pieces that make planned calls -/

/-- Between two calls of an operation accepted in `s0`: PHASE holds the labels `site`, and what the calls to come
are made of is as at acceptance. -/
structure State.AtSite (s0 : State) (site : List Label) (u : State) : Prop where
  /-- The labels. -/
  phase : u.phase = site
  /-- The parameters. -/
  cfg : u.cfg = s0.cfg
  /-- The timeout registers. -/
  tmo : u.tmo = s0.tmo
  /-- The operand latches. -/
  req : u.req = s0.req

/-- What a piece gives once its plan is made, and what it gives when a call of it fails. The cause label and the
lines are those at its end. -/
structure Verdict (α : Type) where
  /-- All calls were answered OK. -/
  good : α → Option Cause → List Event → Prop
  /-- A call was answered FAIL. -/
  bad : α → Option Cause → Prop

/-- The verdict of a piece that gives its last answer. -/
def lastAnswer : Verdict Answer where
  good r _ fs := r.isOk = true ∧ fs.getLast?.map Event.ans = some r
  bad r _ := r = .fail

/-- The verdict of a piece that returns OK, or the code of an abort with its cause label. -/
def okOr (c : Cause) (code : StatusCode) : Verdict StatusCode where
  good st _ _ := st = .ok
  bad st cause := st = code ∧ cause = some c

/-- How a piece that makes the calls of `plan` ends, having made `fs`: by its verdict, or at a call that is never
answered, PHASE being where that call was made (20_memory.md R76). -/
def State.EndsPlan {α : Type} (s0 : State) (site : List Label) (plan : List (List Label × Call))
    (V : Verdict α) (fs : List Event) : Option α → State → Prop
  | some x, v =>
    Made plan fs ∧ s0.AtSite site v ∧ V.good x v.cause fs ∨ CutOff plan .fail fs ∧ V.bad x v.cause
  | none, v => CutOff plan .never fs ∧ fs.getLast?.map Event.site = some v.phase ∧ v.phase ≠ []

/-- Begun at `site`, the piece makes the calls of `plan`. -/
def Seq.FollowsPlan {α : Type} (s0 : State) (site : List Label) (plan : List (List Label × Call))
    (V : Verdict α) (m : Seq α) : Prop :=
  ∀ u, s0.AtSite site u → m.Ensures u fun r v =>
    ∃ fs, v.trace = u.trace ++ fs ∧ s0.EndsPlan site plan V fs r v

section Pieces

variable {α β : Type} {s0 : State} {site : List Label} {plan plan' : List (List Label × Call)}
  {V : Verdict α} {V' : Verdict β}

theorem State.AtSite.push {u : State} (h : s0.AtSite site u) (l : Label) :
    s0.AtSite (site ++ [l]) (u.setPhase (u.phase ++ [l])) :=
  ⟨by rw [State.setPhase_phase, h.phase], h.cfg, h.tmo, h.req⟩

theorem State.AtSite.pop {u v : State} {l : Label} (h : s0.AtSite site u)
    (h' : s0.AtSite (site ++ [l]) v) : s0.AtSite site (v.setPhase u.phase) :=
  ⟨h.phase, h'.cfg, h'.tmo, h'.req⟩

/-- The calls made are the first of the plan. -/
theorem State.EndsPlan.lines {fs : List Event} {r : Option α} {v : State}
    (h : s0.EndsPlan site plan V fs r v) : fs.map Event.line <+: plan := by
  cases r with
  | none => exact h.1.lines
  | some x =>
    rcases h with ⟨hmade, -, -⟩ | ⟨hcut, -⟩
    · exact hmade.lines ▸ List.prefix_refl _
    · exact hcut.lines

/-- The label of a piece is popped when the piece returns. -/
theorem State.EndsPlan.label {l : Label} {fs : List Event} {x : α} {u v : State}
    (hu : s0.AtSite site u) (h : s0.EndsPlan (site ++ [l]) plan V fs (some x) v) :
    s0.EndsPlan site plan V fs (some x) (v.setPhase u.phase) := by
  rcases h with ⟨hmade, hv, hgood⟩ | hcut
  · exact .inl ⟨hmade, hu.pop hv, hgood⟩
  · exact .inr hcut

/-- The verdict looks at the last lines only: lines made before them do not change it. -/
def Verdict.Stable (V : Verdict α) : Prop :=
  ∀ x cause fs gs, V.good x cause gs → V.good x cause (fs ++ gs)

theorem getLast?_append_of_map {fs gs : List Event} {r : Answer}
    (h : gs.getLast?.map Event.ans = some r) : (fs ++ gs).getLast?.map Event.ans = some r := by
  have hne : gs ≠ [] := by
    rintro rfl
    cases h
  rw [List.getLast?_append_of_ne_nil _ hne, h]

theorem lastAnswer_stable : lastAnswer.Stable :=
  fun _ _ _ _ ⟨hok, hlast⟩ => ⟨hok, getLast?_append_of_map hlast⟩

theorem okOr_stable (c : Cause) (code : StatusCode) : (okOr c code).Stable := fun _ _ _ _ => id

/-- What a piece makes after a plan that was made. -/
theorem State.EndsPlan.after {fs gs : List Event} {r : Option α} {v : State} (hV : V.Stable)
    (hfs : Made plan fs) (h : s0.EndsPlan site plan' V gs r v) :
    s0.EndsPlan site (plan ++ plan') V (fs ++ gs) r v := by
  cases r with
  | none =>
    obtain ⟨hcut, hsite, hne⟩ := h
    exact ⟨hfs.cutOff hcut, by rw [List.getLast?_append_of_ne_nil _ hcut.ne_nil, hsite], hne⟩
  | some x =>
    rcases h with ⟨hmade, hv, hgood⟩ | ⟨hcut, hx⟩
    · exact .inl ⟨hfs.append hmade, hv, hV _ _ _ _ hgood⟩
    · exact .inr ⟨hfs.cutOff hcut, hx⟩

theorem Seq.FollowsPlan.pure {x : α} (h : ∀ cause, V.good x cause []) :
    (Seq.pure x).FollowsPlan s0 site [] V := fun _ hu =>
  ⟨[], (List.append_nil _).symm, .inl ⟨⟨rfl, rfl⟩, hu, h _⟩⟩

theorem Seq.FollowsPlan.look {k : State → Seq α}
    (hk : ∀ u, s0.AtSite site u → (k u).FollowsPlan s0 site plan V) :
    (Seq.look k).FollowsPlan s0 site plan V := fun u hu => hk u hu u hu

theorem Seq.FollowsPlan.label {l : Label} {m : Seq α}
    (hm : m.FollowsPlan s0 (site ++ [l]) plan V) : (Seq.label l m).FollowsPlan s0 site plan V := by
  intro u hu
  refine (Seq.label_ensures _ _).2 ((hm _ (hu.push l)).imp fun r v ⟨fs, htrace, h⟩ => ?_)
  cases r with
  | none => exact ⟨fs, htrace, h⟩
  | some x => exact ⟨fs, htrace, h.label hu⟩

/-- The piece ends without a call, as the verdict says of a call that failed. -/
def Seq.GivesUp (V : Verdict α) (m : Seq α) (cause : Option Cause) : Prop :=
  ∀ v : State, v.cause = cause → m.Ensures v fun r w =>
    w.trace = v.trace ∧ ∃ x, r = some x ∧ V.bad x w.cause

/-- After a piece that was cut off at a call answered FAIL, a piece that gives up. -/
theorem Seq.GivesUp.ends {m : Seq α} {fs : List Event} {u v : State} (hm : m.GivesUp V v.cause)
    (htrace : v.trace = u.trace ++ fs) (hcut : CutOff plan .fail fs) :
    m.Ensures v fun r w => ∃ gs, w.trace = u.trace ++ gs ∧
      s0.EndsPlan site (plan ++ plan') V gs r w := by
  refine (hm v rfl).imp ?_
  rintro _ w ⟨hw, x, rfl, hx⟩
  exact ⟨fs, hw.trans htrace, .inr ⟨hcut.append_plan, hx⟩⟩

/-- One piece after another: the second gives up after a failure of the first. -/
theorem Seq.FollowsPlan.andThen {m : Seq β} {k : β → Seq α} (hm : m.FollowsPlan s0 site plan V')
    (hV : V.Stable) (hbad : ∀ x cause, V'.bad x cause → (k x).GivesUp V cause)
    (hgood : ∀ x cause fs, V'.good x cause fs → (k x).FollowsPlan s0 site plan' V) :
    (m.andThen k).FollowsPlan s0 site (plan ++ plan') V := by
  intro u hu
  refine (Seq.andThen_ensures _ _).2 ((hm u hu).imp fun r v ⟨fs, htrace, h⟩ => ?_)
  cases r with
  | none =>
    obtain ⟨hcut, hsite⟩ := h
    exact ⟨fs, htrace, hcut.append_plan, hsite⟩
  | some x =>
    rcases h with ⟨hmade, hv, hx⟩ | ⟨hcut, hx⟩
    · refine (hgood x _ fs hx v hv).imp fun r w ⟨gs, hw, h⟩ => ?_
      exact ⟨fs ++ gs, by rw [hw, htrace, List.append_assoc], h.after hV hmade⟩
    · exact (hbad x _ hx).ends htrace hcut

/-- A step whose failure ends the piece. -/
theorem Seq.FollowsPlan.orAbort {m : Seq Answer} {c : Cause} {code : StatusCode}
    {k : List Byte → Seq StatusCode} (hm : m.FollowsPlan s0 site plan lastAnswer)
    (hk : ∀ b, (k b).FollowsPlan s0 site plan' (okOr c code)) :
    (m.orAbort c code k).FollowsPlan s0 site (plan ++ plan') (okOr c code) := by
  refine hm.andThen (okOr_stable _ _) ?_ ?_
  · rintro _ cause rfl v -
    exact ⟨rfl, code, rfl, rfl, rfl⟩
  · rintro (b | _ | _) cause fs ⟨hok, -⟩
    · exact hk b
    · cases hok
    · cases hok

/-- A step whose failure ends the piece, by its three ways to end; the next piece may depend on the bytes. -/
theorem Seq.FollowsPlan.orAbort_cases {m : Seq Answer} {c : Cause} {code : StatusCode}
    {k : List Byte → Seq StatusCode} {u : State} {Q : Option StatusCode → State → Prop}
    (hm : m.FollowsPlan s0 site plan lastAnswer) (hu : s0.AtSite site u)
    (hok : ∀ b fs v, v.trace = u.trace ++ fs → Made plan fs → s0.AtSite site v →
      fs.getLast?.map Event.ans = some (.ok b) → (k b).Ensures v Q)
    (hfail : ∀ fs v, v.trace = u.trace ++ fs → CutOff plan .fail fs → v.cause = some c →
      Q (some code) v)
    (hnever : ∀ fs v, v.trace = u.trace ++ fs → CutOff plan .never fs →
      fs.getLast?.map Event.site = some v.phase ∧ v.phase ≠ [] → Q none v) :
    (m.orAbort c code k).Ensures u Q := by
  refine (Seq.orAbort_ensures _ _ _ _).2 ((hm u hu).imp fun r v ⟨fs, htrace, h⟩ => ?_)
  rcases r with _ | b | _ | _
  · obtain ⟨hcut, hsite⟩ := h
    exact hnever fs v htrace hcut hsite
  · rcases h with ⟨hmade, hv, -, hlast⟩ | ⟨-, hx⟩
    · exact hok b fs v htrace hmade hv hlast
    · cases hx
  · rcases h with ⟨-, -, hok, -⟩ | ⟨hcut, -⟩
    · cases hok
    · exact hfail fs _ htrace hcut rfl
  · rcases h with ⟨-, -, hok, -⟩ | ⟨-, hx⟩
    · cases hok
    · cases hx

/-! ### The calls and helpers -/

/-- One call below the first label. -/
theorem call_followsPlan {c : Call} (hsite : site ≠ []) :
    (call c).FollowsPlan s0 site [(site, c)] lastAnswer := by
  intro u hu
  have hline : [(Event.mk u.phase c (u.answer c)).line] = [(site, c)] := by
    rw [Event.line, hu.phase]
  have hprefix : [(Event.mk u.phase c (u.answer c)).line] <+: [(site, c)] := hline ▸ List.prefix_refl _
  refine call_cases (fun bytes h => ⟨_, rfl, .inl ?_⟩) (fun h => ⟨_, rfl, .inr ?_⟩)
    fun h => ⟨_, rfl, ⟨hprefix, rfl, congrArg some h⟩, rfl, hu.phase ▸ hsite⟩
  · have hok : (u.answer c).isOk = true := h ▸ rfl
    exact ⟨⟨hline, (Bool.and_true _).trans hok⟩, ⟨hu.phase, hu.cfg, hu.tmo, hu.req⟩, rfl,
      congrArg some h⟩
  · exact ⟨⟨hprefix, rfl, congrArg some h⟩, rfl⟩

theorem execCall_followsPlan (t : Txn) (hsite : site ≠ []) :
    (execCall t).FollowsPlan s0 site [(site, .exec t s0.tmo.dflt)] lastAnswer :=
  .look fun u hu => by
    rw [hu.tmo]
    exact call_followsPlan hsite

theorem rxCall_followsPlan (n : Word) (hsite : site ≠ []) :
    (rxCall n).FollowsPlan s0 site [(site, .rx n s0.tmo.dflt)] lastAnswer :=
  .look fun u hu => by
    rw [hu.tmo]
    exact call_followsPlan hsite

theorem pollCall_followsPlan {p : Config → Pred} {tmo : State → Word} {v : Word} (hsite : site ≠ [])
    (htmo : ∀ u, s0.AtSite site u → tmo u = v) :
    (pollCall p tmo).FollowsPlan s0 site [(site, .autoPoll .rdsr (p s0.cfg) s0.cfg.pollInterval v)]
      lastAnswer :=
  .look fun u hu => by
    rw [hu.cfg, htmo u hu]
    exact call_followsPlan hsite

theorem readReg_followsPlan (t : Txn) (n : Word) :
    (readReg t n).FollowsPlan s0 site (readLines s0 site t n) lastAnswer := by
  have hne : ∀ l, site ++ [l] ≠ [] := fun _ => List.append_ne_nil_of_right_ne_nil _ (List.cons_ne_nil _ _)
  refine .andThen (.label (execCall_followsPlan t (hne _))) lastAnswer_stable ?_ ?_
  · rintro _ cause rfl v -
    exact ⟨rfl, .fail, rfl, rfl⟩
  · rintro (b | _ | _) cause fs ⟨hok, -⟩
    · exact .label (rxCall_followsPlan n (hne _))
    · cases hok
    · cases hok

end Pieces

/-! ### The subroutines -/

section Subroutines

variable {s0 : State} {site : List Label}

/-- `DoPollReady` makes one poll (40_status_poll_wren.md R133). -/
theorem doPollReady_followsPlan {tmo : State → Word} {v : Word}
    (htmo : ∀ u, s0.AtSite (site ++ [.P0]) u → tmo u = v) :
    (doPollReady tmo).FollowsPlan s0 site [readyLine s0 site v] (okOr .bus .error) :=
  .orAbort (.label (pollCall_followsPlan (by simp) htmo)) fun _ => .pure fun _ => rfl

/-- `DoWriteEnable` makes two calls (40_status_poll_wren.md R135). -/
theorem doWriteEnable_followsPlan :
    doWriteEnable.FollowsPlan s0 site (enableLines s0 site) (okOr .bus .error) :=
  .orAbort (.label (execCall_followsPlan .wren (by simp))) fun _ =>
    .orAbort (.label (pollCall_followsPlan (by simp) fun _ hu => congrArg Timeouts.dflt hu.tmo))
      fun _ => .pure fun _ => rfl

/-- SR decides no abort (40_status_poll_wren.md R130). -/
theorem decode2_isAbort (c : Config) (sr : Byte) : (decode2 c sr).isAbort = false := by
  rcases decode2_cases c sr with h | h
  · rw [h]
    rfl
  · rw [h]
    rfl

theorem decode2_ne_error (c : Config) (sr : Byte) : decode2 c sr ≠ .error := by
  intro h
  have habort := decode2_isAbort c sr
  rw [h] at habort
  cases habort

/-- The verdict of a status read: a code decided by the last byte received, ERROR for a fail bit; or ERROR for a
failed call (40_status_poll_wren.md R132). -/
def decided (f : Byte → Option StatusCode) : Verdict StatusCode where
  good st cause fs :=
    (∃ b, fs.getLast?.map Event.ans = some (.ok b) ∧ f (b.getD 0 0) = some st) ∧
      (st = .error → cause = some .chipFail)
  bad st cause := st = .error ∧ cause = some .bus

/-- The first read of `DoGetStatus` got a byte of SCUR that decides nothing. -/
def scurUndecided (c : Config) (fs : List Event) : Prop :=
  ∃ b, fs[1]?.map Event.ans = some (.ok b) ∧ decode1 c (b.getD 0 0) = none

/-- How a status read with its calls below the labels `below` ends: SCUR is read, and decides; or, where SCUR
decides nothing, SR too (R132). -/
def State.EndsStatus (s0 : State) (site below : List Label) (fs : List Event) (r : Option StatusCode)
    (v : State) : Prop :=
  s0.EndsPlan site (readLines s0 (below ++ [.G0]) .rdscur 1) (decided (decode1 s0.cfg)) fs r v ∨
    scurUndecided s0.cfg fs ∧
      s0.EndsPlan site (statusLines s0 below) (decided fun b => some (decode2 s0.cfg b)) fs r v

theorem doGetStatus_ensures {u : State} (hu : s0.AtSite site u) :
    doGetStatus.Ensures u fun r v =>
      ∃ fs, v.trace = u.trace ++ fs ∧ s0.EndsStatus site site fs r v := by
  refine (readReg_followsPlan _ _).label.orAbort_cases hu (fun b fs v hv hfs hat hb => ?_)
    (fun fs v hv hcut hc => ⟨fs, hv, .inl (.inr ⟨hcut, rfl, hc⟩)⟩)
    fun fs v hv hcut hsite => ⟨fs, hv, .inl ⟨hcut, hsite⟩⟩
  rw [Seq.look_ensures, hat.cfg]
  rcases decode1_cases s0.cfg (b.getD 0 0) with h | h | h <;> rw [h]
  · exact ⟨fs, hv, .inl (.inl ⟨hfs, ⟨hat.phase, hat.cfg, hat.tmo, hat.req⟩, ⟨b, hb, h⟩, fun _ => rfl⟩)⟩
  · exact ⟨fs, hv, .inl (.inl ⟨hfs, hat, ⟨b, hb, h⟩, nofun⟩)⟩
  · have hlen : fs.length = 2 := hfs.length
    have hscur : ∀ gs, scurUndecided s0.cfg (fs ++ gs) := fun gs =>
      ⟨b, by rw [List.getElem?_append_left (by omega), ← hb, List.getLast?_eq_getElem?, hlen], h⟩
    have htrace : ∀ {w : State} {gs}, w.trace = v.trace ++ gs → w.trace = u.trace ++ (fs ++ gs) :=
      fun hw => by rw [hw, hv, List.append_assoc]
    refine (readReg_followsPlan _ _).label.orAbort_cases hat (fun b' gs w hw hgs hat' hb' => ?_)
      (fun gs w hw hcut hc => ⟨_, htrace hw, .inr ⟨hscur gs, .inr ⟨hfs.cutOff hcut, rfl, hc⟩⟩⟩)
      fun gs w hw hcut hsite => ⟨_, htrace hw, .inr ⟨hscur gs, hfs.cutOff hcut, ?_⟩⟩
    · rw [Seq.look_ensures, hat'.cfg]
      exact ⟨_, htrace hw, .inr ⟨hscur gs, .inl ⟨hfs.append hgs, hat',
        ⟨b', getLast?_append_of_map hb', rfl⟩, fun he => absurd he (decode2_ne_error _ _)⟩⟩⟩
    · rwa [List.getLast?_append_of_ne_nil _ hcut.ne_nil]

theorem label_doGetStatus_ensures {u : State} (l : Label) (hu : s0.AtSite site u) :
    (Seq.label l doGetStatus).Ensures u fun r v =>
      ∃ fs, v.trace = u.trace ++ fs ∧ s0.EndsStatus site (site ++ [l]) fs r v := by
  refine (Seq.label_ensures _ _).2 ((doGetStatus_ensures (hu.push l)).imp ?_)
  rintro (_ | st) v ⟨fs, htrace, h⟩
  · exact ⟨fs, htrace, h⟩
  · exact ⟨fs, htrace, h.imp (.label hu) (And.imp_right (.label hu))⟩

end Subroutines

/-! ### What an operation leaves as it was -/

/-- The latches, the parameters, the timeout registers and the host's ports are as before. -/
def State.PortsKept (s t : State) : Prop :=
  t.req = s.req ∧ t.cfg = s.cfg ∧ t.tmo = s.tmo ∧ t.host = s.host

/-- No step inside an operation writes them (10_state.md R22, R33). -/
theorem carried_portsKept (room : Nat) (sticks : Prop) (s : State) :
    Carried room sticks (fun _ _ t => s.PortsKept t) s.PortsKept where
  write h hw := by cases hw <;> exact h
  push _ h := h
  pop _ h := h
  cause _ h := h
  call h _ _ _ _ := h
  never h _ _ _ _ := h
  log h _ _ := h
  stuck _ h _ _ := h

section Operations

variable {i : Instr} {op : Byte} {a n : Word} {s t : State}

/-- An operation is the run of its body from the acceptance of its own request. -/
theorem exec_operation_eq (hop : i.opreq? = some (op, a, n)) (h : exec i s = .next t) :
    finishRun (opBody i (s.accept op a n)) = t :=
  runOp_next.1 (exec_eq_runOp hop (bufInRange_of_exec h) ▸ h)

/-- What has the fields of a request is no template. -/
theorem txn_of_opreq (hop : i.opreq? = some (op, a, n)) : i.txn? = none := by
  cases i with
  | tRdsr | tRdscur | tRdcr | tWren | tWrsr | tPp4 | tSe | tBe | tCe | tSusp | tResm | tDp | tWake
  | tRsten | tQread | tRst => cases hop
  | _ => rfl

/-- Every operation latches its request and leaves the parameters, the timeout registers and the host's ports. -/
theorem exec_latched (hop : i.opreq? = some (op, a, n)) (h : exec i s = .next t) :
    s.latched t op a n := by
  obtain ⟨hmode, hchip, -⟩ := environmentFrame i s t h
  have hports : (s.accept op a n).PortsKept t := by
    have hends := (opBody_built (txn_of_opreq hop)).ends (carried_portsKept _ _ (s.accept op a n))
      (s := s.accept op a n) ⟨rfl, rfl, rfl, rfl⟩
    rw [← exec_operation_eq hop h]
    unfold Seq.Ensures at hends
    generalize opBody i (s.accept op a n) = run at hends ⊢
    rcases run with ⟨_ | code, u⟩
    · exact hends
    · obtain ⟨_, -, hu⟩ := hends
      exact hu
  obtain ⟨hreq, hcfg, htmo, hhost⟩ := hports
  refine ⟨hreq, hcfg, htmo, hhost, hmode, fun hfree => ⟨hchip hfree, fun x => ?_⟩⟩
  rw [State.flashByte, hchip hfree]
  rfl

/-- An operation made of calls alone keeps the data registers, and writes no byte of BUF. -/
theorem exec_dataKept (hop : i.opreq? = some (op, a, n)) (hk : Seq.Keeps State.BlockKept (opBody i))
    (h : exec i s = .next t) : s.dataKept t := by
  have hkept : (s.accept op a n).dataKept (opBody i (s.accept op a n)).2 := (hk _).dataKept
  rw [← exec_operation_eq hop h]
  generalize opBody i (s.accept op a n) = run at hkept ⊢
  rcases run with ⟨_ | code, u⟩
  · exact hkept
  · exact hkept

/-- An operation cut off at a call that is never answered stands there (20_memory.md R76). -/
theorem exec_hangs {plan : List (List Label × Call)} (hi : i.txn? = none) (h : exec i s = .next t)
    (hcut : CutOff plan .never t.trace)
    (hsite : t.trace.getLast?.map Event.site = some t.phase ∧ t.phase ≠ []) : s.hangs t := by
  obtain ⟨hlast, hne⟩ := hsite
  obtain ⟨hst, hd⟩ : t.status = s.status ∧ t.done = false := by
    rcases exec_operation_status hi h with ⟨hidle, -⟩ | hkept
    · exact absurd hidle hne
    · exact hkept
  refine ⟨?_, hne, hst, hd⟩
  have hans := hcut.last
  cases he : t.trace.getLast? with
  | none => rw [he] at hlast; cases hlast
  | some e =>
    rw [he] at hlast hans
    rw [Option.map_some, ← Option.some.inj hlast, ← Option.some.inj hans]

/-- A return leaves the trace. -/
@[simp] theorem finishRun_trace (r : Option StatusCode × State) : (finishRun r).trace = r.2.trace := by
  rcases r with ⟨_ | code, u⟩ <;> rfl

/-- A trace that was cut off, as the answers it holds. -/
theorem CutOff.answers {plan : List (List Label × Call)} {r : Answer} (h : CutOff plan r t.trace) :
    t.answers.dropLast.all Answer.isOk = true ∧ t.answers.getLast? = some r := by
  refine ⟨?_, by rw [State.answers, List.getLast?_map]; exact h.last⟩
  rw [State.answers, ← List.map_dropLast, List.all_map]
  exact h.earlier

/-- Everything an operation that makes planned calls can do: it makes them all and returns as its verdict says,
or it is cut short at one of them. -/
theorem exec_of_endsPlan {plan : List (List Label × Call)} {V : Verdict StatusCode} {c : Cause}
    {code : StatusCode} {r : Option StatusCode} {v : State} (hi : i.txn? = none)
    (h : exec i s = .next t) (hrun : finishRun (r, v) = t)
    (hend : (s.accept op a n).EndsPlan [] plan V v.trace r v)
    (hbad : ∀ st cause, V.bad st cause → st = code ∧ cause = some c) (hcode : code.isAbort = true) :
    t.lines <+: plan ∧
      ((Made plan t.trace ∧ ∃ st cause, V.good st cause t.trace ∧ t.returned st ∧
          t.cause = if st.isAbort then cause else none) ∨ s.cutShort t c code) := by
  have htrace : t.trace = v.trace := hrun ▸ finishRun_trace (r, v)
  have hlines : t.lines <+: plan := by
    rw [State.lines, htrace]
    exact hend.lines
  refine ⟨hlines, ?_⟩
  cases r with
  | none =>
    obtain rfl : v = t := hrun
    obtain ⟨hcut, hsite⟩ := hend
    exact .inr ⟨hcut.answers.1, .inr (exec_hangs hi h hcut hsite)⟩
  | some st =>
    have hreturned : t.returned st := hrun ▸ ⟨rfl, rfl, rfl⟩
    have hcause : t.cause = if st.isAbort then v.cause else none := hrun ▸ rfl
    rw [← htrace] at hend
    rcases hend with ⟨hmade, -, hgood⟩ | ⟨hcut, hx⟩
    · exact .inl ⟨hmade, st, _, hgood, hreturned, hcause⟩
    · obtain ⟨rfl, hc⟩ := hbad _ _ hx
      rw [hcode, hc] at hcause
      obtain ⟨hearlier, hlast⟩ := hcut.answers
      exact .inr ⟨hearlier, .inl ⟨hlast, hreturned, hcause⟩⟩

theorem Made.answers_all {plan : List (List Label × Call)} (h : Made plan t.trace) :
    t.answers.all Answer.isOk = true := by
  rw [State.answers, List.all_map]
  exact h.answers

/-- The state in which a request was accepted in IDLE is the start of its run. -/
theorem State.atSite_accept (hp : s.phase = []) : (s.accept op a n).AtSite [] (s.accept op a n) :=
  ⟨hp, rfl, rfl, rfl⟩

/-- An operation whose body makes planned calls and returns OK. -/
theorem exec_straight {plan : List (List Label × Call)} {c : Cause} {code : StatusCode}
    (hp : s.phase = []) (hop : i.opreq? = some (op, a, n)) (h : exec i s = .next t)
    (hm : (opBody i).FollowsPlan (s.accept op a n) [] plan (okOr c code))
    (hcode : code.isAbort = true) : s.straight t plan c code := by
  obtain ⟨fs, htrace, hend⟩ := hm _ (State.atSite_accept hp)
  obtain rfl := htrace
  obtain ⟨hlines, ⟨hmade, st, cause, rfl, hret, hcause⟩ | hcut⟩ :=
    exec_of_endsPlan (txn_of_opreq hop) h (exec_operation_eq hop h) hend (fun _ _ => id) hcode
  · exact ⟨hlines, .inl ⟨hmade.lines, hmade.answers_all, hret, hcause⟩⟩
  · exact ⟨hlines, .inr hcut⟩

end Operations

/-! ### Scripted answers -/

/-- What a script says of the line of its call (log 7). -/
def Reply.gives : Reply → Event → Prop
  | .auto, _ => True
  | .ok bytes, e => ∃ i, e.ans = deliver i e.call bytes
  | .fail, e => e.ans = .fail
  | .never, e => e.ans = .never

/-- The script answers the call OK. -/
def Reply.passes : Reply → Call → Prop
  | .ok bytes, c => ∀ i, (deliver i c bytes).isOk = true
  | .auto, _ | .fail, _ | .never, _ => False

/-- The script answers these calls OK, one entry a call. -/
def scriptPasses (rs : List Reply) (plan : List (List Label × Call)) : Prop :=
  List.Forall₂ (fun r l => Reply.passes r l.2) rs plan

theorem Reply.gives_of_passes {r : Reply} {e : Event} (h : r.passes e.call) (hg : r.gives e) :
    e.ans.isOk = true := by
  cases r with
  | ok bytes =>
    obtain ⟨i, hi⟩ := hg
    exact hi ▸ h i
  | auto | fail | never => exact h.elim

/-- A call answers as the first entry of the script says. -/
theorem State.answer_gives (s : State) (site : List Label) (c : Call) :
    (s.env.replies.headD .auto).gives ⟨site, c, s.answer c⟩ := by
  cases h : s.env.replies with
  | nil => trivial
  | cons r rs =>
    cases r with
    | auto => trivial
    | ok bytes => exact ⟨_, State.answer_ok h⟩
    | fail => exact State.answer_fail h
    | never => exact State.answer_never h

/-- Line `k` answers as entry `k` of the script says. -/
def answeredBy (rs : List Reply) (es : List Event) : Prop :=
  ∀ k e, es[k]? = some e → (rs.getD k .auto).gives e

theorem answeredBy_append {rs : List Reply} {es : List Event} {e : Event} (h : answeredBy rs es)
    (he : (rs.getD es.length .auto).gives e) : answeredBy rs (es ++ [e]) := by
  intro k x hx
  rcases Nat.lt_trichotomy k es.length with hk | rfl | hk
  · exact h k x (by rwa [List.getElem?_append_left hk] at hx)
  · rw [List.getElem?_concat_length] at hx
    exact Option.some.inj hx ▸ he
  · simp [List.getElem?_eq_none (by simp; omega : (es ++ [e]).length ≤ k)] at hx

/-- In a run from replies `rs` every line so far took its entry of the script. The release of the bus asks
nothing of the environment (log 28), so this is said up to there. -/
def State.Scripted (rs : List Reply) (t : State) : Prop :=
  (∀ e ∈ t.trace, e.call ≠ .busRelease) →
    t.env.replies = rs.drop t.trace.length ∧ answeredBy rs t.trace

theorem State.Scripted.afterCall {rs : List Reply} {s : State} (h : s.Scripted rs) (c : Call) :
    (s.afterCall c).Scripted rs := by
  intro hall
  rw [State.afterCall_trace] at hall ⊢
  obtain ⟨hreplies, hans⟩ := h fun e he => hall e (List.mem_append_left _ he)
  refine ⟨?_, answeredBy_append hans ?_⟩
  · rw [State.afterCall_env, Env.after_replies, hreplies, List.tail_drop, List.length_append]
    rfl
  · have hgives := s.answer_gives s.phase c
    rwa [hreplies, List.headD_eq_head?_getD, List.head?_drop, ← List.getD_eq_getElem?_getD] at hgives

theorem carried_scripted (room : Nat) (sticks : Prop) (rs : List Reply) :
    Carried room sticks (fun _ _ t => t.Scripted rs) (State.Scripted rs) where
  write h hw := by cases hw <;> exact h
  push _ h := h
  pop _ h := h
  cause _ h := h
  call h _ _ _ _ := h.afterCall _
  never h _ _ _ _ := h.afterCall _
  log _ _ _ := fun hall => absurd rfl (hall _ (List.mem_append_right _ (List.mem_singleton.2 rfl)))
  stuck _ h _ _ := h

section Scripts

variable {i : Instr} {s t : State} {rs : List Reply} {plan p : List (List Label × Call)}

/-- Every line of an operation that does not release the bus answers as its entry of the script says. -/
theorem exec_answeredBy (hi : i.txn? = none) (h : exec i s = .next t) (hlines : t.lines <+: plan)
    (hplan : ∀ l ∈ plan, l.2 ≠ .busRelease) : answeredBy s.env.replies t.trace := by
  have hscript : t.Scripted s.env.replies := by
    rcases exec_operation_ends (carried_scripted _ _ s.env.replies) hi (fun _ _ _ _ => ⟨rfl, nofun⟩) h
      with ⟨code, _, u, -, hu, rfl⟩ | hN
    · exact hu
    · exact hN
  exact (hscript fun e he => hplan _ (hlines.mem (List.mem_map_of_mem he))).2

/-- Line `k` answers as entry `k` of the script that is scripted. -/
theorem State.script.gives {es : List Event} {k : Nat} {r : Reply} {e : Event} (hs : s.script rs)
    (ha : answeredBy s.env.replies es) (hk : rs[k]? = some r) (he : es[k]? = some e) : r.gives e := by
  obtain ⟨rest, hrest⟩ := hs
  obtain ⟨hlt, -⟩ := List.getElem?_eq_some_iff.1 hk
  have hget := ha k e he
  rwa [← hrest, List.getD_eq_getElem?_getD, List.getElem?_append_left hlt, hk] at hget

/-- A line of the trace is the line of the plan. -/
theorem State.line_of_prefix {k : Nat} {e : Event} (hlines : t.lines <+: plan)
    (he : t.trace[k]? = some e) : plan[k]? = some e.line := by
  have hline : t.lines[k]? = some e.line := by
    rw [State.lines, List.getElem?_map, he]
    rfl
  obtain ⟨rest, rfl⟩ := hlines
  obtain ⟨hk, -⟩ := List.getElem?_eq_some_iff.1 hline
  rwa [List.getElem?_append_left hk]

/-- A call of the plan that the script answers OK is answered OK. -/
theorem State.script.isOk {k : Nat} {e : Event} (hs : s.script rs)
    (ha : answeredBy s.env.replies t.trace) (hlines : t.lines <+: plan) (hp : p <+: plan)
    (hpass : scriptPasses rs p) (hk : k < rs.length)
    (he : t.trace[k]? = some e) : e.ans.isOk = true := by
  have hkp : k < p.length := hpass.length_eq ▸ hk
  have hline : p[k] = e.line := by
    obtain ⟨_, hget⟩ := List.getElem?_eq_some_iff.1 (State.line_of_prefix hlines he)
    rw [hp.getElem hkp, hget]
  have hcall : (rs[k]).passes p[k].2 := hpass.get hk hkp
  rw [hline] at hcall
  exact Reply.gives_of_passes hcall (hs.gives ha (List.getElem?_eq_getElem hk) he)

/-- With a script that answers every call of the plan OK, every call made is answered OK. -/
theorem State.script.answers_all (hs : s.script rs) (ha : answeredBy s.env.replies t.trace)
    (hlines : t.lines <+: plan) (hpass : scriptPasses rs plan) :
    t.answers.all Answer.isOk = true := by
  rw [State.answers, List.all_map, List.all_eq_true]
  intro e he
  obtain ⟨k, hk⟩ := List.getElem?_of_mem he
  obtain ⟨hlt, -⟩ := List.getElem?_eq_some_iff.1 hk
  have hlen : t.trace.length ≤ rs.length := by
    have hle := hlines.length_le
    rwa [State.lines, List.length_map, ← hpass.length_eq] at hle
  exact hs.isOk ha hlines (List.prefix_refl _) hpass (by omega) hk

/-- What was cut short has a last answer that is not OK. -/
theorem State.cutShort.not_all_isOk {c : Cause} {code : StatusCode} (h : s.cutShort t c code) :
    t.answers.all Answer.isOk ≠ true := by
  intro hall
  have hok : ∀ r, t.answers.getLast? = some r → r.isOk = true := fun r hr =>
    List.all_eq_true.1 hall r (List.mem_of_getLast? hr)
  rcases h with ⟨-, ⟨hfail, -⟩ | ⟨hlast, -⟩⟩
  · cases hok _ hfail
  · obtain ⟨e, he, hpair⟩ := Option.map_eq_some_iff.1 hlast
    have hnever := hok e.ans (by rw [State.answers, List.getLast?_map, he]; rfl)
    rw [(Prod.mk.inj hpair).1] at hnever
    cases hnever

/-- With a script that answers every call of its plan OK, an operation completes. -/
theorem State.straight.completed_of_script {c : Cause} {code : StatusCode}
    (h : s.straight t plan c code) (ha : answeredBy s.env.replies t.trace) (hs : s.script rs)
    (hpass : scriptPasses rs plan) : t.completed .ok := by
  obtain ⟨hlines, ⟨-, -, hdone⟩ | hcut⟩ := h
  · exact hdone
  · exact absurd (hs.answers_all ha hlines hpass) hcut.not_all_isOk

/-- With a script that answers the first calls of its plan OK and the next one FAIL, an operation is aborted. -/
theorem State.straight.aborted_of_script {c : Cause} {code : StatusCode}
    (h : s.straight t plan c code) (ha : answeredBy s.env.replies t.trace)
    (hs : s.script (rs ++ [.fail])) (hp : p <+: plan)
    (hpass : scriptPasses rs p) (hlt : rs.length < plan.length) :
    t.aborted c code := by
  have hfail : ∀ e, t.trace[rs.length]? = some e → e.ans = .fail := fun e he =>
    hs.gives ha List.getElem?_concat_length he
  have hfirst : s.script rs := (List.prefix_append _ _).trans hs
  obtain ⟨hlines, ⟨hall, hok, -⟩ | ⟨hearlier, ⟨-, hab⟩ | ⟨hlast, -⟩⟩⟩ := h
  · have hk : rs.length < t.trace.length := by rwa [← hall, State.lines, List.length_map] at hlt
    have hans := List.all_eq_true.1 hok _ (List.mem_map_of_mem (List.getElem_mem hk))
    rw [hfail _ (List.getElem?_eq_getElem hk)] at hans
    cases hans
  · exact hab
  · obtain ⟨e, he, hpair⟩ := Option.map_eq_some_iff.1 hlast
    obtain ⟨hnever, -⟩ := Prod.mk.inj hpair
    rw [List.getLast?_eq_getElem?] at he
    rcases Nat.lt_trichotomy (t.trace.length - 1) rs.length with hk | hk | hk
    · have hans := hfirst.isOk ha hlines hp hpass hk he
      rw [hnever] at hans
      cases hans
    · rw [hfail e (hk ▸ he)] at hnever
      cases hnever
    · have hk' : rs.length < t.trace.dropLast.length := by rwa [List.length_dropLast]
      have hans := List.all_eq_true.1 hearlier (t.trace.dropLast[rs.length].ans) <| by
        rw [State.answers, ← List.map_dropLast]
        exact List.mem_map_of_mem (List.getElem_mem hk')
      rw [List.getElem_dropLast, hfail _ (List.getElem?_eq_getElem (by omega))] at hans
      cases hans

end Scripts

end Sys2Proof.Machine
end

