-- ==== Sys2Proof/Proofs/StatusPoll.lean ====
section
/-!
The status decoder and the operations of 40_status_poll_wren.md: GET_STATUS, POLL_READY, WRITE_ENABLE.
-/

namespace Sys2Proof.Machine

/-! ### The status decoder -/

/-- A byte is set under a mask where they share a bit. -/
theorem anySet_iff_bit {v mask : Byte} :
    anySet v mask = true ↔ ∃ k < 8, v.getLsbD k = true ∧ mask.getLsbD k = true := by
  rw [anySet_eq_true]
  constructor
  · intro hne
    by_contra hno
    refine hne (BitVec.eq_of_getLsbD_eq fun k hk => ?_)
    have hk' : ¬(v.getLsbD k = true ∧ mask.getLsbD k = true) := fun h => hno ⟨k, hk, h⟩
    rw [BitVec.getLsbD_and, Bool.and_eq_false_imp.2 fun hv => by simpa [hv] using hk']
    exact BitVec.getLsbD_zero.symm
  · rintro ⟨k, -, hv, hm⟩ hzero
    have hbit : (v &&& mask).getLsbD k = true := by rw [BitVec.getLsbD_and, hv, hm]; rfl
    rw [hzero] at hbit
    exact absurd hbit (by simp)

/-- A byte is set under two masks where it shares a bit with one of them. -/
theorem anySet_or_iff_bit {v m m' : Byte} :
    anySet v (m ||| m') = true ↔
      ∃ k < 8, v.getLsbD k = true ∧ (m.getLsbD k = true ∨ m'.getLsbD k = true) := by
  simp only [anySet_iff_bit, BitVec.getLsbD_or, Bool.or_eq_true]

/-- Settles O17: each test of the decoder asks for a bit shared with the masks it names. -/
theorem statusDecoderReadsNamedBits : Obligations.StatusDecoderReadsNamedBits := by
  intro c scur sr
  dsimp only
  rw [← anySet_or_iff_bit, ← anySet_or_iff_bit, ← anySet_iff_bit]
  exact ⟨fun hfail => if_pos hfail, fun hno hpaused => (if_neg hno).trans (if_pos hpaused),
    fun hno hno' => (if_neg hno).trans (if_neg hno'), fun hrun => if_pos hrun, fun hno => if_neg hno⟩

/-! ### POLL_READY and WRITE_ENABLE -/

/-- A poll whose one scripted read satisfies the predicate answers OK. -/
theorem passes_autoPoll {p : Pred} {v : Byte} (h : p.sat v = true) {t : Txn} {k : Nat} {tmo : Word} :
    (Reply.ok [v]).passes (.autoPoll t p k tmo) := fun _ => by
  rw [deliver, waitLoop_singleton h]
  rfl

/-- Settles O19: one poll planned, with the latched operand as its timeout. -/
theorem pollReadyOutcome : Obligations.PollReadyOutcome := by
  intro a n s hp
  obtain ⟨t, ht⟩ := exec_next_of_bufInRange (i := .pollReady a n) (s := s) rfl
  have hkept : Seq.Keeps State.BlockKept (opBody (.pollReady a n)) :=
    State.blockKept_respects.label _ (State.blockKept_respects.doPollReady _)
  have hbody : (opBody (.pollReady a n)).FollowsPlan (s.accept 0x02 a n) []
      [readyLine s [.S0] n] (okOr .bus .error) :=
    .label (doPollReady_followsPlan fun u hu => congrArg Latches.n hu.req)
  have hst : s.straight t [readyLine s [.S0] n] .bus .error := exec_straight hp rfl ht hbody rfl
  have hans : answeredBy s.env.replies t.trace :=
    exec_answeredBy rfl ht hst.1 (by simp [readyLine])
  refine ⟨t, ht, exec_latched rfl ht, exec_dataKept rfl hkept ht, hst, fun v hv hs => ?_, fun hs => ?_⟩
  · exact hst.completed_of_script hans hs (.cons (passes_autoPoll hv) .nil)
  · exact hst.aborted_of_script (rs := []) hans hs List.nil_prefix .nil Nat.zero_lt_one

/-- Settles O20: an `Exec` and a poll planned. -/
theorem writeEnableOutcome : Obligations.WriteEnableOutcome := by
  intro a n s hp
  obtain ⟨t, ht⟩ := exec_next_of_bufInRange (i := .writeEnable a n) (s := s) rfl
  have hkept : Seq.Keeps State.BlockKept (opBody (.writeEnable a n)) :=
    State.blockKept_respects.label _ State.blockKept_respects.doWriteEnable
  have hbody : (opBody (.writeEnable a n)).FollowsPlan (s.accept 0x03 a n) []
      (enableLines s [.S0]) (okOr .bus .error) := .label doWriteEnable_followsPlan
  have hst : s.straight t (enableLines s [.S0]) .bus .error := exec_straight hp rfl ht hbody rfl
  have hans : answeredBy s.env.replies t.trace :=
    exec_answeredBy rfl ht hst.1 (by simp [enableLines])
  have hexec : (Reply.ok []).passes (.exec .wren s.tmo.dflt) := fun _ => rfl
  refine ⟨t, ht, exec_latched rfl ht, exec_dataKept rfl hkept ht, hst, fun w hw hs => ?_, ?_⟩
  · exact hst.completed_of_script hans hs (.cons hexec (.cons (passes_autoPoll hw) .nil))
  · rintro (hs | hs)
    · exact hst.aborted_of_script (rs := []) hans hs List.nil_prefix .nil Nat.zero_lt_two
    · exact hst.aborted_of_script (rs := [.ok []]) hans hs ⟨_, rfl⟩ (.cons hexec .nil) Nat.one_lt_two

/-! ### GET_STATUS -/

/-- The bytes of an answer that stands in the trace. -/
theorem State.answerByte_of_getElem? {t : State} {k : Nat} {b : List Byte}
    (h : t.trace[k]?.map Event.ans = some (.ok b)) (j : Nat) : t.answerByte k j = b.getD j 0 := by
  have hk : t.answers[k]? = some (.ok b) := by rw [State.answers, List.getElem?_map]; exact h
  rw [State.answerByte, List.getD_eq_getElem?_getD (l := t.answers), hk]
  rfl

/-- The bytes of the last answer. -/
theorem State.answerByte_of_getLast? {t : State} {k : Nat} {b : List Byte}
    (h : t.trace.getLast?.map Event.ans = some (.ok b)) (hlen : t.trace.length = k + 1) (j : Nat) :
    t.answerByte k j = b.getD j 0 := by
  refine State.answerByte_of_getElem? ?_ j
  rwa [List.getLast?_eq_getElem?, hlen] at h

/-- What GET_STATUS can return once its calls are answered OK (40_status_poll_wren.md R132). -/
def State.statusReturned (s t : State) : Prop :=
  t.trace.length = 2 ∧
      ((decode1 s.cfg (t.answerByte 1 0) = some .error ∧ t.aborted .chipFail .error) ∨
        (decode1 s.cfg (t.answerByte 1 0) = some .suspended ∧ t.completed .suspended)) ∨
    t.trace.length = 4 ∧ t.completed (decode2 s.cfg (t.answerByte 3 0))

section GetStatus

variable {a n : Word} {s t : State}

/-- SCUR was read and decided (40_status_poll_wren.md R130, R132). -/
theorem State.statusReturned_of_scur {st : StatusCode} {cause : Option Cause}
    (hlen : t.trace.length = 2) (hst : decode1 s.cfg (t.answerByte 1 0) = some st)
    (hcause : st = .error → cause = some .chipFail) (hret : t.returned st)
    (htc : t.cause = if st.isAbort then cause else none) : s.statusReturned t := by
  refine .inl ⟨hlen, ?_⟩
  rcases decode1_cases s.cfg (t.answerByte 1 0) with h | h | h
  · obtain rfl : StatusCode.error = st := Option.some.inj (h.symm.trans hst)
    exact .inl ⟨h, hret, htc.trans (hcause rfl)⟩
  · obtain rfl : StatusCode.suspended = st := Option.some.inj (h.symm.trans hst)
    exact .inr ⟨h, hret, htc⟩
  · cases h.symm.trans hst

/-- SR was read, and decided. -/
theorem State.statusReturned_of_sr {cause : Option Cause} (hlen : t.trace.length = 4)
    (hret : t.returned (decode2 s.cfg (t.answerByte 3 0)))
    (htc : t.cause = if (decode2 s.cfg (t.answerByte 3 0)).isAbort then cause else none) :
    s.statusReturned t := by
  rw [decode2_isAbort] at htc
  exact .inr ⟨hlen, hret, htc⟩

/-- GET_STATUS by its reads: SCUR decides, or SR does. -/
theorem exec_getStatus (hp : s.phase = []) (h : exec (.getStatus a n) s = .next t) :
    t.lines <+: statusLines s [.S0] ∧
      (2 < t.trace.length → decode1 s.cfg (t.answerByte 1 0) = none) ∧
      (s.cutShort t .bus .error ∨ t.answers.all Answer.isOk = true ∧ s.statusReturned t) := by
  have hrun := exec_operation_eq rfl h
  obtain ⟨fs, htrace, hend⟩ := label_doGetStatus_ensures .S0 (State.atSite_accept (op := 0x01) (a := a)
    (n := n) hp)
  obtain rfl := htrace
  rcases hend with hscur | ⟨⟨b, hb, hnone⟩, hsr⟩
  · obtain ⟨hlines, hout⟩ := exec_of_endsPlan rfl h hrun hscur (fun _ _ => id) rfl
    have hshort : t.trace.length ≤ 2 := by simpa [State.lines, readLines] using hlines.length_le
    refine ⟨hlines.trans (List.prefix_append _ _), fun hlong => by omega, ?_⟩
    rcases hout with ⟨hmade, st, cause, ⟨⟨b, hb, hst⟩, hcause⟩, hret, htc⟩ | hcut
    · rw [← State.answerByte_of_getLast? hb hmade.length 0] at hst
      exact .inr ⟨hmade.answers_all, State.statusReturned_of_scur hmade.length hst hcause hret htc⟩
    · exact .inl hcut
  · obtain ⟨hlines, hout⟩ := exec_of_endsPlan rfl h hrun hsr (fun _ _ => id) rfl
    have hb' : t.trace[1]?.map Event.ans = some (.ok b) := by
      rw [← hrun, finishRun_trace]
      exact hb
    refine ⟨hlines, fun _ => (State.answerByte_of_getElem? hb' 0).symm ▸ hnone, ?_⟩
    rcases hout with ⟨hmade, st, cause, ⟨⟨b, hb, hst⟩, -⟩, hret, htc⟩ | hcut
    · rw [← State.answerByte_of_getLast? hb hmade.length 0] at hst
      obtain rfl := Option.some.inj hst
      exact .inr ⟨hmade.answers_all, State.statusReturned_of_sr hmade.length hret htc⟩
    · exact .inl hcut

/-- A scripted read of one register gives the scripted byte. -/
theorem State.script.readByte {rs : List Reply} {plan : List (List Label × Call)} {k : Nat} {b : Byte}
    {site : List Label} {tmo : Word} (hs : s.script rs) (ha : answeredBy s.env.replies t.trace)
    (hlines : t.lines <+: plan) (hr : rs[k]? = some (.ok [b]))
    (hl : plan[k]? = some (site, .rx 1 tmo)) (hk : k < t.trace.length) : t.answerByte k 0 = b := by
  have he := List.getElem?_eq_getElem hk
  have hcall : t.trace[k].call = .rx 1 tmo :=
    congrArg Prod.snd (Option.some.inj ((State.line_of_prefix hlines he).symm.trans hl))
  obtain ⟨i, hi⟩ := hs.gives ha hr he
  rw [hcall, deliver, fitBytes_eq rfl] at hi
  exact State.answerByte_of_getElem? (by rw [he, Option.map_some, hi]) 0

/-- With both reads scripted OK, GET_STATUS returns the code the bytes decode to. -/
theorem State.statusReturned.of_script {scur sr : Byte} (hret : s.statusReturned t)
    (hundecided : 2 < t.trace.length → decode1 s.cfg (t.answerByte 1 0) = none)
    (hlines : t.lines <+: statusLines s [.S0]) (ha : answeredBy s.env.replies t.trace)
    (hs : s.script [.ok [], .ok [scur], .ok [], .ok [sr]]) :
    (∀ code, decode1 s.cfg scur = some code → t.returned code ∧ t.trace.length = 2) ∧
      (decode1 s.cfg scur = none → t.completed (decode2 s.cfg sr) ∧ t.trace.length = 4) := by
  have hscur : 2 ≤ t.trace.length → t.answerByte 1 0 = scur := hs.readByte ha hlines rfl rfl
  rcases hret with ⟨hlen, hcode⟩ | ⟨hlen, hdone⟩
  · rw [hscur (by omega)] at hcode
    obtain ⟨code, h, hret⟩ : ∃ code, decode1 s.cfg scur = some code ∧ t.returned code := by
      rcases hcode with ⟨h, hret, -⟩ | ⟨h, hret, -⟩
      · exact ⟨_, h, hret⟩
      · exact ⟨_, h, hret⟩
    rw [h]
    exact ⟨fun code' hc => Option.some.inj hc ▸ ⟨hret, hlen⟩, nofun⟩
  · have hsr : t.answerByte 3 0 = sr := hs.readByte ha hlines rfl rfl (by omega)
    have hnone := hundecided (by omega)
    rw [hscur (by omega)] at hnone
    rw [hnone, ← hsr]
    exact ⟨nofun, fun _ => ⟨hdone, hlen⟩⟩

/-- Settles O18: by what each read decides, and by the script for the code it returns. -/
theorem getStatusOutcome : Obligations.GetStatusOutcome := by
  intro a n s hp
  obtain ⟨t, ht⟩ := exec_next_of_bufInRange (i := .getStatus a n) (s := s) rfl
  have hkept : Seq.Keeps State.BlockKept (opBody (.getStatus a n)) :=
    State.blockKept_respects.label _ State.blockKept_respects.doGetStatus
  obtain ⟨hlines, hundecided, hout⟩ := exec_getStatus hp ht
  have hans : answeredBy s.env.replies t.trace :=
    exec_answeredBy rfl ht hlines (by simp [statusLines, readLines])
  refine ⟨t, ht, exec_latched rfl ht, exec_dataKept rfl hkept ht, hlines, hundecided, hout,
    fun scur sr hs => ?_⟩
  have hpass : scriptPasses [.ok [], .ok [scur], .ok [], .ok [sr]] (statusLines s [.S0]) :=
    .cons (fun _ => rfl) (.cons (fun _ => rfl) (.cons (fun _ => rfl) (.cons (fun _ => rfl) .nil)))
  rcases hout with hcut | ⟨-, hret⟩
  · exact absurd (hs.answers_all hans hlines hpass) hcut.not_all_isOk
  · obtain ⟨hdecided, hsr⟩ := hret.of_script hundecided hlines hans hs
    cases h : decode1 s.cfg scur with
    | some code => exact hdecided code h
    | none => exact hsr h

end GetStatus

end Sys2Proof.Machine
end

