-- ==== Sys2Proof/Proofs/ChunkPlan.lean ====
section
/-!
The chunks of a write as a list of addresses and lengths: the laws of 41_program.md R152, each by one induction
over `IsChunking`, which lists the two ways such a list is made.
-/

namespace Sys2Proof.Machine

/-- The chunks of a write of `n` bytes at `a`: all of it where it fits in the page of `a`; else the rest of that
page, and the chunks from the next page on (41_program.md R152). -/
inductive IsChunking (p : Nat) : Nat → Nat → List (Nat × Nat) → Prop
  | last {a n : Nat} (h : n ≤ p - a % p) : IsChunking p a n [(a, n)]
  | more {a n : Nat} {rest : List (Nat × Nat)} (h : p - a % p < n)
      (hrest : IsChunking p ((a + (p - a % p)) % 2 ^ 32) (n - (p - a % p)) rest) :
      IsChunking p a n ((a, p - a % p) :: rest)

section Chunking

variable {p a n fuel : Nat} {plan : List (Nat × Nat)}

/-- The plan of a write that fits in the page. -/
theorem chunkPlan_of_le (h : n ≤ p - a % p) : chunkPlan p (fuel + 1) a n = [(a, n)] := by
  simp [chunkPlan, Nat.min_eq_right h]

/-- The plan of a write that goes beyond the page. -/
theorem chunkPlan_of_lt (h : p - a % p < n) :
    chunkPlan p (fuel + 1) a n =
      (a, p - a % p) :: chunkPlan p fuel ((a + (p - a % p)) % 2 ^ 32) (n - (p - a % p)) := by
  simp [chunkPlan, Nat.min_eq_left h.le, Nat.not_le.2 h]

/-- With a visit more than there are bytes, the plan is the chunks. -/
theorem chunkPlan_isChunking (hp : 0 < p) (hfuel : n < fuel) :
    IsChunking p a n (chunkPlan p fuel a n) := by
  induction fuel generalizing a n with
  | zero => omega
  | succ fuel ih =>
    have hmod := Nat.mod_lt a hp
    rcases Nat.lt_or_ge (p - a % p) n with h | h
    · rw [chunkPlan_of_lt h]
      exact .more h (ih (by omega))
    · rw [chunkPlan_of_le h]
      exact .last h

/-- The rest of the page leads to the start of a page, also where the address wraps: "`P` divides 2^32"
(41_program.md R152). -/
theorem nextPage_mod (hp : 0 < p) (hd : p ∣ 2 ^ 32) (a : Nat) :
    (a + (p - a % p)) % 2 ^ 32 % p = 0 := by
  have hmod := Nat.mod_lt a hp
  have hdiv := Nat.div_add_mod a p
  have hnext : a + (p - a % p) = p * (a / p + 1) := by
    rw [Nat.mul_add]
    omega
  rw [Nat.mod_mod_of_dvd _ hd, hnext, Nat.mul_mod_right]

theorem IsChunking.head (h : IsChunking p a n plan) :
    plan.head? = some (a, min (p - a % p) n) := by
  cases h with
  | last h => simp [Nat.min_eq_right h]
  | more h _ => simp [Nat.min_eq_left h.le]

/-- The lengths sum to that of the write. -/
theorem IsChunking.sum (h : IsChunking p a n plan) : (plan.map Prod.snd).sum = n := by
  induction h with
  | last h => simp
  | more h _ ih =>
    rw [List.map_cons, List.sum_cons, ih]
    omega

theorem IsChunking.length_le_of_mem (h : IsChunking p a n plan) {c : Nat × Nat} (hc : c ∈ plan) :
    c.2 ≤ n :=
  h.sum ▸ List.le_sum_of_mem (List.mem_map_of_mem hc)

theorem IsChunking.address_lt (h : IsChunking p a n plan) (ha : a < 2 ^ 32) :
    ∀ c ∈ plan, c.1 < 2 ^ 32 := by
  induction h with
  | last h => simpa using ha
  | more h _ ih => exact List.forall_mem_cons.2 ⟨ha, ih (Nat.mod_lt _ (by decide))⟩

/-- No chunk is empty, and none crosses a page. -/
theorem IsChunking.inPage (h : IsChunking p a n plan) (hp : 0 < p) (hn : 1 ≤ n) :
    ∀ c ∈ plan, 1 ≤ c.2 ∧ c.1 % p + c.2 ≤ p := by
  induction h with
  | @last a n h =>
    have hmod := Nat.mod_lt a hp
    exact List.forall_mem_singleton.2 ⟨hn, by dsimp only; omega⟩
  | @more a n rest h _ ih =>
    have hmod := Nat.mod_lt a hp
    exact List.forall_mem_cons.2 ⟨by dsimp only; omega, ih (by omega)⟩

/-- Of a write at the start of a page every chunk starts a page. -/
theorem IsChunking.starts_of_aligned (h : IsChunking p a n plan) (hp : 0 < p) (hd : p ∣ 2 ^ 32)
    (ha : a % p = 0) : ∀ c ∈ plan, c.1 % p = 0 := by
  induction h with
  | last h => simpa using ha
  | more h _ ih => exact List.forall_mem_cons.2 ⟨ha, ih (nextPage_mod hp hd _)⟩

/-- Every chunk after the first starts a page. -/
theorem IsChunking.tail_starts (h : IsChunking p a n plan) (hp : 0 < p) (hd : p ∣ 2 ^ 32) :
    ∀ c ∈ plan.tail, c.1 % p = 0 := by
  cases h with
  | last h => simp
  | more h hrest => exact hrest.starts_of_aligned hp hd (nextPage_mod hp hd _)

/-- Of a write at the start of a page every chunk but the last is a whole page. -/
theorem IsChunking.pages_of_aligned (h : IsChunking p a n plan) (hp : 0 < p) (hd : p ∣ 2 ^ 32)
    (ha : a % p = 0) : ∀ c ∈ plan.dropLast, c.2 = p := by
  induction h with
  | last h => simp
  | more h hrest ih =>
    rw [List.dropLast_cons_of_ne_nil (List.ne_nil_of_mem (List.mem_of_head? hrest.head))]
    exact List.forall_mem_cons.2 ⟨by simp [ha], ih (nextPage_mod hp hd _)⟩

/-- Every chunk between the first and the last is a whole page. -/
theorem IsChunking.tail_pages (h : IsChunking p a n plan) (hp : 0 < p) (hd : p ∣ 2 ^ 32) :
    ∀ c ∈ plan.tail.dropLast, c.2 = p := by
  cases h with
  | last h => simp
  | more h hrest => exact hrest.pages_of_aligned hp hd (nextPage_mod hp hd _)

/-- A write of one byte or more at the start of a page has a chunk for every page begun. -/
theorem chunkCount_of_aligned (hp : 0 < p) (ha : a % p = 0) (hn : 1 ≤ n) :
    chunkCount p a n = (n + p - 1) / p := by
  unfold chunkCount
  rw [ha, Nat.sub_zero]
  split
  · rw [Nat.div_eq_of_lt_le] <;> omega
  · rw [show n + p - 1 = n - p + p - 1 + p by omega, Nat.add_div_right _ hp, Nat.add_comm]

/-- The number of chunks is as the rule says. -/
theorem IsChunking.length (h : IsChunking p a n plan) (hp : 0 < p) (hd : p ∣ 2 ^ 32) :
    plan.length = chunkCount p a n := by
  induction h with
  | last h => simp [chunkCount, h]
  | more h _ ih =>
    rw [List.length_cons, ih, chunkCount_of_aligned hp (nextPage_mod hp hd _) (by omega), chunkCount,
      if_neg (by omega), Nat.add_comm]

/-- No more chunks than bytes. -/
theorem IsChunking.length_le (h : IsChunking p a n plan) (hp : 0 < p) (hn : 1 ≤ n) :
    plan.length ≤ n := by
  induction h with
  | last h => simpa using hn
  | @more a n rest h _ ih =>
    have hmod := Nat.mod_lt a hp
    have hlen := ih (by omega)
    rw [List.length_cons]
    omega

/-! ### Chunks as words -/

/-- Address and length of a chunk as a program command has them. -/
def chunkWords (c : Nat × Nat) : Word × Word := (BitVec.ofNat 32 c.1, BitVec.ofNat 32 c.2)

theorem toNat_ofNat_of_lt {x : Nat} (h : x < 2 ^ 32) : (BitVec.ofNat 32 x).toNat = x := by
  rw [BitVec.toNat_ofNat, Nat.mod_eq_of_lt h]

/-- What holds of the chunks on natural numbers holds of them as words. -/
theorem IsChunking.forall_words (h : IsChunking p a n plan) (ha : a < 2 ^ 32) (hn : n < 2 ^ 32)
    {l : List (Nat × Nat)} {P : Nat → Nat → Prop} (hl : l ⊆ plan) (hP : ∀ c ∈ l, P c.1 c.2) :
    ∀ c ∈ l.map chunkWords, P c.1.toNat c.2.toNat := by
  refine List.forall_mem_map.2 fun c hc => ?_
  have haddr := h.address_lt ha c (hl hc)
  have hlen := h.length_le_of_mem (hl hc)
  rw [chunkWords, toNat_ofNat_of_lt haddr, toNat_ofNat_of_lt (hlen.trans_lt hn)]
  exact hP c hc

/-- The chunks lie end to end and cover the write. -/
theorem IsChunking.covers (h : IsChunking p a n plan) (hn : n < 2 ^ 32) :
    coversFrom (BitVec.ofNat 32 a) n (plan.map chunkWords) := by
  induction h with
  | last h =>
    have hlen := toNat_ofNat_of_lt hn
    exact ⟨rfl, hlen.le, Nat.sub_eq_zero_of_le hlen.ge⟩
  | @more a n rest h _ ih =>
    have hroom := toNat_ofNat_of_lt (h.trans hn)
    have hnext : BitVec.ofNat 32 a + BitVec.ofNat 32 (p - a % p) =
        BitVec.ofNat 32 ((a + (p - a % p)) % 2 ^ 32) := by
      apply BitVec.eq_of_toNat_eq
      simp
    refine ⟨rfl, hroom.trans_le h.le, ?_⟩
    rw [hroom, hnext]
    exact ih (by omega)

end Chunking

end Sys2Proof.Machine
end

