-- ==== Sys2Proof/Proofs/WriteLoop.lean ====
section
/-!
The loop of WRITE follows the plan of its chunks (41_program.md R151): every chunk makes its five calls with the
working registers it began with, and finds BUF as the host's stores during the calls before have left it.
-/

namespace Sys2Proof.Machine

/-! ### Counting calls -/

/-- Since `u` as many calls were counted as lines were written, the bus not having been released. -/
def State.Counted (u t : State) : Prop :=
  ∃ fs, t.trace = u.trace ++ fs ∧
    ((∀ e ∈ fs, e.call ≠ .busRelease) → t.env.calls = u.env.calls + fs.length)

theorem State.Counted.refl (u : State) : u.Counted u :=
  ⟨[], (List.append_nil _).symm, fun _ => rfl⟩

/-- One more line is counted, unless it is the release of the bus. -/
theorem State.Counted.line {u t v : State} {e : Event} (h : u.Counted t) (htrace : v.trace = t.trace ++ [e])
    (hcalls : e.call ≠ .busRelease → v.env.calls = t.env.calls + 1) : u.Counted v := by
  obtain ⟨fs, hfs, hcount⟩ := h
  refine ⟨fs ++ [e], by rw [htrace, hfs, List.append_assoc], fun hall => ?_⟩
  obtain ⟨hfirst, hlast⟩ := List.forall_mem_append.1 hall
  rw [hcalls (hlast e List.mem_cons_self), hcount hfirst, List.length_append]
  rfl

theorem State.Counted.afterCall {u t : State} (h : u.Counted t) (c : Call) :
    u.Counted (t.afterCall c) := h.line (State.afterCall_trace _ _) fun _ => rfl

theorem carried_counted (room : Nat) (sticks : Prop) (u : State) :
    Carried room sticks (fun _ _ t => u.Counted t) u.Counted where
  write h hw := by cases hw <;> exact h
  push _ h := h
  pop _ h := h
  cause _ h := h
  call h _ _ _ _ := h.afterCall _
  never h _ _ _ _ := h.afterCall _
  log h _ _ := h.line (State.logCall_trace _ _ _) fun hne => absurd rfl hne
  stuck _ h _ _ := h

/-- A piece made of calls counts them. -/
theorem Seq.Built.counted {α : Type} {room d : Nat} {sticks clean} {Q : α → Bool → Prop} {m : Seq α}
    (h : m.Built room sticks clean d Q) (u : State) : m.Ensures u fun _ v => u.Counted v := by
  refine (h.ends (carried_counted room sticks u) (State.Counted.refl u)).imp ?_
  rintro (_ | x) v hv
  · exact hv
  · obtain ⟨_, -, hcount⟩ := hv
    exact hcount

/-! ### Inside the loop -/

/-- The block is kept also where the same is written to the working registers. -/
theorem State.BlockKept.setWork {s t : State} (h : s.BlockKept t) (w : Work) :
    (s.setWork w).BlockKept (t.setWork w) :=
  ⟨h.cfg, h.status, h.inited, h.done, h.req, rfl, h.scratch, h.tmo, h.calls, h.buf, h.stores, h.host⟩

/-- WRITE, begun in `s0`, has made `j` calls, and its working registers are `w`. -/
structure State.Programming (s0 : State) (j : Nat) (w : Work) (u : State) : Prop where
  /-- No register but the working registers was written. -/
  kept : (s0.setWork w).BlockKept u
  /-- The calls made. -/
  calls : u.env.calls = s0.env.calls + j

section Loop

variable {s0 u v : State} {j : Nat} {w w' : Work} {plan plan' : List (List Label × Call)}

theorem State.Programming.work (h : s0.Programming j w u) : u.work = w := h.kept.work

theorem State.Programming.buf (h : s0.Programming j w u) : u.buf = s0.bufAfter j := by
  have hbuf : u.buf = s0.bufAfter (u.env.calls - s0.env.calls) := h.kept.buf
  rwa [h.calls, Nat.add_sub_cancel_left] at hbuf

/-- Other values are written to the working registers. -/
theorem State.Programming.setWork (h : s0.Programming j w u) (w' : Work) :
    s0.Programming j w' (u.setWork w') := ⟨h.kept.setWork w', h.calls⟩

theorem State.AtSite.setWork {site : List Label} (h : s0.AtSite site u) (w : Work) :
    s0.AtSite site (u.setWork w) := ⟨h.phase, h.cfg, h.tmo, h.req⟩

/-- The loop, or what is left of it, makes the calls of `plan`; where it returns OK the working registers are `w'`.
It begins when `j` calls were made, with the working registers `w`. -/
def Seq.Programs (s0 : State) (j : Nat) (w : Work) (plan : List (List Label × Call)) (w' : Work)
    (m : Seq StatusCode) : Prop :=
  ∀ u, s0.AtSite [] u → s0.Programming j w u → m.Ensures u fun r v =>
    ∃ fs, v.trace = u.trace ++ fs ∧ s0.EndsPlan [] plan (okOr .bus .error) fs r v ∧
      (r = some .ok → v.work = w')

/-- A step of a chunk: it makes the calls of `plan` and writes no register. -/
structure Seq.ChunkStep {α : Type} (s0 : State) (plan : List (List Label × Call)) (V : Verdict α)
    (m : Seq α) : Prop where
  /-- Its calls. -/
  follows : m.FollowsPlan s0 [] plan V
  /-- It is made of calls. -/
  built : ∃ Q : α → Bool → Prop, m.Built 0 False true 0 Q
  /-- It writes no register. -/
  kept : Seq.Keeps State.BlockKept m
  /-- It does not release the bus. -/
  calls : ∀ l ∈ plan, l.2 ≠ .busRelease

/-- After a step of a chunk its calls are counted, and the working registers are as before. -/
theorem Seq.ChunkStep.ensures {α : Type} {V : Verdict α} {m : Seq α} (hm : m.ChunkStep s0 plan V)
    (hat : s0.AtSite [] u) (hu : s0.Programming j w u) :
    m.Ensures u fun r v => ∃ fs, v.trace = u.trace ++ fs ∧ s0.EndsPlan [] plan V fs r v ∧
      (Made plan fs → s0.Programming (j + plan.length) w v) := by
  obtain ⟨Q, hbuilt⟩ := hm.built
  have hcounted := hbuilt.counted u
  have hkept := State.blockKept_respects.trans hu.kept (hm.kept u)
  obtain ⟨fs, htrace, hend⟩ := hm.follows u hat
  refine ⟨fs, htrace, hend, fun hmade => ⟨hkept, ?_⟩⟩
  obtain ⟨gs, htrace', hcount⟩ := hcounted
  obtain rfl : fs = gs := List.append_cancel_left (htrace.symm.trans htrace')
  have hcalls : ∀ e ∈ fs, e.call ≠ .busRelease := fun e he =>
    hm.calls e.line (hmade.lines ▸ List.mem_map_of_mem he)
  rw [hcount hcalls, hu.calls, hmade.length, Nat.add_assoc]

theorem Seq.Programs.look {k : State → Seq StatusCode}
    (hk : ∀ u, s0.Programming j w u → (k u).Programs s0 j w plan w') :
    (Seq.look k).Programs s0 j w plan w' := fun u hat hu => hk u hu u hat hu

/-- A step of a chunk, then what is left of the loop. -/
theorem Seq.ChunkStep.andThen {β : Type} {V : Verdict β} {m : Seq β} {k : β → Seq StatusCode}
    (hm : m.ChunkStep s0 plan V)
    (hbad : ∀ x cause, V.bad x cause → (k x).GivesUp (okOr .bus .error) cause)
    (hgood : ∀ x cause fs, V.good x cause fs → (k x).Programs s0 (j + plan.length) w plan' w') :
    (m.andThen k).Programs s0 j w (plan ++ plan') w' := by
  intro u hat hu
  refine (Seq.andThen_ensures _ _).2 ((hm.ensures hat hu).imp fun r v ⟨fs, htrace, h, hnext⟩ => ?_)
  cases r with
  | none =>
    obtain ⟨hcut, hsite⟩ := h
    exact ⟨fs, htrace, ⟨hcut.append_plan, hsite⟩, nofun⟩
  | some x =>
    rcases h with ⟨hmade, hv, hx⟩ | ⟨hcut, hx⟩
    · refine (hgood x _ fs hx v hv (hnext hmade)).imp fun r t ⟨gs, ht, h, hwork⟩ => ?_
      exact ⟨fs ++ gs, by rw [ht, htrace, List.append_assoc], h.after (okOr_stable _ _) hmade, hwork⟩
    · refine (hbad x _ hx v rfl).imp ?_
      rintro _ t ⟨ht, st, rfl, rfl, hcause⟩
      exact ⟨fs, ht.trans htrace, .inr ⟨hcut.append_plan, rfl, hcause⟩, nofun⟩

theorem Seq.ChunkStep.orAbort {m : Seq Answer} {k : List Byte → Seq StatusCode}
    (hm : m.ChunkStep s0 plan lastAnswer)
    (hk : ∀ b, (k b).Programs s0 (j + plan.length) w plan' w') :
    (m.orAbort .bus .error k).Programs s0 j w (plan ++ plan') w' := by
  refine hm.andThen ?_ ?_
  · rintro _ cause rfl v -
    exact ⟨rfl, .error, rfl, rfl, rfl⟩
  · rintro (b | _ | _) cause fs ⟨hok, -⟩
    · exact hk b
    · cases hok
    · cases hok

theorem Seq.ChunkStep.orReturn {m k : Seq StatusCode} (hm : m.ChunkStep s0 plan (okOr .bus .error))
    (hk : k.Programs s0 (j + plan.length) w plan' w') :
    (m.orReturn .error k).Programs s0 j w (plan ++ plan') w' := by
  refine hm.andThen ?_ ?_
  · rintro _ cause ⟨rfl, hcause⟩ v hv
    exact ⟨rfl, .error, rfl, rfl, hv.trans hcause⟩
  · rintro _ cause fs rfl
    exact hk

/-! ### The steps of a chunk -/

theorem label_doWriteEnable_chunkStep (l : Label) :
    (Seq.label l doWriteEnable).ChunkStep s0 (enableLines s0 [l]) (okOr .bus .error) where
  follows := .label doWriteEnable_followsPlan
  built := ⟨_, label_doWriteEnable_built l (by omega)⟩
  kept := State.blockKept_respects.label _ State.blockKept_respects.doWriteEnable
  calls := by simp [enableLines]

theorem label_execCall_chunkStep (l : Label) (t : Txn) :
    (Seq.label l (execCall t)).ChunkStep s0 [([l], .exec t s0.tmo.dflt)] lastAnswer where
  follows := .label (execCall_followsPlan t (List.cons_ne_nil _ _))
  built := ⟨_, label_execCall_asks l t (by omega)⟩
  kept := State.blockKept_respects.label _ (State.blockKept_respects.execCall t)
  calls := by simp

theorem txCall_followsPlan {site : List Label} (bytes : List Byte) (hsite : site ≠ []) :
    (txCall bytes).FollowsPlan s0 site [(site, .tx bytes s0.tmo.dflt)] lastAnswer :=
  .look fun u hu => by
    rw [hu.tmo]
    exact call_followsPlan hsite

theorem label_txCall_chunkStep (l : Label) (bytes : List Byte) :
    (Seq.label l (txCall bytes)).ChunkStep s0 [([l], .tx bytes s0.tmo.dflt)] lastAnswer where
  follows := .label (txCall_followsPlan bytes (List.cons_ne_nil _ _))
  built := ⟨_, .label (txCall_asks bytes (by omega) (by omega))⟩
  kept := State.blockKept_respects.label _ (State.blockKept_respects.txCall bytes)
  calls := by simp

theorem label_doPollReady_chunkStep (l : Label) :
    (Seq.label l (doPollReady fun u => u.tmo.program)).ChunkStep s0 [readyLine s0 [l] s0.tmo.program]
      (okOr .bus .error) where
  follows := .label (doPollReady_followsPlan fun _ hu => congrArg Timeouts.program hu.tmo)
  built := ⟨_, label_doPollReady_built l _ (by omega)⟩
  kept := State.blockKept_respects.label _ (State.blockKept_respects.doPollReady _)
  calls := by simp [readyLine]

/-- One visit of the loop makes the five calls of its chunk; the data is what BUF holds after the third
(41_program.md R151, steps X1 to X4). -/
theorem writeChunk_programs {i : Nat} {k : Seq StatusCode}
    (hk : k.Programs s0 (5 * (i + 1)) w plan w') :
    (writeChunk k).Programs s0 (5 * i) w
      (chunkLines s0 i w.ptr.toNat (w.cur.toNat, w.chunk.toNat) ++ plan) w' := by
  have hlines : chunkLines s0 i w.ptr.toNat (w.cur.toNat, w.chunk.toNat) ++ plan =
      enableLines s0 [.X1] ++ ([([.X2], .exec (.pp4 w.cur w.chunk) s0.tmo.dflt)] ++
        ([([.X3], .tx (Memory.readBytes bufBackground (s0.bufAfter (5 * i + 3)) w.ptr.toNat
            w.chunk.toNat) s0.tmo.dflt)] ++
          ([readyLine s0 [.X4] s0.tmo.program] ++ plan))) := by
    simp [chunkLines, State.bufAtChunk]
  rw [hlines]
  refine (label_doWriteEnable_chunkStep _).orReturn (.look fun u hu => ?_)
  rw [hu.work]
  refine (label_execCall_chunkStep _ _).orAbort fun _ => .look fun v hv => ?_
  rw [hv.work, State.bufRead, hv.buf]
  exact (label_txCall_chunkStep _ _).orAbort fun _ => (label_doPollReady_chunkStep _).orReturn hk

/-! ### The chunks of the loop -/

/-- The registers at the top of a visit of WRITE's loop: CHUNK fills the page or takes all bytes left, and PTR and
the bytes left make up the length `n` (41_program.md R151, R152). -/
structure Work.AtChunk (c : Config) (n : Nat) (w : Work) : Prop where
  /-- CHUNK. -/
  chunk : w.chunk.toNat = min (c.pageSize - w.cur.toNat % c.pageSize) w.left
  /-- PTR. -/
  ptr : w.ptr.toNat + w.left = n

variable {c : Config} {n : Word}

/-- Step X0 gives the first chunk. -/
theorem Work.startWrite_atChunk (hc : c.wf = true) (w : Work) (a n : Word) :
    (w.startWrite c a n).AtChunk c n.toNat := by
  obtain ⟨hleft, -⟩ := Work.startWrite_fits hc w a n
  refine ⟨?_, ?_⟩
  · rw [hleft]
    exact firstChunk_toNat hc a n
  · rw [hleft]
    exact Nat.zero_add _

/-- CHUNK is no more than the bytes left. -/
theorem Work.AtChunk.fits (hc : c.wf = true) {m : Nat} (h : w.AtChunk c m) : w.chunkFits := by
  have hmod := Nat.mod_lt w.cur.toNat (Config.pageSize_pos hc)
  unfold Work.chunkFits
  rw [h.chunk]
  omega

/-- Step X5 advances PTR by CHUNK. -/
theorem Work.AtChunk.advance_ptr (hc : c.wf = true) (h : w.AtChunk c n.toNat) :
    (w.advance c).ptr.toNat = w.ptr.toNat + w.chunk.toNat := by
  obtain ⟨hle, -⟩ := h.fits hc
  have hptr := h.ptr
  have hn := n.isLt
  exact (BitVec.toNat_add _ _).trans (Nat.mod_eq_of_lt (by omega))

/-- Step X5 gives the next chunk, as long as bytes are left. -/
theorem Work.AtChunk.advance (hc : c.wf = true) (h : w.AtChunk c n.toNat)
    (hmore : w.chunk.toNat < w.left) : (w.advance c).AtChunk c n.toNat := by
  have hchunk := h.chunk
  have hptr := h.ptr
  have hroom : w.chunk.toNat = c.pageSize - w.cur.toNat % c.pageSize := by omega
  have hstart : (w.advance c).cur.toNat % c.pageSize = 0 := by
    change (w.cur + w.chunk).toNat % c.pageSize = 0
    rw [BitVec.toNat_add, hroom]
    exact nextPage_mod (Config.pageSize_pos hc) (Config.pageSize_dvd hc) _
  refine ⟨?_, ?_⟩
  · rw [hstart, Nat.sub_zero]
    exact nextChunk_toNat hc _ _
  · rw [h.advance_ptr hc, Work.advance_left (h.fits hc)]
    omega

/-- The loop ends exactly when CHUNK takes all bytes left (step X6). -/
theorem Work.AtChunk.advance_cur_eq_end_iff (hc : c.wf = true) {m : Nat} (h : w.AtChunk c m) :
    (w.advance c).cur = (w.advance c).endAddr ↔ w.left ≤ w.chunk.toNat := by
  have hleft : (w.advance c).left = w.left - w.chunk.toNat := Work.advance_left (h.fits hc)
  rw [← Nat.sub_eq_zero_iff_le, ← hleft, Work.left]
  constructor
  · intro heq
    rw [heq, BitVec.sub_self]
    rfl
  · intro hzero
    bv_omega

/-- The registers when the loop has ended. -/
theorem Work.AtChunk.advance_of_end (hc : c.wf = true) (h : w.AtChunk c n.toNat)
    (hend : w.left ≤ w.chunk.toNat) : w.advance c = ⟨w.endAddr, w.endAddr, 0, n, w.st⟩ := by
  have hcur : (w.advance c).cur = w.endAddr := (h.advance_cur_eq_end_iff hc).2 hend
  have hleft : (w.advance c).left = w.left - w.chunk.toNat := Work.advance_left (h.fits hc)
  have hchunk : (w.advance c).chunk = 0 := by
    apply BitVec.eq_of_toNat_eq
    refine (nextChunk_toNat hc _ _).trans ?_
    change min _ (w.advance c).left = 0
    omega
  have hptr : (w.advance c).ptr = n := by
    apply BitVec.eq_of_toNat_eq
    obtain ⟨hle, -⟩ := h.fits hc
    have hsum := h.ptr
    rw [h.advance_ptr hc]
    omega
  calc w.advance c
      = ⟨(w.advance c).cur, w.endAddr, (w.advance c).chunk, (w.advance c).ptr, w.st⟩ := rfl
    _ = _ := by rw [hcur, hchunk, hptr]

/-- Step X5, then what is left of the loop. -/
theorem Seq.Programs.advance {k : Seq StatusCode}
    (hk : k.Programs s0 j (w.advance s0.cfg) plan w') :
    (Seq.update (fun s => s.setWork (s.work.advance s.cfg)) k).Programs s0 j w plan w' := by
  intro u hat hu
  refine (Seq.update_ensures _ _).2 ?_
  rw [hu.work, hat.cfg]
  exact hk _ (hat.setWork _) (hu.setWork _)

/-- Step X6: the end of the loop, or its next visit. -/
theorem Seq.Programs.untilEnd {m k : Seq StatusCode}
    (hm : w.cur = w.endAddr → m.Programs s0 j w plan w')
    (hk : w.cur ≠ w.endAddr → k.Programs s0 j w plan w') :
    (Seq.look fun s => if s.work.cur = s.work.endAddr then m else k).Programs s0 j w plan w' := by
  refine .look fun u hu => ?_
  rw [hu.work]
  split
  · exact hm ‹_›
  · exact hk ‹_›

/-- The loop has ended. -/
theorem Seq.Programs.done : (Seq.pure .ok).Programs s0 j w [] w := fun _ hat hu =>
  ⟨[], (List.append_nil _).symm, .inl ⟨⟨rfl, rfl⟩, hat, rfl⟩, fun _ => hu.work⟩

/-- The loop makes the calls of the chunks left, and ends within one visit more than there are bytes left. -/
theorem writeLoop_programs (hc : s0.cfg.wf = true) (fuel : Nat) {i : Nat}
    (h : w.AtChunk s0.cfg n.toNat) (hfuel : w.left < fuel) :
    (writeLoop fuel).Programs s0 (5 * i) w
      (chunksLines s0 i w.ptr.toNat (chunkPlan s0.cfg.pageSize fuel w.cur.toNat w.left))
      ⟨w.endAddr, w.endAddr, 0, n, w.st⟩ := by
  induction fuel generalizing w i with
  | zero => omega
  | succ fuel ih =>
    have hchunk := h.chunk
    have hmod := Nat.mod_lt w.cur.toNat (Config.pageSize_pos hc)
    have hend := h.advance_cur_eq_end_iff hc
    rcases Nat.lt_or_ge (s0.cfg.pageSize - w.cur.toNat % s0.cfg.pageSize) w.left with hlt | hge
    · have hroom : w.chunk.toNat = s0.cfg.pageSize - w.cur.toNat % s0.cfg.pageSize := by omega
      have hmore : w.chunk.toNat < w.left := by omega
      have hleft : (w.advance s0.cfg).left = w.left - w.chunk.toNat := Work.advance_left (h.fits hc)
      have hcur : (w.advance s0.cfg).cur.toNat = (w.cur.toNat + w.chunk.toNat) % 2 ^ 32 :=
        BitVec.toNat_add _ _
      have hloop := ih (i := i + 1) (h.advance hc hmore) (by omega)
      rw [h.advance_ptr hc, hleft, hcur] at hloop
      rw [chunkPlan_of_lt hlt, ← hroom]
      exact writeChunk_programs <| .advance <| .untilEnd (fun heq => absurd (hend.1 heq) hmore.not_ge)
        fun _ => hloop
    · have hall : w.chunk.toNat = w.left := by omega
      rw [chunkPlan_of_le hge, ← hall, ← h.advance_of_end hc hall.ge]
      exact writeChunk_programs <| .advance <| .untilEnd (fun _ => .done) fun hne =>
        absurd (hend.2 hall.ge) hne

/-- WRITE makes the calls of all its chunks. -/
theorem doWrite_programs (hc : s0.cfg.wf = true) (a n : Word) :
    (doWrite a n).Programs s0 0 s0.work (programLines s0 a n) ⟨a + n, a + n, 0, n, s0.work.st⟩ := by
  intro u hat hu
  obtain ⟨hleft, -⟩ := Work.startWrite_fits hc s0.work a n
  have hloop := writeLoop_programs hc (n.toNat + 1) (i := 0) (Work.startWrite_atChunk hc s0.work a n)
    (by omega)
  rw [hleft] at hloop
  refine (Seq.update_ensures _ _).2 ?_
  rw [hu.work, hat.cfg]
  exact hloop _ (hat.setWork _) (hu.setWork _)

end Loop

end Sys2Proof.Machine
end

