-- ==== Sys2Proof/Proofs/Program.lean ====
section
/-!
WRITE (41_program.md): what it leaves as it was, the calls of its chunks in the trace, and the statements about it.
-/

namespace Sys2Proof.Machine

/-! ### What WRITE leaves -/

/-- The loop of WRITE respects what calls and its step X5 respect. -/
theorem Respects.writeLoop {R : State → State → Prop} (H : Respects R)
    (hadvance : ∀ s, R s (s.setWork (s.work.advance s.cfg))) (fuel : Nat) :
    Seq.Keeps R (writeLoop fuel) := by
  induction fuel with
  | zero => exact H.stuck _
  | succ fuel ih =>
    refine H.orReturn (H.label _ H.doWriteEnable) (.look fun s => ?_)
    refine H.orAbort (H.label _ (H.execCall _)) fun _ => .look fun t => ?_
    refine H.orAbort (H.label _ (H.txCall _)) fun _ => H.orReturn (H.label _ (H.doPollReady _)) ?_
    exact H.update hadvance (.look fun s => .ite (H.pure _) ih)

/-- Of the registers only CUR, END, CHUNK and PTR were written. -/
def State.KeptButWork (s t : State) : Prop :=
  ∃ w : Work, w.st = s.work.st ∧ (s.setWork w).BlockKept t

theorem State.keptButWork_setWork {s : State} {w : Work} (h : w.st = s.work.st) :
    s.KeptButWork (s.setWork w) := ⟨w, h, State.blockKept_respects.refl _⟩

theorem State.keptButWork_respects : Respects State.KeptButWork where
  refl s := State.keptButWork_setWork (w := s.work) rfl
  trans := by
    rintro s t u ⟨w, hw, h⟩ ⟨w', hw', h'⟩
    exact ⟨w', hw'.trans (h.work ▸ hw), State.blockKept_respects.trans (h.setWork w') h'⟩
  phase s v := ⟨s.work, rfl, State.blockKept_respects.phase s v⟩
  cause s v := ⟨s.work, rfl, State.blockKept_respects.cause s v⟩
  call s c := ⟨s.work, rfl, State.blockKept_respects.call s c⟩
  log s c r := ⟨s.work, rfl, State.blockKept_respects.log s c r⟩

section Write

variable {a n : Word} {s t : State}

/-- A return writes no data register and no byte of BUF. -/
theorem State.dataKept_finishRun {r : Option StatusCode × State} :
    s.dataKept (finishRun r) ↔ s.dataKept r.2 := by
  rcases r with ⟨_ | code, u⟩
  · exact Iff.rfl
  · exact Iff.rfl

/-- WRITE is the run of its body. -/
theorem exec_write_run (h : exec (.write a n) s = .next t) :
    finishRun (doWrite a n (s.accept 0x04 a n)) = t := exec_operation_eq rfl h

/-- WRITE leaves INITED, the scratch bytes and `ST`, and writes no byte of BUF. -/
theorem exec_write_kept (h : exec (.write a n) s = .next t) :
    t.inited = s.inited ∧ t.scratch = s.scratch ∧ t.work.st = s.work.st ∧ s.bufKept t := by
  have H := State.keptButWork_respects
  have hkept : Seq.Keeps State.KeptButWork (doWrite a n) :=
    H.update (fun _ => State.keptButWork_setWork rfl)
      (H.writeLoop (fun _ => State.keptButWork_setWork rfl) _)
  obtain ⟨w, hst, hblock⟩ := hkept (s.accept 0x04 a n)
  have hdata := State.dataKept_finishRun.2 hblock.dataKept
  rw [exec_write_run h] at hdata
  obtain ⟨hinited, hwork, hscratch, hbuf⟩ := hdata
  exact ⟨hinited, hscratch, hwork ▸ hst, hbuf⟩

/-! ### The run of WRITE -/

/-- The lines of the chunks are those seen from the acceptance of the request. -/
theorem chunksLines_accept (s : State) (op : Byte) (a n : Word) (k ptr : Nat) (plan : List (Nat × Nat)) :
    chunksLines (s.accept op a n) k ptr plan = chunksLines s k ptr plan := by
  induction plan generalizing k ptr with
  | nil => rfl
  | cons c plan ih =>
    rw [chunksLines, ih]
    rfl

theorem programLines_accept (s : State) (op : Byte) (a n : Word) :
    programLines (s.accept op a n) a n = programLines s a n := chunksLines_accept ..

/-- WRITE makes the calls of its chunks, and leaves the registers of its last step where it returned OK. -/
theorem exec_write_straight (hc : s.cfg.wf = true) (hp : s.phase = [])
    (h : exec (.write a n) s = .next t) :
    s.straight t (programLines s a n) .bus .error ∧
      (t.completed .ok → t.work = ⟨a + n, a + n, 0, n, s.work.st⟩) := by
  have hstart : (s.accept 0x04 a n).Programming 0 s.work (s.accept 0x04 a n) :=
    ⟨State.blockKept_respects.refl _, rfl⟩
  have hrun := exec_write_run h
  obtain ⟨fs, htrace, hend, hwork⟩ := doWrite_programs (s0 := s.accept 0x04 a n) hc a n _
    (State.atSite_accept hp) hstart
  obtain rfl := htrace
  rw [programLines_accept] at hend
  obtain ⟨hlines, hout⟩ := exec_of_endsPlan rfl h hrun hend (fun _ _ => id) rfl
  refine ⟨⟨hlines, hout.imp ?_ id⟩, ?_⟩
  · rintro ⟨hmade, st, cause, rfl, hret, hcause⟩
    exact ⟨hmade.lines, hmade.answers_all, hret, hcause⟩
  · rintro ⟨⟨hidle, hok, -⟩, -⟩
    generalize doWrite a n (s.accept 0x04 a n) = run at hrun hend hwork
    rcases run with ⟨_ | code, u⟩
    · obtain rfl : u = t := hrun
      obtain ⟨-, -, hbusy⟩ := hend
      exact absurd hidle hbusy
    · subst hrun
      exact hwork (congrArg some hok)

/-- What was cut short was aborted with its code or has not returned. -/
theorem State.cutShort.not_completed {c : Cause} {code : StatusCode} (h : s.cutShort t c code)
    (hcode : code ≠ .ok) : ¬t.completed .ok := by
  rintro ⟨⟨-, hok, hdone⟩, -⟩
  rcases h with ⟨-, ⟨-, ⟨-, hst, -⟩, -⟩ | ⟨-, -, -, hdown⟩⟩
  · exact hcode (hst.symm.trans hok)
  · simp [hdown] at hdone

/-- The lines of a WRITE that returned OK are those of its plan. -/
theorem exec_write_lines (hc : s.cfg.wf = true) (hp : s.phase = [])
    (h : exec (.write a n) s = .next t) (hok : t.completed .ok) :
    t.trace.map Event.line = programLines s a n := by
  obtain ⟨⟨-, ⟨hlines, -⟩ | hcut⟩, -⟩ := exec_write_straight hc hp h
  · exact hlines
  · exact absurd hok (hcut.not_completed (by decide))

/-- The plan of WRITE is the chunks of its range. -/
theorem programPlan_isChunking (hc : s.cfg.wf = true) (a n : Word) :
    IsChunking s.cfg.pageSize a.toNat n.toNat
      (chunkPlan s.cfg.pageSize (n.toNat + 1) a.toNat n.toNat) :=
  chunkPlan_isChunking (Config.pageSize_pos hc) (Nat.lt_succ_self _)

/-! ### The lines of the chunks -/

variable {k ptr : Nat} {plan : List (Nat × Nat)}

/-- The calls of a chunk: `Exec`, `Tx`, and polls with one of the two predicates. -/
theorem mem_chunksLines {l : List Label × Call} (h : l ∈ chunksLines s k ptr plan) :
    (∃ u tmo, l.2 = .exec u tmo) ∨ (∃ bytes tmo, l.2 = .tx bytes tmo) ∨
      ∃ p i tmo, (p = predReady s.cfg ∨ p = predWel s.cfg) ∧ l.2 = .autoPoll .rdsr p i tmo := by
  induction plan generalizing k ptr with
  | nil => cases h
  | cons c plan ih =>
    rw [chunksLines, List.mem_append] at h
    rcases h with h | h
    · simp only [chunkLines, enableLines, List.mem_append, List.mem_cons, List.not_mem_nil, or_false]
        at h
      rcases h with (rfl | rfl) | rfl | rfl | rfl
      · exact .inl ⟨_, _, rfl⟩
      · exact .inr (.inr ⟨_, _, _, .inr rfl, rfl⟩)
      · exact .inl ⟨_, _, rfl⟩
      · exact .inr (.inl ⟨_, _, rfl⟩)
      · exact .inr (.inr ⟨_, _, _, .inl rfl, rfl⟩)
    · exact ih h

/-- Five calls a chunk. -/
theorem length_chunksLines (s : State) (k ptr : Nat) (plan : List (Nat × Nat)) :
    (chunksLines s k ptr plan).length = 5 * plan.length := by
  induction plan generalizing k ptr with
  | nil => rfl
  | cons c plan ih =>
    have hfive : (chunkLines s k ptr c).length = 5 := rfl
    rw [chunksLines, List.length_append, ih, hfive, List.length_cons]
    omega

theorem programLines_length (hc : s.cfg.wf = true) (a n : Word) :
    (programLines s a n).length = 5 * chunkCount s.cfg.pageSize a.toNat n.toNat := by
  rw [programLines, length_chunksLines,
    (programPlan_isChunking hc a n).length (Config.pageSize_pos hc) (Config.pageSize_dvd hc)]

/-- A script that answers each call of a plan OK with the same bytes. -/
theorem scriptPasses_replicate {r : Reply} {plan : List (List Label × Call)}
    (h : ∀ l ∈ plan, r.passes l.2) : scriptPasses (List.replicate plan.length r) plan := by
  induction plan with
  | nil => exact .nil
  | cons l plan ih =>
    obtain ⟨hl, hplan⟩ := List.forall_mem_cons.1 h
    exact .cons hl (ih hplan)

/-- A byte that satisfies both predicates answers every call of WRITE OK. -/
theorem passes_programLines {v : Byte} (hwel : (predWel s.cfg).sat v = true)
    (hready : (predReady s.cfg).sat v = true) :
    ∀ l ∈ programLines s a n, (Reply.ok [v]).passes l.2 := by
  intro l hl
  rcases mem_chunksLines hl with ⟨u, tmo, h⟩ | ⟨bytes, tmo, h⟩ | ⟨p, i, tmo, rfl | rfl, h⟩ <;> rw [h]
  · exact fun _ => rfl
  · exact fun _ => rfl
  · exact passes_autoPoll hready
  · exact passes_autoPoll hwel

/-- Settles O34: the calls by `doWrite_programs`, the frame by `exec_write_kept`, and the script answers every call
of the plan. -/
theorem writeFollowsItsPlan : Obligations.WriteFollowsItsPlan := by
  intro a n s hc hp hn
  obtain ⟨t, ht⟩ := exec_next_of_bufInRange (i := .write a n) (s := s)
    (by simpa [bufInRange, inBuf] using hn)
  obtain ⟨hinited, hscratch, hst, hbuf⟩ := exec_write_kept ht
  obtain ⟨hstraight, hwork⟩ := exec_write_straight hc hp ht
  refine ⟨t, ht, exec_latched rfl ht, hinited, hscratch, hst, hbuf, hstraight, hwork,
    fun v hwel hready hs => ?_⟩
  have hrelease : ∀ l ∈ programLines s a n, l.2 ≠ .busRelease := fun l hl => by
    rcases mem_chunksLines hl with ⟨_, _, h⟩ | ⟨_, _, h⟩ | ⟨_, _, _, -, h⟩ <;> rw [h] <;> nofun
  rw [← programLines_length hc] at hs
  exact hstraight.completed_of_script (exec_answeredBy rfl ht hstraight.1 hrelease) hs
    (scriptPasses_replicate (passes_programLines hwel hready))

/-! ### A write of length 0 -/

/-- The working registers of a write of no byte at `a`, at every step of it (41_program.md R153). -/
structure Work.EmptyAt (a : Word) (w : Work) : Prop where
  /-- CUR. -/
  cur : w.cur = a
  /-- END. -/
  endAddr : w.endAddr = a
  /-- CHUNK. -/
  chunk : w.chunk = 0
  /-- PTR. -/
  ptr : w.ptr = 0

theorem minWord_zero (x : Word) : minWord x 0 = 0 :=
  BitVec.eq_of_toNat_eq ((minWord_toNat x 0).trans (Nat.min_zero _))

theorem Work.startWrite_emptyAt (c : Config) (a : Word) (w : Work) : (w.startWrite c a 0).EmptyAt a :=
  ⟨rfl, add_zero a, minWord_zero _, rfl⟩

theorem Work.EmptyAt.advance {w : Work} (h : w.EmptyAt a) (c : Config) : (w.advance c).EmptyAt a := by
  have hcur : w.cur + w.chunk = a := by rw [h.cur, h.chunk, add_zero]
  refine ⟨hcur, h.endAddr, ?_, ?_⟩
  · change minWord _ (w.endAddr - (w.cur + w.chunk)) = 0
    rw [hcur, h.endAddr, BitVec.sub_self]
    exact minWord_zero _
  · change w.ptr + w.chunk = 0
    rw [h.ptr, h.chunk]
    rfl

/-- The working registers of a write of no byte at `a`, where they were so before. -/
def State.KeepsEmptyAt (a : Word) (s t : State) : Prop := s.work.EmptyAt a → t.work.EmptyAt a

theorem State.keepsEmptyAt_respects (a : Word) : Respects (State.KeepsEmptyAt a) where
  refl _ := id
  trans h h' := h' ∘ h
  phase _ _ := id
  cause _ _ := id
  call _ _ := id
  log _ _ _ := id

/-- However a write of length 0 ends, its working registers are those it began with. -/
theorem exec_write_zero_work (h : exec (.write a 0) s = .next t) : t.work.EmptyAt a := by
  have hloop := (State.keepsEmptyAt_respects a).writeLoop (fun s hs => hs.advance s.cfg) 1
    ((s.accept 0x04 a 0).setWork (s.work.startWrite s.cfg a 0)) (Work.startWrite_emptyAt _ _ _)
  have hbody : (doWrite a 0 (s.accept 0x04 a 0)).2.work.EmptyAt a := hloop
  rw [← exec_write_run h]
  generalize doWrite a 0 (s.accept 0x04 a 0) = run at hbody ⊢
  rcases run with ⟨_ | code, u⟩
  · exact hbody
  · exact hbody

/-- The plan of a write of length 0 is one chunk of no byte. -/
theorem programLines_zero (s : State) (a : Word) :
    programLines s a 0 =
      enableLines s [.X1] ++ [([.X2], .exec (.pp4 a 0) s.tmo.dflt), ([.X3], .tx [] s.tmo.dflt),
        readyLine s [.X4] s.tmo.program] := by
  have hplan : chunkPlan s.cfg.pageSize ((0 : Word).toNat + 1) a.toNat (0 : Word).toNat =
      [(a.toNat, 0)] := chunkPlan_of_le (Nat.zero_le _)
  rw [programLines, hplan]
  simp [chunksLines, chunkLines, Memory.readBytes]

/-- Settles O35. -/
theorem writeOfLengthZero : Obligations.WriteOfLengthZero := by
  intro a s hc hp
  obtain ⟨t, ht⟩ := exec_next_of_bufInRange (i := .write a 0) (s := s)
    (by simp [bufInRange, inBuf])
  have hwork := exec_write_zero_work ht
  obtain ⟨hstraight, -⟩ := exec_write_straight hc hp ht
  rw [programLines_zero] at hstraight
  exact ⟨t, ht, hstraight, hwork.ptr, hwork.cur, hwork.endAddr⟩

/-! ### The program commands -/

/-- The program commands of a trace are those of its lines. -/
theorem programCommands_eq (es : List Event) :
    programCommands es = (es.map Event.line).filterMap fun l => l.2.programCmd? := by
  rw [List.filterMap_map]
  rfl

theorem executorCalls_eq (es : List Event) :
    executorCalls es = ((es.map Event.line).filter fun l => l.2.isExecutor).length := by
  rw [List.filter_map, List.length_map]
  rfl

/-- One program command a chunk, of its address and length. -/
theorem chunksLines_programCmd (s : State) (k ptr : Nat) (plan : List (Nat × Nat)) :
    (chunksLines s k ptr plan).filterMap (fun l => l.2.programCmd?) = plan.map chunkWords := by
  induction plan generalizing k ptr with
  | nil => rfl
  | cons c plan ih =>
    rw [chunksLines, List.filterMap_append, ih]
    rfl

/-- Every line of a chunk is an executor call. -/
theorem chunksLines_isExecutor (s : State) (k ptr : Nat) (plan : List (Nat × Nat)) :
    (chunksLines s k ptr plan).filter (fun l => l.2.isExecutor) = chunksLines s k ptr plan := by
  refine List.filter_eq_self.2 fun l hl => ?_
  rcases mem_chunksLines hl with ⟨_, _, h⟩ | ⟨_, _, h⟩ | ⟨_, _, _, -, h⟩ <;> rw [h] <;> rfl

/-- Settles O36: the program commands are the chunks of the plan, and the laws are those of `IsChunking`. -/
theorem programCommandsCoverTheRange : Obligations.ProgramCommandsCoverTheRange := by
  intro a n s t hc hp hn h hok
  have hpos := Config.pageSize_pos hc
  have hdvd := Config.pageSize_dvd hc
  have hplan := programPlan_isChunking hc a n
  have hlines := exec_write_lines hc hp h hok
  rw [executorCalls_eq, programCommands_eq, hlines, programLines, chunksLines_programCmd,
    chunksLines_isExecutor, length_chunksLines]
  generalize chunkPlan s.cfg.pageSize (n.toNat + 1) a.toNat n.toNat = plan at hplan ⊢
  have hwords {l : List (Nat × Nat)} {P : Nat → Nat → Prop} := hplan.forall_words a.isLt n.isLt (l := l)
    (P := P)
  have htail := List.tail_subset plan
  rw [← List.map_tail, ← List.map_dropLast, List.length_map]
  refine ⟨?_, ?_, ?_, ?_, ?_, hplan.length hpos hdvd, hplan.length_le hpos hn, rfl⟩
  · have hcovers := hplan.covers n.isLt
    rwa [BitVec.ofNat_toNat, BitVec.setWidth_eq] at hcovers
  · exact hwords (P := fun x y => 1 ≤ y ∧ x % s.cfg.pageSize + y ≤ s.cfg.pageSize)
      (List.Subset.refl _) (hplan.inPage hpos hn)
  · exact hwords (P := fun x _ => x % s.cfg.pageSize = 0) htail (hplan.tail_starts hpos hdvd)
  · have hhead := hplan.head
    have hlen : min (s.cfg.pageSize - a.toNat % s.cfg.pageSize) n.toNat < 2 ^ 32 :=
      (Nat.min_le_right _ _).trans_lt n.isLt
    rw [List.head?_map, hhead, Option.map_some, Option.map_some]
    exact congrArg some (toNat_ofNat_of_lt hlen)
  · exact hwords (P := fun _ x => x = s.cfg.pageSize) (List.Subset.trans (List.dropLast_subset _) htail)
      (hplan.tail_pages hpos hdvd)

/-! ### The bytes sent -/

/-- The bytes a call sends. -/
def Call.sent : Call → List Byte
  | .tx bytes _ => bytes
  | .exec _ _ | .rx _ _ | .autoPoll _ _ _ _ | .pinBind | .busInit | .busReinit | .busRelease => []

/-- The bytes sent in a trace are those of its lines. -/
theorem sentBytes_eq (es : List Event) :
    sentBytes es = (es.map Event.line).flatMap fun l => l.2.sent := by
  rw [List.flatMap_map]
  unfold sentBytes
  congr 1

/-- A chunk sends its bytes of BUF as its step X3 finds it. -/
theorem chunksLines_sent_cons (s : State) (k ptr : Nat) (c : Nat × Nat) (plan : List (Nat × Nat)) :
    (chunksLines s k ptr (c :: plan)).flatMap (fun l => l.2.sent) =
      Memory.readBytes bufBackground (s.bufAtChunk k) ptr c.2 ++
        (chunksLines s (k + 1) (ptr + c.2) plan).flatMap (fun l => l.2.sent) := by
  rw [chunksLines, List.flatMap_append]
  simp [chunkLines, enableLines, readyLine, Call.sent]

theorem chunksLines_sent_length (s : State) (k ptr : Nat) (plan : List (Nat × Nat)) :
    ((chunksLines s k ptr plan).flatMap fun l => l.2.sent).length = (plan.map Prod.snd).sum := by
  induction plan generalizing k ptr with
  | nil => rfl
  | cons c plan ih =>
    rw [chunksLines_sent_cons, List.length_append, Memory.length_readBytes, ih]
    rfl

theorem Memory.readBytes_getD {bg : Byte} {m : Memory} {off n j : Nat} (h : j < n) (d : Byte) :
    (Memory.readBytes bg m off n).getD j d = Memory.read bg m (off + j) := by
  simp [Memory.readBytes, List.getD_eq_getElem?_getD, h]

theorem chunkIndex_of_lt {p a j : Nat} (h : j < p - a % p) : chunkIndex p a j = 0 := if_pos h

/-- Beyond the first page a byte is in the chunk after the one it is in counted from the next page. -/
theorem chunkIndex_of_ge {p a j : Nat} (hp : 0 < p) (hd : p ∣ 2 ^ 32) (h : p - a % p ≤ j) :
    chunkIndex p a j =
      1 + chunkIndex p ((a + (p - a % p)) % 2 ^ 32) (j - (p - a % p)) := by
  unfold chunkIndex
  rw [if_neg h.not_gt, nextPage_mod hp hd, Nat.sub_zero]
  split
  · rename_i hlt
    rw [Nat.div_eq_of_lt hlt]
  · rename_i hge
    rw [Nat.div_eq_sub_div hp (Nat.not_lt.1 hge), Nat.add_comm (_ / _)]

/-- Byte `j` of what the chunks send is the byte of BUF as the chunk that holds it finds it (41_program.md
R155). -/
theorem chunksLines_sent_getD {p b m j : Nat} (h : IsChunking p b m plan) (hp : 0 < p)
    (hd : p ∣ 2 ^ 32) (s : State) (k ptr : Nat) (hj : j < m) :
    ((chunksLines s k ptr plan).flatMap fun l => l.2.sent).getD j 0 =
      Memory.read bufBackground (s.bufAtChunk (k + chunkIndex p b j)) (ptr + j) := by
  induction h generalizing k ptr j with
  | last h =>
    rw [chunksLines_sent_cons, List.getD_append _ _ _ _ (by simpa using hj), Memory.readBytes_getD hj,
      chunkIndex_of_lt (by omega), Nat.add_zero]
  | @more b m rest h hrest ih =>
    rw [chunksLines_sent_cons]
    rcases Nat.lt_or_ge j (p - b % p) with hlt | hge
    · rw [List.getD_append _ _ _ _ (by simpa using hlt), Memory.readBytes_getD hlt,
        chunkIndex_of_lt hlt, Nat.add_zero]
    · rw [List.getD_append_right _ _ _ _ (by simpa using hge), Memory.length_readBytes,
        ih _ _ (by omega), chunkIndex_of_ge hp hd hge, Nat.add_assoc k, Nat.add_assoc ptr,
        Nat.add_sub_cancel' hge]

/-- Settles O37: the bytes sent are those of the plan's `Tx` calls; the pairing holds of every operation. -/
theorem writeSendsTheBuffer : Obligations.WriteSendsTheBuffer := by
  intro a n s t hc hp h hok
  have hplan := programPlan_isChunking hc a n
  have hsent : sentBytes t.trace = (programLines s a n).flatMap fun l => l.2.sent := by
    rw [sentBytes_eq, exec_write_lines hc hp h hok]
  have hlen : (sentBytes t.trace).length = n.toNat := by
    rw [hsent, programLines, chunksLines_sent_length, hplan.sum]
  have hbyte : ∀ j, j < n.toNat → (sentBytes t.trace).getD j 0 =
      Memory.read bufBackground (s.bufAtChunk (chunkIndex s.cfg.pageSize a.toNat j)) j := by
    intro j hj
    rw [hsent, programLines, chunksLines_sent_getD hplan (Config.pageSize_pos hc)
      (Config.pageSize_dvd hc) _ _ _ hj, Nat.zero_add, Nat.zero_add]
  refine ⟨hlen, hbyte, fun hstable => ?_, exec_pairs rfl h⟩
  refine List.ext_getElem (by rw [hlen, State.bufRead, Memory.length_readBytes]) fun j h1 h2 => ?_
  have hj : j < n.toNat := hlen ▸ h1
  rw [← List.getD_eq_getElem _ 0 h1, ← List.getD_eq_getElem _ 0 h2, hbyte j hj, State.bufRead,
    Memory.readBytes_getD hj, Nat.zero_add]
  exact hstable _ j hj

end Write

end Sys2Proof.Machine
end

