-- ==== Sys2Proof/Proofs/ModeConfig.lean ====
section
/-!
QUAD_MODE and HP_MODE (42_mode_config.md). The calls a mode sequence makes after its first read, and the
scratch bytes it leaves, depend on the bytes it read. So a run of one is followed from call to call, with the
scratch bytes known at each, and its outcome is said by functions of the lines it has written.
-/

namespace Sys2Proof.Machine

/-! ### The answers in the lines of a piece -/

/-- The answer to call `k` of these lines. -/
def answerAt (fs : List Event) (k : Nat) : Answer := (fs.map Event.ans).getD k .fail

/-- Byte `j` of the answer to call `k` of these lines. -/
def byteAt (fs : List Event) (k j : Nat) : Byte := (answerAt fs k).bytes.getD j 0

section Answers

variable {fs gs : List Event} {k : Nat} {b : List Byte} {r : Answer}

@[simp] theorem Answer.isOk_ok (b : List Byte) : (Answer.ok b).isOk = true := rfl

theorem byteAt_of_ok (h : answerAt fs k = .ok b) (j : Nat) : byteAt fs k j = b.getD j 0 := by
  rw [byteAt, h]
  rfl

theorem answerAt_of_getElem? (h : fs[k]?.map Event.ans = some r) : answerAt fs k = r := by
  rw [answerAt, List.getD_eq_getElem?_getD, List.getElem?_map, h]
  rfl

theorem answerAt_of_getLast? (h : fs.getLast?.map Event.ans = some r) :
    answerAt fs (fs.length - 1) = r := by
  rw [List.getLast?_eq_getElem?] at h
  exact answerAt_of_getElem? h

/-- More lines do not change an answer. -/
theorem answerAt_of_prefix (hp : fs <+: gs) (h : answerAt fs k = .ok b) : answerAt gs k = .ok b := by
  obtain ⟨rest, rfl⟩ := hp
  have hk : k < fs.length := by
    by_contra hge
    rw [answerAt, List.getD_eq_default _ _ (by simpa using hge)] at h
    cases h
  rwa [answerAt, List.map_append, List.getD_append _ _ _ _ (by simpa using hk)]

/-- No call from the last of a plan on was answered OK where the plan was cut off. -/
theorem CutOff.answerAt_isOk {plan : List (List Label × Call)} (h : CutOff plan r fs)
    (hr : r.isOk = false) (hk : plan.length ≤ k + 1) : (answerAt fs k).isOk = false := by
  have hlen : fs.length ≤ k + 1 := by
    have hle := h.lines.length_le
    rw [List.length_map] at hle
    omega
  rcases Nat.lt_or_ge k fs.length with hlt | hge
  · obtain rfl : k = fs.length - 1 := by omega
    rwa [answerAt_of_getLast? h.last]
  · rw [answerAt, List.getD_eq_default _ _ (by simpa using hge)]
    rfl

end Answers

/-! ### From call to call -/

/-- A step of a mode sequence: it makes the calls of `plan` and writes no register. -/
structure Seq.CallStep {α : Type} (s0 : State) (site : List Label) (plan : List (List Label × Call))
    (V : Verdict α) (m : Seq α) : Prop where
  /-- Its calls. -/
  follows : m.FollowsPlan s0 site plan V
  /-- It writes no register. -/
  kept : Seq.Keeps State.BlockKept m

/-- A sequence begun in `u` has made the calls of `plan`, by the lines `fs`; of the registers it wrote the
scratch bytes alone, which are `x`. -/
structure State.Reached (s0 u : State) (site : List Label) (plan : List (List Label × Call)) (x : Scratch)
    (fs : List Event) (v : State) : Prop where
  /-- The lines written. -/
  trace : v.trace = u.trace ++ fs
  /-- The calls made. -/
  made : Made plan fs
  /-- It stands between two calls. -/
  atSite : s0.AtSite site v
  /-- The registers. -/
  kept : (u.setScratch x).BlockKept v

/-- A piece was cut off at a call of `plan`: it returned ERROR with E_BUS after a FAIL, or it stands at a call
that is never answered. -/
def State.BreaksOff (plan : List (List Label × Call)) (fs : List Event) :
    Option StatusCode → State → Prop
  | some st, v => CutOff plan .fail fs ∧ st = .error ∧ v.cause = some .bus
  | none, v => CutOff plan .never fs ∧ fs.getLast?.map Event.site = some v.phase ∧ v.phase ≠ []

/-- A sequence begun in `u` was cut off at a call of `plan`, with the scratch bytes `x`. -/
structure State.Broken (u : State) (plan : List (List Label × Call)) (x : Scratch) (fs : List Event)
    (r : Option StatusCode) (v : State) : Prop where
  /-- The lines written. -/
  trace : v.trace = u.trace ++ fs
  /-- Where and how it was cut off. -/
  ends : State.BreaksOff plan fs r v
  /-- The registers. -/
  kept : (u.setScratch x).BlockKept v

/-- The block is kept also where the same is written to the scratch bytes. -/
theorem State.BlockKept.setScratch {s t : State} (h : s.BlockKept t) (x : Scratch) :
    (s.setScratch x).BlockKept (t.setScratch x) :=
  ⟨h.cfg, h.status, h.inited, h.done, h.req, h.work, rfl, h.tmo, h.calls, h.buf, h.stores, h.host⟩

theorem State.AtSite.setCause {s0 u : State} {site : List Label} (h : s0.AtSite site u)
    (c : Option Cause) : s0.AtSite site (u.setCause c) := ⟨h.phase, h.cfg, h.tmo, h.req⟩

theorem State.AtSite.setScratch {s0 u : State} {site : List Label} (h : s0.AtSite site u) (x : Scratch) :
    s0.AtSite site (u.setScratch x) := ⟨h.phase, h.cfg, h.tmo, h.req⟩

section Steps

variable {α : Type} {s0 u v : State} {site : List Label} {plan plan' : List (List Label × Call)}
  {x : Scratch} {fs : List Event} {r : Option StatusCode} {V : Verdict α}
  {Q : Option StatusCode → State → Prop}

theorem State.Reached.start (hu : s0.AtSite site u) : s0.Reached u site [] u.scratch [] u :=
  ⟨(List.append_nil _).symm, ⟨rfl, rfl⟩, hu, State.blockKept_respects.refl u⟩

theorem State.Reached.scratch (h : s0.Reached u site plan x fs v) : v.scratch = x := h.kept.scratch

/-- Other values are written to the scratch bytes. -/
theorem State.Reached.setScratch (h : s0.Reached u site plan x fs v) (y : Scratch) :
    s0.Reached u site plan y fs (v.setScratch y) :=
  ⟨h.trace, h.made, h.atSite.setScratch y, h.kept.setScratch y⟩

/-- What was cut off in the first calls of a plan was cut off in the plan. -/
theorem State.Broken.append_plan (h : u.Broken plan x fs r v) : u.Broken (plan ++ plan') x fs r v := by
  refine ⟨h.trace, ?_, h.kept⟩
  cases r with
  | none => exact ⟨h.ends.1.append_plan, h.ends.2⟩
  | some st => exact ⟨h.ends.1.append_plan, h.ends.2⟩

/-- A piece that was cut off ends its plan with ERROR and E_BUS. -/
theorem State.BreaksOff.endsPlan {V : Verdict StatusCode} (h : State.BreaksOff plan fs r v)
    (hV : V.bad .error (some .bus)) : s0.EndsPlan site plan V fs r v := by
  cases r with
  | none => exact h
  | some st =>
    obtain ⟨hcut, rfl, hcause⟩ := h
    exact .inr ⟨hcut, hcause ▸ hV⟩

/-- Where a sequence was cut off, the last call of its plan was not answered OK. -/
theorem State.Broken.answerAt_isOk {k : Nat} (h : u.Broken plan x fs r v) (hk : plan.length ≤ k + 1) :
    (answerAt fs k).isOk = false := by
  have hends := h.ends
  cases r with
  | none => exact hends.1.answerAt_isOk rfl hk
  | some st => exact hends.1.answerAt_isOk rfl hk

theorem Seq.CallStep.label {l : Label} {m : Seq α} (hm : m.CallStep s0 (site ++ [l]) plan V) :
    (Seq.label l m).CallStep s0 site plan V :=
  ⟨.label hm.follows, State.blockKept_respects.label l hm.kept⟩

/-- A step after the calls made so far. -/
theorem Seq.CallStep.ensures {m : Seq α} (hm : m.CallStep s0 site plan' V) (hV : V.Stable)
    (hv : s0.Reached u site plan x fs v) :
    m.Ensures v fun r w => ∃ gs, fs <+: gs ∧ w.trace = u.trace ++ gs ∧
      s0.EndsPlan site (plan ++ plan') V gs r w ∧ (u.setScratch x).BlockKept w := by
  obtain ⟨gs, htrace, hend⟩ := hm.follows v hv.atSite
  refine ⟨fs ++ gs, List.prefix_append _ _, ?_, hend.after hV hv.made,
    State.blockKept_respects.trans hv.kept (hm.kept v)⟩
  rw [htrace, hv.trace, List.append_assoc]

/-- A step that is a call or a register access: after an answer OK the sequence goes on with the bytes. -/
theorem Seq.CallStep.orAbort {m : Seq Answer} {k : List Byte → Seq StatusCode}
    (hm : m.CallStep s0 site plan' lastAnswer) (hv : s0.Reached u site plan x fs v)
    (hcut : ∀ gs r w, fs <+: gs → u.Broken (plan ++ plan') x gs r w → Q r w)
    (hk : ∀ b gs w, fs <+: gs → s0.Reached u site (plan ++ plan') x gs w →
      answerAt gs ((plan ++ plan').length - 1) = .ok b → (k b).Ensures w Q) :
    (m.orAbort .bus .error k).Ensures v Q := by
  refine (Seq.orAbort_ensures _ _ _ _).2 ((hm.ensures lastAnswer_stable hv).imp ?_)
  rintro (_ | b | _ | _) w ⟨gs, hpre, htrace, hend, hkept⟩
  · exact hcut gs _ w hpre ⟨htrace, hend, hkept⟩
  · rcases hend with ⟨hmade, hat, -, hlast⟩ | ⟨-, hb⟩
    · exact hk b gs w hpre ⟨htrace, hmade, hat, hkept⟩ (hmade.length ▸ answerAt_of_getLast? hlast)
    · cases hb
  · rcases hend with ⟨-, -, hok, -⟩ | ⟨hbroken, -⟩
    · cases hok
    · exact hcut gs _ _ hpre ⟨htrace, ⟨hbroken, rfl, rfl⟩,
        State.blockKept_respects.trans hkept (State.blockKept_respects.cause w _)⟩
  · rcases hend with ⟨-, -, hok, -⟩ | ⟨-, hfail⟩
    · cases hok
    · cases hfail

/-- A step that is a subroutine: after OK the sequence goes on. -/
theorem Seq.CallStep.orReturn {m k : Seq StatusCode} (hm : m.CallStep s0 site plan' (okOr .bus .error))
    (hv : s0.Reached u site plan x fs v)
    (hcut : ∀ gs r w, fs <+: gs → u.Broken (plan ++ plan') x gs r w → Q r w)
    (hk : ∀ gs w, fs <+: gs → s0.Reached u site (plan ++ plan') x gs w → k.Ensures w Q) :
    (m.orReturn .error k).Ensures v Q := by
  refine (Seq.orReturn_ensures _ _ _).2 ((hm.ensures (okOr_stable _ _) hv).imp ?_)
  rintro (_ | st) w ⟨gs, hpre, htrace, hend, hkept⟩
  · exact hcut gs _ w hpre ⟨htrace, hend, hkept⟩
  · rcases hend with ⟨hmade, hat, hok⟩ | ⟨hbroken, hcode, hcause⟩
    · obtain rfl : st = .ok := hok
      exact hk gs w hpre ⟨htrace, hmade, hat, hkept⟩
    · obtain rfl : st = .error := hcode
      exact hcut gs _ w hpre ⟨htrace, ⟨hbroken, rfl, hcause⟩, hkept⟩

end Steps

/-! ### The steps of the two sequences -/

section Pieces

variable {s0 u v : State} {site : List Label} {plan : List (List Label × Call)} {x : Scratch}
  {fs : List Event} {Q : Option StatusCode → State → Prop}

theorem writeReg_followsPlan (t : Txn) (bytes : List Byte) :
    (writeReg t bytes).FollowsPlan s0 site (writeLines s0 site t bytes) lastAnswer := by
  refine .andThen (.label (execCall_followsPlan t (by simp))) lastAnswer_stable ?_ ?_
  · rintro _ cause rfl v -
    exact ⟨rfl, .fail, rfl, rfl⟩
  · rintro (b | _ | _) cause fs ⟨hok, -⟩
    · exact .label (txCall_followsPlan bytes (by simp))
    · cases hok
    · cases hok

theorem readReg_callStep (t : Txn) (n : Word) :
    (readReg t n).CallStep s0 site (readLines s0 site t n) lastAnswer :=
  ⟨readReg_followsPlan t n, State.blockKept_respects.readReg t n⟩

theorem writeReg_callStep (t : Txn) (bytes : List Byte) :
    (writeReg t bytes).CallStep s0 site (writeLines s0 site t bytes) lastAnswer :=
  ⟨writeReg_followsPlan t bytes, State.blockKept_respects.writeReg t bytes⟩

theorem doWriteEnable_callStep :
    doWriteEnable.CallStep s0 site (enableLines s0 site) (okOr .bus .error) :=
  ⟨doWriteEnable_followsPlan, State.blockKept_respects.doWriteEnable⟩

theorem doPollReady_callStep : (doPollReady fun t => t.tmo.dflt).CallStep s0 site
    [readyLine s0 site s0.tmo.dflt] (okOr .bus .error) :=
  ⟨doPollReady_followsPlan fun _ hu => congrArg Timeouts.dflt hu.tmo,
    State.blockKept_respects.doPollReady _⟩

/-- The part the two sequences share: write-enable, write `image` of the scratch bytes back, wait until ready,
read again, and go on with the bytes read. -/
def writeBack (l0 l1 l2 l3 : Label) (t t' : Txn) (image : Scratch → List Byte) (n : Word)
    (k : List Byte → Seq StatusCode) : Seq StatusCode :=
  (Seq.label l0 doWriteEnable).orReturn .error <|
    Seq.look fun s =>
      (Seq.label l1 (writeReg t (image s.scratch))).orAbort .bus .error fun _ =>
        (Seq.label l2 (doPollReady fun t => t.tmo.dflt)).orReturn .error <|
          (Seq.label l3 (readReg t' n)).orAbort .bus .error k

theorem writeBack_ensures {l0 l1 l2 l3 : Label} {t t' : Txn} {image : Scratch → List Byte} {n : Word}
    {k : List Byte → Seq StatusCode} {whole : List (List Label × Call)}
    (hv : s0.Reached u site plan x fs v)
    (hwhole : plan ++ enableLines s0 (site ++ [l0]) ++ writeLines s0 (site ++ [l1]) t (image x)
      ++ [readyLine s0 (site ++ [l2]) s0.tmo.dflt] ++ readLines s0 (site ++ [l3]) t' n = whole)
    (hcut : ∀ gs r w, fs <+: gs → u.Broken whole x gs r w → Q r w)
    (hk : ∀ b gs w, fs <+: gs → s0.Reached u site whole x gs w →
      answerAt gs (whole.length - 1) = .ok b → (k b).Ensures w Q) :
    (writeBack l0 l1 l2 l3 t t' image n k).Ensures v Q := by
  subst hwhole
  refine doWriteEnable_callStep.label.orReturn hv
    (fun gs r w hpre h => hcut gs r w hpre h.append_plan.append_plan.append_plan) fun gs w hpre hw => ?_
  rw [Seq.look_ensures, hw.scratch]
  refine (writeReg_callStep t (image x)).label.orAbort hw
    (fun gs' r w' hpre' h => hcut gs' r w' (hpre.trans hpre') h.append_plan.append_plan)
    fun _ gs' w' hpre' hw' _ => ?_
  have hpre := hpre.trans hpre'
  refine doPollReady_callStep.label.orReturn hw'
    (fun gs' r w hpre' h => hcut gs' r w (hpre.trans hpre') h.append_plan) fun gs w hpre' hw => ?_
  have hpre := hpre.trans hpre'
  exact (readReg_callStep t' n).label.orAbort hw (fun gs' r w' hpre' => hcut gs' r w' (hpre.trans hpre'))
    fun b gs' w' hpre' => hk b gs' w' (hpre.trans hpre')

end Pieces

/-! ### How a mode sequence ends -/

/-- What a mode sequence is to do, and the scratch bytes it leaves, by the lines it has written. -/
structure ModePlan where
  /-- The calls up to its verify. -/
  toVerify : List Event → List (List Label × Call)
  /-- All its calls. -/
  whole : List Event → List (List Label × Call)
  /-- The verify passes. -/
  verified : List Event → Prop
  /-- The scratch bytes. -/
  scratch : List Event → Scratch

/-- The verdict of a sequence up to its verify where that does not pass. -/
def verifyFailed (verified : Prop) : Verdict StatusCode where
  good st cause _ := ¬verified ∧ st = .error ∧ cause = some .verify
  bad st cause := st = .error ∧ cause = some .bus

/-- How a mode sequence begun in `u` ends, having written the lines `fs`: it made the calls of its plan, or was
cut off at one, or it ended at the verify. Of the registers it wrote the scratch bytes alone. -/
structure State.EndsMode (s0 u : State) (site : List Label) (M : ModePlan) (fs : List Event)
    (r : Option StatusCode) (v : State) : Prop where
  /-- The lines written. -/
  trace : v.trace = u.trace ++ fs
  /-- The calls, and the result. -/
  ends : s0.EndsPlan site (M.toVerify fs) (verifyFailed (M.verified fs)) fs r v ∨
    M.verified fs ∧ s0.EndsPlan site (M.whole fs) (okOr .bus .error) fs r v
  /-- The registers. -/
  kept : (u.setScratch (M.scratch fs)).BlockKept v

/-- Begun at `site`, the piece is a mode sequence; its plan may depend on the scratch bytes it finds. -/
def Seq.RunsMode (s0 : State) (site : List Label) (M : Scratch → ModePlan) (m : Seq StatusCode) : Prop :=
  ∀ u, s0.AtSite site u → m.Ensures u fun r v => ∃ fs, s0.EndsMode u site (M u.scratch) fs r v

section Ends

variable {s0 u v : State} {site : List Label} {plan : List (List Label × Call)} {x : Scratch}
  {M : ModePlan} {fs : List Event} {r : Option StatusCode}

/-- A sequence that was cut off before its verify. -/
theorem State.Broken.endsMode (h : u.Broken plan x fs r v) (hplan : plan <+: M.toVerify fs)
    (hx : M.scratch fs = x) : s0.EndsMode u site M fs r v := by
  obtain ⟨rest, hrest⟩ := hplan
  have hends : State.BreaksOff (M.toVerify fs) fs r v := hrest ▸ h.append_plan.ends
  exact ⟨h.trace, .inl (hends.endsPlan ⟨rfl, rfl⟩), hx ▸ h.kept⟩

/-- The verify asks whether the bit is as requested (42_mode_config.md R166 step Q6, R168 step H7). -/
theorem verifyBit_iff {en : Bool} {b m : Byte} : verifyBit en b m = true ↔ anySet b m = en := beq_iff_eq

/-- The verify: where the bit is not as requested the sequence is aborted. -/
theorem State.Reached.verify_ensures {en : Bool} {b m : Byte} {k : Seq StatusCode}
    (h : s0.Reached u site plan x fs v) (hplan : M.toVerify fs = plan) (hx : M.scratch fs = x)
    (hbit : M.verified fs ↔ anySet b m = en)
    (hk : M.verified fs → s0.Reached u site (M.toVerify fs) (M.scratch fs) fs v →
      k.Ensures v fun r w => ∃ gs, s0.EndsMode u site M gs r w) :
    (if verifyBit en b m then k else Seq.abort .verify .error).Ensures v fun r w =>
      ∃ gs, s0.EndsMode u site M gs r w := by
  subst hplan hx
  rw [Seq.ite_ensures]
  split
  · exact hk (hbit.2 (verifyBit_iff.1 ‹_›)) h
  · have hno : ¬M.verified fs := fun hver => ‹¬_› (verifyBit_iff.2 (hbit.1 hver))
    exact ⟨fs, h.trace, .inl (.inl ⟨h.made, h.atSite.setCause _, hno, rfl, rfl⟩),
      State.blockKept_respects.trans h.kept (State.blockKept_respects.cause v _)⟩

/-- The label of a mode sequence is popped when it returns. -/
theorem Seq.RunsMode.label {l : Label} {M : Scratch → ModePlan} {m : Seq StatusCode}
    (hm : m.RunsMode s0 (site ++ [l]) M) : (Seq.label l m).RunsMode s0 site M := by
  intro u hu
  refine (Seq.label_ensures _ _).2 ((hm _ (hu.push l)).imp ?_)
  have hstart : ∀ x, (u.setScratch x).BlockKept ((u.setPhase (u.phase ++ [l])).setScratch x) := fun x =>
    State.blockKept_respects.phase (u.setScratch x) _
  rintro (_ | st) v ⟨fs, htrace, hends, hkept⟩
  · exact ⟨fs, htrace, hends, State.blockKept_respects.trans (hstart _) hkept⟩
  · refine ⟨fs, htrace, hends.imp (.label hu) (And.imp_right (.label hu)), ?_⟩
    exact State.blockKept_respects.trans (State.blockKept_respects.trans (hstart _) hkept)
      (State.blockKept_respects.phase v _)

end Ends

/-! ### The sequences -/

/-- `DoQuadMode(en)`, begun with the scratch bytes `x` (42_mode_config.md R166). -/
def quadPlan (s0 : State) (site : List Label) (en : Bool) (x : Scratch) : ModePlan where
  toVerify fs := quadLines s0 site en (byteAt fs 1 0)
  whole fs := quadLines s0 site en (byteAt fs 1 0)
  verified fs := anySet (byteAt fs 8 0) s0.cfg.mQe = en
  scratch fs :=
    { x with
      rb0 := if (answerAt fs 1).isOk then putBit en (byteAt fs 1 0) s0.cfg.mQe else x.rb0
      vb0 := if (answerAt fs 8).isOk then byteAt fs 8 0 else x.vb0 }

/-- `DoHpMode(en)`, begun with the scratch bytes `x` (42_mode_config.md R168). -/
def hpPlan (s0 : State) (site : List Label) (en : Bool) (x : Scratch) : ModePlan where
  toVerify fs := hpLines s0 site en (byteAt fs 1 0) (byteAt fs 3 0) (byteAt fs 3 1)
  whole fs := hpLines s0 site en (byteAt fs 1 0) (byteAt fs 3 0) (byteAt fs 3 1) ++ reinitLines site
  verified fs := anySet (byteAt fs 10 1) s0.cfg.mLh = en
  scratch fs :=
    { rb0 := if (answerAt fs 1).isOk then byteAt fs 1 0 else x.rb0
      rb1 := if (answerAt fs 3).isOk then byteAt fs 3 0 else x.rb1
      rb2 := if (answerAt fs 3).isOk then putBit en (byteAt fs 3 1) s0.cfg.mLh else x.rb2
      vb0 := if (answerAt fs 10).isOk then byteAt fs 10 0 else x.vb0
      vb1 := if (answerAt fs 10).isOk then byteAt fs 10 1 else x.vb1 }

section Sequences

variable {s0 : State} {site : List Label}

/-- The end of `DoQuadMode`: `VB[0]` is written, and the bit tested (42_mode_config.md R166, steps Q5, Q6). -/
def quadVerify (en : Bool) (b : List Byte) : Seq StatusCode :=
  Seq.update (fun t => t.setScratch { t.scratch with vb0 := b.getD 0 0 }) <|
    Seq.look fun t =>
      if verifyBit en t.scratch.vb0 t.cfg.mQe then Seq.pure .ok else Seq.abort .verify .error

theorem doQuadMode_eq (en : Bool) : doQuadMode en =
    (Seq.label .Q0 (readReg .rdsr 1)).orAbort .bus .error fun b =>
      Seq.update
        (fun s => s.setScratch { s.scratch with rb0 := putBit en (b.getD 0 0) s.cfg.mQe }) <|
        writeBack .Q2 .Q3 .Q4 .Q5 (.wrsr 1) .rdsr (fun x => [x.rb0]) 1 (quadVerify en) := rfl

/-- `DoQuadMode` reads SR, and goes on by the byte read (R166). -/
theorem doQuadMode_runsMode (en : Bool) : (doQuadMode en).RunsMode s0 site (quadPlan s0 site en) := by
  intro u hu
  rw [doQuadMode_eq]
  refine (readReg_callStep .rdsr 1).label.orAbort (.start hu) (fun fs r v _ h => ?_)
    fun b fs v _ hv (hrb : answerAt fs 1 = .ok b) => ?_
  · have hrb : (answerAt fs 1).isOk = false := h.answerAt_isOk (by simp [readLines])
    have hvb : (answerAt fs 8).isOk = false := h.answerAt_isOk (by simp [readLines])
    exact ⟨fs, h.endsMode (by simp [quadPlan, quadLines]) (by simp [quadPlan, hrb, hvb])⟩
  rw [Seq.update_ensures, hv.scratch, hv.atSite.cfg]
  refine writeBack_ensures (whole := quadLines s0 site en (b.getD 0 0)) (hv.setScratch _) rfl
    (fun gs r w hpre h => ?_) fun c gs w hpre hw (hvb : answerAt gs 8 = .ok c) => ?_
  · have hrb := answerAt_of_prefix hpre hrb
    have hvb : (answerAt gs 8).isOk = false := h.answerAt_isOk (Nat.le_refl 9)
    refine ⟨gs, h.endsMode ?_ ?_⟩
    · simp [quadPlan, byteAt_of_ok hrb]
    · simp [quadPlan, hrb, hvb, byteAt_of_ok hrb]
  · have hrb := answerAt_of_prefix hpre hrb
    rw [quadVerify, Seq.update_ensures, Seq.look_ensures, hw.scratch]
    refine (hw.setScratch _).verify_ensures ?_ ?_ ?_ fun hver hdone =>
      ⟨gs, hdone.trace, .inr ⟨hver, .inl ⟨hdone.made, hdone.atSite, rfl⟩⟩, hdone.kept⟩
    · simp [quadPlan, byteAt_of_ok hrb]
    · simp [quadPlan, hrb, hvb, byteAt_of_ok hrb, byteAt_of_ok hvb]
    · simp [quadPlan, byteAt_of_ok hvb, hw.atSite.cfg]

/-- The end of `DoHpMode`: `VB` is written, the bit tested, and the bus reinitialised twice (42_mode_config.md
R168, steps H6 to H9). -/
def hpVerify (en : Bool) (b : List Byte) : Seq StatusCode :=
  Seq.update (fun t => t.setScratch { t.scratch with vb0 := b.getD 0 0, vb1 := b.getD 1 0 }) <|
    Seq.look fun t =>
      if verifyBit en t.scratch.vb1 t.cfg.mLh then
        (Seq.label .H8 (call .busReinit)).orAbort .bus .error fun _ =>
          (Seq.label .H9 (call .busReinit)).orAbort .bus .error fun _ => Seq.pure .ok
      else Seq.abort .verify .error

theorem doHpMode_eq (en : Bool) : doHpMode en =
    (Seq.label .H0 (readReg .rdsr 1)).orAbort .bus .error fun b =>
      Seq.update (fun s => s.setScratch { s.scratch with rb0 := b.getD 0 0 }) <|
        (Seq.label .H1 (readReg .rdcr 2)).orAbort .bus .error fun d =>
          Seq.update
            (fun s => s.setScratch
              { s.scratch with rb1 := d.getD 0 0, rb2 := putBit en (d.getD 1 0) s.cfg.mLh }) <|
            writeBack .H3 .H4 .H5 .H6 (.wrsr 3) .rdcr (fun x => [x.rb0, x.rb1, x.rb2]) 2
              (hpVerify en) := rfl

/-- The two reinitialisations, in order. -/
theorem reinit_callStep :
    ((Seq.label .H8 (call .busReinit)).orAbort .bus .error fun _ =>
      (Seq.label .H9 (call .busReinit)).orAbort .bus .error fun _ => Seq.pure .ok).CallStep s0 site
        (reinitLines site) (okOr .bus .error) where
  follows := .orAbort (.label (call_followsPlan (by simp))) fun _ =>
    .orAbort (.label (call_followsPlan (by simp))) fun _ => .pure fun _ => rfl
  kept :=
    have H := State.blockKept_respects
    H.orAbort (H.label _ (H.anyCall _)) fun _ => H.orAbort (H.label _ (H.anyCall _)) fun _ => H.pure _

/-- Once the image and the second read are answered, the plan of `DoHpMode` does not change. -/
theorem hpPlan_of_prefix {en : Bool} {x : Scratch} {fs gs : List Event} {b d c : List Byte}
    (hpre : fs <+: gs) (hsr : answerAt fs 1 = .ok b) (hcr : answerAt fs 3 = .ok d)
    (hvb : answerAt fs 10 = .ok c) :
    (hpPlan s0 site en x).whole gs = (hpPlan s0 site en x).toVerify fs ++ reinitLines site ∧
      (hpPlan s0 site en x).scratch gs = (hpPlan s0 site en x).scratch fs ∧
      ((hpPlan s0 site en x).verified gs ↔ (hpPlan s0 site en x).verified fs) := by
  have hsr' : answerAt gs 1 = answerAt fs 1 := (answerAt_of_prefix hpre hsr).trans hsr.symm
  have hcr' : answerAt gs 3 = answerAt fs 3 := (answerAt_of_prefix hpre hcr).trans hcr.symm
  have hvb' : answerAt gs 10 = answerAt fs 10 := (answerAt_of_prefix hpre hvb).trans hvb.symm
  simp [hpPlan, byteAt, hsr', hcr', hvb']

/-- From the verify of `DoHpMode` on: the bus is reinitialised twice, unless the bit is not as requested. -/
theorem hpVerify_ensures {en : Bool} {x : Scratch} {u v : State} {fs : List Event} {b d c : List Byte}
    (hsr : answerAt fs 1 = .ok b) (hcr : answerAt fs 3 = .ok d) (hvb : answerAt fs 10 = .ok c)
    (hv : s0.Reached u site (hpLines s0 site en (b.getD 0 0) (d.getD 0 0) (d.getD 1 0))
      { x with rb0 := b.getD 0 0, rb1 := d.getD 0 0, rb2 := putBit en (d.getD 1 0) s0.cfg.mLh } fs v) :
    (hpVerify en c).Ensures v fun r w => ∃ gs, s0.EndsMode u site (hpPlan s0 site en x) gs r w := by
  rw [hpVerify, Seq.update_ensures, Seq.look_ensures, hv.scratch]
  refine (hv.setScratch _).verify_ensures ?_ ?_ ?_ fun hver hdone => ?_
  · simp [hpPlan, byteAt_of_ok hsr, byteAt_of_ok hcr]
  · simp [hpPlan, hsr, hcr, hvb, byteAt_of_ok hsr, byteAt_of_ok hcr, byteAt_of_ok hvb]
  · simp [hpPlan, byteAt_of_ok hvb, hv.atSite.cfg]
  · refine (reinit_callStep.ensures (okOr_stable _ _) hdone).imp ?_
    rintro r w ⟨gs, hpre, htrace, hend, hkept⟩
    obtain ⟨hwhole, hx, hbit⟩ := hpPlan_of_prefix (s0 := s0) (site := site) (en := en) (x := x)
      hpre hsr hcr hvb
    exact ⟨gs, htrace, .inr ⟨hbit.2 hver, hwhole ▸ hend⟩, hx ▸ hkept⟩

/-- `DoHpMode` reads the image of three bytes, and goes on by the bytes read (R168). -/
theorem doHpMode_runsMode (en : Bool) : (doHpMode en).RunsMode s0 site (hpPlan s0 site en) := by
  intro u hu
  rw [doHpMode_eq]
  refine (readReg_callStep .rdsr 1).label.orAbort (.start hu) (fun fs r v _ h => ?_)
    fun b fs v _ hv (hsr : answerAt fs 1 = .ok b) => ?_
  · have hsr : (answerAt fs 1).isOk = false := h.answerAt_isOk (by simp [readLines])
    have hcr : (answerAt fs 3).isOk = false := h.answerAt_isOk (by simp [readLines])
    have hvb : (answerAt fs 10).isOk = false := h.answerAt_isOk (by simp [readLines])
    exact ⟨fs, h.endsMode (by simp [hpPlan, hpLines]) (by simp [hpPlan, hsr, hcr, hvb])⟩
  rw [Seq.update_ensures, hv.scratch]
  refine (readReg_callStep .rdcr 2).label.orAbort (hv.setScratch _) (fun gs r w hpre h => ?_)
    fun d gs w hpre hw (hcr : answerAt gs 3 = .ok d) => ?_
  · have hsr := answerAt_of_prefix hpre hsr
    have hcr : (answerAt gs 3).isOk = false := h.answerAt_isOk (by simp [readLines])
    have hvb : (answerAt gs 10).isOk = false := h.answerAt_isOk (by simp [readLines])
    exact ⟨gs, h.endsMode (by simp [hpPlan, hpLines])
      (by simp [hpPlan, hsr, hcr, hvb, byteAt_of_ok hsr])⟩
  have hsr := answerAt_of_prefix hpre hsr
  rw [Seq.update_ensures, hw.scratch, hw.atSite.cfg]
  refine writeBack_ensures (whole := hpLines s0 site en (b.getD 0 0) (d.getD 0 0) (d.getD 1 0))
    (hw.setScratch _) rfl (fun es r v hpre h => ?_) fun c es v hpre hv hvb =>
      hpVerify_ensures (answerAt_of_prefix hpre hsr) (answerAt_of_prefix hpre hcr) hvb hv
  have hsr := answerAt_of_prefix hpre hsr
  have hcr := answerAt_of_prefix hpre hcr
  have hvb : (answerAt es 10).isOk = false := h.answerAt_isOk (Nat.le_refl 11)
  refine ⟨es, h.endsMode ?_ ?_⟩
  · simp [hpPlan, byteAt_of_ok hsr, byteAt_of_ok hcr]
  · simp [hpPlan, hsr, hcr, hvb, byteAt_of_ok hsr, byteAt_of_ok hcr]

end Sequences

/-! ### The operations -/

section Operations

variable {i : Instr} {op : Byte} {a n : Word} {s t : State} {M : Scratch → ModePlan}

/-- The lines a mode operation wrote, and how it ended, by its plan: cut short, with the verify not passed, or
with all calls made. -/
structure State.ModeOutcome (s t : State) (M : ModePlan) : Prop where
  /-- The lines. -/
  lines : t.lines <+: M.whole t.trace
  /-- The calls after the verify. -/
  verify : (M.toVerify t.trace).length < t.trace.length → M.verified t.trace
  /-- The end. -/
  ends : s.cutShort t .bus .error ∨
    t.answers.all Answer.isOk = true ∧
      (t.trace.length = (M.whole t.trace).length ∧ M.verified t.trace ∧ t.completed .ok ∨
        t.trace.length = (M.toVerify t.trace).length ∧ ¬M.verified t.trace ∧
          t.aborted .verify .error)

/-- An operation whose body is a mode sequence. -/
theorem exec_modeOutcome (hp : s.phase = []) (hop : i.opreq? = some (op, a, n))
    (hm : (opBody i).RunsMode (s.accept op a n) [] M)
    (hM : ∀ fs, (M s.scratch).toVerify fs <+: (M s.scratch).whole fs) (h : exec i s = .next t) :
    (t.inited = s.inited ∧ t.work = s.work ∧ s.bufKept t ∧
        t.scratch = (M s.scratch).scratch t.trace) ∧
      s.ModeOutcome t (M s.scratch) := by
  have hrun := exec_operation_eq hop h
  obtain ⟨fs, htrace, hends, hkept⟩ := hm _ (State.atSite_accept hp)
  have hfs : t.trace = fs := by
    rw [← hrun, finishRun_trace, htrace]
    rfl
  subst hfs
  obtain ⟨hinited, hwork, hscratch, hbuf⟩ := State.dataKept_finishRun.2 hkept.dataKept
  rw [hrun] at hinited hwork hscratch hbuf
  have hvtrace : (opBody i (s.accept op a n)).2.trace = t.trace := htrace
  refine ⟨⟨hinited, hwork, hbuf, hscratch⟩, ?_⟩
  rcases hends with hend | ⟨hver, hend⟩
  · rw [← hvtrace] at hend
    obtain ⟨hlines, hout⟩ := exec_of_endsPlan (txn_of_opreq hop) h hrun hend (fun _ _ => id) rfl
    rw [hvtrace] at hlines hout
    have hle : t.trace.length ≤ ((M s.scratch).toVerify t.trace).length := by
      simpa [State.lines] using hlines.length_le
    refine ⟨hlines.trans (hM _), fun hlt => absurd hle hlt.not_ge, hout.symm.imp_right ?_⟩
    rintro ⟨hmade, st, cause, ⟨hno, rfl, rfl⟩, hret, hcause⟩
    exact ⟨hmade.answers_all, .inr ⟨hmade.length, hno, hret, hcause⟩⟩
  · rw [← hvtrace] at hend
    obtain ⟨hlines, hout⟩ := exec_of_endsPlan (txn_of_opreq hop) h hrun hend (fun _ _ => id) rfl
    rw [hvtrace] at hlines hout
    refine ⟨hlines, fun _ => hver, hout.symm.imp_right ?_⟩
    rintro ⟨hmade, st, cause, rfl, hret, hcause⟩
    exact ⟨hmade.answers_all, .inl ⟨hmade.length, hver, hret, hcause⟩⟩

/-- With a script that answers every call OK and makes the verify pass, a mode operation completes. -/
theorem State.ModeOutcome.completed_of_script {M : ModePlan} {rs : List Reply} (h : s.ModeOutcome t M)
    (ha : answeredBy s.env.replies t.trace) (hs : s.script rs)
    (hpass : scriptPasses rs (M.whole t.trace))
    (hver : t.trace.length = (M.toVerify t.trace).length → M.verified t.trace) : t.completed .ok := by
  rcases h.ends with hcut | ⟨-, ⟨-, -, hdone⟩ | ⟨hlen, hno, -⟩⟩
  · exact absurd (hs.answers_all ha h.lines hpass) hcut.not_all_isOk
  · exact hdone
  · exact absurd (hver hlen) hno

/-- A scripted `Rx` of the right number of bytes delivers them. -/
theorem State.script.rxBytes {rs : List Reply} {plan : List (List Label × Call)} {k : Nat} {b : List Byte}
    {site : List Label} {m tmo : Word} (hs : s.script rs) (ha : answeredBy s.env.replies t.trace)
    (hlines : t.lines <+: plan) (hr : rs[k]? = some (.ok b)) (hb : b.length = m.toNat)
    (hl : plan[k]? = some (site, .rx m tmo)) (hk : k < t.trace.length) :
    answerAt t.trace k = .ok b := by
  have he := List.getElem?_eq_getElem hk
  have hcall : t.trace[k].call = .rx m tmo :=
    congrArg Prod.snd (Option.some.inj ((State.line_of_prefix hlines he).symm.trans hl))
  obtain ⟨j, hj⟩ := hs.gives ha hr he
  rw [hcall, deliver, fitBytes_eq hb] at hj
  exact answerAt_of_getElem? (by rw [he, Option.map_some, hj])

/-- Settles O30: the plan of `DoQuadMode`, and the script makes the second read pass the verify. -/
theorem quadModeOutcome : Obligations.QuadModeOutcome := by
  intro a n s hp
  obtain ⟨t, ht⟩ := exec_next_of_bufInRange (i := .quadMode a n) (s := s) rfl
  obtain ⟨⟨hinited, hwork, hbuf, hscratch⟩, hout⟩ :=
    exec_modeOutcome hp rfl (doQuadMode_runsMode (enableOf a)).label (fun _ => List.prefix_refl _) ht
  have hans : answeredBy s.env.replies t.trace :=
    exec_answeredBy rfl ht hout.lines
      (by simp [quadPlan, quadLines, readLines, enableLines, writeLines, readyLine])
  refine ⟨t, ht, exec_latched rfl ht, hinited, hwork, hbuf, hout.lines, hscratch,
    hout.ends.imp_right ?_, ?_⟩
  · rintro ⟨hall, ⟨hlen, hver, hdone⟩ | ⟨hlen, hno, hab⟩⟩
    · exact ⟨hlen, hall, .inl ⟨hver, hdone⟩⟩
    · exact ⟨hlen, hall, .inr ⟨hno, hab⟩⟩
  · intro b w r v hw hr hv hs
    refine hout.completed_of_script hans hs ?_ fun (hlen : t.trace.length = 9) => ?_
    · exact .cons (fun _ => rfl) <| .cons (fun _ => rfl) <| .cons (fun _ => rfl) <|
        .cons (passes_autoPoll hw) <| .cons (fun _ => rfl) <| .cons (fun _ => rfl) <|
        .cons (passes_autoPoll hr) <| .cons (fun _ => rfl) <| .cons (fun _ => rfl) .nil
    · have hread : answerAt t.trace 8 = .ok [v] := hs.rxBytes hans hout.lines rfl rfl rfl (by omega)
      change anySet (byteAt t.trace 8 0) s.cfg.mQe = a.getLsbD 0
      rwa [byteAt_of_ok hread]

/-- Settles O31: the plan of `DoHpMode`, and the script makes the second read pass the verify. -/
theorem hpModeOutcome : Obligations.HpModeOutcome := by
  intro a n s hp
  obtain ⟨t, ht⟩ := exec_next_of_bufInRange (i := .hpMode a n) (s := s) rfl
  obtain ⟨⟨hinited, hwork, hbuf, hscratch⟩, hout⟩ :=
    exec_modeOutcome hp rfl (doHpMode_runsMode (enableOf a)).label (fun _ => List.prefix_append _ _) ht
  have hans : answeredBy s.env.replies t.trace :=
    exec_answeredBy rfl ht hout.lines
      (by simp [hpPlan, hpLines, reinitLines, readLines, enableLines, writeLines, readyLine])
  refine ⟨t, ht, exec_latched rfl ht, hinited, hwork, hbuf, hout.lines, hscratch, hout.verify,
    hout.ends.imp_right (And.imp_right (Or.imp_left ?_)), ?_⟩
  · exact fun ⟨hlen, _, hdone⟩ => ⟨hlen, hdone⟩
  · intro b0 b1 b2 w r v0 v1 hw hr hv hs
    refine hout.completed_of_script hans hs ?_ fun (hlen : t.trace.length = 11) => ?_
    · exact .cons (fun _ => rfl) <| .cons (fun _ => rfl) <| .cons (fun _ => rfl) <|
        .cons (fun _ => rfl) <| .cons (fun _ => rfl) <| .cons (passes_autoPoll hw) <|
        .cons (fun _ => rfl) <| .cons (fun _ => rfl) <| .cons (passes_autoPoll hr) <|
        .cons (fun _ => rfl) <| .cons (fun _ => rfl) <| .cons (fun _ => rfl) <|
        .cons (fun _ => rfl) .nil
    · have hread : answerAt t.trace 10 = .ok [v0, v1] :=
        hs.rxBytes hans hout.lines rfl rfl rfl (by omega)
      change anySet (byteAt t.trace 10 1) s.cfg.mLh = a.getLsbD 0
      rwa [byteAt_of_ok hread]

end Operations

end Sys2Proof.Machine
end

