-- ==== Sys2Proof/Proofs/KnownAnswers.lean ====
section
/-!
Runs in which every answer is known beforehand, from a script or from the reference chip. A piece then leads
from one description of the state to another, with one result; the rules compose such facts as the piece is
composed.
-/

namespace Sys2Proof.Machine

/-! ### Descriptions of a state -/

/-- The registers a run with known answers speaks of. -/
structure Known where
  /-- The parameters. -/
  cfg : Config
  /-- The working registers. -/
  work : Work
  /-- The cause label. -/
  cause : Option Cause
  /-- The number of lines in the trace. -/
  calls : Nat

/-- After one more call. -/
def Known.next (g : Known) : Known := { g with calls := g.calls + 1 }

/-- After `DoGetStatus` gave `st` and it was written to `ST` (43_erase_power.md R186, R187). -/
def Known.withSt (g : Known) (st : StatusCode) : Known := { g with work := { g.work with st := st } }

/-- An operation accepted with these parameters and working registers. -/
def State.known (s : State) : Known := ⟨s.cfg, s.work, none, 0⟩

/-- The state has the registers `g`, and its environment satisfies `E`. -/
structure State.Meets (g : Known) (E : Env → Prop) (u : State) : Prop where
  /-- The parameters. -/
  cfg : u.cfg = g.cfg
  /-- The working registers. -/
  work : u.work = g.work
  /-- The cause label. -/
  cause : u.cause = g.cause
  /-- The number of lines in the trace. -/
  calls : u.trace.length = g.calls
  /-- The environment. -/
  env : E u.env

theorem State.Meets.setPhase {g : Known} {E : Env → Prop} {u : State} (h : u.Meets g E)
    (v : List Label) : (u.setPhase v).Meets g E := ⟨h.cfg, h.work, h.cause, h.calls, h.env⟩

/-- From every state that meets the first description the piece gives `x` in one that meets the second. -/
def Seq.Leads {α : Type} (m : Seq α) (g : Known) (E : Env → Prop) (x : α) (g' : Known)
    (E' : Env → Prop) : Prop :=
  ∀ u : State, u.Meets g E → m.Ensures u fun r v => r = some x ∧ v.Meets g' E'

section Rules

variable {α β : Type} {g g' g'' : Known} {E E' E'' : Env → Prop} {x : α} {y : β}

theorem Seq.Leads.weaken {m : Seq α} (h : m.Leads g E x g' E') (hE : ∀ e, E' e → E'' e) :
    m.Leads g E x g' E'' := fun u hu => (h u hu).imp fun _ _ ⟨hx, hv⟩ =>
  ⟨hx, hv.cfg, hv.work, hv.cause, hv.calls, hE _ hv.env⟩

theorem Seq.Leads.pure : (Seq.pure x).Leads g E x g E := fun _ hu => ⟨rfl, hu⟩

theorem Seq.Leads.look {k : State → Seq α} (hk : ∀ u : State, u.cfg = g.cfg → (k u).Leads g E x g' E') :
    (Seq.look k).Leads g E x g' E' := fun u hu => hk u hu.cfg u hu

theorem Seq.Leads.writeSt {st : StatusCode} {k : Seq α} (hk : k.Leads (g.withSt st) E x g' E') :
    (Seq.update (fun s => s.setWork { s.work with st := st }) k).Leads g E x g' E' := fun u hu =>
  hk _ ⟨hu.cfg, by rw [State.setWork_work, hu.work]; rfl, hu.cause, hu.calls, hu.env⟩

theorem Seq.Leads.label {l : Label} {m : Seq α} (hm : m.Leads g E x g' E') :
    (Seq.label l m).Leads g E x g' E' := fun u hu =>
  (Seq.label_ensures _ _).2 <| (hm _ (hu.setPhase _)).imp <| by
    rintro _ v ⟨rfl, hv⟩
    exact ⟨rfl, hv.setPhase _⟩

theorem Seq.Leads.andThen {m : Seq β} {k : β → Seq α} (hm : m.Leads g E y g' E')
    (hk : (k y).Leads g' E' x g'' E'') : (m.andThen k).Leads g E x g'' E'' := fun u hu =>
  (Seq.andThen_ensures _ _).2 ((hm u hu).imp fun _ v ⟨hr, hv⟩ => hr ▸ hk v hv)

theorem Seq.Leads.orAbort {m : Seq Answer} {c : Cause} {code st : StatusCode} {bytes : List Byte}
    {k : List Byte → Seq StatusCode} (hm : m.Leads g E (.ok bytes) g' E')
    (hk : (k bytes).Leads g' E' st g'' E'') : (m.orAbort c code k).Leads g E st g'' E'' :=
  hm.andThen hk

theorem Seq.Leads.orReturn {m k : Seq StatusCode} {code st : StatusCode} (hm : m.Leads g E .ok g' E')
    (hk : k.Leads g' E' st g'' E'') : (m.orReturn code k).Leads g E st g'' E'' := hm.andThen hk

theorem Seq.Leads.abort {c : Cause} {code : StatusCode} :
    (Seq.abort c code).Leads g E code { g with cause := some c } E := fun _ hu =>
  ⟨rfl, hu.cfg, hu.work, rfl, hu.calls, hu.env⟩

/-- A call whose answer is known. -/
theorem call_leads {c : Call} {bytes : List Byte}
    (hok : ∀ e, E e → (e.respond g.cfg c).1 = .ok bytes ∧ E' (e.after g.cfg c)) :
    (call c).Leads g E (.ok bytes) g.next E' := by
  intro u hu
  obtain ⟨hans, henv⟩ := hok u.env hu.env
  have hanswer : u.answer c = .ok bytes := by rw [State.answer, hu.cfg, hans]
  rw [call_ensures, hanswer]
  refine ⟨rfl, hu.cfg, hu.work, hu.cause, ?_, ?_⟩
  · rw [State.afterCall_trace, List.length_append, hu.calls]
    rfl
  · rwa [State.afterCall_env, hu.cfg]

/-- `ReadReg` by its two calls (20_memory.md R77). -/
theorem readReg_leads {t : Txn} {n : Word} {b bytes : List Byte}
    (hexec : (execCall t).Leads g E (.ok b) g' E') (hrx : (rxCall n).Leads g' E' (.ok bytes) g'' E'') :
    (readReg t n).Leads g E (.ok bytes) g'' E'' := by
  unfold readReg
  exact hexec.label.andThen hrx.label

/-- `DoGetStatus` where SCUR decides on SUSPENDED (40_status_poll_wren.md R132). -/
theorem doGetStatus_leads_suspended {scur : Byte}
    (hscur : (readReg .rdscur 1).Leads g E (.ok [scur]) g' E') (hcfg : g'.cfg = g.cfg)
    (hdec : decode1 g.cfg scur = some .suspended) : doGetStatus.Leads g E .suspended g' E' := by
  refine hscur.label.orAbort (.look fun u hu => ?_)
  rw [hu, hcfg, show ([scur] : List Byte).getD 0 0 = scur from rfl, hdec]
  exact .pure

/-- `DoGetStatus` where SCUR decides nothing. -/
theorem doGetStatus_leads_sr {scur sr : Byte} {st : StatusCode}
    (hscur : (readReg .rdscur 1).Leads g E (.ok [scur]) g' E') (hcfg : g'.cfg = g.cfg)
    (hdec : decode1 g.cfg scur = none) (hsr : (readReg .rdsr 1).Leads g' E' (.ok [sr]) g'' E'')
    (hcfg' : g''.cfg = g.cfg) (hst : decode2 g.cfg sr = st) : doGetStatus.Leads g E st g'' E'' := by
  refine hscur.label.orAbort (.look fun u hu => ?_)
  rw [hu, hcfg, show ([scur] : List Byte).getD 0 0 = scur from rfl, hdec]
  refine hsr.label.orAbort (.look fun v hv => ?_)
  rw [hv, hcfg', show ([sr] : List Byte).getD 0 0 = sr from rfl, hst]
  exact .pure

end Rules

/-! ### Operations -/

/-- An operation whose answers are known, from its acceptance to its return. -/
theorem exec_of_leads {i : Instr} {op : Byte} {a n : Word} {s t : State} {g : Known}
    {E E' : Env → Prop} {code : StatusCode} (hop : i.opreq? = some (op, a, n))
    (h : exec i s = .next t) (hbody : (opBody i).Leads s.known E code g E') (hE : E s.env) :
    t.returned code ∧
      t.Meets { g with cause := if code.isAbort then g.cause else none } E' := by
  have hrun := hbody (s.accept op a n) ⟨rfl, rfl, rfl, rfl, hE⟩
  rw [← exec_operation_eq hop h]
  unfold Seq.Ensures at hrun
  generalize opBody i (s.accept op a n) = run at hrun ⊢
  obtain ⟨r, v⟩ := run
  obtain ⟨rfl, hv⟩ := hrun
  exact ⟨⟨rfl, rfl, rfl⟩, hv.cfg, hv.work, by rw [finishRun_some, State.finish_cause, hv.cause],
    hv.calls, hv.env⟩

/-! ### Answers from a script -/

/-- The next answers are scripted to be these. -/
def Env.scripted (rs : List Reply) (e : Env) : Prop := rs <+: e.replies

section Script

variable {g : Known} {rs : List Reply} {b : List Byte}

/-- A call takes the first entry of the script. -/
theorem call_leads_scripted {c : Call} {bytes : List Byte} (hok : ∀ i, deliver i c b = .ok bytes) :
    (call c).Leads g (Env.scripted (.ok b :: rs)) (.ok bytes) g.next (Env.scripted rs) :=
  call_leads fun e ⟨rest, hrest⟩ => by
    refine ⟨?_, rest, ?_⟩
    · rw [← hok e.calls, Env.respond, ← hrest]
      rfl
    · rw [Env.after_replies, ← hrest]
      rfl

theorem execCall_leads_scripted (t : Txn) :
    (execCall t).Leads g (Env.scripted (.ok b :: rs)) (.ok []) g.next (Env.scripted rs) :=
  .look fun _ _ => call_leads_scripted fun _ => rfl

/-- `ReadReg` of a register whose bytes are scripted. -/
theorem readReg_leads_scripted {t : Txn} {n : Word} {bytes : List Byte} (hlen : bytes.length = n.toNat) :
    (readReg t n).Leads g (Env.scripted (.ok b :: .ok bytes :: rs)) (.ok bytes) g.next.next
      (Env.scripted rs) :=
  readReg_leads (execCall_leads_scripted t) <|
    .look fun _ _ => call_leads_scripted fun _ => congrArg Answer.ok (fitBytes_eq hlen)

theorem doGetStatus_leads_suspended_scripted {scur : Byte}
    (hdec : decode1 g.cfg scur = some .suspended) :
    doGetStatus.Leads g (Env.scripted (.ok b :: .ok [scur] :: rs)) .suspended g.next.next
      (Env.scripted rs) :=
  doGetStatus_leads_suspended (readReg_leads_scripted rfl) rfl hdec

theorem doGetStatus_leads_sr_scripted {b' : List Byte} {scur sr : Byte} {st : StatusCode}
    (hdec : decode1 g.cfg scur = none) (hst : decode2 g.cfg sr = st) :
    doGetStatus.Leads g (Env.scripted (.ok b :: .ok [scur] :: .ok b' :: .ok [sr] :: rs)) st
      g.next.next.next.next (Env.scripted rs) :=
  doGetStatus_leads_sr (readReg_leads_scripted rfl) rfl hdec (readReg_leads_scripted rfl) rfl hst

end Script

/-! ### Answers of the reference chip -/

/-- The chip as the next call finds it, where `cs` says before which calls its cycle ends on its own (log 32). -/
def Chip.due (k : Chip) (c : Config) (cs : List Bool) : Chip :=
  if cs.headD false then k.complete c else k

/-- The reference chip `k` answers, and nothing is scripted but when its cycles end. -/
structure Env.OnChip (k : Chip) (cs : List Bool) (e : Env) : Prop where
  /-- The chip answers. -/
  mode : e.mode = .refchip
  /-- Nothing is scripted. -/
  replies : e.replies = []
  /-- When its cycles end. -/
  completions : e.completions = cs
  /-- The chip. -/
  chip : e.chip = k

theorem State.onChip.env {s : State} (h : s.onChip) : s.env.OnChip s.env.chip [] := by
  obtain ⟨hm, hr, hc⟩ := h
  exact ⟨hm, hr, hc, rfl⟩

theorem Env.OnChip.onChip {s : State} {k : Chip} (h : s.env.OnChip k []) : s.onChip :=
  ⟨h.mode, h.replies, h.completions⟩

section OnChip

variable {g : Known} {k : Chip} {cs : List Bool} {e : Env}

theorem Env.OnChip.chipNow (h : e.OnChip k cs) (cfg : Config) : e.chipNow cfg = k.due cfg cs := by
  unfold Env.chipNow Chip.due
  rw [h.mode, h.completions, h.chip]
  cases cs.headD false <;> rfl

theorem Env.OnChip.respond (h : e.OnChip k cs) (cfg : Config) (c : Call) :
    e.respond cfg c = chipAnswer e.calls cfg e.lastExec c (k.due cfg cs) := by
  rw [Env.respond_chip h.mode h.replies, h.chipNow]

/-- A call to the chip. -/
theorem Env.OnChip.after {k' : Chip} (h : e.OnChip k cs) {cfg : Config} {c : Call}
    (hk : (chipAnswer e.calls cfg e.lastExec c (k.due cfg cs)).2 = k') :
    (e.after cfg c).OnChip k' cs.tail :=
  ⟨h.mode, by rw [Env.after_replies, h.replies]; rfl, by rw [Env.after_completions, h.completions],
    by rw [Env.after_chip, h.respond, hk]⟩

/-- `Exec` has its effect on the chip, and its descriptor is the one the data phase belongs to. -/
theorem execCall_leads_onChip (t : Txn) :
    (execCall t).Leads g (Env.OnChip k cs) (.ok []) g.next
      fun e => e.OnChip ((k.due g.cfg cs).exec g.cfg t) cs.tail ∧ e.lastExec = some t :=
  .look fun _ _ => call_leads fun e he => ⟨by rw [he.respond]; rfl, he.after rfl, rfl⟩

/-- A command with no data phase. -/
theorem cmd_leads_onChip {t : Txn} {k' : Chip} (hk : (k.due g.cfg cs).exec g.cfg t = k') :
    (cmd t).Leads g (Env.OnChip k cs) (.ok []) g.next (Env.OnChip k' cs.tail) :=
  (execCall_leads_onChip t).weaken fun _ ⟨h, _⟩ => hk ▸ h

/-- A poll that the chip's SR satisfies at once. -/
theorem pollCall_leads_onChip {p : Config → Pred} {tmo : State → Word}
    (hd : (k.due g.cfg cs).dpd = false) (hsat : (p g.cfg).sat (k.due g.cfg cs).sr = true) :
    (pollCall p tmo).Leads g (Env.OnChip k cs) (.ok [(k.due g.cfg cs).sr]) g.next
      (Env.OnChip (k.due g.cfg cs) cs.tail) := by
  refine .look fun u hu => ?_
  rw [hu]
  have hpoll : (k.due g.cfg cs).poll g.cfg (p g.cfg) = ([(k.due g.cfg cs).sr], k.due g.cfg cs) := by
    rw [Chip.poll, if_neg (by simp [hd]), if_pos hsat]
  refine call_leads fun e he => ⟨?_, he.after ?_⟩
  · rw [he.respond]
    simp only [chipAnswer, hpoll]
    exact waitLoop_singleton hsat
  · simp only [chipAnswer, hpoll]

/-- The chip after two calls that have no effect on it. -/
def Chip.dueTwice (k : Chip) (c : Config) (cs : List Bool) : Chip := (k.due c cs).due c cs.tail

/-- `ReadReg` gets the bytes the chip has when it is asked for them. -/
theorem readReg_leads_onChip {t : Txn} {n : Word} {bytes : List Byte}
    (ht : (t.desc g.cfg).dataDir ≠ .none)
    (hbytes : (k.dueTwice g.cfg cs).receive g.cfg (some t) n = some bytes)
    (hlen : bytes.length = n.toNat) :
    (readReg t n).Leads g (Env.OnChip k cs) (.ok bytes) g.next.next
      (Env.OnChip (k.dueTwice g.cfg cs) cs.tail.tail) := by
  refine readReg_leads (execCall_leads_onChip t) (.look fun u hu => ?_)
  rw [Chip.exec_of_data ht]
  refine call_leads fun e ⟨he, hlast⟩ => ⟨?_, he.after rfl⟩
  rw [he.respond, hlast]
  simp only [chipAnswer]
  rw [show ((k.due g.cfg cs).due g.next.cfg cs.tail).receive g.next.cfg (some t) n = some bytes from
    hbytes]
  exact congrArg Answer.ok (fitBytes_eq hlen)

@[simp] theorem Chip.dueTwice_dpd (c : Config) : (k.dueTwice c cs).dpd = k.dpd := by
  unfold Chip.dueTwice Chip.due
  split <;> split <;> simp

@[simp] theorem Chip.dueTwice_scur (c : Config) : (k.dueTwice c cs).scur = k.scur := by
  unfold Chip.dueTwice Chip.due
  split <;> split <;> simp

/-- SCUR is read: no cycle that ends changes it. -/
theorem readScur_leads_onChip (hd : k.dpd = false) :
    (readReg .rdscur 1).Leads g (Env.OnChip k cs) (.ok [k.scur]) g.next.next
      (Env.OnChip (k.dueTwice g.cfg cs) cs.tail.tail) :=
  readReg_leads_onChip nofun (by simp [Chip.receive, hd]) rfl

/-- SR is read. -/
theorem readSr_leads_onChip (hd : k.dpd = false) :
    (readReg .rdsr 1).Leads g (Env.OnChip k cs) (.ok [(k.dueTwice g.cfg cs).sr]) g.next.next
      (Env.OnChip (k.dueTwice g.cfg cs) cs.tail.tail) :=
  readReg_leads_onChip nofun (by simp [Chip.receive, hd]) rfl

theorem doGetStatus_leads_suspended_onChip (hd : k.dpd = false)
    (hdec : decode1 g.cfg k.scur = some .suspended) :
    doGetStatus.Leads g (Env.OnChip k cs) .suspended g.next.next
      (Env.OnChip (k.dueTwice g.cfg cs) cs.tail.tail) :=
  doGetStatus_leads_suspended (readScur_leads_onChip hd) rfl hdec

theorem doGetStatus_leads_sr_onChip {k' : Chip} {st : StatusCode} (hd : k.dpd = false)
    (hdec : decode1 g.cfg k.scur = none)
    (hk : (k.dueTwice g.cfg cs).dueTwice g.cfg cs.tail.tail = k') (hst : decode2 g.cfg k'.sr = st) :
    doGetStatus.Leads g (Env.OnChip k cs) st g.next.next.next.next
      (Env.OnChip k' cs.tail.tail.tail.tail) := by
  subst hk
  exact doGetStatus_leads_sr (readScur_leads_onChip hd) rfl hdec
    (readSr_leads_onChip ((Chip.dueTwice_dpd _).trans hd)) rfl hst

/-! Where no cycle of the chip is to end. -/

theorem cmd_leads_steady {t : Txn} {k' : Chip} (hk : k.exec g.cfg t = k') :
    (cmd t).Leads g (Env.OnChip k []) (.ok []) g.next (Env.OnChip k' []) := cmd_leads_onChip hk

theorem doGetStatus_leads_suspended_steady (hd : k.dpd = false)
    (hdec : decode1 g.cfg k.scur = some .suspended) :
    doGetStatus.Leads g (Env.OnChip k []) .suspended g.next.next (Env.OnChip k []) :=
  doGetStatus_leads_suspended_onChip hd hdec

theorem doGetStatus_leads_sr_steady {st : StatusCode} (hd : k.dpd = false)
    (hdec : decode1 g.cfg k.scur = none) (hst : decode2 g.cfg k.sr = st) :
    doGetStatus.Leads g (Env.OnChip k []) st g.next.next.next.next (Env.OnChip k []) :=
  doGetStatus_leads_sr_onChip (cs := []) hd hdec rfl hst

/-- Write-enable on a chip with no cycle running (20_memory.md R80, 40_status_poll_wren.md R135). -/
theorem doWriteEnable_leads_onChip (hd : k.dpd = false) (hwip : anySet k.sr g.cfg.mWip = false) :
    doWriteEnable.Leads g (Env.OnChip k []) .ok g.next.next
      (Env.OnChip { k with sr := k.sr ||| g.cfg.mWel } []) := by
  have hwren : k.exec g.cfg .wren = { k with sr := k.sr ||| g.cfg.mWel } := by
    rw [Chip.exec_wren hd, if_pos (anySet_eq_false.1 hwip)]
  have hsat : (predWel g.cfg).sat (k.sr ||| g.cfg.mWel) = true := by
    refine Pred.sat_iff.2 (BitVec.eq_of_getLsbD_eq fun i _ => ?_)
    simp only [predWel, BitVec.getLsbD_and, BitVec.getLsbD_or]
    cases g.cfg.mWel.getLsbD i <;> simp
  have hpoll : (pollCall predWel fun t => t.tmo.dflt).Leads g.next
      (Env.OnChip { k with sr := k.sr ||| g.cfg.mWel } []) (.ok [k.sr ||| g.cfg.mWel]) g.next.next
      (Env.OnChip { k with sr := k.sr ||| g.cfg.mWel } []) :=
    pollCall_leads_onChip hd hsat
  exact (cmd_leads_steady hwren).label.orAbort (hpoll.label.orAbort .pure)

end OnChip

end Sys2Proof.Machine
end

