-- ==== Sys2Proof/Proofs/ErasePower.lean ====
section
/-!
The erase and power operations for every answer of the environment (43_erase_power.md): the erases, SLEEP and
WAKEUP make planned calls; SUSPEND_ERASE and RESUME_ERASE go by the status they read.
-/

namespace Sys2Proof.Machine

/-! ### Erases and power commands -/

section Plans

variable {s0 : State} {site : List Label} {plan plan' : List (List Label × Call)}

/-- A subroutine whose failure ends the piece. -/
theorem Seq.FollowsPlan.orReturn {m k : Seq StatusCode}
    (hm : m.FollowsPlan s0 site plan (okOr .bus .error))
    (hk : k.FollowsPlan s0 site plan' (okOr .bus .error)) :
    (m.orReturn .error k).FollowsPlan s0 site (plan ++ plan') (okOr .bus .error) := by
  refine hm.andThen (okOr_stable _ _) ?_ ?_
  · rintro _ cause ⟨rfl, hcause⟩ v hv
    exact ⟨rfl, .error, rfl, rfl, hv.trans hcause⟩
  · rintro _ cause fs rfl
    exact hk

/-- One command, and OK where it was answered OK (43_erase_power.md R188, R189). -/
theorem powerBody_followsPlan (l : Label) (t : Txn) :
    ((Seq.label l (cmd t)).orAbort .bus .error fun _ => Seq.pure .ok).FollowsPlan s0 site
      [cmdLine s0 (site ++ [l]) t] (okOr .bus .error) :=
  .orAbort (.label (execCall_followsPlan t (by simp))) fun _ => .pure fun _ => rfl

/-- Write-enable, the erase command, and the ready poll (43_erase_power.md R181, R185). -/
theorem eraseBody_followsPlan (l0 l1 l2 : Label) (t : Txn) {tmo : State → Word} {v : Word}
    (htmo : ∀ u site, s0.AtSite site u → tmo u = v) :
    ((Seq.label l0 doWriteEnable).orReturn .error <|
      (Seq.label l1 (cmd t)).orAbort .bus .error fun _ =>
        (Seq.label l2 (doPollReady tmo)).orReturn .error (Seq.pure .ok)).FollowsPlan s0 site
      (enableLines s0 (site ++ [l0]) ++
        [cmdLine s0 (site ++ [l1]) t, readyLine s0 (site ++ [l2]) v]) (okOr .bus .error) :=
  .orReturn (.label doWriteEnable_followsPlan) <|
    .orAbort (.label (execCall_followsPlan t (by simp))) fun _ =>
      .orReturn (.label (doPollReady_followsPlan fun u hu => htmo u _ hu)) (.pure fun _ => rfl)

end Plans

/-- Calls alone write no data register. -/
theorem powerBody_blockKept (l : Label) (t : Txn) :
    Seq.Keeps State.BlockKept ((Seq.label l (cmd t)).orAbort .bus .error fun _ => Seq.pure .ok) :=
  have H := State.blockKept_respects
  H.orAbort (H.label _ (H.cmd _)) fun _ => H.pure _

theorem eraseBody_blockKept (l0 l1 l2 : Label) (t : Txn) (tmo : State → Word) :
    Seq.Keeps State.BlockKept
      ((Seq.label l0 doWriteEnable).orReturn .error <|
        (Seq.label l1 (cmd t)).orAbort .bus .error fun _ =>
          (Seq.label l2 (doPollReady tmo)).orReturn .error (Seq.pure .ok)) :=
  have H := State.blockKept_respects
  H.orReturn (H.label _ H.doWriteEnable) <| H.orAbort (H.label _ (H.cmd _)) fun _ =>
    H.orReturn (H.label _ (H.doPollReady _)) (H.pure _)

section Erases

variable {i : Instr} {op : Byte} {a n : Word} {s : State} {t : Txn} {tmo : Word} {l0 l1 l2 : Label}

/-- An erase that waits for its end (43_erase_power.md R181, R185). -/
theorem exec_erase {timeout : Timeouts → Word} (hop : i.opreq? = some (op, a, n))
    (hb : bufInRange s i = true) (hp : s.phase = [])
    (hbody : opBody i = ((Seq.label l0 doWriteEnable).orReturn .error <|
      (Seq.label l1 (cmd t)).orAbort .bus .error fun _ =>
        (Seq.label l2 (doPollReady fun u => timeout u.tmo)).orReturn .error (Seq.pure .ok))) :
    ∃ u, exec i s = .next u ∧ s.latched u op a n ∧ s.dataKept u ∧
      s.straight u (enableLines s [l0] ++ [cmdLine s [l1] t, readyLine s [l2] (timeout s.tmo)])
        .bus .error ∧
      (∀ w v, (predWel s.cfg).sat w = true → (predReady s.cfg).sat v = true →
        s.script [.ok [], .ok [w], .ok [], .ok [v]] → u.completed .ok) := by
  obtain ⟨u, hu⟩ := exec_next_of_bufInRange hb
  have hst := exec_straight hp hop hu
    (hbody ▸ eraseBody_followsPlan (s0 := s.accept op a n) (site := []) l0 l1 l2 t
      fun _ _ h => congrArg timeout h.tmo) rfl
  refine ⟨u, hu, exec_latched hop hu, exec_dataKept hop (hbody ▸ eraseBody_blockKept _ _ _ _ _) hu, hst,
    fun w v hw hv hs => ?_⟩
  have hans : answeredBy s.env.replies u.trace :=
    exec_answeredBy (txn_of_opreq hop) hu hst.1 (by simp [enableLines, cmdLine, readyLine])
  exact hst.completed_of_script hans hs <| .cons (fun _ => rfl) <| .cons (passes_autoPoll hw) <|
    .cons (fun _ => rfl) <| .cons (passes_autoPoll hv) .nil

end Erases

/-- Settles O21. -/
theorem eraseBlockOutcome : Obligations.EraseBlockOutcome := fun a n _ hp =>
  exec_erase (i := .eraseBlock a n) (timeout := Timeouts.blockErase) rfl rfl hp rfl

/-- Settles O22. -/
theorem eraseChipOutcome : Obligations.EraseChipOutcome := fun a n _ hp =>
  exec_erase (i := .eraseChip a n) (timeout := Timeouts.chipErase) rfl rfl hp rfl

section Sector

variable {a n : Word} {s : State}

/-- The address of `T_SE` is a product on 32 bits (30_encoding.md R99). -/
theorem sectorAddr_eq (c : Config) (a : Word) :
    sectorAddr c a = BitVec.ofNat 32 (a.toNat * c.sectorSize) := by
  rw [BitVec.ofNat_mul, BitVec.ofNat_toNat, BitVec.setWidth_eq]
  rfl

/-- ERASE_SECTOR asks whether the sector exists, then makes its calls (43_erase_power.md R183). -/
theorem opBody_eraseSector (a n : Word) :
    opBody (.eraseSector a n) = Seq.look fun t =>
      if sectorExists t.cfg a then
        (Seq.label .E1 doWriteEnable).orReturn .error <|
          (Seq.label .E2 (cmd (.se (sectorAddr t.cfg a)))).orAbort .bus .error fun _ => Seq.pure .ok
      else Seq.abort .range .error := rfl

/-- The body of ERASE_SECTOR where the sector exists. -/
theorem eraseSectorBody_followsPlan {s0 : State} (h : sectorExists s0.cfg a = true) :
    (opBody (.eraseSector a n)).FollowsPlan s0 []
      (enableLines s0 [.E1] ++ [cmdLine s0 [.E2] (.se (sectorAddr s0.cfg a))]) (okOr .bus .error) := by
  rw [opBody_eraseSector]
  refine .look fun u hu => ?_
  rw [hu.cfg, if_pos h]
  exact .orReturn (.label doWriteEnable_followsPlan) (powerBody_followsPlan _ _)

/-- The body of ERASE_SECTOR where it does not: no call is made (43_erase_power.md R183). -/
theorem eraseSectorBody_of_not_exists {u : State} (h : ¬sectorExists u.cfg a = true) :
    opBody (.eraseSector a n) u = (some .error, u.setCause (some .range)) := by
  rw [opBody_eraseSector, Seq.look, if_neg h]
  rfl

theorem eraseSectorBody_blockKept (a n : Word) :
    Seq.Keeps State.BlockKept (opBody (.eraseSector a n)) := by
  have H := State.blockKept_respects
  rw [opBody_eraseSector]
  exact .look fun _ => .ite (H.orReturn (H.label _ H.doWriteEnable) (powerBody_blockKept _ _)) (H.abort _ _)

/-- Settles O23: by whether the sector exists. -/
theorem eraseSectorOutcome : Obligations.EraseSectorOutcome := by
  intro a n s hp
  obtain ⟨t, ht⟩ := exec_next_of_bufInRange (i := .eraseSector a n) (s := s) rfl
  refine ⟨t, ht, exec_latched rfl ht, exec_dataKept rfl (eraseSectorBody_blockKept a n) ht,
    fun hout => ?_, fun hin => ?_⟩
  · have hno : ¬sectorExists (s.accept 0x08 a n).cfg a = true := fun h =>
      absurd hout (Nat.not_le.2 (of_decide_eq_true h))
    have hrun := exec_operation_eq rfl ht
    rw [eraseSectorBody_of_not_exists hno] at hrun
    rw [← hrun, finishRun_some]
    exact ⟨by simp, by simp, ⟨rfl, rfl, rfl⟩, rfl⟩
  · have hyes : sectorExists (s.accept 0x08 a n).cfg a = true := decide_eq_true hin
    have hst : s.straight t (enableLines s [.E1] ++ [cmdLine s [.E2] (.se (sectorAddr s.cfg a))])
        .bus .error := exec_straight (op := 0x08) (a := a) (n := n) hp rfl ht
      (eraseSectorBody_followsPlan hyes) rfl
    have hans : answeredBy s.env.replies t.trace :=
      exec_answeredBy rfl ht hst.1 (by simp [enableLines, cmdLine])
    rw [← sectorAddr_eq]
    exact ⟨hst, fun w hw hs => hst.completed_of_script hans hs <| .cons (fun _ => rfl) <|
      .cons (passes_autoPoll hw) <| .cons (fun _ => rfl) .nil⟩

end Sector

section Power

variable {i : Instr} {op : Byte} {a n : Word} {s : State} {t : Txn} {l : Label}

/-- An operation that is one command (43_erase_power.md R188, R189), on a script and on the reference chip. -/
theorem exec_power (hop : i.opreq? = some (op, a, n)) (hb : bufInRange s i = true) (hp : s.phase = [])
    (hbody : opBody i = (Seq.label l (cmd t)).orAbort .bus .error fun _ => Seq.pure .ok) :
    ∃ u, exec i s = .next u ∧ s.latched u op a n ∧ s.dataKept u ∧
      s.straight u [cmdLine s [l] t] .bus .error ∧ (s.script [.ok []] ∨ s.onChip → u.completed .ok) ∧
      (s.onChip → u.env.chip = s.env.chip.exec s.cfg t) := by
  obtain ⟨u, hu⟩ := exec_next_of_bufInRange hb
  have hst := exec_straight hp hop hu
    (hbody ▸ powerBody_followsPlan (s0 := s.accept op a n) (site := []) l t) rfl
  have hans : answeredBy s.env.replies u.trace :=
    exec_answeredBy (txn_of_opreq hop) hu hst.1 (by simp [cmdLine])
  have hchip : s.onChip → u.completed .ok ∧ u.env.chip = s.env.chip.exec s.cfg t := fun hon => by
    have hrun : (opBody i).Leads s.known (Env.OnChip s.env.chip []) .ok s.known.next
        (Env.OnChip (s.env.chip.exec s.cfg t) []) :=
      hbody ▸ .orAbort (.label (cmd_leads_onChip rfl)) .pure
    obtain ⟨hret, hmeets⟩ := exec_of_leads hop hu hrun hon.env
    exact ⟨⟨hret, hmeets.cause⟩, hmeets.env.chip⟩
  refine ⟨u, hu, exec_latched hop hu, exec_dataKept hop (hbody ▸ powerBody_blockKept _ _) hu, hst, ?_,
    fun hon => (hchip hon).2⟩
  rintro (hs | hon)
  · exact hst.completed_of_script hans hs (.cons (fun _ => rfl) .nil)
  · exact (hchip hon).1

/-- `T_DP` puts the chip into deep power-down, awake or asleep (20_memory.md R80). -/
theorem Chip.exec_dp (k : Chip) (c : Config) : k.exec c .dp = { k with dpd := true } := by
  cases hd : k.dpd with
  | true => simp [Chip.exec, ← hd]
  | false => simp [Chip.exec, hd]

/-- `T_WAKE` takes it out. -/
theorem Chip.exec_wake (k : Chip) (c : Config) : k.exec c .wake = { k with dpd := false } := by
  cases hd : k.dpd with
  | true => simp [Chip.exec, hd]
  | false => simp [Chip.exec, hd]

/-- Settles O26: one command each, and what the chip does with it. -/
theorem sleepAndWakeupOutcome : Obligations.SleepAndWakeupOutcome := by
  intro a n s hp
  rw [← Chip.exec_dp s.env.chip s.cfg, ← Chip.exec_wake s.env.chip s.cfg]
  exact ⟨exec_power (i := .sleep a n) rfl rfl hp rfl, exec_power (i := .wakeup a n) rfl rfl hp rfl⟩

end Power

end Sys2Proof.Machine
end

