-- ==== Sys2Proof/Proofs/SuspendResume.lean ====
section
/-!
SUSPEND_ERASE and RESUME_ERASE for every answer of the environment (43_erase_power.md R186, R187). The run is
followed through its three pieces: the first status read, the command, the second status read.
-/

namespace Sys2Proof.Machine

/-! ### A status read by its answers -/

section Answers

variable {plan : List (List Label × Call)} {r : Answer} {fs : List Event}

theorem answers_of_all_isOk (h : fs.all (fun e => e.ans.isOk) = true) :
    fs.map Event.ans = (fs.map fun e => e.ans.bytes).map Answer.ok := by
  rw [List.map_map]
  refine List.map_congr_left fun e he => ?_
  have hok := List.all_eq_true.1 h e he
  cases hans : e.ans with
  | ok bytes => simp [hans, Answer.bytes]
  | fail => rw [hans] at hok; cases hok
  | never => rw [hans] at hok; cases hok

/-- The answers of a plan that was made. -/
theorem Made.answers_eq (h : Made plan fs) :
    ∃ bs : List (List Byte), bs.length = plan.length ∧ fs.map Event.ans = bs.map Answer.ok :=
  ⟨_, by rw [List.length_map, h.length], answers_of_all_isOk h.answers⟩

/-- The answers of a plan that was cut off. -/
theorem CutOff.answers_eq (h : CutOff plan r fs) :
    ∃ bs : List (List Byte), bs.length < plan.length ∧ fs.map Event.ans = bs.map Answer.ok ++ [r] := by
  refine ⟨fs.dropLast.map fun e => e.ans.bytes, ?_, ?_⟩
  · have hle := h.lines.length_le
    have hpos := List.length_pos_of_ne_nil h.ne_nil
    rw [List.length_map] at hle
    rw [List.length_map, List.length_dropLast]
    omega
  · rw [← answers_of_all_isOk h.earlier, List.map_dropLast]
    refine (List.dropLast_append_getLast? r ?_).symm
    rw [List.getLast?_map]
    exact h.last

end Answers

/-- The status a byte of SR decides; ERROR where the read failed (40_status_poll_wren.md R130, R132). -/
def srStatus (c : Config) : Option Byte → StatusCode
  | none => .error
  | some sr => decode2 c sr

/-- SCUR was read, and decides (40_status_poll_wren.md R132). -/
theorem statusOf_of_scur {c : Config} {b b' : List Byte} {st : StatusCode} {rest : List Answer}
    (h : decode1 c (b'.getD 0 0) = some st) : statusOf c (.ok b :: .ok b' :: rest) = some (st, rest) := by
  unfold statusOf readOf
  simp only [h]

/-- SCUR was read, and decides nothing: SR does. -/
theorem statusOf_of_undecided {c : Config} {b b' : List Byte} {rest : List Answer}
    (h : decode1 c (b'.getD 0 0) = none) :
    statusOf c (.ok b :: .ok b' :: rest) = (readOf rest).map fun x => (srStatus c x.1, x.2) := by
  have hread : readOf (.ok b :: .ok b' :: rest) = some (some (b'.getD 0 0), rest) := rfl
  unfold statusOf
  simp only [hread, h]
  rcases readOf rest with _ | ⟨_ | sr, rest'⟩ <;> rfl

section Status

variable {s0 v : State} {site below : List Label} {fs : List Event} {r : Option StatusCode}
  {st : StatusCode}

/-- The calls made are the first of both reads. -/
theorem State.EndsStatus.lines (h : s0.EndsStatus site below fs r v) :
    fs.map Event.line <+: statusLines s0 below := by
  rcases h with hscur | ⟨-, hsr⟩
  · exact hscur.lines.trans (List.prefix_append _ _)
  · exact hsr.lines

/-- A status read at a call that is never answered. -/
theorem State.EndsStatus.never (h : s0.EndsStatus site below fs none v) :
    CutOff (statusLines s0 below) .never fs ∧
      fs.getLast?.map Event.site = some v.phase ∧ v.phase ≠ [] := by
  rcases h with ⟨hcut, hsite⟩ | ⟨-, hcut, hsite⟩
  · exact ⟨hcut.append_plan, hsite⟩
  · exact ⟨hcut, hsite⟩

/-- SR is asked for only where SCUR decides nothing (40_status_poll_wren.md R132). -/
theorem State.EndsStatus.undecided (h : s0.EndsStatus site below fs r v) (hlen : 2 < fs.length) :
    scurUndecided s0.cfg fs := by
  rcases h with hscur | ⟨hno, -⟩
  · have hle := hscur.lines.length_le
    rw [List.length_map] at hle
    exact absurd hlen (Nat.not_lt.2 hle)
  · exact hno

/-- The status is the one decoded from the answers, which it uses up. -/
theorem State.EndsStatus.statusOf (h : s0.EndsStatus site below fs (some st) v) (rest : List Answer) :
    statusOf s0.cfg (fs.map Event.ans ++ rest) = some (st, rest) := by
  rcases h with (⟨hmade, -, ⟨b, hb, hst⟩, -⟩ | ⟨hcut, rfl, -⟩) | ⟨⟨b, hb, hno⟩, hsr⟩
  · obtain ⟨bs, hlen, hans⟩ := hmade.answers_eq
    obtain ⟨b1, b2, rfl⟩ := List.length_eq_two.1 hlen
    rw [← List.getLast?_map, hans] at hb
    obtain rfl : b2 = b := by simpa using hb
    rw [hans]
    exact statusOf_of_scur hst
  · obtain ⟨bs, hlen, hans⟩ := hcut.answers_eq
    rw [hans]
    match bs, hlen with
    | [], _ => rfl
    | [_], _ => rfl
  · rw [← List.getElem?_map] at hb
    rcases hsr with ⟨hmade, -, ⟨b', hb', hst⟩, -⟩ | ⟨hcut, rfl, -⟩
    · obtain ⟨bs, hlen, hans⟩ := hmade.answers_eq
      rw [← List.getLast?_map] at hb'
      rw [hans] at hb hb' ⊢
      match bs, hlen with
      | [b1, b2, b3, b4], _ =>
        obtain rfl : b2 = b := by simpa using hb
        obtain rfl : b4 = b' := by simpa using hb'
        exact (statusOf_of_undecided hno).trans (congrArg (fun x => some (x, rest)) (Option.some.inj hst))
    · obtain ⟨bs, hlen, hans⟩ := hcut.answers_eq
      rw [hans] at hb ⊢
      match bs, hlen with
      | [], _ | [_], _ => simp at hb
      | [b1, b2], _ | [b1, b2, _], _ =>
        obtain rfl : b2 = b := by simpa using hb
        exact statusOf_of_undecided hno

end Status

/-- A status read that gives `source` makes the first `k` calls of both reads, all answered OK. -/
def SeenAfter (source : StatusCode) (k : Nat) : Prop :=
  ∀ {s0 v : State} {site below : List Label} {fs : List Event},
    s0.EndsStatus site below fs (some source) v →
      Made ((statusLines s0 below).take k) fs ∧ s0.AtSite site v

/-- BUSY is decided by SR (40_status_poll_wren.md R130). -/
theorem busy_seenAfter : SeenAfter .busy 4 := by
  rintro s0 v site below fs ((⟨-, -, ⟨b, -, hst⟩, -⟩ | ⟨-, herr, -⟩) | ⟨-, ⟨hmade, hat, -⟩ | ⟨-, herr, -⟩⟩)
  · rcases decode1_cases s0.cfg (b.getD 0 0) with h | h | h <;> cases h.symm.trans hst
  · cases herr
  · exact ⟨hmade, hat⟩
  · cases herr

/-- SUSPENDED is decided by SCUR. -/
theorem suspended_seenAfter : SeenAfter .suspended 2 := by
  rintro s0 v site below fs ((⟨hmade, hat, -⟩ | ⟨-, herr, -⟩) | ⟨-, ⟨-, -, ⟨b, -, hst⟩, -⟩ | ⟨-, herr, -⟩⟩)
  · exact ⟨hmade, hat⟩
  · cases herr
  · rcases decode2_cases s0.cfg (b.getD 0 0) with h | h <;> cases h.symm.trans (Option.some.inj hst)
  · cases herr

/-! ### The run of the body -/

/-- The command of SUSPEND_ERASE or RESUME_ERASE, and the status read that must then give `target`. -/
def commandThenVerify (l2 l3 : Label) (target : StatusCode) (t : Txn) : Seq StatusCode :=
  (Seq.label l2 (cmd t)).orAbort .bus .error fun _ =>
    (Seq.label l3 doGetStatus).andThen fun st =>
      Seq.update (fun s => s.setWork { s.work with st := st }) <|
        if st = target then Seq.pure .ok else Seq.abort .suspendVerify .error

theorem changeEraseState_eq (l0 l2 l3 : Label) (source target : StatusCode) (t : Txn) :
    changeEraseState l0 l2 l3 source target t =
      (Seq.label l0 doGetStatus).andThen fun st =>
        Seq.update (fun s => s.setWork { s.work with st := st }) <|
          if st = source then commandThenVerify l2 l3 target t else Seq.pure .ok := rfl

/-- How the body ends: it returned, and the operation with it; or it stands at a call that is never answered. -/
def State.EndsErase (s0 : State) (l0 l2 l3 : Label) (source target : StatusCode) (k : Nat) (command : Txn) :
    Option StatusCode → State → Prop
  | some code, v => s0.changedErase (v.finish code) l0 l2 l3 source target k command
  | none, v => (∃ plan, CutOff plan .never v.trace) ∧
      (v.trace.getLast?.map Event.site = some v.phase ∧ v.phase ≠ []) ∧
      (s0.hangs v → s0.hungErase v l0 l2 l3 source k command)

section Body

variable {s0 u v w : State} {l0 l2 l3 : Label} {source target st : StatusCode} {k : Nat} {command : Txn}
  {site below : List Label} {fs gs : List Event} {r : Option StatusCode}

/-- A status read at a label: how it ends, and that it writes no register. -/
theorem label_doGetStatus_kept (l : Label) (hu : s0.AtSite site u) :
    (Seq.label l doGetStatus).Ensures u fun r v => u.BlockKept v ∧
      ∃ fs, v.trace = u.trace ++ fs ∧ s0.EndsStatus site (site ++ [l]) fs r v :=
  ⟨State.blockKept_respects.label l State.blockKept_respects.doGetStatus u, label_doGetStatus_ensures l hu⟩

/-- The byte of SCUR in the trace, where the status read that began after the lines `fs` went on to SR. -/
theorem State.EndsStatus.decode1_eq_none (h : s0.EndsStatus site below gs r v) (htrace : u.trace = fs ++ gs)
    (hlen : fs.length + 2 < u.trace.length) :
    decode1 s0.cfg (u.answerByte (fs.length + 1) 0) = none := by
  rw [htrace, List.length_append] at hlen
  obtain ⟨b, hb, hno⟩ := h.undecided (by omega)
  rw [State.answerByte_of_getElem? (b := b), hno]
  rwa [htrace, List.getElem?_append_right (by omega), Nat.add_sub_cancel_left]

/-- The body stands inside the first status read. -/
theorem State.EndsStatus.hungFirst (h : s0.EndsStatus site [l0] v.trace none v) (hkept : s0.BlockKept v) :
    s0.EndsErase l0 l2 l3 source target k command none v := by
  obtain ⟨hcut, hsite⟩ := h.never
  exact ⟨⟨_, hcut⟩, hsite, fun hhang => ⟨hhang, hcut.answers.1, .inl ⟨h.lines, hkept.work,
    h.decode1_eq_none (fs := []) rfl⟩⟩⟩

/-- The first status read gave another status than the one with something to do. -/
theorem State.EndsStatus.noChange (h : s0.EndsStatus site [l0] v.trace (some st) v) (hne : st ≠ source)
    (x : Work) :
    s0.EndsErase l0 l2 l3 source target k command (some .ok)
      (v.setWork { x with st := st }) := by
  have hstatus := h.statusOf []
  rw [List.append_nil] at hstatus
  refine ⟨st, [], hstatus, ?_⟩
  rw [if_neg hne]
  exact ⟨h.lines, rfl, rfl, ⟨rfl, rfl, rfl⟩, rfl⟩

/-- The body after a first status read that gave `source`: it has made the calls that takes, and `ST` holds
`source`. -/
structure State.SourceSeen (s0 : State) (l0 : Label) (source : StatusCode) (k : Nat) (v : State) : Prop where
  /-- It stands between two calls. -/
  atSite : s0.AtSite [] v
  /-- The calls of the status read. -/
  made : Made ((statusLines s0 [l0]).take k) v.trace
  /-- They are `k`. -/
  length : v.trace.length = k
  /-- What the answers say, whatever follows. -/
  status : ∀ rest, statusOf s0.cfg (v.answers ++ rest) = some (source, rest)
  /-- `ST`. -/
  st : v.work.st = source

theorem State.EndsStatus.sourceSeen (h : s0.EndsStatus [] [l0] v.trace (some source) v)
    (hseen : SeenAfter source k) (hk : k ≤ 4) (x : Work) :
    s0.SourceSeen l0 source k (v.setWork { x with st := source }) := by
  obtain ⟨hmade, hat⟩ := hseen h
  have hfour : (statusLines s0 [l0]).length = 4 := rfl
  refine ⟨hat.setWork _, hmade, ?_, h.statusOf, rfl⟩
  rw [State.setWork_trace, hmade.length, List.length_take, hfour, Nat.min_eq_left hk]

/-- After the first status read, the first calls of what follows it are the next calls of the operation. -/
theorem State.SourceSeen.lines (h : s0.SourceSeen l0 source k v) (htrace : w.trace = v.trace ++ gs)
    (hgs : gs.map Event.line <+: cmdLine s0 [l2] command :: statusLines s0 [l3]) :
    w.lines <+: eraseStateLines s0 l0 l2 l3 k command := by
  change w.trace.map Event.line <+: _
  rw [htrace, List.map_append, h.made.lines]
  exact (List.prefix_append_right_inj _).2 hgs

theorem State.SourceSeen.answers (h : s0.SourceSeen l0 source k v) (htrace : w.trace = v.trace ++ gs) :
    statusOf s0.cfg w.answers = some (source, gs.map Event.ans) := by
  have hans : w.answers = v.answers ++ gs.map Event.ans := by
    rw [State.answers, htrace, List.map_append]
    rfl
  rw [hans, h.status]

/-- The body stands at the command, or inside the second status read. -/
theorem State.SourceSeen.hungSecond {plan : List (List Label × Call)} (h : s0.SourceSeen l0 source k v)
    (htrace : w.trace = v.trace ++ gs) (hwork : w.work = v.work) (hcut : CutOff plan .never gs)
    (hplan : plan <+: cmdLine s0 [l2] command :: statusLines s0 [l3])
    (hsite : gs.getLast?.map Event.site = some w.phase ∧ w.phase ≠ [])
    (hscur : k + 3 < w.trace.length → decode1 s0.cfg (w.answerByte (k + 2) 0) = none) :
    s0.EndsErase l0 l2 l3 source target k command none w := by
  have hwhole := htrace ▸ h.made.cutOff hcut
  have hlong : k < w.trace.length := by
    have hpos := List.length_pos_of_ne_nil hcut.ne_nil
    rw [htrace, List.length_append, h.length]
    omega
  refine ⟨⟨_, hwhole⟩, ⟨by rw [htrace, List.getLast?_append_of_ne_nil _ hcut.ne_nil]; exact hsite.1, hsite.2⟩,
    fun hhang => ⟨hhang, hwhole.answers.1, .inr ⟨h.lines htrace (hcut.lines.trans hplan), hlong,
      ⟨_, h.answers htrace⟩, hwork ▸ h.st, hscur⟩⟩⟩

/-- The command was answered FAIL. -/
theorem State.SourceSeen.commandFailed (h : s0.SourceSeen l0 source k v) (htrace : w.trace = v.trace ++ gs)
    (hwork : w.work = v.work) (hcut : CutOff [cmdLine s0 [l2] command] .fail gs)
    (hcause : w.cause = some .bus) :
    s0.EndsErase l0 l2 l3 source target k command (some .error) w := by
  obtain ⟨bs, hlen, hans⟩ := hcut.answers_eq
  obtain rfl : bs = [] := List.length_eq_zero_iff.1 (Nat.lt_one_iff.1 hlen)
  have hstatus := h.answers htrace
  rw [hans] at hstatus
  refine ⟨source, [.fail], hstatus, ?_⟩
  rw [if_pos rfl]
  exact ⟨h.lines htrace (hcut.lines.trans ⟨statusLines s0 [l3], rfl⟩), rfl, rfl,
    (congrArg Work.st hwork).trans h.st, ⟨rfl, rfl, rfl⟩, hcause⟩

/-- The second status read gave `st`. -/
theorem State.SourceSeen.verified {es : List Event} (h : s0.SourceSeen l0 source k v)
    (htrace : w.trace = v.trace ++ (gs ++ es)) (hmade : Made [cmdLine s0 [l2] command] gs)
    (hend : s0.EndsStatus site [l3] es (some st) w) (x : Work) :
    (if st = target then Seq.pure .ok else Seq.abort .suspendVerify .error).Ensures
      (w.setWork { x with st := st }) (s0.EndsErase l0 l2 l3 source target k command) := by
  obtain ⟨bs, hlen, hans⟩ := hmade.answers_eq
  obtain ⟨b, rfl⟩ := List.length_eq_one_iff.1 hlen
  have hstatus := h.answers htrace
  rw [List.map_append, hans] at hstatus
  have hlines : w.lines <+: eraseStateLines s0 l0 l2 l3 k command := by
    refine h.lines htrace ?_
    rw [List.map_append, hmade.lines]
    exact (List.prefix_append_right_inj _).2 hend.lines
  have hagain := hend.statusOf []
  rw [List.append_nil] at hagain
  rw [Seq.ite_ensures]
  split
  · refine ⟨source, _, hstatus, ?_⟩
    rw [if_pos rfl]
    refine ⟨hlines, st, hagain, rfl, ?_⟩
    rw [if_pos ‹_›]
    exact ⟨⟨rfl, rfl, rfl⟩, rfl⟩
  · refine ⟨source, _, hstatus, ?_⟩
    rw [if_pos rfl]
    refine ⟨hlines, st, hagain, rfl, ?_⟩
    rw [if_neg ‹_›]
    exact ⟨⟨rfl, rfl, rfl⟩, rfl⟩

/-- From the command on. -/
theorem State.SourceSeen.commandThenVerify_ensures (h : s0.SourceSeen l0 source k v) :
    (commandThenVerify l2 l3 target command).Ensures v
      (s0.EndsErase l0 l2 l3 source target k command) := by
  have hcmd : (Seq.label l2 (cmd command)).CallStep s0 [] [cmdLine s0 [l2] command] lastAnswer :=
    ⟨.label (execCall_followsPlan command (List.cons_ne_nil _ _)),
      State.blockKept_respects.label _ (State.blockKept_respects.cmd _)⟩
  refine hcmd.orAbort (.start h.atSite) (fun gs r w _ hbroken => ?_) fun b gs w _ hw _ => ?_
  · obtain ⟨htrace, hends, hkept⟩ := hbroken
    cases r with
    | none =>
      obtain ⟨hcut, hsite⟩ := hends
      have hshort : gs.length ≤ 1 := by
        have hle := hcut.lines.length_le
        rwa [List.length_map] at hle
      refine h.hungSecond htrace hkept.work hcut ⟨statusLines s0 [l3], rfl⟩ hsite fun hlong => ?_
      rw [htrace, List.length_append, h.length] at hlong
      omega
    | some st =>
      obtain ⟨hcut, rfl, hcause⟩ := hends
      exact h.commandFailed htrace hkept.work hcut hcause
  · obtain ⟨htrace, hmade, hat, hkept⟩ := hw
    refine (Seq.andThen_ensures _ _).2 ((label_doGetStatus_kept l3 hat).imp ?_)
    rintro (_ | st) x ⟨hkept', es, htrace', hend⟩
    · obtain ⟨hcut, hsite⟩ := hend.never
      have hall : x.trace = (v.trace ++ gs) ++ es := by rw [htrace', htrace]
      have hlen : (v.trace ++ gs).length = k + 1 := by
        rw [List.length_append, h.length, hmade.length]
        rfl
      refine h.hungSecond (gs := gs ++ es) (by rw [hall, List.append_assoc]) (hkept'.work.trans hkept.work)
        (hmade.cutOff hcut) (List.prefix_refl _) ?_ fun hlong => ?_
      · rwa [List.getLast?_append_of_ne_nil _ hcut.ne_nil]
      · have hno := hend.decode1_eq_none hall
        rw [hlen] at hno
        exact hno hlong
    · exact h.verified (by rw [htrace', htrace, List.append_assoc]) hmade hend x.work

/-- SUSPEND_ERASE or RESUME_ERASE, from its acceptance on. -/
theorem changeEraseState_ensures (hseen : SeenAfter source k) (hk : k ≤ 4) (hat : s0.AtSite [] s0)
    (hstart : s0.trace = []) :
    (changeEraseState l0 l2 l3 source target command).Ensures s0
      (s0.EndsErase l0 l2 l3 source target k command) := by
  rw [changeEraseState_eq]
  refine (Seq.andThen_ensures _ _).2 ((label_doGetStatus_kept l0 hat).imp ?_)
  rintro r v ⟨hkept, fs, htrace, hend⟩
  obtain rfl : v.trace = fs := by rw [htrace, hstart, List.nil_append]
  cases r with
  | none => exact hend.hungFirst hkept
  | some st =>
    dsimp only
    rw [Seq.update_ensures, Seq.ite_ensures]
    split
    · subst_vars
      exact (hend.sourceSeen hseen hk _).commandThenVerify_ensures
    · exact hend.noChange ‹_› v.work

end Body

/-! ### The operations -/

/-- Of the registers only `ST` was written. -/
def State.KeptButSt (s t : State) : Prop :=
  ∃ w : Work, w = { s.work with st := w.st } ∧ (s.setWork w).BlockKept t

theorem State.keptButSt_respects : Respects State.KeptButSt where
  refl s := ⟨s.work, rfl, State.blockKept_respects.refl s⟩
  trans := by
    rintro s t u ⟨w, hw, h⟩ ⟨w', hw', h'⟩
    rw [h.work, State.setWork_work, hw] at hw'
    exact ⟨w', hw', State.blockKept_respects.trans (h.setWork w') h'⟩
  phase s v := ⟨s.work, rfl, State.blockKept_respects.phase s v⟩
  cause s v := ⟨s.work, rfl, State.blockKept_respects.cause s v⟩
  call s c := ⟨s.work, rfl, State.blockKept_respects.call s c⟩
  log s c r := ⟨s.work, rfl, State.blockKept_respects.log s c r⟩

theorem changeEraseState_keptButSt (l0 l2 l3 : Label) (source target : StatusCode) (t : Txn) :
    Seq.Keeps State.KeptButSt (changeEraseState l0 l2 l3 source target t) := by
  have H := State.keptButSt_respects
  have hst : ∀ (st : StatusCode) (s : State), s.KeptButSt (s.setWork { s.work with st := st }) :=
    fun st s => ⟨_, rfl, State.blockKept_respects.refl _⟩
  refine H.andThen (H.label _ H.doGetStatus) fun st => H.update (hst st) (.ite ?_ (H.pure _))
  exact H.orAbort (H.label _ (H.cmd _)) fun _ => H.andThen (H.label _ H.doGetStatus) fun st' =>
    H.update (hst st') (.ite (H.pure _) (H.abort _ _))

section Operations

variable {i : Instr} {op : Byte} {a n : Word} {s t : State} {l0 l2 l3 : Label}
  {source target : StatusCode} {k : Nat} {command : Txn}

/-- SUSPEND_ERASE or RESUME_ERASE: what it keeps, and how it ends. -/
theorem exec_changeErase (hp : s.phase = []) (hop : i.opreq? = some (op, a, n))
    (hbody : opBody i = changeEraseState l0 l2 l3 source target command) (hseen : SeenAfter source k)
    (hk : k ≤ 4) (h : exec i s = .next t) :
    s.latched t op a n ∧ t.inited = s.inited ∧ t.scratch = s.scratch ∧
      t.work = { s.work with st := t.work.st } ∧ s.bufKept t ∧
      (s.hungErase t l0 l2 l3 source k command ∨
        s.changedErase t l0 l2 l3 source target k command) := by
  have hrun := exec_operation_eq hop h
  rw [hbody] at hrun
  obtain ⟨w, hw, hkept⟩ :=
    changeEraseState_keptButSt l0 l2 l3 source target command (s.accept op a n)
  obtain ⟨hinited, hwork, hscratch, hbuf⟩ := State.dataKept_finishRun.2 hkept.dataKept
  rw [hrun] at hinited hwork hscratch hbuf
  replace hwork : t.work = w := hwork
  refine ⟨exec_latched hop h, hinited, hscratch, hwork ▸ hw, hbuf, ?_⟩
  have hends := changeEraseState_ensures (l0 := l0) (l2 := l2) (l3 := l3) (target := target)
    (command := command) hseen hk (State.atSite_accept (op := op) (a := a) (n := n) hp) rfl
  unfold Seq.Ensures at hends
  generalize changeEraseState l0 l2 l3 source target command (s.accept op a n) = run at hrun hends
  obtain ⟨_ | code, v⟩ := run
  · obtain rfl : v = t := hrun
    obtain ⟨⟨plan, hcut⟩, hsite, hhung⟩ := hends
    have hhang : s.hangs v := exec_hangs (txn_of_opreq hop) h hcut hsite
    exact .inl (hhung hhang)
  · obtain rfl : v.finish code = t := hrun
    exact .inr hends

end Operations

section Known

variable {g g1 g2 g3 : Known} {E E1 E2 E3 : Env → Prop} {l0 l2 l3 : Label}
  {source target st : StatusCode} {b : List Byte} {command : Txn}

/-- A first status with nothing to do. -/
theorem changeEraseState_leads_noChange (hfirst : doGetStatus.Leads g E st g1 E1) (hne : st ≠ source) :
    (changeEraseState l0 l2 l3 source target command).Leads g E .ok (g1.withSt st) E1 := by
  refine hfirst.label.andThen (.writeSt ?_)
  rw [if_neg hne]
  exact .pure

/-- The command was sent, and the second status is the one asked for. -/
theorem changeEraseState_leads_changed (hfirst : doGetStatus.Leads g E source g1 E1)
    (hcmd : (cmd command).Leads (g1.withSt source) E1 (.ok b) g2 E2)
    (hsecond : doGetStatus.Leads g2 E2 target g3 E3) :
    (changeEraseState l0 l2 l3 source target command).Leads g E .ok (g3.withSt target) E3 := by
  refine hfirst.label.andThen (.writeSt ?_)
  rw [if_pos rfl]
  refine hcmd.label.orAbort (hsecond.label.andThen (.writeSt ?_))
  rw [if_pos rfl]
  exact .pure

/-- The command was sent, and the second status is another one. -/
theorem changeEraseState_leads_unverified (hfirst : doGetStatus.Leads g E source g1 E1)
    (hcmd : (cmd command).Leads (g1.withSt source) E1 (.ok b) g2 E2)
    (hsecond : doGetStatus.Leads g2 E2 st g3 E3) (hne : st ≠ target) :
    (changeEraseState l0 l2 l3 source target command).Leads g E .error
      { g3.withSt st with cause := some .suspendVerify } E3 := by
  refine hfirst.label.andThen (.writeSt ?_)
  rw [if_pos rfl]
  refine hcmd.label.orAbort (hsecond.label.andThen (.writeSt ?_))
  rw [if_neg hne]
  exact .abort

end Known

/-- Settles O24: the run by its pieces, and the scripted bytes decide BUSY, then SUSPENDED. -/
theorem suspendEraseOutcome : Obligations.SuspendEraseOutcome := by
  intro a n s hp
  obtain ⟨t, ht⟩ := exec_next_of_bufInRange (i := .suspendErase a n) (s := s) rfl
  obtain ⟨hlatched, hinited, hscratch, hwork, hbuf, hends⟩ :=
    exec_changeErase hp rfl rfl busy_seenAfter (Nat.le_refl 4) ht
  refine ⟨t, ht, hlatched, hinited, hscratch, hwork, hbuf, hends, fun scur sr scur' h1 h2 h3 hs => ?_⟩
  obtain ⟨hret, hmeets⟩ := exec_of_leads rfl ht
    (changeEraseState_leads_changed (doGetStatus_leads_sr_scripted h1 h2) (execCall_leads_scripted _)
      (doGetStatus_leads_suspended_scripted h3)) hs
  exact ⟨⟨hret, hmeets.cause⟩, hmeets.calls, congrArg Work.st hmeets.work⟩

/-- Settles O25: the run by its pieces, and the scripted bytes decide SUSPENDED, then BUSY. -/
theorem resumeEraseOutcome : Obligations.ResumeEraseOutcome := by
  intro a n s hp
  obtain ⟨t, ht⟩ := exec_next_of_bufInRange (i := .resumeErase a n) (s := s) rfl
  obtain ⟨hlatched, hinited, hscratch, hwork, hbuf, hends⟩ :=
    exec_changeErase hp rfl rfl suspended_seenAfter (by omega) ht
  refine ⟨t, ht, hlatched, hinited, hscratch, hwork, hbuf, hends, fun scur scur' sr h1 h2 h3 hs => ?_⟩
  obtain ⟨hret, hmeets⟩ := exec_of_leads rfl ht
    (changeEraseState_leads_changed (doGetStatus_leads_suspended_scripted h1) (execCall_leads_scripted _)
      (doGetStatus_leads_sr_scripted h2 h3)) hs
  exact ⟨⟨hret, hmeets.cause⟩, hmeets.calls, congrArg Work.st hmeets.work⟩

end Sys2Proof.Machine
end

