-- ==== Sys2Proof/Proofs/EraseOnChip.lean ====
section
/-!
The erase operations on the reference chip (20_memory.md R80): ERASE_SECTOR leaves its erase in flight, and an
erase in flight can be suspended and resumed (43_erase_power.md R183, R186, R187; log 9).
-/

namespace Sys2Proof.Machine

/-! ### Masks of one bit -/

section Masks

variable {c : Config} {v w m m' : Byte}

/-- Every mask of an allowed configuration is one bit (00_scope.md R8). -/
theorem Config.isOneBit_of_mem (h : c.wf = true) (hm : m ∈ c.masks) : isOneBit m = true := by
  simp only [Config.wf, Config.masksOk, Bool.and_eq_true] at h
  obtain ⟨-, hone, -⟩ := h
  exact List.all_eq_true.1 hone m hm

/-- Two different masks of one bit share none. -/
theorem isOneBit_and_eq_zero (h : isOneBit m = true) (h' : isOneBit m' = true) (hne : m ≠ m') :
    m &&& m' = 0 := by
  simp only [isOneBit, List.any_eq_true, List.mem_range, beq_iff_eq] at h h'
  obtain ⟨k, -, rfl⟩ := h
  obtain ⟨j, -, rfl⟩ := h'
  have hkj : k ≠ j := fun h => hne (by rw [h])
  refine BitVec.eq_of_getLsbD_eq fun i _ => ?_
  simp only [BitVec.getLsbD_and, BitVec.getLsbD_twoPow, BitVec.ofNat_eq_ofNat, BitVec.getLsbD_zero]
  by_cases hk : k = i
  · subst hk
    simp [hkj.symm]
  · simp [hk]

theorem anySet_or_value : anySet (v ||| w) m = (anySet v m || anySet w m) := by
  have hdist : (v ||| w) &&& m = (v &&& m) ||| (w &&& m) := by
    rw [BitVec.and_comm, BitVec.and_or_distrib_left, BitVec.and_comm m v, BitVec.and_comm m w]
  rw [Bool.eq_iff_iff, Bool.or_eq_true, anySet_eq_true, anySet_eq_true, anySet_eq_true, hdist]
  simp only [ne_eq, BitVec.ofNat_eq_ofNat, BitVec.or_eq_zero_iff]
  tauto

theorem anySet_self (h : m ≠ 0) : anySet m m = true := by
  rwa [anySet_eq_true, BitVec.and_self]

/-- A value from which the bits of a mask were taken has none of them. -/
theorem anySet_cleared : anySet (v &&& ~~~m &&& ~~~m') m = false := by
  refine anySet_eq_false.2 (BitVec.eq_of_getLsbD_eq fun i hi => ?_)
  simp only [BitVec.getLsbD_and, BitVec.getLsbD_not, BitVec.ofNat_eq_ofNat, BitVec.getLsbD_zero]
  cases m.getLsbD i <;> simp

/-- Setting the bits of one mask and clearing those of both undoes itself, where none was set. -/
theorem or_and_not_and_not (h : v &&& m = 0) (h' : v &&& m' = 0) : (v ||| m) &&& ~~~m &&& ~~~m' = v := by
  refine BitVec.eq_of_getLsbD_eq fun i hi => ?_
  have hbit : (v.getLsbD i && m.getLsbD i) = false := by
    rw [← BitVec.getLsbD_and, h]
    exact BitVec.getLsbD_zero
  have hbit' : (v.getLsbD i && m'.getLsbD i) = false := by
    rw [← BitVec.getLsbD_and, h']
    exact BitVec.getLsbD_zero
  simp only [BitVec.getLsbD_and, BitVec.getLsbD_or, BitVec.getLsbD_not, hi, decide_true, Bool.true_and]
  cases hv : v.getLsbD i <;> simp_all

end Masks

/-! ### What SCUR decides -/

section Decide

variable {c : Config} {scur : Byte}

/-- SCUR decides nothing where neither a fail bit nor a suspend bit is set (40_status_poll_wren.md R130). -/
theorem decode1_eq_none_iff :
    decode1 c scur = none ↔
      anySet scur (c.mPfail ||| c.mEfail) = false ∧ anySet scur (c.mPsb ||| c.mEsb) = false := by
  unfold decode1
  cases anySet scur (c.mPfail ||| c.mEfail) <;> cases anySet scur (c.mPsb ||| c.mEsb) <;> simp

theorem decode1_eq_suspended (hfail : anySet scur (c.mPfail ||| c.mEfail) = false)
    (hpaused : anySet scur (c.mPsb ||| c.mEsb) = true) : decode1 c scur = some .suspended := by
  rw [decode1, if_neg (by simp [hfail]), if_pos hpaused]

theorem decode2_busy (h : anySet scur c.mWip = true) : decode2 c scur = .busy := if_pos h

theorem decode2_ok (h : anySet scur c.mWip = false) : decode2 c scur = .ok := if_neg (by simp [h])

/-- An erase suspend on a SCUR that decides nothing is SUSPENDED: the four masks of SCUR are different bits
(10_state.md R42). -/
theorem decode1_or_esb (hc : c.wf = true) (h : decode1 c scur = none) :
    decode1 c (scur ||| c.mEsb) = some .suspended := by
  obtain ⟨hfail, -⟩ := decode1_eq_none_iff.1 h
  have hone {m : Byte} (hm : m ∈ c.masks) : isOneBit m = true := Config.isOneBit_of_mem hc hm
  have hesb : isOneBit c.mEsb = true := hone (by simp [Config.masks])
  have hdiff : [c.mPsb, c.mEsb, c.mPfail, c.mEfail].Nodup := by
    simp only [Config.wf, Config.masksOk, Bool.and_eq_true, decide_eq_true_eq] at hc
    obtain ⟨-, -, hnodup⟩ := hc
    exact hnodup
  simp only [List.nodup_cons, List.mem_cons, List.not_mem_nil, or_false, not_or] at hdiff
  obtain ⟨-, ⟨hp, he⟩, -⟩ := hdiff
  have hpfail : c.mEsb &&& c.mPfail = 0 := isOneBit_and_eq_zero hesb (hone (by simp [Config.masks])) hp
  have hefail : c.mEsb &&& c.mEfail = 0 := isOneBit_and_eq_zero hesb (hone (by simp [Config.masks])) he
  refine decode1_eq_suspended ?_ ?_
  · have hno : anySet c.mEsb (c.mPfail ||| c.mEfail) = false :=
      Bool.eq_false_iff.2 fun hset => (anySet_or.1 hset).elim (· hpfail) (· hefail)
    rw [anySet_or_value, hfail, hno, Bool.or_self]
  · have hyes : anySet c.mEsb (c.mPsb ||| c.mEsb) = true :=
      anySet_or.2 (.inr (by rw [BitVec.and_self]; exact isOneBit_ne_zero hesb))
    rw [anySet_or_value, hyes, Bool.or_true]

end Decide

/-! ### ERASE_SECTOR -/

section Sector

variable {c : Config} {a : Word} {k : Chip}

/-- The sector of an existing index (30_encoding.md R99): its address is neither cut nor wrapped. -/
theorem flashAddr_sectorAddr (hc : c.wf = true) (h : sectorExists c a = true) :
    flashAddr c (sectorAddr c a) = a.toNat * c.sectorSize := by
  have hmax : c.flashSize ≤ 2 ^ c.addrBits := by
    simp only [Config.wf, Config.geometryOk, Bool.and_eq_true, beq_iff_eq, decide_eq_true_eq] at hc
    obtain ⟨⟨⟨⟨⟨⟨⟨⟨⟨-, hmax⟩, -⟩, -⟩, -⟩, -⟩, -⟩, -⟩, -⟩, -⟩ := hc
    exact hmax
  obtain ⟨haddr, hlt⟩ := sectorAddr_toNat hc h
  rw [flashAddr, haddr, Nat.mod_eq_of_lt (hlt.trans_le hmax), Nat.mod_eq_of_lt hlt]

/-- The bytes `T_SE` reaches at an existing index are those of its sector. -/
theorem templateReaches_sector (hc : c.wf = true) (h : sectorExists c a = true) (x : Nat) :
    templateReaches c x (.se (sectorAddr c a)) ↔
      a.toNat * c.sectorSize ≤ x ∧ x < (a.toNat + 1) * c.sectorSize := by
  obtain ⟨-, -, hpos⟩ := Config.sectors hc
  rw [templateReaches, flashAddr_sectorAddr hc h, Nat.mul_div_cancel _ hpos, Nat.succ_mul]

/-- A ready chip that was write-enabled. -/
def Chip.armed (k : Chip) (c : Config) : Chip := { k with sr := k.sr ||| c.mWel }

/-- The chip after the erase command of ERASE_SECTOR. -/
def Chip.erasing (k : Chip) (c : Config) (a : Word) : Chip :=
  { k.armed c with mem := erasedMem c k.mem (.se (sectorAddr c a)) }.startCycle c .erase

/-- WIP and WEL are different bits, so a ready chip that was write-enabled takes an erase. -/
theorem Chip.armed_accepts (hc : c.wf = true) (hbits : srDistinct c) (hwip : anySet k.sr c.mWip = false) :
    (k.armed c).accepts c = true := by
  have hone {m : Byte} (hm : m ∈ c.masks) : isOneBit m = true := Config.isOneBit_of_mem hc hm
  have hwel : isOneBit c.mWel = true := hone (by simp [Config.masks])
  have hne : c.mWel ≠ c.mWip := by
    simp only [srDistinct, List.nodup_cons, List.mem_cons, not_or] at hbits
    obtain ⟨⟨hwipWel, -⟩, -⟩ := hbits
    exact fun h => hwipWel h.symm
  have hapart : c.mWel &&& c.mWip = 0 := isOneBit_and_eq_zero hwel (hone (by simp [Config.masks])) hne
  refine Chip.accepts_iff.2 ⟨?_, ?_⟩
  · exact anySet_or_value.trans (by rw [anySet_self (isOneBit_ne_zero hwel), Bool.or_true])
  · exact anySet_or_value.trans (by rw [hwip, anySet_eq_false.2 hapart, Bool.or_self])

theorem Chip.exec_sector (hc : c.wf = true) (hbits : srDistinct c) (hd : k.dpd = false)
    (hwip : anySet k.sr c.mWip = false) :
    (k.armed c).exec c (.se (sectorAddr c a)) = k.erasing c a := by
  rw [Chip.exec_erase (k := k.armed c) rfl hd, if_pos (Chip.armed_accepts hc hbits hwip)]
  rfl

/-- A byte of the array after the erase. -/
theorem Chip.erasing_read (hc : c.wf = true) (h : sectorExists c a = true)
    (hm : Memory.wf flashBackground k.mem = true) (x : Nat) :
    Memory.read flashBackground (k.erasing c a).mem x =
      if a.toNat * c.sectorSize ≤ x ∧ x < (a.toNat + 1) * c.sectorSize then 0xFF
      else Memory.read flashBackground k.mem x := by
  change Memory.read flashBackground (erasedMem c k.mem (.se (sectorAddr c a))) x = _
  split
  · exact erasedMem_read rfl hm ((templateReaches_sector hc h x).2 ‹_›)
  · exact erasedMem_read_of_not rfl hm fun hx => ‹¬_› ((templateReaches_sector hc h x).1 hx)

/-- The cycle of the erase is running. -/
theorem Chip.erasing_wip (hc : c.wf = true) : anySet (k.erasing c a).sr c.mWip = true := by
  have hwip : isOneBit c.mWip = true := Config.isOneBit_of_mem hc (by simp [Config.masks])
  exact anySet_or_value.trans (by rw [anySet_self (isOneBit_ne_zero hwip), Bool.or_true])

theorem eraseSectorBody_leads_onChip {g : Known} {n : Word} (hc : g.cfg.wf = true)
    (hbits : srDistinct g.cfg) (hready : k.ready g.cfg) (h : sectorExists g.cfg a = true) :
    (opBody (.eraseSector a n)).Leads g (Env.OnChip k []) .ok g.next.next.next
      (Env.OnChip (k.erasing g.cfg a) []) := by
  obtain ⟨hd, hwip⟩ := hready
  rw [opBody_eraseSector]
  refine .look fun u hu => ?_
  rw [hu, if_pos h]
  refine (doWriteEnable_leads_onChip hd hwip).label.orReturn ?_
  have herase : (cmd (.se (sectorAddr g.cfg a))).Leads g.next.next (Env.OnChip (k.armed g.cfg) []) (.ok [])
      g.next.next.next (Env.OnChip (k.erasing g.cfg a) []) :=
    cmd_leads_steady (Chip.exec_sector hc hbits hd hwip)
  exact herase.label.orAbort .pure

end Sector

/-- Settles O55: the chip takes the erase, and the status read finds its cycle running. -/
theorem eraseSectorLeavesTheEraseInFlight : Obligations.EraseSectorLeavesTheEraseInFlight := by
  intro a n a' n' s hon hinv _ hready hbits hin hscur
  obtain ⟨hsound, -⟩ := State.inv_iff.1 hinv
  have hexists : sectorExists s.cfg a = true := decide_eq_true hin
  obtain ⟨t, ht⟩ := exec_next_of_bufInRange (i := .eraseSector a n) (s := s) rfl
  obtain ⟨u, hu⟩ := exec_next_of_bufInRange (i := .getStatus a' n') (s := t) rfl
  obtain ⟨hret, hmeets⟩ := exec_of_leads rfl ht
    (eraseSectorBody_leads_onChip hsound.cfg hbits hready hexists) hon.env
  have hchip : t.env.OnChip (s.env.chip.erasing s.cfg a) [] := hmeets.env
  have hcfg : t.cfg = s.cfg := hmeets.cfg
  have hwip : anySet (s.env.chip.erasing s.cfg a).sr s.cfg.mWip = true := Chip.erasing_wip hsound.cfg
  have hbusy : doGetStatus.Leads t.known (Env.OnChip (s.env.chip.erasing s.cfg a) []) .busy
      t.known.next.next.next.next (Env.OnChip (s.env.chip.erasing s.cfg a) []) :=
    doGetStatus_leads_sr_steady hready.1 (hcfg.symm ▸ hscur)
      (by rw [show t.known.cfg = s.cfg from hcfg]; exact decode2_busy hwip)
  obtain ⟨hret', hmeets'⟩ := exec_of_leads rfl hu hbusy.label hchip
  refine ⟨t, u, ht, ⟨hret, hmeets.cause⟩, by rw [hchip.chip]; rfl, by rw [hchip.chip]; exact hwip,
    fun x => ?_, hu, ⟨hret', hmeets'.cause⟩, by rw [hmeets'.env.chip, hchip.chip]⟩
  rw [State.flashByte, hchip.chip]
  exact Chip.erasing_read hsound.cfg hexists hsound.flash.1 x

/-! ### SUSPEND_ERASE and RESUME_ERASE -/

/-- An awake chip with an erase in flight, whose SCUR shows neither fail nor suspend. -/
structure Chip.EraseRuns (k : Chip) (c : Config) : Prop where
  /-- It is awake. -/
  awake : k.dpd = false
  /-- SCUR decides nothing. -/
  scur : decode1 c k.scur = none
  /-- The cycle is an erase. -/
  erase : k.inflight = .erase
  /-- It is running. -/
  wip : anySet k.sr c.mWip = true

/-- The chip with its erase suspended. -/
def Chip.paused (k : Chip) (c : Config) : Chip :=
  { k with sr := k.sr &&& ~~~c.mWip &&& ~~~c.mWel, scur := k.scur ||| c.mEsb }

/-- The chip with its erase resumed. -/
def Chip.resumed (k : Chip) (c : Config) : Chip :=
  { k with sr := (k.sr &&& ~~~c.mWip &&& ~~~c.mWel) ||| c.mWip }

/-- The chip after its resumed erase ended. -/
def Chip.ended (k : Chip) (c : Config) : Chip :=
  { k with
    sr := ((k.sr &&& ~~~c.mWip &&& ~~~c.mWel) ||| c.mWip) &&& ~~~c.mWip &&& ~~~c.mWel
    inflight := .none }

section Suspend

variable {k : Chip} {c : Config}

theorem Chip.EraseRuns.exec_susp (h : k.EraseRuns c) : k.exec c .susp = k.paused c := by
  rw [Chip.exec_susp h.awake, if_pos ⟨anySet_eq_true.1 h.wip, .inl h.erase⟩, if_pos h.erase]
  rfl

theorem Chip.EraseRuns.paused_scur (h : k.EraseRuns c) (hc : c.wf = true) :
    decode1 c (k.paused c).scur = some .suspended := decode1_or_esb hc h.scur

theorem Chip.paused_wip : anySet (k.paused c).sr c.mWip = false := anySet_cleared

theorem Chip.EraseRuns.exec_resm (h : k.EraseRuns c) (hc : c.wf = true) :
    (k.paused c).exec c .resm = k.resumed c := by
  have hesb : isOneBit c.mEsb = true := Config.isOneBit_of_mem hc (by simp [Config.masks])
  obtain ⟨-, hno⟩ := decode1_eq_none_iff.1 h.scur
  have hclear : k.scur &&& c.mEsb = 0 ∧ k.scur &&& c.mPsb = 0 := by
    have hneither := mt anySet_or.2 (Bool.eq_false_iff.1 hno)
    simp only [not_or, not_not] at hneither
    exact hneither.symm
  have hset : (k.paused c).scur &&& c.mEsb ≠ 0 := anySet_eq_true.1 <|
    anySet_or_value.trans (by rw [anySet_self (isOneBit_ne_zero hesb), Bool.or_true])
  rw [Chip.exec_resm (k := k.paused c) h.awake, if_pos (.inl hset)]
  exact congrArg (fun x => { k.resumed c with scur := x }) (or_and_not_and_not hclear.1 hclear.2)

theorem Chip.resumed_wip (hc : c.wf = true) : anySet (k.resumed c).sr c.mWip = true := by
  have hwip : isOneBit c.mWip = true := Config.isOneBit_of_mem hc (by simp [Config.masks])
  exact anySet_or_value.trans (by rw [anySet_self (isOneBit_ne_zero hwip), Bool.or_true])

/-- The cycle of the resumed erase ends. -/
theorem Chip.EraseRuns.resumed_complete (h : k.EraseRuns c) (hc : c.wf = true) :
    (k.resumed c).complete c = k.ended c := by
  have herase : (k.resumed c).inflight = .erase := h.erase
  rw [Chip.complete, if_pos ⟨by rw [herase]; nofun, Chip.resumed_wip hc⟩, and_not_or]
  rfl

theorem Chip.ended_wip : anySet (k.ended c).sr c.mWip = false := anySet_cleared

variable {a n : Word} {s t : State}

/-- SUSPEND_ERASE of an erase in flight. -/
theorem exec_suspend_onChip (h : k.EraseRuns s.cfg) (hc : s.cfg.wf = true) (hon : s.env.OnChip k [])
    (ht : exec (.suspendErase a n) s = .next t) :
    t.completed .ok ∧ t.cfg = s.cfg ∧ t.env.OnChip (k.paused s.cfg) [] := by
  have hfirst : doGetStatus.Leads s.known (Env.OnChip k []) .busy s.known.next.next.next.next
      (Env.OnChip k []) :=
    doGetStatus_leads_sr_steady h.awake h.scur (decode2_busy h.wip)
  have hcmd {g : Known} (hg : g.cfg = s.cfg) :
      (cmd .susp).Leads g (Env.OnChip k []) (.ok []) g.next (Env.OnChip (k.paused s.cfg) []) :=
    cmd_leads_steady (hg ▸ h.exec_susp)
  have hsecond {g : Known} (hg : g.cfg = s.cfg) :
      doGetStatus.Leads g (Env.OnChip (k.paused s.cfg) []) .suspended g.next.next
        (Env.OnChip (k.paused s.cfg) []) :=
    doGetStatus_leads_suspended_steady h.awake (hg ▸ h.paused_scur hc)
  obtain ⟨hret, hmeets⟩ := exec_of_leads rfl ht
    (changeEraseState_leads_changed hfirst (hcmd rfl) (hsecond rfl)) hon
  exact ⟨⟨hret, hmeets.cause⟩, hmeets.cfg, hmeets.env⟩

/-- RESUME_ERASE of the suspended erase. -/
theorem exec_resume_onChip (h : k.EraseRuns s.cfg) (hc : s.cfg.wf = true)
    (hon : s.env.OnChip (k.paused s.cfg) []) (ht : exec (.resumeErase a n) s = .next t) :
    t.completed .ok ∧ t.env.OnChip (k.resumed s.cfg) [] := by
  have hfirst : doGetStatus.Leads s.known (Env.OnChip (k.paused s.cfg) []) .suspended s.known.next.next
      (Env.OnChip (k.paused s.cfg) []) :=
    doGetStatus_leads_suspended_steady h.awake (h.paused_scur hc)
  have hcmd {g : Known} (hg : g.cfg = s.cfg) : (cmd .resm).Leads g (Env.OnChip (k.paused s.cfg) []) (.ok [])
      g.next (Env.OnChip (k.resumed s.cfg) []) :=
    cmd_leads_steady (hg ▸ h.exec_resm hc)
  have hsecond {g : Known} (hg : g.cfg = s.cfg) :
      doGetStatus.Leads g (Env.OnChip (k.resumed s.cfg) []) .busy g.next.next.next.next
        (Env.OnChip (k.resumed s.cfg) []) :=
    doGetStatus_leads_sr_steady h.awake (hg ▸ h.scur)
      (by rw [hg]; exact decode2_busy (Chip.resumed_wip hc))
  obtain ⟨hret, hmeets⟩ := exec_of_leads rfl ht
    (changeEraseState_leads_changed hfirst (hcmd rfl) (hsecond rfl)) hon
  exact ⟨⟨hret, hmeets.cause⟩, hmeets.env⟩

/-- RESUME_ERASE where the resumed erase ends before the second status read (93_implementation_defined.md
U11). -/
theorem exec_resume_ended_onChip (h : k.EraseRuns s.cfg) (hc : s.cfg.wf = true)
    (hon : s.env.OnChip (k.paused s.cfg) [false, false, false, true])
    (ht : exec (.resumeErase a n) s = .next t) :
    t.aborted .suspendVerify .error ∧ t.work.st = .ok ∧ t.env.OnChip (k.ended s.cfg) [] := by
  have hfirst : doGetStatus.Leads s.known (Env.OnChip (k.paused s.cfg) [false, false, false, true]) .suspended
      s.known.next.next (Env.OnChip (k.paused s.cfg) [false, true]) :=
    doGetStatus_leads_suspended_onChip h.awake (h.paused_scur hc)
  have hcmd {g : Known} (hg : g.cfg = s.cfg) : (cmd .resm).Leads g (Env.OnChip (k.paused s.cfg) [false, true])
      (.ok []) g.next (Env.OnChip (k.resumed s.cfg) [true]) :=
    cmd_leads_onChip (hg ▸ h.exec_resm hc)
  have hsecond {g : Known} (hg : g.cfg = s.cfg) :
      doGetStatus.Leads g (Env.OnChip (k.resumed s.cfg) [true]) .ok g.next.next.next.next
        (Env.OnChip (k.ended s.cfg) []) :=
    doGetStatus_leads_sr_onChip h.awake (hg ▸ h.scur) (hg ▸ h.resumed_complete hc)
      (hg ▸ decode2_ok Chip.ended_wip)
  obtain ⟨hret, hmeets⟩ := exec_of_leads rfl ht
    (changeEraseState_leads_unverified hfirst (hcmd rfl) (hsecond rfl) (by decide)) hon
  exact ⟨⟨hret, hmeets.cause⟩, congrArg Work.st hmeets.work, hmeets.env⟩

/-- SUSPEND_ERASE and RESUME_ERASE on a chip with no cycle running read the status, and no more. -/
theorem exec_noChange_onChip {i : Instr} {op : Byte} {l0 l2 l3 : Label} {source target : StatusCode}
    {u : Txn} (hop : i.opreq? = some (op, a, n))
    (hbody : opBody i = changeEraseState l0 l2 l3 source target u) (hsource : .ok ≠ source)
    (hd : k.dpd = false) (hscur : decode1 s.cfg k.scur = none) (hwip : anySet k.sr s.cfg.mWip = false)
    (hon : s.env.OnChip k []) (ht : exec i s = .next t) :
    t.completed .ok ∧ t.cfg = s.cfg ∧ t.env.OnChip k [] ∧ t.trace.length = 4 := by
  have hfirst : doGetStatus.Leads s.known (Env.OnChip k []) .ok s.known.next.next.next.next
      (Env.OnChip k []) :=
    doGetStatus_leads_sr_steady hd hscur (decode2_ok hwip)
  obtain ⟨hret, hmeets⟩ := exec_of_leads hop ht
    (hbody ▸ changeEraseState_leads_noChange hfirst hsource) hon
  exact ⟨⟨hret, hmeets.cause⟩, hmeets.cfg, hmeets.env, hmeets.calls⟩

end Suspend

/-- Settles O56: an erase in flight is suspended and resumed, and where it ends in between the verify fails; with
no cycle running both operations read the status alone. -/
theorem suspendThenResumeOnTheChip : Obligations.SuspendThenResumeOnTheChip := by
  intro a n a' n' s hon hc _ hd hscur
  obtain ⟨t, ht⟩ := exec_next_of_bufInRange (i := .suspendErase a n) (s := s) rfl
  obtain ⟨u, hu⟩ := exec_next_of_bufInRange (i := .resumeErase a' n') (s := t) rfl
  refine ⟨fun herase hwip => ?_, fun hwip => ?_⟩
  · have hruns : s.env.chip.EraseRuns s.cfg := ⟨hd, hscur, herase, hwip⟩
    obtain ⟨hok, hcfg, hpaused⟩ := exec_suspend_onChip hruns hc hon.env ht
    rw [← hcfg] at hruns hc hpaused ⊢
    obtain ⟨hok', hresumed⟩ := exec_resume_onChip hruns hc hpaused hu
    have hdue : (t.setEnv { t.env with completions := [false, false, false, true] }).env.OnChip
        (s.env.chip.paused t.cfg) [false, false, false, true] :=
      ⟨hpaused.mode, hpaused.replies, rfl, hpaused.chip⟩
    obtain ⟨v, hv⟩ := exec_next_of_bufInRange (i := .resumeErase a' n')
      (s := t.setEnv { t.env with completions := [false, false, false, true] }) rfl
    obtain ⟨hab, hst, hended⟩ := exec_resume_ended_onChip
      (s := t.setEnv { t.env with completions := [false, false, false, true] }) hruns hc hdue hv
    refine ⟨t, u, ht, hu, hok, hok', ?_, ?_, ?_, ?_, ?_, ?_, ?_, v, hv, hab, hst, ?_, ?_, ?_⟩
    · exact hpaused.chip ▸ hruns.paused_scur hc
    · exact hpaused.chip ▸ Chip.paused_wip
    · exact hpaused.chip ▸ herase
    · rw [hresumed.chip]; rfl
    · exact hresumed.chip ▸ Chip.resumed_wip hc
    · exact hresumed.chip ▸ herase
    · rw [hresumed.chip]; rfl
    · rw [hended.chip]; rfl
    · exact hended.chip ▸ Chip.ended_wip
    · rw [hended.chip]; rfl
  · obtain ⟨hok, hcfg, hchip, hlen⟩ :=
      exec_noChange_onChip rfl rfl (by decide) hd hscur hwip hon.env ht
    rw [← hcfg] at hscur hwip
    obtain ⟨hok', -, hchip', hlen'⟩ := exec_noChange_onChip rfl rfl (by decide) hd hscur hwip hchip hu
    exact ⟨t, u, ht, hu, hok, hok', hchip'.chip, hlen, hlen'⟩

end Sys2Proof.Machine
end

