-- ==== Sys2Proof/Proofs/Boundary.lean ====
section
/-!
The boundary operations for every answer of the environment (44_boundary_ops.md): GET_GEOMETRY, RESET_CHIP and
DEINIT make planned calls; READ stores the bytes it received, on success alone.
-/

namespace Sys2Proof.Machine

/-! ### GET_GEOMETRY -/

/-- Settles O28: acceptance, and the return at once. -/
theorem getGeometryReturnsOk : Obligations.GetGeometryReturnsOk := by
  intro a n s _
  have hrun : exec (.getGeometry a n) s = .next ((s.accept 0x13 a n).finish .ok) := rfl
  have hkept : Seq.Keeps State.BlockKept (opBody (.getGeometry a n)) := State.blockKept_respects.pure _
  exact ⟨_, hrun, exec_latched rfl hrun, exec_dataKept rfl hkept hrun, rfl, rfl, ⟨rfl, rfl, rfl⟩, rfl⟩

/-! ### The reset of the chip -/

section Reset

variable {s0 : State} {site : List Label} {plan plan' : List (List Label × Call)}

/-- A subroutine whose failure ends the piece with the code the subroutine gave. -/
theorem Seq.FollowsPlan.orReturnCode {m k : Seq StatusCode} {c : Cause} {code : StatusCode}
    (hcode : code ≠ .ok) (hm : m.FollowsPlan s0 site plan (okOr c code))
    (hk : k.FollowsPlan s0 site plan' (okOr c code)) :
    (m.orReturn code k).FollowsPlan s0 site (plan ++ plan') (okOr c code) := by
  refine hm.andThen (okOr_stable _ _) ?_ ?_
  · rintro _ cause ⟨rfl, hcause⟩ v hv
    rw [if_neg hcode]
    exact ⟨rfl, _, rfl, rfl, hv.trans hcause⟩
  · rintro _ cause fs rfl
    exact hk

/-- INITED is written; no call is made of it. -/
theorem Seq.FollowsPlan.writeInited {α : Type} {V : Verdict α} {k : Seq α} {b : Bool}
    (hk : k.FollowsPlan s0 site plan V) :
    (Seq.update (fun t => t.setInited b) k).FollowsPlan s0 site plan V := fun u hu =>
  hk (u.setInited b) ⟨hu.phase, hu.cfg, hu.tmo, hu.req⟩

/-- `DoResetChip` makes three calls, and gives NOT_SUPPORTED where one fails (44_boundary_ops.md R205). -/
theorem doResetChip_followsPlan :
    doResetChip.FollowsPlan s0 site (resetLines s0 site) (okOr .reset .notSupported) := by
  refine .orAbort (.label (execCall_followsPlan .rsten (by simp))) fun _ =>
    .orAbort (.label (execCall_followsPlan .rst (by simp))) fun _ =>
      .andThen (plan' := []) (.label (doPollReady_followsPlan fun _ hu => congrArg Timeouts.dflt hu.tmo))
        (okOr_stable _ _) ?_ ?_
  · rintro _ cause ⟨rfl, -⟩ v -
    exact ⟨rfl, .notSupported, rfl, rfl, rfl⟩
  · rintro _ cause fs rfl
    exact .pure fun _ => rfl

/-- The release of the bus is one line, which cannot fail (44_boundary_ops.md R204; log 28). -/
theorem busRelease_followsPlan :
    busRelease.FollowsPlan s0 site [(site, .busRelease)] ⟨fun _ _ _ => True, fun _ _ => False⟩ :=
  fun u hu => ⟨[⟨u.phase, .busRelease, .ok []⟩], rfl,
    .inl ⟨⟨by rw [← hu.phase]; rfl, rfl⟩, ⟨hu.phase, hu.cfg, hu.tmo, hu.req⟩, trivial⟩⟩

/-- The body of DEINIT (44_boundary_ops.md R209). -/
theorem deinitBody_followsPlan (a n : Word) :
    (opBody (.deinit a n)).FollowsPlan s0 [] (resetLines s0 [.Z1] ++ [([.Z2], .busRelease)])
      (okOr .reset .notSupported) :=
  .writeInited <| .orReturnCode nofun (.label doResetChip_followsPlan) <|
    .andThen (plan' := []) (.label busRelease_followsPlan) (okOr_stable _ _) (fun _ _ h => h.elim)
      fun _ _ _ _ => .pure fun _ => rfl

end Reset

section KnownReset

variable {g g' g'' g₃ : Known} {E E' E'' E₃ : Env → Prop} {rs : List Reply}

/-- `DoResetChip` by its three calls (44_boundary_ops.md R205). -/
theorem doResetChip_leads {b b' b'' : List Byte} (hrsten : (cmd .rsten).Leads g E (.ok b) g' E')
    (hrst : (cmd .rst).Leads g' E' (.ok b') g'' E'')
    (hpoll : (pollCall predReady fun s => s.tmo.dflt).Leads g'' E'' (.ok b'') g₃ E₃) :
    doResetChip.Leads g E .ok g₃ E₃ :=
  hrsten.label.orAbort <| hrst.label.orAbort <|
    (hpoll.label.orAbort (st := .ok) .pure).label.andThen .pure

theorem pollCall_leads_scripted {p : Config → Pred} {tmo : State → Word} {v : Byte}
    (hv : (p g.cfg).sat v = true) :
    (pollCall p tmo).Leads g (Env.scripted (.ok [v] :: rs)) (.ok [v]) g.next (Env.scripted rs) :=
  .look fun u hu => call_leads_scripted fun _ => by
    rw [hu]
    exact waitLoop_singleton hv

theorem Seq.Leads.writeInited {α : Type} {x : α} {b : Bool} {k : Seq α} (hk : k.Leads g E x g' E') :
    (Seq.update (fun t => t.setInited b) k).Leads g E x g' E' := fun u hu =>
  hk (u.setInited b) ⟨hu.cfg, hu.work, hu.cause, hu.calls, hu.env⟩

theorem busRelease_leads : busRelease.Leads g E () g.next E := fun u hu => by
  rw [busRelease_ensures]
  refine ⟨rfl, hu.cfg, hu.work, hu.cause, ?_, hu.env⟩
  rw [State.logCall_trace, List.length_append, hu.calls]
  rfl

/-- DEINIT where the script answers the chip reset OK; the release of the bus takes no entry (log 28). -/
theorem deinitBody_leads_scripted (a n : Word) {v : Byte} (hv : (predReady g.cfg).sat v = true) :
    (opBody (.deinit a n)).Leads g (Env.scripted (.ok [] :: .ok [] :: .ok [v] :: rs)) .ok
      g.next.next.next.next (Env.scripted rs) := by
  have hreset : doResetChip.Leads g (Env.scripted (.ok [] :: .ok [] :: .ok [v] :: rs)) .ok
      g.next.next.next (Env.scripted rs) :=
    doResetChip_leads (execCall_leads_scripted _) (execCall_leads_scripted _)
      (pollCall_leads_scripted hv)
  exact .writeInited <| hreset.label.orReturn <| busRelease_leads.label.andThen .pure

end KnownReset

/-- A script that answers the chip reset OK. -/
theorem resetLines_passes {s : State} {site : List Label} {v : Byte} (hv : (predReady s.cfg).sat v = true) :
    scriptPasses [.ok [], .ok [], .ok [v]] (resetLines s site) :=
  .cons (fun _ => rfl) <| .cons (fun _ => rfl) <| .cons (passes_autoPoll hv) .nil

/-- Settles O29: the plan of `DoResetChip`. -/
theorem resetChipOutcome : Obligations.ResetChipOutcome := by
  intro a n s hp
  obtain ⟨t, ht⟩ := exec_next_of_bufInRange (i := .resetChip a n) (s := s) rfl
  have hkept : Seq.Keeps State.BlockKept (opBody (.resetChip a n)) :=
    State.blockKept_respects.label _ State.blockKept_respects.doResetChip
  have hbody : (opBody (.resetChip a n)).FollowsPlan (s.accept 0x14 a n) [] (resetLines s [.S0])
      (okOr .reset .notSupported) := .label doResetChip_followsPlan
  have hst : s.straight t (resetLines s [.S0]) .reset .notSupported := exec_straight hp rfl ht hbody rfl
  have hans : answeredBy s.env.replies t.trace :=
    exec_answeredBy rfl ht hst.1 (by simp [resetLines, cmdLine, readyLine])
  refine ⟨t, ht, exec_latched rfl ht, exec_dataKept rfl hkept ht, hst,
    fun v hv hs => hst.completed_of_script hans hs (resetLines_passes hv)⟩

/-- An operation that writes one register and then makes calls alone: the data registers are as that write left
them. -/
theorem exec_dataKept_of_update {i : Instr} {op : Byte} {a n : Word} {s t : State} {f : State → State}
    {m : Seq StatusCode} (hop : i.opreq? = some (op, a, n)) (hbody : opBody i = Seq.update f m)
    (hk : Seq.Keeps State.BlockKept m) (h : exec i s = .next t) :
    (f (s.accept op a n)).dataKept t := by
  rw [← exec_operation_eq hop h, hbody]
  exact State.dataKept_finishRun.2 (hk (f (s.accept op a n))).dataKept

/-- Settles O33: the plan of `DoResetChip` and the release, after INITED was written. -/
theorem deinitOutcome : Obligations.DeinitOutcome := by
  intro a n s hp
  obtain ⟨t, ht⟩ := exec_next_of_bufInRange (i := .deinit a n) (s := s) rfl
  have H := State.blockKept_respects
  obtain ⟨hinited, hwork, hscratch, hbuf⟩ := exec_dataKept_of_update (i := .deinit a n)
    (f := fun t => t.setInited false) rfl rfl
    (H.orReturn (H.label _ H.doResetChip) (H.andThen (H.label _ H.busRelease) fun _ => H.pure _)) ht
  refine ⟨t, ht, exec_latched rfl ht, hinited, hwork, hscratch, hbuf,
    exec_straight (op := 0x12) (a := a) (n := n) hp rfl ht (deinitBody_followsPlan a n) rfl,
    fun v hv hs => ?_⟩
  obtain ⟨hret, hmeets⟩ := exec_of_leads rfl ht
    (deinitBody_leads_scripted (g := s.known) (rs := []) a n hv) hs
  exact ⟨hret, hmeets.cause⟩

/-! ### READ -/

section Read

variable {s t u v : State} {a n : Word}

theorem BufStore.wf_apply {c : Config} {m : Memory} (b : BufStore) (h : Memory.wf bufBackground m = true) :
    Memory.wf bufBackground (b.apply c m) = true := Memory.wf_writeBytes h

theorem wf_applyStores {c : Config} {m : Memory} {bs : List BufStore}
    (h : Memory.wf bufBackground m = true) : Memory.wf bufBackground (applyStores c m bs) = true :=
  List.foldlRecOn (motive := fun m => Memory.wf bufBackground m = true) bs _ h
    fun _ hm b _ => b.wf_apply hm

/-- The host's stores keep the canonical form, whether or not BUF lies inside its size. -/
theorem State.wf_bufAfter (h : Memory.wf bufBackground s.buf = true) (k : Nat) :
    Memory.wf bufBackground (s.bufAfter k) = true :=
  List.foldlRecOn (motive := fun m => Memory.wf bufBackground m = true) _ _ h
    fun _ hm _ _ => wf_applyStores hm

/-- How READ ends: after two calls with the bytes it received in BUF, or with no byte of BUF written
(44_boundary_ops.md R201). -/
def State.EndsRead (u : State) (n : Word) (r : Option StatusCode) (v : State) : Prop :=
  (r = some .ok ∧ v.trace.length = u.trace.length + 2 ∧ ∃ b w,
      v.trace.getLast?.map Event.ans = some (.ok b) ∧ b.length = n.toNat ∧ u.BlockKept w ∧
        v = w.storeBuf 0 b) ∨
    r ≠ some .ok ∧ u.BlockKept v

/-- One call at a label, by whether it is answered OK. -/
theorem label_call_orAbort_ensures {l : Label} {c : Call} {cause : Cause} {code : StatusCode}
    {k : List Byte → Seq StatusCode} {Q : Option StatusCode → State → Prop} (hcode : code ≠ .ok)
    (hok : ∀ b, u.answer c = .ok b → (k b).Ensures (u.asked l c) Q)
    (hcut : ∀ r v, r ≠ some .ok → u.BlockKept v → Q r v) :
    ((Seq.label l (call c)).orAbort cause code k).Ensures u Q := by
  rw [Seq.orAbort_ensures, Seq.Ensures, label_call_eq]
  cases h : u.answer c with
  | ok b => exact hok b h
  | fail =>
    have H := State.blockKept_respects
    exact hcut _ _ (fun he => hcode (Option.some.inj he)) (H.trans State.asked_blockKept (H.cause _ _))
  | never => exact hcut _ _ nofun State.asked_blockKept

/-- The body of READ, by its two calls. -/
theorem readBody_ensures (a n : Word) (u : State) : (opBody (.read a n)).Ensures u (u.EndsRead n) := by
  have H := State.blockKept_respects
  refine label_call_orAbort_ensures (c := .exec (.qread a n) u.tmo.dflt) nofun (fun _ hexec => ?_)
    fun r v hr hv => .inr ⟨hr, hv⟩
  have hfirst : u.BlockKept (u.asked .L0 (.exec (.qread a n) u.tmo.dflt)) := State.asked_blockKept
  refine label_call_orAbort_ensures (c := .rx n u.tmo.dflt) nofun (fun b hrx => ?_)
    fun r v hr hv => .inr ⟨hr, H.trans hfirst hv⟩
  rw [Seq.update_ensures, Seq.pure_ensures]
  refine .inl ⟨rfl, by simp, b, _, ?_, State.answer_rx_length hrx, H.trans hfirst State.asked_blockKept, rfl⟩
  simp [hrx]

/-- What READ leaves in BUF, by whether it returned OK. -/
theorem exec_read_buf (hwf : Memory.wf bufBackground s.buf = true) (h : exec (.read a n) s = .next t) :
    (t.inited = s.inited ∧ t.work = s.work ∧ t.scratch = s.scratch) ∧
      ((t.status = .ok ∧ t.done = true ∧ t.trace.length = 2 ∧ ∀ x, t.bufByte x =
          if x < n.toNat then t.answerByte 1 x
          else Memory.read bufBackground (s.bufAfter (t.env.calls - s.env.calls)) x) ∨
        ¬(t.status = .ok ∧ t.done = true) ∧ s.bufKept t) := by
  have hrun := readBody_ensures a n (s.accept 0x10 a n)
  rw [← exec_operation_eq rfl h]
  unfold Seq.Ensures at hrun
  generalize opBody (.read a n) (s.accept 0x10 a n) = run at hrun ⊢
  obtain ⟨r, v⟩ := run
  rcases hrun with ⟨rfl, hlen, b, w, hlast, hb, hw, rfl⟩ | ⟨hr, hkept⟩
  · have hlen : w.trace.length = 2 := hlen
    refine ⟨⟨hw.inited, hw.work, hw.scratch⟩, .inl ⟨rfl, rfl, hlen, fun x => ?_⟩⟩
    have hbuf : w.buf = s.bufAfter (w.env.calls - s.env.calls) := hw.buf
    have hbyte := State.answerByte_of_getLast? (t := w) hlast hlen x
    change Memory.read _ (Memory.writeBytes bufBackground w.buf 0 b) x = _
    rw [Memory.read_writeBytes (hbuf ▸ State.wf_bufAfter hwf _), hb, hbuf, Nat.sub_zero, ← hbyte]
    simp only [Nat.zero_le, true_and, Nat.zero_add]
    rfl
  · obtain ⟨hinited, hwork, hscratch, hbuf⟩ :=
      State.dataKept_finishRun (r := (r, v)).2 hkept.dataKept
    refine ⟨⟨hinited, hwork, hscratch⟩, .inr ⟨?_, hbuf⟩⟩
    rintro ⟨hst, hdone⟩
    cases r with
    | none => exact Bool.false_ne_true (hkept.done.symm.trans hdone)
    | some code => exact hr (congrArg some hst)

/-- The body of READ makes two calls. -/
theorem readBody_followsPlan {s0 : State} (a n : Word) :
    (opBody (.read a n)).FollowsPlan s0 []
      [([.L0], .exec (.qread a n) s0.tmo.dflt), ([.L1], .rx n s0.tmo.dflt)] (okOr .bus .error) :=
  .orAbort (.label (execCall_followsPlan _ (by simp))) fun _ =>
    .orAbort (plan' := []) (.label (rxCall_followsPlan _ (by simp))) fun b u hu =>
      Seq.FollowsPlan.pure (V := okOr .bus .error) (fun _ => rfl) (u.storeBuf 0 b)
        ⟨hu.phase, hu.cfg, hu.tmo, hu.req⟩

/-- Settles O27: two calls planned, and what the second received is stored. -/
theorem readOutcome : Obligations.ReadOutcome := by
  intro a n s hp hwf hin
  obtain ⟨t, ht⟩ := exec_next_of_bufInRange (i := .read a n) (s := s)
    (decide_eq_true (by simpa using hin))
  have hst := exec_straight (op := 0x10) (a := a) (n := n) hp rfl ht (readBody_followsPlan a n) rfl
  obtain ⟨⟨hinited, hwork, hscratch⟩, hbuf⟩ := exec_read_buf hwf ht
  refine ⟨t, ht, exec_latched rfl ht, hinited, hwork, hscratch, hst, fun x => ?_, fun bytes hlen hs => ?_⟩
  · rcases hbuf with ⟨hok, hdone, -, hbytes⟩ | ⟨hno, hkept, -⟩
    · simp only [hbytes x, hok, hdone, true_and]
    · rw [if_neg fun ⟨hok, hdone, _⟩ => hno ⟨hok, hdone⟩, hkept x]
  · have hans : answeredBy s.env.replies t.trace := exec_answeredBy rfl ht hst.1 (by simp)
    have hdone : t.completed .ok := hst.completed_of_script hans hs <| .cons (fun _ => rfl) <|
      .cons (fun _ => rfl) .nil
    refine ⟨hdone, fun j hj => ?_⟩
    obtain ⟨⟨-, hok, hpulse⟩, -⟩ := hdone
    rcases hbuf with ⟨-, -, hcalls, hbytes⟩ | ⟨hno, -⟩
    · have hread : answerAt t.trace 1 = .ok bytes :=
        hs.rxBytes hans hst.1 rfl hlen rfl (by omega)
      rw [hbytes j, if_pos hj]
      exact byteAt_of_ok hread j
    · exact absurd ⟨hok, hpulse⟩ hno

end Read

end Sys2Proof.Machine
end

