-- ==== Sys2Proof/Proofs/Init.lean ====
section
/-!
INIT (44_boundary_ops.md R207). Its run is followed from part to part: the two events, the chip reset, and the two
mode sequences of 42_mode_config.md. Where it ended says which calls were made, the code and its cause; the lines
written say what was read and so what the scratch bytes hold.
-/

namespace Sys2Proof.Machine

/-! ### Answers in lines put together -/

section Append

variable {fs gs : List Event} {j k : Nat}

theorem answerAt_append_left (h : k < fs.length) : answerAt (fs ++ gs) k = answerAt fs k := by
  rw [answerAt, List.map_append, List.getD_append _ _ _ _ (by simpa using h)]
  rfl

theorem answerAt_append_right (h : fs.length = j) (k : Nat) :
    answerAt (fs ++ gs) (j + k) = answerAt gs k := by
  subst h
  rw [answerAt, List.map_append, List.getD_append_right _ _ _ _ (by simp)]
  simp [answerAt]

theorem answerAt_of_length_le (h : fs.length ≤ k) : answerAt fs k = .fail :=
  List.getD_eq_default _ _ (by simpa using h)

end Append

/-! ### Parts of a sequence -/

/-- The verdict of a part that is only followed where it fails. -/
def cutVerdict (c : Cause) (code : StatusCode) : Verdict StatusCode where
  good _ _ _ := False
  bad st cause := st = code ∧ cause = some c

/-- A sequence begun in `u` ended by a call of `plan` after the first `k`, as the verdict says; of the registers
it wrote the scratch bytes alone, which are `x`. -/
structure State.Stopped (s0 u : State) (k : Nat) (plan : List (List Label × Call)) (V : Verdict StatusCode)
    (x : Scratch) (fs : List Event) (r : Option StatusCode) (v : State) : Prop where
  /-- The lines written. -/
  trace : v.trace = u.trace ++ fs
  /-- How many. -/
  later : k < fs.length
  /-- The calls, and the result. -/
  ends : s0.EndsPlan [] plan V fs r v
  /-- The result is not OK. -/
  failed : r ≠ some .ok
  /-- The registers. -/
  kept : (u.setScratch x).BlockKept v

section Parts

variable {α : Type} {s0 u v : State} {site : List Label} {plan plan' : List (List Label × Call)}
  {x : Scratch} {fs : List Event} {r : Option StatusCode} {c : Cause} {code : StatusCode}
  {Q : Option StatusCode → State → Prop}

/-- A piece with calls to make has written a line when it ends. -/
theorem State.EndsPlan.ne_nil {V : Verdict α} {o : Option α} (h : s0.EndsPlan site plan V fs o v)
    (hplan : plan ≠ []) : fs ≠ [] := by
  cases o with
  | none => exact h.1.ne_nil
  | some y =>
    rcases h with ⟨hmade, -⟩ | ⟨hcut, -⟩
    · rintro rfl
      exact hplan hmade.lines.symm
    · exact hcut.ne_nil

/-- A piece that returns OK or a code, where it did not return OK: a call failed, or was never answered. -/
theorem State.EndsPlan.of_ne_ok {V : Verdict StatusCode} (h : s0.EndsPlan site plan (okOr c code) fs r v)
    (hr : r ≠ some .ok) (hV : V.bad code (some c)) : s0.EndsPlan site plan V fs r v := by
  cases r with
  | none => exact h
  | some st =>
    rcases h with ⟨-, -, hst⟩ | ⟨hcut, rfl, hcause⟩
    · exact absurd (congrArg some hst) hr
    · exact .inr ⟨hcut, hcause ▸ hV⟩

theorem cutVerdict_stable : (cutVerdict c code).Stable := fun _ _ _ _ => id

theorem verifyFailed_stable (verified : Prop) : (verifyFailed verified).Stable := fun _ _ _ _ => id

theorem call_callStep (c : Call) (hsite : site ≠ []) :
    (call c).CallStep s0 site [(site, c)] lastAnswer :=
  ⟨call_followsPlan hsite, State.blockKept_respects.anyCall c⟩

theorem doResetChip_callStep :
    doResetChip.CallStep s0 site (resetLines s0 site) (okOr .reset .notSupported) :=
  ⟨doResetChip_followsPlan, State.blockKept_respects.doResetChip⟩

/-- The block is kept also where the same is written to INITED. -/
theorem State.BlockKept.setInited (h : u.BlockKept v) (b : Bool) :
    (u.setInited b).BlockKept (v.setInited b) :=
  ⟨h.cfg, h.status, rfl, h.done, h.req, h.work, h.scratch, h.tmo, h.calls, h.buf, h.stores, h.host⟩

/-- A sequence that stopped in a part of it, after the calls made before. -/
theorem State.Reached.stopped {V : Verdict StatusCode} {y : Scratch} {gs : List Event} {w : State}
    (hv : s0.Reached u [] plan x fs v) (hV : V.Stable) (hplan : plan' ≠ []) (htrace : w.trace = v.trace ++ gs)
    (hend : s0.EndsPlan [] plan' V gs r w) (hr : r ≠ some .ok) (hkept : (u.setScratch y).BlockKept w) :
    s0.Stopped u plan.length (plan ++ plan') V y (fs ++ gs) r w where
  trace := by rw [htrace, hv.trace, List.append_assoc]
  later := by
    rw [List.length_append, hv.made.length]
    exact Nat.lt_add_of_pos_right (List.length_pos_iff.2 (hend.ne_nil hplan))
  ends := hend.after hV hv.made
  failed := hr
  kept := hkept

/-- A part that is one call: after an answer OK the sequence goes on. -/
theorem Seq.CallStep.orAbort_stopped {m : Seq Answer} {k : List Byte → Seq StatusCode} (hcode : code ≠ .ok)
    (hplan : plan' ≠ []) (hm : m.CallStep s0 [] plan' lastAnswer) (hv : s0.Reached u [] plan x fs v)
    (hcut : ∀ gs r w, s0.Stopped u plan.length (plan ++ plan') (cutVerdict c code) x gs r w → Q r w)
    (hk : ∀ b gs w, s0.Reached u [] (plan ++ plan') x gs w → (k b).Ensures w Q) :
    (m.orAbort c code k).Ensures v Q := by
  have H := State.blockKept_respects
  obtain ⟨gs, htrace, hend⟩ := hm.follows v hv.atSite
  have hkept := H.trans hv.kept (hm.kept v)
  rw [Seq.orAbort_ensures, Seq.Ensures]
  generalize m v = run at htrace hend hkept
  obtain ⟨o, w⟩ := run
  rcases o with _ | b | _ | _
  · exact hcut _ _ w (hv.stopped cutVerdict_stable hplan htrace hend nofun hkept)
  · rcases hend with ⟨hmade, hat, -⟩ | ⟨-, hb⟩
    · exact hk b (fs ++ gs) w
        ⟨by rw [htrace, hv.trace, List.append_assoc], hv.made.append hmade, hat, hkept⟩
    · cases hb
  · rcases hend with ⟨-, -, hok, -⟩ | ⟨hbroken, -⟩
    · cases hok
    · exact hcut _ _ (w.setCause (some c)) (hv.stopped cutVerdict_stable hplan htrace
        (.inr ⟨hbroken, rfl, rfl⟩) (fun h => hcode (Option.some.inj h)) (H.trans hkept (H.cause w _)))
  · rcases hend with ⟨-, -, hok, -⟩ | ⟨-, hfail⟩
    · cases hok
    · cases hfail

/-- A part that is a subroutine: after OK the sequence goes on, and else it returns the subroutine's code. -/
theorem Seq.CallStep.orReturn_stopped {m k : Seq StatusCode} (hcode : code ≠ .ok) (hplan : plan' ≠ [])
    (hm : m.CallStep s0 [] plan' (okOr c code)) (hv : s0.Reached u [] plan x fs v)
    (hcut : ∀ gs r w, s0.Stopped u plan.length (plan ++ plan') (cutVerdict c code) x gs r w → Q r w)
    (hk : ∀ gs w, s0.Reached u [] (plan ++ plan') x gs w → k.Ensures w Q) :
    (m.orReturn code k).Ensures v Q := by
  obtain ⟨gs, htrace, hend⟩ := hm.follows v hv.atSite
  have hkept := State.blockKept_respects.trans hv.kept (hm.kept v)
  rw [Seq.orReturn_ensures, Seq.Ensures]
  generalize m v = run at htrace hend hkept
  obtain ⟨_ | st, w⟩ := run
  · exact hcut _ _ w (hv.stopped cutVerdict_stable hplan htrace hend nofun hkept)
  · rcases hend with ⟨hmade, hat, hok⟩ | ⟨hbroken, hst, hcause⟩
    · obtain rfl : st = .ok := hok
      exact hk (fs ++ gs) w
        ⟨by rw [htrace, hv.trace, List.append_assoc], hv.made.append hmade, hat, hkept⟩
    · obtain rfl : st = code := hst
      dsimp only
      rw [if_neg hcode]
      exact hcut _ _ w (hv.stopped cutVerdict_stable hplan htrace (.inr ⟨hbroken, rfl, hcause⟩)
        (fun h => hcode (Option.some.inj h)) hkept)

/-- A part that is a mode sequence: after OK the sequence goes on, and else it returns ERROR, which is what the
mode sequence returned. -/
theorem Seq.RunsMode.orReturn {M : Scratch → ModePlan} {m k : Seq StatusCode} (hm : m.RunsMode s0 site M)
    (hv : s0.AtSite site v)
    (hcut : ∀ gs r w, r ≠ some .ok → s0.EndsMode v site (M v.scratch) gs r w → Q r w)
    (hk : ∀ gs w, s0.EndsMode v site (M v.scratch) gs (some .ok) w → k.Ensures w Q) :
    (m.orReturn .error k).Ensures v Q := by
  refine (Seq.orReturn_ensures _ _ _).2 ((hm v hv).imp ?_)
  rintro (_ | st) w ⟨gs, hend⟩
  · exact hcut gs _ w nofun hend
  · by_cases hst : st = .ok
    · subst hst
      exact hk gs w hend
    · obtain rfl : st = .error := by
        rcases hend.ends with (⟨-, -, -, h, -⟩ | ⟨-, h, -⟩) | ⟨-, ⟨-, -, h⟩ | ⟨-, h, -⟩⟩
        · exact h
        · exact h
        · exact absurd h hst
        · exact h
      exact hcut gs _ w (fun h => hst (Option.some.inj h)) hend

/-- A mode sequence that returned OK made all its calls, and its verify passed. -/
theorem State.EndsMode.of_ok {M : ModePlan} (h : s0.EndsMode u site M fs (some .ok) v) :
    M.verified fs ∧ Made (M.whole fs) fs ∧ s0.AtSite site v := by
  rcases h.ends with (⟨-, -, -, hst, -⟩ | ⟨-, hst, -⟩) | ⟨hver, ⟨hmade, hat, -⟩ | ⟨-, hst, -⟩⟩
  · cases hst
  · cases hst
  · exact ⟨hver, hmade, hat⟩
  · cases hst

/-- The registers after a part that is a mode sequence. -/
theorem State.Reached.kept_endsMode {M : ModePlan} {gs : List Event} {w : State}
    (hv : s0.Reached u site plan x fs v) (h : s0.EndsMode v site M gs r w) :
    (u.setScratch (M.scratch gs)).BlockKept w :=
  State.blockKept_respects.trans (hv.kept.setScratch _) h.kept

/-- The calls made after a mode sequence that returned OK. -/
theorem State.Reached.after_mode {M : ModePlan} {gs : List Event} {w : State}
    (hv : s0.Reached u site plan x fs v) (h : s0.EndsMode v site M gs (some .ok) w) :
    s0.Reached u site (plan ++ M.whole gs) (M.scratch gs) (fs ++ gs) w := by
  obtain ⟨-, hmade, hat⟩ := h.of_ok
  exact ⟨by rw [h.trace, hv.trace, List.append_assoc], hv.made.append hmade, hat, hv.kept_endsMode h⟩

/-- A sequence that stopped in a part that is a mode sequence: up to its verify, or after the verify passed. -/
theorem State.Reached.stopped_mode {M : ModePlan} {gs : List Event} {w : State}
    (hv : s0.Reached u [] plan x fs v) (h : s0.EndsMode v [] M gs r w) (hr : r ≠ some .ok)
    (hverify : M.toVerify gs ≠ []) (hwhole : M.whole gs ≠ []) :
    s0.Stopped u plan.length (plan ++ M.toVerify gs) (verifyFailed (M.verified gs)) (M.scratch gs)
        (fs ++ gs) r w ∨
      M.verified gs ∧ s0.Stopped u plan.length (plan ++ M.whole gs) (okOr .bus .error) (M.scratch gs)
        (fs ++ gs) r w :=
  h.ends.imp
    (fun hend => hv.stopped (verifyFailed_stable _) hverify h.trace hend hr (hv.kept_endsMode h))
    (And.imp_right fun hend => hv.stopped (okOr_stable _ _) hwhole h.trace hend hr (hv.kept_endsMode h))

/-- The calls made are the first of the plan. -/
theorem State.Stopped.length_le {u v : State} {k : Nat} {V : Verdict StatusCode}
    (h : s0.Stopped u k plan V x fs r v) : fs.length ≤ plan.length := by
  simpa using h.ends.lines.length_le

end Parts

/-! ### How INIT ends -/

/-- The calls of INIT, by the lines it has written. -/
def initPlan (s0 : State) (fs : List Event) : List (List Label × Call) :=
  initLines s0 (byteAt fs 6 0) (byteAt fs 15 0) (byteAt fs 17 0) (byteAt fs 17 1)

/-- The calls of INIT before its mode sequences (44_boundary_ops.md R207, steps I1 to I3). -/
def initHead (s0 : State) : List (List Label × Call) :=
  [([.I1], .pinBind), ([.I2], .busInit)] ++ resetLines s0 [.I3]

/-- The scratch bytes INIT leaves, by the lines it has written: what it read and changed, as far as it came. -/
def initScratch (c : Config) (x : Scratch) (fs : List Event) : Scratch where
  rb0 := if (answerAt fs 15).isOk then byteAt fs 15 0
    else if (answerAt fs 6).isOk then byteAt fs 6 0 ||| c.mQe else x.rb0
  rb1 := if (answerAt fs 17).isOk then byteAt fs 17 0 else x.rb1
  rb2 := if (answerAt fs 17).isOk then byteAt fs 17 1 ||| c.mLh else x.rb2
  vb0 := if (answerAt fs 24).isOk then byteAt fs 24 0
    else if (answerAt fs 13).isOk then byteAt fs 13 0 else x.vb0
  vb1 := if (answerAt fs 24).isOk then byteAt fs 24 1 else x.vb1

/-- The verify of quad mode passes. -/
def quadVerified (c : Config) (fs : List Event) : Prop := anySet (byteAt fs 13 0) c.mQe = true

/-- The verify of high-performance mode passes. -/
def hpVerified (c : Config) (fs : List Event) : Prop := anySet (byteAt fs 24 1) c.mLh = true

/-- Where INIT ended, having written the lines `fs`: at one of its five parts, or with all calls made. -/
inductive State.InitEnds (s0 : State) (fs : List Event) (r : Option StatusCode) (v : State) : Prop
  | bind (hlen : 0 < fs.length)
      (h : s0.EndsPlan [] ((initPlan s0 fs).take 1) (cutVerdict .bind .error) fs r v)
  | bus (hlen : 1 < fs.length)
      (h : s0.EndsPlan [] ((initPlan s0 fs).take 2) (cutVerdict .bus .error) fs r v)
  | reset (hlen : 2 < fs.length)
      (h : s0.EndsPlan [] ((initPlan s0 fs).take 5) (cutVerdict .reset .notSupported) fs r v)
  | quad (hlen : 5 < fs.length)
      (h : s0.EndsPlan [] ((initPlan s0 fs).take 14) (verifyFailed (quadVerified s0.cfg fs)) fs r v)
  | hp (hlen : 14 < fs.length) (hquad : quadVerified s0.cfg fs)
      (h : s0.EndsPlan [] ((initPlan s0 fs).take 25) (verifyFailed (hpVerified s0.cfg fs)) fs r v)
  | whole (hlen : 14 < fs.length) (hquad : quadVerified s0.cfg fs) (hhp : hpVerified s0.cfg fs)
      (h : s0.EndsPlan [] (initPlan s0 fs) (okOr .bus .error) fs r v)

/-- How INIT, accepted in `u`, ends: INITED is set by OK alone. -/
structure State.EndsInit (s0 u : State) (fs : List Event) (r : Option StatusCode) (v : State) : Prop where
  /-- The lines written. -/
  trace : v.trace = u.trace ++ fs
  /-- The calls, and the result. -/
  ends : s0.InitEnds fs r v
  /-- The registers. -/
  kept : ((u.setInited (decide (r = some .ok))).setScratch (initScratch s0.cfg u.scratch fs)).BlockKept v

section Init

variable {s0 u v w : State} {x : Scratch} {fs gs hs : List Event} {r : Option StatusCode}
  {k : Nat} {plan : List (List Label × Call)} {V : Verdict StatusCode}

theorem State.Stopped.endsInit (h : s0.Stopped (u.setInited false) k plan V x fs r v)
    (hx : initScratch s0.cfg u.scratch fs = x) (hends : s0.InitEnds fs r v) : s0.EndsInit u fs r v := by
  refine ⟨h.trace, hends, ?_⟩
  rw [hx, decide_eq_false h.failed]
  exact h.kept

/-- Before quad mode no scratch byte is written. -/
theorem initScratch_of_length_le {c : Config} (h : fs.length ≤ 5) : initScratch c x fs = x := by
  have hfail : ∀ k, 5 ≤ k → (answerAt fs k).isOk = false := fun k hk => by
    rw [answerAt_of_length_le (h.trans hk)]
    rfl
  simp [initScratch, hfail]

/-- In quad mode the scratch bytes are those of that sequence. -/
theorem initScratch_quad (hfs : fs.length = 5) (hgs : gs.length ≤ 9) :
    initScratch s0.cfg x (fs ++ gs) = (quadPlan s0 [.I4] true x).scratch gs := by
  have hread : answerAt (fs ++ gs) 6 = answerAt gs 1 := answerAt_append_right hfs 1
  have hverify : answerAt (fs ++ gs) 13 = answerAt gs 8 := answerAt_append_right hfs 8
  have hfail : ∀ k, 14 ≤ k → (answerAt (fs ++ gs) k).isOk = false := fun k hk => by
    rw [answerAt_of_length_le (by rw [List.length_append]; omega)]
    rfl
  simp [initScratch, quadPlan, byteAt, hread, hverify, hfail, putBit]

/-- The answers INIT decides by, in the lines of its two mode sequences. -/
theorem initAnswers (hfs : fs.length = 5) (hgs : gs.length = 9) :
    answerAt (fs ++ gs ++ hs) 6 = answerAt gs 1 ∧ answerAt (fs ++ gs ++ hs) 13 = answerAt gs 8 ∧
      answerAt (fs ++ gs ++ hs) 15 = answerAt hs 1 ∧ answerAt (fs ++ gs ++ hs) 17 = answerAt hs 3 ∧
      answerAt (fs ++ gs ++ hs) 24 = answerAt hs 10 := by
  have hlen : (fs ++ gs).length = 14 := by rw [List.length_append, hfs, hgs]
  exact ⟨(answerAt_append_left (by omega)).trans (answerAt_append_right hfs 1),
    (answerAt_append_left (by omega)).trans (answerAt_append_right hfs 8), answerAt_append_right hlen 1,
    answerAt_append_right hlen 3, answerAt_append_right hlen 10⟩

/-- In high-performance mode they are those of that sequence, begun with those of quad mode. -/
theorem initScratch_hp (hfs : fs.length = 5) (hgs : gs.length = 9) :
    initScratch s0.cfg x (fs ++ gs ++ hs) =
      (hpPlan s0 [.I5] true ((quadPlan s0 [.I4] true x).scratch gs)).scratch hs := by
  obtain ⟨hread, hverify, hsr, hcr, hvb⟩ := initAnswers (hs := hs) hfs hgs
  generalize fs ++ gs ++ hs = es at hread hverify hsr hcr hvb
  simp [initScratch, hpPlan, quadPlan, byteAt, hread, hverify, hsr, hcr, hvb, putBit]

/-- The calls of INIT up to the verify of quad mode, by the lines of that sequence. -/
theorem initPlan_take_quad (hfs : fs.length = 5) :
    (initPlan s0 (fs ++ gs)).take 14 =
      initHead s0 ++ (quadPlan s0 [.I4] true x).whole gs := by
  have hread : answerAt (fs ++ gs) 6 = answerAt gs 1 := answerAt_append_right hfs 1
  rw [initPlan, byteAt, hread]
  rfl

/-- The calls of INIT, by the lines of its two mode sequences. -/
theorem initPlan_hp {y : Scratch} (hfs : fs.length = 5) (hgs : gs.length = 9) :
    initPlan s0 (fs ++ gs ++ hs) =
        initHead s0 ++ (quadPlan s0 [.I4] true x).whole gs ++ (hpPlan s0 [.I5] true y).whole hs ∧
      (initPlan s0 (fs ++ gs ++ hs)).take 25 =
        initHead s0 ++ (quadPlan s0 [.I4] true x).whole gs ++ (hpPlan s0 [.I5] true y).toVerify hs := by
  obtain ⟨hread, -, hsr, hcr, -⟩ := initAnswers (hs := hs) hfs hgs
  generalize fs ++ gs ++ hs = es at hread hsr hcr
  simp only [initPlan, byteAt, hread, hsr, hcr]
  exact ⟨rfl, rfl⟩

/-- INIT that stopped in quad mode. -/
theorem State.Reached.endsInit_quad (hv : s0.Reached (u.setInited false) [] (initHead s0) u.scratch fs v)
    (hend : s0.EndsMode v [] (quadPlan s0 [.I4] true u.scratch) gs r w) (hr : r ≠ some .ok) :
    s0.EndsInit u (fs ++ gs) r w := by
  have hfs : fs.length = 5 := hv.made.length
  have hverified : quadVerified s0.cfg (fs ++ gs) = (quadPlan s0 [.I4] true u.scratch).verified gs := by
    rw [quadVerified, byteAt, answerAt_append_right (k := 8) hfs]
    rfl
  have hstop : s0.Stopped (u.setInited false) 5 ((initPlan s0 (fs ++ gs)).take 14)
      (verifyFailed (quadVerified s0.cfg (fs ++ gs))) ((quadPlan s0 [.I4] true u.scratch).scratch gs)
      (fs ++ gs) r w := by
    rw [initPlan_take_quad (x := u.scratch) hfs, hverified]
    rcases hv.stopped_mode hend hr nofun nofun with h | ⟨-, h⟩
    · exact h
    · exact ⟨h.trace, h.later, h.ends.of_ne_ok hr ⟨rfl, rfl⟩, hr, h.kept⟩
  have hgs : gs.length ≤ 9 := by
    have hle : (fs ++ gs).length ≤ 14 := hstop.length_le
    rw [List.length_append] at hle
    omega
  exact hstop.endsInit (initScratch_quad hfs hgs) (.quad hstop.later hstop.ends)

/-- The two verifies, by the lines of the two mode sequences. -/
theorem initVerified_eq {y : Scratch} (hfs : fs.length = 5) (hgs : gs.length = 9) :
    quadVerified s0.cfg (fs ++ gs ++ hs) = (quadPlan s0 [.I4] true x).verified gs ∧
      hpVerified s0.cfg (fs ++ gs ++ hs) = (hpPlan s0 [.I5] true y).verified hs := by
  obtain ⟨-, hverify, -, -, hvb⟩ := initAnswers (hs := hs) hfs hgs
  rw [quadVerified, hpVerified, byteAt, byteAt, hverify, hvb]
  exact ⟨rfl, rfl⟩

/-- INIT that stopped in high-performance mode, after quad mode. -/
theorem State.Reached.endsInit_hp (hfs : fs.length = 5) (hgs : gs.length = 9)
    (hquad : (quadPlan s0 [.I4] true u.scratch).verified gs)
    (hv : s0.Reached (u.setInited false) [] (initHead s0 ++ (quadPlan s0 [.I4] true u.scratch).whole gs)
      ((quadPlan s0 [.I4] true u.scratch).scratch gs) (fs ++ gs) v)
    (hend : s0.EndsMode v []
      (hpPlan s0 [.I5] true ((quadPlan s0 [.I4] true u.scratch).scratch gs)) hs r w)
    (hr : r ≠ some .ok) : s0.EndsInit u (fs ++ gs ++ hs) r w := by
  obtain ⟨hwhole, hverify⟩ := initPlan_hp (s0 := s0) (x := u.scratch)
    (y := (quadPlan s0 [.I4] true u.scratch).scratch gs) (hs := hs) hfs hgs
  obtain ⟨hq, hh⟩ := initVerified_eq (s0 := s0) (x := u.scratch)
    (y := (quadPlan s0 [.I4] true u.scratch).scratch gs) (hs := hs) hfs hgs
  rw [← hq] at hquad
  rcases hv.stopped_mode hend hr nofun nofun with h | ⟨hhp, h⟩
  · refine h.endsInit (initScratch_hp hfs hgs) (.hp h.later hquad ?_)
    rw [hverify, hh]
    exact h.ends
  · refine h.endsInit (initScratch_hp hfs hgs) (.whole h.later hquad (hh ▸ hhp) ?_)
    rw [hwhole]
    exact h.ends

/-- INIT that made all its calls: INITED is set. -/
theorem State.Reached.endsInit_whole (hfs : fs.length = 5) (hgs : gs.length = 9)
    (hquad : (quadPlan s0 [.I4] true u.scratch).verified gs)
    (hv : s0.Reached (u.setInited false) [] (initHead s0 ++ (quadPlan s0 [.I4] true u.scratch).whole gs)
      ((quadPlan s0 [.I4] true u.scratch).scratch gs) (fs ++ gs) v)
    (hend : s0.EndsMode v []
      (hpPlan s0 [.I5] true ((quadPlan s0 [.I4] true u.scratch).scratch gs)) hs (some .ok) w) :
    s0.EndsInit u (fs ++ gs ++ hs) (some .ok) (w.setInited true) := by
  obtain ⟨hwhole, -⟩ := initPlan_hp (s0 := s0) (x := u.scratch)
    (y := (quadPlan s0 [.I4] true u.scratch).scratch gs) (hs := hs) hfs hgs
  obtain ⟨hq, hh⟩ := initVerified_eq (s0 := s0) (x := u.scratch)
    (y := (quadPlan s0 [.I4] true u.scratch).scratch gs) (hs := hs) hfs hgs
  have hdone := hv.after_mode hend
  obtain ⟨hhp, -⟩ := hend.of_ok
  have hlen : (fs ++ gs ++ hs).length = 27 := hdone.made.length
  refine ⟨hdone.trace, .whole (by omega) (hq ▸ hquad) (hh ▸ hhp) ?_, ?_⟩
  · rw [hwhole]
    exact .inl ⟨hdone.made, ⟨hdone.atSite.phase, hdone.atSite.cfg, hdone.atSite.tmo, hdone.atSite.req⟩, rfl⟩
  · rw [initScratch_hp hfs hgs]
    exact hdone.kept.setInited true

/-- The run of INIT, from part to part (44_boundary_ops.md R207). -/
theorem doInit_ensures (hu : s0.AtSite [] u) :
    doInit.Ensures u fun r v => ∃ fs, s0.EndsInit u fs r v := by
  have hstart : s0.AtSite [] (u.setInited false) := ⟨hu.phase, hu.cfg, hu.tmo, hu.req⟩
  rw [doInit, Seq.update_ensures]
  refine (call_callStep .pinBind (by simp)).label.orAbort_stopped
    (plan' := [([.I1], .pinBind)]) nofun nofun (.start hstart)
    (fun fs r w h => ⟨fs, h.endsInit (initScratch_of_length_le ?_) (.bind h.later h.ends)⟩)
    fun _ fs v hv => ?_
  · exact h.length_le.trans (by decide)
  refine (call_callStep .busInit (by simp)).label.orAbort_stopped
    (plan' := [([.I2], .busInit)]) nofun nofun hv
    (fun gs r w h => ⟨gs, h.endsInit (initScratch_of_length_le ?_) (.bus h.later h.ends)⟩)
    fun _ gs w hw => ?_
  · exact h.length_le.trans (by decide)
  refine doResetChip_callStep.label.orReturn_stopped (plan' := resetLines s0 [.I3]) nofun nofun hw
    (fun fs r v h => ⟨fs, h.endsInit (initScratch_of_length_le ?_) (.reset h.later h.ends)⟩)
    fun fs v hv => ?_
  · exact h.length_le
  have hfs : fs.length = 5 := hv.made.length
  refine (doQuadMode_runsMode true).label.orReturn hv.atSite (fun gs r w hr hend => ⟨fs ++ gs, ?_⟩)
    fun gs w hend => ?_
  · exact hv.endsInit_quad (hv.scratch ▸ hend) hr
  rw [hv.scratch] at hend
  obtain ⟨hquad, hmade, -⟩ := hend.of_ok
  have hgs : gs.length = 9 := hmade.length
  have hw := hv.after_mode hend
  refine (doHpMode_runsMode true).label.orReturn hw.atSite (fun hs r v hr hend => ⟨fs ++ gs ++ hs, ?_⟩)
    fun hs v hend => ⟨fs ++ gs ++ hs, ?_⟩
  · exact hw.endsInit_hp hfs hgs hquad (hw.scratch ▸ hend) hr
  · exact hw.endsInit_whole hfs hgs hquad (hw.scratch ▸ hend)

end Init

/-! ### The operation -/

section Outcome

variable {a n : Word} {s t v : State} {r : Option StatusCode}

/-- INIT was cut short, with the code and the cause of the step it was in (44_boundary_ops.md R207). -/
def State.InitCutShort (s t : State) : Prop :=
  (t.trace.length = 1 ∧ s.cutShort t .bind .error) ∨
    (3 ≤ t.trace.length ∧ t.trace.length ≤ 5 ∧ s.cutShort t .reset .notSupported) ∨
    ((t.trace.length = 2 ∨ 5 < t.trace.length) ∧ s.cutShort t .bus .error)

/-- INIT had all its calls answered OK: it made all of them, or ended at a verify. -/
def State.InitAnswered (s t : State) : Prop :=
  t.trace.length = 27 ∧ t.completed .ok ∨
    t.trace.length = 14 ∧ anySet (t.answerByte 13 0) s.cfg.mQe = false ∧ t.aborted .verify .error ∨
    t.trace.length = 25 ∧ anySet (t.answerByte 24 1) s.cfg.mLh = false ∧ t.aborted .verify .error

/-- What INIT leaves, but for the data registers. -/
structure State.InitResult (s t : State) : Prop where
  /-- The lines. -/
  lines : t.lines <+: initPlan s t.trace
  /-- The calls after the verify of quad mode. -/
  quad : 14 < t.trace.length → quadVerified s.cfg t.trace
  /-- The calls after the verify of high-performance mode. -/
  hp : 25 < t.trace.length → hpVerified s.cfg t.trace
  /-- INITED. -/
  inited : t.inited = true ↔ t.trace.length = 27 ∧ t.answers.all Answer.isOk = true
  /-- The end. -/
  ends : t.answers.all Answer.isOk = true ∧ s.InitAnswered t ∨ s.InitCutShort t

/-- An operation that was cut short did not return OK. -/
theorem State.cutShort.not_returned_ok {c : Cause} {code : StatusCode} (h : s.cutShort t c code)
    (hcode : code ≠ .ok) : ¬(t.status = .ok ∧ t.done = true) := by
  rintro ⟨hok, hpulse⟩
  obtain ⟨-, ⟨-, ⟨-, hst, -⟩, -⟩ | ⟨-, -, -, hdone⟩⟩ := h
  · exact hcode (hst.symm.trans hok)
  · exact Bool.false_ne_true (hdone.symm.trans hpulse)

theorem initPlan_length (s0 : State) (fs : List Event) : (initPlan s0 fs).length = 27 := rfl

/-- INIT that was cut short in the first `m` calls of its plan. -/
theorem State.InitResult.of_cutShort {m : Nat} {c : Cause} {code : StatusCode}
    (hinited : t.inited = true ↔ t.status = .ok ∧ t.done = true)
    (hlines : t.lines <+: (initPlan s t.trace).take m) (hquad : 14 < m → quadVerified s.cfg t.trace)
    (hhp : 25 < m → hpVerified s.cfg t.trace) (hcut : s.cutShort t c code) (hcode : code ≠ .ok)
    (hends : t.trace.length ≤ m → s.InitCutShort t) : s.InitResult t := by
  have hle : t.trace.length ≤ m := by
    have hlen := hlines.length_le.trans (List.length_take_le m _)
    rwa [State.lines, List.length_map] at hlen
  exact ⟨hlines.trans (List.take_prefix _ _), fun h => hquad (h.trans_le hle), fun h => hhp (h.trans_le hle),
    ⟨fun h => absurd (hinited.1 h) (hcut.not_returned_ok hcode),
      fun ⟨_, hall⟩ => absurd hall hcut.not_all_isOk⟩, .inr (hends hle)⟩

/-- INIT that ended at a verify, after the first `m` calls of its plan. -/
theorem State.InitResult.of_verify {m : Nat} (hm : m ≤ 25)
    (hinited : t.inited = true ↔ t.status = .ok ∧ t.done = true)
    (hmade : Made ((initPlan s t.trace).take m) t.trace) (hquad : 14 < m → quadVerified s.cfg t.trace)
    (hab : t.aborted .verify .error) (hends : t.trace.length = m → s.InitAnswered t) : s.InitResult t := by
  have hlen : t.trace.length = m := by
    rw [hmade.length, List.length_take, initPlan_length]
    omega
  have hlines : t.lines = (initPlan s t.trace).take m := hmade.lines
  refine ⟨hlines ▸ List.take_prefix _ _, fun h => hquad (by omega), fun h => by omega,
    ⟨fun h => ?_, fun h => by omega⟩, .inl ⟨hmade.answers_all, hends hlen⟩⟩
  obtain ⟨⟨-, hst, -⟩, -⟩ := hab
  cases hst.symm.trans (hinited.1 h).1

/-- What INIT leaves, by where its run ended. -/
theorem State.InitEnds.result (h : exec (.init a n) s = .next t) (hrun : finishRun (r, v) = t)
    (hinited : t.inited = true ↔ t.status = .ok ∧ t.done = true)
    (hends : (s.accept 0x11 a n).InitEnds t.trace r v) : s.InitResult t := by
  have htrace : v.trace = t.trace := hrun ▸ (finishRun_trace (r, v)).symm
  have hrules {plan : List (List Label × Call)} {V : Verdict StatusCode} {c : Cause} {code : StatusCode}
      (hend : (s.accept 0x11 a n).EndsPlan [] plan V t.trace r v)
      (hbad : ∀ st cause, V.bad st cause → st = code ∧ cause = some c) (hcode : code.isAbort = true) :=
    exec_of_endsPlan rfl h hrun (htrace.symm ▸ hend) hbad hcode
  cases hends with
  | bind hlen hend =>
    obtain ⟨hlines, ⟨-, _, _, ⟨⟩, -⟩ | hcut⟩ := hrules hend (fun _ _ => id) rfl
    exact .of_cutShort hinited hlines nofun nofun hcut nofun fun hle => .inl ⟨by omega, hcut⟩
  | bus hlen hend =>
    obtain ⟨hlines, ⟨-, _, _, ⟨⟩, -⟩ | hcut⟩ := hrules hend (fun _ _ => id) rfl
    exact .of_cutShort hinited hlines nofun nofun hcut nofun fun hle => .inr (.inr ⟨by omega, hcut⟩)
  | reset hlen hend =>
    obtain ⟨hlines, ⟨-, _, _, ⟨⟩, -⟩ | hcut⟩ := hrules hend (fun _ _ => id) rfl
    exact .of_cutShort hinited hlines nofun nofun hcut nofun fun hle => .inr (.inl ⟨hlen, hle, hcut⟩)
  | quad hlen hend =>
    obtain ⟨hlines, ⟨hmade, _, _, ⟨hno, rfl, rfl⟩, hret, hcause⟩ | hcut⟩ :=
      hrules hend (fun _ _ => id) rfl
    · exact .of_verify (by decide) hinited hmade nofun ⟨hret, hcause⟩
        fun hall => .inr (.inl ⟨hall, Bool.eq_false_iff.2 hno, hret, hcause⟩)
    · exact .of_cutShort hinited hlines nofun nofun hcut nofun fun _ => .inr (.inr ⟨.inr hlen, hcut⟩)
  | hp hlen hquad hend =>
    obtain ⟨hlines, ⟨hmade, _, _, ⟨hno, rfl, rfl⟩, hret, hcause⟩ | hcut⟩ :=
      hrules hend (fun _ _ => id) rfl
    · exact .of_verify (by decide) hinited hmade (fun _ => hquad) ⟨hret, hcause⟩
        fun hall => .inr (.inr ⟨hall, Bool.eq_false_iff.2 hno, hret, hcause⟩)
    · exact .of_cutShort hinited hlines (fun _ => hquad) nofun hcut nofun
        fun _ => .inr (.inr ⟨.inr (by omega), hcut⟩)
  | whole hlen hquad hhp hend =>
    obtain ⟨hlines, ⟨hmade, _, _, rfl, hret, hcause⟩ | hcut⟩ := hrules hend (fun _ _ => id) rfl
    · have hall : t.trace.length = 27 := hmade.length
      exact ⟨hlines, fun _ => hquad, fun _ => hhp,
        ⟨fun _ => ⟨hall, hmade.answers_all⟩, fun _ => hinited.2 hret.2⟩,
        .inl ⟨hmade.answers_all, .inl ⟨hall, hret, hcause⟩⟩⟩
    · exact .of_cutShort (m := 27) hinited hlines (fun _ => hquad) (fun _ => hhp) hcut nofun
        fun _ => .inr (.inr ⟨.inr (by omega), hcut⟩)

/-- What INIT leaves: INITED by the lines it wrote, like the code and the cause, and the scratch bytes too. -/
theorem exec_init_result (hp : s.phase = []) (h : exec (.init a n) s = .next t) :
    t.work = s.work ∧ s.bufKept t ∧ t.scratch = initScratch s.cfg s.scratch t.trace ∧ s.InitResult t := by
  have hrun := exec_operation_eq rfl h
  obtain ⟨fs, htrace, hends, hkept⟩ := doInit_ensures (State.atSite_accept (op := 0x11) (a := a) (n := n) hp)
  change finishRun (doInit (s.accept 0x11 a n)) = t at hrun
  generalize doInit (s.accept 0x11 a n) = run at hrun htrace hends hkept
  obtain ⟨r, v⟩ := run
  have hfs : fs = t.trace := by
    rw [← hrun, finishRun_trace, htrace]
    rfl
  subst hfs
  obtain ⟨hinited, hwork, hscratch, hbuf⟩ := State.dataKept_finishRun.2 hkept.dataKept
  rw [hrun] at hinited hwork hscratch hbuf
  refine ⟨hwork, hbuf, hscratch, hends.result h hrun ?_⟩
  have hdecide : t.inited = decide (r = some .ok) := hinited
  rw [hdecide, decide_eq_true_iff, ← hrun]
  cases r with
  | none =>
    have hdone : v.done = false := hkept.done
    simp [hdone]
  | some st => simp

theorem scriptPasses.append {rs rs' : List Reply} {plan plan' : List (List Label × Call)}
    (h : scriptPasses rs plan) (h' : scriptPasses rs' plan') : scriptPasses (rs ++ rs') (plan ++ plan') :=
  List.rel_append h h'

section Passes

variable {site : List Label} {en : Bool} {b b0 b1 b2 w r v v0 v1 : Byte}
  (hw : (predWel s.cfg).sat w = true) (hr : (predReady s.cfg).sat r = true)
include hw hr

/-- A script that answers the calls of `DoQuadMode` OK. -/
theorem quadLines_passes {x : Byte} :
    scriptPasses [.ok [], .ok [b], .ok [], .ok [w], .ok [], .ok [], .ok [r], .ok [], .ok [v]]
      (quadLines s site en x) :=
  .cons (fun _ => rfl) <| .cons (fun _ => rfl) <| .cons (fun _ => rfl) <| .cons (passes_autoPoll hw) <|
    .cons (fun _ => rfl) <| .cons (fun _ => rfl) <| .cons (passes_autoPoll hr) <| .cons (fun _ => rfl) <|
    .cons (fun _ => rfl) .nil

/-- A script that answers the calls of `DoHpMode` up to its verify OK. -/
theorem hpLines_passes {x y z : Byte} :
    scriptPasses [.ok [], .ok [b0], .ok [], .ok [b1, b2], .ok [], .ok [w], .ok [], .ok [], .ok [r], .ok [],
      .ok [v0, v1]] (hpLines s site en x y z) :=
  .cons (fun _ => rfl) <| .cons (fun _ => rfl) <| .cons (fun _ => rfl) <| .cons (fun _ => rfl) <|
    .cons (fun _ => rfl) <| .cons (passes_autoPoll hw) <| .cons (fun _ => rfl) <| .cons (fun _ => rfl) <|
    .cons (passes_autoPoll hr) <| .cons (fun _ => rfl) <| .cons (fun _ => rfl) .nil

/-- A script that answers the calls of INIT OK, part after part. -/
theorem initPlan_passes {fs : List Event} :
    scriptPasses [.ok [], .ok [], .ok [], .ok [], .ok [r], .ok [], .ok [b], .ok [], .ok [w], .ok [], .ok [],
      .ok [r], .ok [], .ok [v], .ok [], .ok [b0], .ok [], .ok [b1, b2], .ok [], .ok [w], .ok [], .ok [],
      .ok [r], .ok [], .ok [v0, v1], .ok [], .ok []] (initPlan s fs) :=
  have hevents {l l' : List Label} {c c' : Call} (hc : ∀ i, (deliver i c []).isOk = true)
      (hc' : ∀ i, (deliver i c' []).isOk = true) : scriptPasses [.ok [], .ok []] [(l, c), (l', c')] :=
    .cons hc <| .cons hc' .nil
  ((((hevents (fun _ => rfl) fun _ => rfl).append (resetLines_passes hr)).append
    (quadLines_passes hw hr)).append (hpLines_passes hw hr)).append (hevents (fun _ => rfl) fun _ => rfl)

end Passes

/-- Settles O32: the run of INIT, and the script makes both verifies pass. -/
theorem initOutcome : Obligations.InitOutcome := by
  intro a n s hp
  obtain ⟨t, ht⟩ := exec_next_of_bufInRange (i := .init a n) (s := s) rfl
  obtain ⟨hwork, hbuf, hscratch, hout⟩ := exec_init_result hp ht
  refine ⟨t, ht, exec_latched rfl ht, hwork, hbuf, hout.lines, hscratch, hout.quad, hout.hp, hout.inited,
    hout.ends, ?_⟩
  intro b b0 b1 b2 w r v v0 v1 hw hr hv hv1 hs
  have hans : answeredBy s.env.replies t.trace :=
    exec_answeredBy rfl ht hout.lines
      (by simp [initPlan, initLines, resetLines, quadLines, hpLines, reinitLines, readLines, enableLines,
        writeLines, readyLine, cmdLine])
  have hall : t.answers.all Answer.isOk = true := hs.answers_all hans hout.lines (initPlan_passes hw hr)
  rcases hout.ends with ⟨-, ⟨-, hdone⟩ | ⟨hlen, hno, -⟩ | ⟨hlen, hno, -⟩⟩ |
    ⟨-, hcut⟩ | ⟨-, -, hcut⟩ | ⟨-, hcut⟩
  · exact hdone
  · have hread : answerAt t.trace 13 = .ok [v] := hs.rxBytes hans hout.lines rfl rfl rfl (by omega)
    have hbyte : t.answerByte 13 0 = v := byteAt_of_ok hread 0
    rw [hbyte, hv] at hno
    cases hno
  · have hread : answerAt t.trace 24 = .ok [v0, v1] := hs.rxBytes hans hout.lines rfl rfl rfl (by omega)
    have hbyte : t.answerByte 24 1 = v1 := byteAt_of_ok hread 1
    rw [hbyte, hv1] at hno
    cases hno
  · exact absurd hall hcut.not_all_isOk
  · exact absurd hall hcut.not_all_isOk
  · exact absurd hall hcut.not_all_isOk

end Outcome

end Sys2Proof.Machine
end

