-- ==== Sys2Proof/Proofs/InitOnChip.lean ====
section
/-!
INIT on an awake reference chip (44_boundary_ops.md R207; 20_memory.md R80, log 9): every answer is known
beforehand, and so is what the mode sequences write into the scratch bytes and, from these, into the chip.
-/

namespace Sys2Proof.Machine

/-! ### Known answers and the scratch bytes -/

/-- After `n` more calls. -/
def Known.plus (g : Known) (n : Nat) : Known := { g with calls := g.calls + n }

@[simp] theorem Known.plus_cfg (g : Known) (n : Nat) : (g.plus n).cfg = g.cfg := rfl

/-- As `Seq.Leads`, with the scratch bytes: from `x` the piece leads to `x'`. -/
def Seq.Brings {α : Type} (m : Seq α) (g : Known) (x : Scratch) (E : Env → Prop) (y : α) (g' : Known)
    (x' : Scratch) (E' : Env → Prop) : Prop :=
  ∀ u : State, u.Meets g E → u.scratch = x →
    m.Ensures u fun r v => r = some y ∧ v.Meets g' E' ∧ v.scratch = x'

section Rules

variable {α β : Type} {g g' g'' : Known} {x x' x'' : Scratch} {E E' E'' : Env → Prop} {y : α} {z : β}

/-- A piece that writes no register leaves the scratch bytes. -/
theorem Seq.Leads.brings {m : Seq α} (h : m.Leads g E y g' E') (hk : Seq.Keeps State.BlockKept m) :
    m.Brings g x E y g' x E' := fun u hu hx => by
  obtain ⟨hr, hv⟩ := h u hu
  exact ⟨hr, hv, (hk u).scratch.trans hx⟩

/-- A piece that ends the same way whatever the scratch bytes are. -/
theorem Seq.Leads.of_brings {m : Seq α} (h : ∀ x, ∃ x', m.Brings g x E y g' x' E') :
    m.Leads g E y g' E' := fun u hu => by
  obtain ⟨x', hbrings⟩ := h u.scratch
  exact (hbrings u hu rfl).imp fun r v ⟨hr, hv, _⟩ => ⟨hr, hv⟩

theorem Seq.Brings.pure : (Seq.pure y).Brings g x E y g x E := fun _ hu hx => ⟨rfl, hu, hx⟩

theorem Seq.Brings.look {k : State → Seq α}
    (hk : ∀ u : State, u.cfg = g.cfg → u.scratch = x → (k u).Brings g x E y g' x' E') :
    (Seq.look k).Brings g x E y g' x' E' := fun u hu hx => hk u hu.cfg hx u hu hx

theorem Seq.Brings.writeScratch {f : State → Scratch} {k : Seq α}
    (hf : ∀ u : State, u.cfg = g.cfg → u.scratch = x → f u = x') (hk : k.Brings g x' E y g' x'' E') :
    (Seq.update (fun s => s.setScratch (f s)) k).Brings g x E y g' x'' E' := fun u hu hx =>
  hk (u.setScratch (f u)) ⟨hu.cfg, hu.work, hu.cause, hu.calls, hu.env⟩ (hf u hu.cfg hx)

theorem Seq.Brings.label {l : Label} {m : Seq α} (hm : m.Brings g x E y g' x' E') :
    (Seq.label l m).Brings g x E y g' x' E' := fun u hu hx => by
  refine (Seq.label_ensures _ _).2 ((hm (u.setPhase (u.phase ++ [l])) (hu.setPhase _) hx).imp ?_)
  rintro _ v ⟨rfl, hv, hx'⟩
  exact ⟨rfl, hv.setPhase _, hx'⟩

theorem Seq.Brings.andThen {m : Seq β} {k : β → Seq α} (hm : m.Brings g x E z g' x' E')
    (hk : (k z).Brings g' x' E' y g'' x'' E'') : (m.andThen k).Brings g x E y g'' x'' E'' := fun u hu hx =>
  (Seq.andThen_ensures _ _).2 ((hm u hu hx).imp fun _ v ⟨hr, hv, hx'⟩ => hr ▸ hk v hv hx')

theorem Seq.Brings.orAbort {m : Seq Answer} {c : Cause} {code st : StatusCode} {bytes : List Byte}
    {k : List Byte → Seq StatusCode} (hm : m.Brings g x E (.ok bytes) g' x' E')
    (hk : (k bytes).Brings g' x' E' st g'' x'' E'') : (m.orAbort c code k).Brings g x E st g'' x'' E'' :=
  hm.andThen hk

theorem Seq.Brings.orReturn {m k : Seq StatusCode} {code st : StatusCode} (hm : m.Brings g x E .ok g' x' E')
    (hk : k.Brings g' x' E' st g'' x'' E'') : (m.orReturn code k).Brings g x E st g'' x'' E'' :=
  hm.andThen hk

end Rules

/-! ### The bits of SR -/

section Masks

variable {c : Config} {v b : Byte} {k : Chip}

theorem and_not_of_and_eq_zero (h : v &&& b = 0) : v &&& ~~~b = v := by
  refine BitVec.eq_of_getLsbD_eq fun i hi => ?_
  have hbit : (v.getLsbD i && b.getLsbD i) = false := by
    rw [← BitVec.getLsbD_and, h]
    exact BitVec.getLsbD_zero
  simp only [BitVec.getLsbD_and, BitVec.getLsbD_not, hi, decide_true, Bool.true_and]
  cases hv : v.getLsbD i <;> simp_all

/-- The three bits of SR are different, so quad enable is not touched by what clears the other two. -/
theorem qe_cleared (hc : c.wf = true) (hbits : srDistinct c) :
    c.mQe &&& c.mWip = 0 ∧ c.mQe &&& ~~~c.mWip &&& ~~~c.mWel = c.mQe := by
  have hone {m : Byte} (hm : m ∈ c.masks) : isOneBit m = true := Config.isOneBit_of_mem hc hm
  simp only [srDistinct, List.nodup_cons, List.mem_cons, List.not_mem_nil, or_false, not_or] at hbits
  obtain ⟨⟨-, hwip⟩, hwel, -⟩ := hbits
  have hqe : isOneBit c.mQe = true := hone (by simp [Config.masks])
  have hwip : c.mQe &&& c.mWip = 0 :=
    isOneBit_and_eq_zero hqe (hone (by simp [Config.masks])) (Ne.symm hwip)
  have hwel : c.mQe &&& c.mWel = 0 :=
    isOneBit_and_eq_zero hqe (hone (by simp [Config.masks])) (Ne.symm hwel)
  exact ⟨hwip, by rw [and_not_of_and_eq_zero hwip, and_not_of_and_eq_zero hwel]⟩

/-- What a register write and the end of its cycle leave of SR: the byte sent, but for WIP and WEL. -/
theorem sr_rewritten (v b m m' : Byte) :
    (v &&& (m ||| m') ||| b &&& ~~~(m ||| m') ||| m) &&& ~~~(m ||| m') = b &&& ~~~m &&& ~~~m' := by
  refine BitVec.eq_of_getLsbD_eq fun i hi => ?_
  simp only [BitVec.getLsbD_and, BitVec.getLsbD_or, BitVec.getLsbD_not, hi, decide_true, Bool.true_and]
  cases m.getLsbD i <;> cases m'.getLsbD i <;> simp

/-- The chip after its registers were written with these bytes and the cycle ended (20_memory.md R80). -/
def Chip.rewritten (k : Chip) (c : Config) (b : Byte) (rest : List Byte) : Chip :=
  { k with
    sr := b &&& ~~~c.mWip &&& ~~~c.mWel
    cr0 := if rest.length = 2 then rest.getD 0 0 else k.cr0
    cr1 := if rest.length = 2 then rest.getD 1 0 else k.cr1
    inflight := .none }

/-- A register write starts a cycle. -/
theorem Chip.writeRegs_wip (hc : c.wf = true) (rest : List Byte) :
    anySet (k.writeRegs c (b :: rest)).sr c.mWip = true := by
  have hwip : isOneBit c.mWip = true := Config.isOneBit_of_mem hc (by simp [Config.masks])
  rw [Chip.writeRegs_cons]
  exact anySet_or_value.trans (by rw [anySet_self (isOneBit_ne_zero hwip), Bool.or_true])

theorem Chip.writeRegs_complete (hc : c.wf = true) (rest : List Byte) :
    ((k.armed c).writeRegs c (b :: rest)).complete c = k.rewritten c b rest := by
  have hwip := Chip.writeRegs_wip (k := k.armed c) (b := b) hc rest
  rw [Chip.writeRegs_cons] at hwip ⊢
  rw [Chip.complete, if_pos ⟨nofun, hwip⟩]
  exact congrArg (fun v => { k.rewritten c b rest with sr := v }) (sr_rewritten _ _ _ _)

/-- The chip after `T_RSTEN` and `T_RST` (20_memory.md R80). -/
def Chip.wasReset (k : Chip) (c : Config) : Chip :=
  { k with sr := k.sr &&& c.mQe, scur := 0, inflight := .none, rsten := false }

/-- Its SR holds at most quad enable. -/
theorem Chip.wasReset_wip (hc : c.wf = true) (hbits : srDistinct c) :
    anySet (k.wasReset c).sr c.mWip = false := by
  refine anySet_eq_false.2 ?_
  rw [Chip.wasReset, BitVec.and_assoc, (qe_cleared hc hbits).1]
  exact BitVec.and_zero

theorem and_or_absorb : v &&& b ||| b = b := by
  refine BitVec.eq_of_getLsbD_eq fun i hi => ?_
  simp only [BitVec.getLsbD_and, BitVec.getLsbD_or]
  cases b.getLsbD i <;> simp

theorem Chip.exec_reset (hd : k.dpd = false) : (k.exec c .rsten).exec c .rst = k.wasReset c := by
  simp [Chip.exec, hd, Chip.wasReset]

end Masks

/-! ### Calls to the chip -/

section OnChip

variable {g g' : Known} {k k' : Chip} {x x' : Scratch}

/-- A collaborator event has no effect on the chip (44_boundary_ops.md R204). -/
theorem event_leads_onChip {c : Call} (hc : c.isExecutor = false) :
    (call c).Leads g (Env.OnChip k []) (.ok []) g.next (Env.OnChip k []) := by
  refine call_leads fun e he => ?_
  have hans : chipAnswer e.calls g.cfg e.lastExec c (k.due g.cfg []) = (.ok [], k) := by
    cases c with
    | exec | tx | rx | autoPoll => cases hc
    | pinBind | busInit | busReinit | busRelease => rfl
  exact ⟨by rw [he.respond, hans], he.after (congrArg Prod.snd hans)⟩

/-- `WriteReg` has its effect on the chip at the data phase (20_memory.md R78, R80). -/
theorem writeReg_leads_onChip {t : Txn} {bytes : List Byte} (ht : (t.desc g.cfg).dataDir ≠ .none) :
    (writeReg t bytes).Leads g (Env.OnChip k []) (.ok []) (g.plus 2)
      (Env.OnChip (k.transmit g.cfg (some t) bytes) []) := by
  have htx : (txCall bytes).Leads g.next (fun e => e.OnChip (k.exec g.cfg t) [] ∧ e.lastExec = some t)
      (.ok []) (g.plus 2) (Env.OnChip (k.transmit g.cfg (some t) bytes) []) := by
    rw [Chip.exec_of_data ht]
    refine .look fun u _ => call_leads fun e ⟨he, hlast⟩ => ?_
    exact ⟨by rw [he.respond]; rfl, he.after (by rw [hlast]; rfl)⟩
  unfold writeReg
  exact (execCall_leads_onChip t).label.andThen htx.label

/-- The ready poll of an awake chip, whose cycle, if one is running, has then ended. -/
theorem pollReady_leads_onChip {tmo : State → Word} (hd : k.dpd = false) :
    ∃ seen, (pollCall predReady tmo).Leads g (Env.OnChip k []) (.ok seen) g.next
      (Env.OnChip (if anySet k.sr g.cfg.mWip then k.complete g.cfg else k) []) := by
  obtain ⟨⟨seen, hseen⟩, hchip⟩ := Chip.poll_ready (c := g.cfg) hd
  refine ⟨seen, .look fun u hu => call_leads fun e he => ⟨?_, he.after ?_⟩⟩
  · rw [he.respond, hu]
    exact hseen
  · rw [hu]
    exact hchip

theorem doPollReady_leads_onChip {tmo : State → Word} (hd : k.dpd = false) :
    (doPollReady tmo).Leads g (Env.OnChip k []) .ok g.next
      (Env.OnChip (if anySet k.sr g.cfg.mWip then k.complete g.cfg else k) []) := by
  obtain ⟨seen, hpoll⟩ := pollReady_leads_onChip (g := g) (tmo := tmo) hd
  exact hpoll.label.orAbort .pure

/-- The reset of an awake chip (44_boundary_ops.md R205), whose SR then holds at most quad enable. -/
theorem doResetChip_leads_onChip (hc : g.cfg.wf = true) (hbits : srDistinct g.cfg) (hd : k.dpd = false) :
    doResetChip.Leads g (Env.OnChip k []) .ok (g.plus 3) (Env.OnChip (k.wasReset g.cfg) []) := by
  obtain ⟨seen, hpoll⟩ := pollReady_leads_onChip (g := g.plus 2) (k := k.wasReset g.cfg)
    (tmo := fun s => s.tmo.dflt) hd
  rw [Known.plus_cfg, if_neg (Bool.eq_false_iff.1 (Chip.wasReset_wip hc hbits))] at hpoll
  exact doResetChip_leads (cmd_leads_steady rfl) (cmd_leads_steady (Chip.exec_reset hd)) hpoll

/-- Write-enable, the register write, the wait for its end, and the read that follows. -/
theorem writeBack_brings_onChip {l0 l1 l2 l3 : Label} {m n : Word} {t : Txn} {image : Scratch → List Byte}
    {kont : List Byte → Seq StatusCode} {b : Byte} {rest bytes : List Byte} (hc : g.cfg.wf = true)
    (hbits : srDistinct g.cfg) (hd : k.dpd = false) (hwip : anySet k.sr g.cfg.mWip = false)
    (himage : image x = b :: rest) (ht : (t.desc g.cfg).dataDir ≠ .none)
    (hread : (k.rewritten g.cfg b rest).receive g.cfg (some t) n = some bytes)
    (hlen : bytes.length = n.toNat)
    (hk : (kont bytes).Brings (g.plus 7) x (Env.OnChip (k.rewritten g.cfg b rest) []) .ok g' x'
      (Env.OnChip k' [])) :
    (writeBack l0 l1 l2 l3 (.wrsr m) t image n kont).Brings g x (Env.OnChip k []) .ok g' x'
      (Env.OnChip k' []) := by
  have H := State.blockKept_respects
  have htx : (k.armed g.cfg).transmit g.cfg (some (.wrsr m)) (b :: rest) =
      (k.armed g.cfg).writeRegs g.cfg (b :: rest) :=
    Chip.transmit_wrsr (k := k.armed g.cfg) hd (Chip.armed_accepts hc hbits hwip)
  have hwrite := writeReg_leads_onChip (g := g.plus 2) (k := k.armed g.cfg) (t := .wrsr m)
    (bytes := b :: rest) nofun
  rw [Known.plus_cfg, htx] at hwrite
  have hawake : ((k.armed g.cfg).writeRegs g.cfg (b :: rest)).dpd = false := by
    rw [Chip.writeRegs_cons]
    exact hd
  have hpoll := doPollReady_leads_onChip (g := g.plus 4) (tmo := fun t => t.tmo.dflt) hawake
  rw [Known.plus_cfg, if_pos (Chip.writeRegs_wip hc rest),
    Chip.writeRegs_complete hc] at hpoll
  have hreg : (readReg t n).Leads (g.plus 5) (Env.OnChip (k.rewritten g.cfg b rest) []) (.ok bytes)
      (g.plus 7) (Env.OnChip (k.rewritten g.cfg b rest) []) :=
    readReg_leads_onChip (cs := []) ht hread hlen
  refine ((doWriteEnable_leads_onChip hd hwip).label.brings (H.label _ H.doWriteEnable)).orReturn
    (.look fun u _ hx => ?_)
  rw [hx, himage]
  exact (hwrite.label.brings (H.label _ (H.writeReg _ _))).orAbort <|
    (hpoll.label.brings (H.label _ (H.doPollReady _))).orReturn <|
      (hreg.label.brings (H.label _ (H.readReg _ _))).orAbort hk

/-! ### The mode sequences -/

/-- The verify of quad mode passes (42_mode_config.md R166, steps Q5, Q6). -/
theorem quadVerify_brings {E : Env → Prop} {v : Byte} (hv : anySet v g.cfg.mQe = true) :
    (quadVerify true [v]).Brings g x E .ok g { x with vb0 := v } E := by
  refine .writeScratch (x' := { x with vb0 := v }) (fun u _ hx => by rw [hx]; rfl) (.look fun u hcfg hx => ?_)
  rw [hcfg, hx, if_pos (verifyBit_iff.2 hv)]
  exact .pure

/-- The verify of high-performance mode passes, and the bus is reinitialised twice (42_mode_config.md R168, steps
H6 to H9). -/
theorem hpVerify_brings_onChip {v0 v1 : Byte} (hv : anySet v1 g.cfg.mLh = true) :
    (hpVerify true [v0, v1]).Brings g x (Env.OnChip k []) .ok (g.plus 2) { x with vb0 := v0, vb1 := v1 }
      (Env.OnChip k []) := by
  have H := State.blockKept_respects
  have hfirst := event_leads_onChip (g := g) (k := k) (c := .busReinit) rfl
  have hsecond := event_leads_onChip (g := g.plus 1) (k := k) (c := .busReinit) rfl
  refine .writeScratch (x' := { x with vb0 := v0, vb1 := v1 }) (fun u _ hx => by rw [hx]; rfl)
    (.look fun u hcfg hx => ?_)
  rw [hcfg, hx, if_pos (verifyBit_iff.2 hv)]
  exact (hfirst.label.brings (H.label _ (H.anyCall _))).orAbort <|
    (hsecond.label.brings (H.label _ (H.anyCall _))).orAbort .pure

/-- What quad mode makes of a chip (42_mode_config.md R166). -/
def Chip.inQuadMode (k : Chip) (c : Config) : Chip := { k with sr := c.mQe, inflight := .none }

/-- What high-performance mode makes of a chip (42_mode_config.md R168). -/
def Chip.inHpMode (k : Chip) (c : Config) : Chip :=
  { k with sr := c.mQe, cr1 := k.cr1 ||| c.mLh, inflight := .none }

/-- Quad mode on an awake chip whose SR holds at most quad enable. -/
theorem doQuadMode_leads_onChip (hc : g.cfg.wf = true) (hbits : srDistinct g.cfg) (hd : k.dpd = false)
    (hwip : anySet k.sr g.cfg.mWip = false) (hsr : k.sr ||| g.cfg.mQe = g.cfg.mQe) :
    (doQuadMode true).Leads g (Env.OnChip k []) .ok (g.plus 9) (Env.OnChip (k.inQuadMode g.cfg) []) := by
  have H := State.blockKept_respects
  have hchip : k.rewritten g.cfg g.cfg.mQe [] = k.inQuadMode g.cfg := by
    rw [Chip.rewritten, (qe_cleared hc hbits).2]
    rfl
  have hset : anySet g.cfg.mQe g.cfg.mQe = true :=
    anySet_self (isOneBit_ne_zero (Config.isOneBit_of_mem hc (by simp [Config.masks])))
  have hread : (readReg .rdsr 1).Leads g (Env.OnChip k []) (.ok [k.sr]) (g.plus 2) (Env.OnChip k []) :=
    readSr_leads_onChip hd
  refine .of_brings fun x => ⟨{ x with rb0 := g.cfg.mQe, vb0 := g.cfg.mQe }, ?_⟩
  rw [doQuadMode_eq]
  refine (hread.label.brings (H.label _ (H.readReg _ _))).orAbort <|
    .writeScratch (x' := { x with rb0 := g.cfg.mQe }) (fun u hcfg hx => ?_) ?_
  · rw [hx, hcfg, ← hsr]
    rfl
  · refine writeBack_brings_onChip (g := g.plus 2) (b := g.cfg.mQe) (rest := []) (bytes := [g.cfg.mQe])
      hc hbits hd hwip rfl nofun ?_ rfl ?_
    · rw [Known.plus_cfg, hchip]
      simp [Chip.receive, Chip.inQuadMode, hd]
    · rw [Known.plus_cfg, hchip]
      exact quadVerify_brings (g := g.plus 9) hset

/-- High-performance mode on an awake chip whose SR holds quad enable. -/
theorem doHpMode_leads_onChip (hc : g.cfg.wf = true) (hbits : srDistinct g.cfg) (hd : k.dpd = false)
    (hsr : k.sr = g.cfg.mQe) :
    (doHpMode true).Leads g (Env.OnChip k []) .ok (g.plus 13) (Env.OnChip (k.inHpMode g.cfg) []) := by
  have H := State.blockKept_respects
  have hwip : anySet k.sr g.cfg.mWip = false := anySet_eq_false.2 (hsr ▸ (qe_cleared hc hbits).1)
  have hchip : k.rewritten g.cfg g.cfg.mQe [k.cr0, k.cr1 ||| g.cfg.mLh] = k.inHpMode g.cfg := by
    rw [Chip.rewritten, (qe_cleared hc hbits).2]
    rfl
  have hset : anySet (k.cr1 ||| g.cfg.mLh) g.cfg.mLh = true := anySet_or_value.trans <| by
    rw [anySet_self (isOneBit_ne_zero (Config.isOneBit_of_mem hc (by simp [Config.masks]))), Bool.or_true]
  have hsrRead : (readReg .rdsr 1).Leads g (Env.OnChip k []) (.ok [k.sr]) (g.plus 2) (Env.OnChip k []) :=
    readSr_leads_onChip hd
  have hcrRead : (readReg .rdcr 2).Leads (g.plus 2) (Env.OnChip k []) (.ok [k.cr0, k.cr1]) (g.plus 4)
      (Env.OnChip k []) := readReg_leads_onChip (cs := []) nofun (if_neg (by simp [hd])) rfl
  refine .of_brings fun x => ⟨⟨g.cfg.mQe, k.cr0, k.cr1 ||| g.cfg.mLh, k.cr0, k.cr1 ||| g.cfg.mLh⟩, ?_⟩
  rw [doHpMode_eq]
  refine (hsrRead.label.brings (H.label _ (H.readReg _ _))).orAbort <|
    .writeScratch (x' := { x with rb0 := g.cfg.mQe }) (fun u _ hx => ?_) <|
      (hcrRead.label.brings (H.label _ (H.readReg _ _))).orAbort <|
        .writeScratch (x' := ⟨g.cfg.mQe, k.cr0, k.cr1 ||| g.cfg.mLh, x.vb0, x.vb1⟩)
          (fun u hcfg hx => ?_) ?_
  · rw [hx, ← hsr]
    rfl
  · rw [hx, hcfg]
    rfl
  · refine writeBack_brings_onChip (g := g.plus 4) (b := g.cfg.mQe)
      (rest := [k.cr0, k.cr1 ||| g.cfg.mLh]) (bytes := [k.cr0, k.cr1 ||| g.cfg.mLh])
      hc hbits hd hwip rfl nofun ?_ rfl ?_
    · rw [Known.plus_cfg, hchip]
      simp [Chip.receive, Chip.inHpMode, hd]
    · rw [Known.plus_cfg, hchip]
      exact hpVerify_brings_onChip (g := g.plus 11) hset

/-- What INIT makes of an awake chip, whatever it was doing. -/
def Chip.initialised (k : Chip) (c : Config) : Chip :=
  { k with sr := c.mQe, scur := 0, cr1 := k.cr1 ||| c.mLh, inflight := .none, rsten := false }

/-- INIT on an awake chip (44_boundary_ops.md R207). -/
theorem doInit_leads_onChip (hc : g.cfg.wf = true) (hbits : srDistinct g.cfg) (hd : k.dpd = false) :
    doInit.Leads g (Env.OnChip k []) .ok (g.plus 27) (Env.OnChip (k.initialised g.cfg) []) := by
  have hreset : doResetChip.Leads (g.plus 2) (Env.OnChip k []) .ok (g.plus 5)
      (Env.OnChip (k.wasReset g.cfg) []) := doResetChip_leads_onChip (g := g.plus 2) hc hbits hd
  have hquad : (doQuadMode true).Leads (g.plus 5) (Env.OnChip (k.wasReset g.cfg) []) .ok (g.plus 14)
      (Env.OnChip ((k.wasReset g.cfg).inQuadMode g.cfg) []) :=
    doQuadMode_leads_onChip (g := g.plus 5) hc hbits hd (Chip.wasReset_wip hc hbits) and_or_absorb
  have hhp : (doHpMode true).Leads (g.plus 14) (Env.OnChip ((k.wasReset g.cfg).inQuadMode g.cfg) []) .ok
      (g.plus 27) (Env.OnChip (k.initialised g.cfg) []) :=
    doHpMode_leads_onChip (g := g.plus 14) hc hbits hd rfl
  have hevents := event_leads_onChip (g := g) (k := k) (c := .pinBind) rfl
  have hevents' := event_leads_onChip (g := g.plus 1) (k := k) (c := .busInit) rfl
  exact .writeInited <| hevents.label.orAbort <| hevents'.label.orAbort <| hreset.label.orReturn <|
    hquad.label.orReturn <| hhp.label.orReturn <| .writeInited .pure

end OnChip

/-! ### The operation -/

/-- INIT that returned OK made its 27 calls and set INITED. -/
theorem State.InitResult.of_completed {s t : State} (h : s.InitResult t) (hdone : t.completed .ok) :
    t.inited = true ∧ t.lines = initPlan s t.trace := by
  obtain ⟨⟨-, hst, hpulse⟩, -⟩ := hdone
  have hno {c : Cause} {code : StatusCode} (hcut : s.cutShort t c code) : code = .ok := by
    by_contra hcode
    exact hcut.not_returned_ok hcode ⟨hst, hpulse⟩
  rcases h.ends with ⟨hall, ⟨hlen, -⟩ | ⟨-, -, ⟨-, hst', -⟩, -⟩ | ⟨-, -, ⟨-, hst', -⟩, -⟩⟩ |
    ⟨-, hcut⟩ | ⟨-, -, hcut⟩ | ⟨-, hcut⟩
  · exact ⟨h.inited.2 ⟨hlen, hall⟩, h.lines.eq_of_length (by rw [State.lines, List.length_map, hlen]; rfl)⟩
  · cases hst.symm.trans hst'
  · cases hst.symm.trans hst'
  · cases hno hcut
  · cases hno hcut
  · cases hno hcut

theorem collaboratorEvents_eq (es : List Event) :
    collaboratorEvents es = ((es.map Event.line).filter fun l => !l.2.isExecutor).length := by
  rw [collaboratorEvents, List.filter_map, List.length_map]
  rfl

/-- Settles O57: the run on the chip is known call by call, and what INIT leaves counts its calls. -/
theorem initConfiguresTheChip : Obligations.InitConfiguresTheChip := by
  intro a n s hon hc hp hd hbits
  obtain ⟨t, ht⟩ := exec_next_of_bufInRange (i := .init a n) (s := s) rfl
  obtain ⟨-, -, -, hout⟩ := exec_init_result hp ht
  obtain ⟨hret, hmeets⟩ := exec_of_leads rfl ht (doInit_leads_onChip (g := s.known) hc hbits hd) hon.env
  have hdone : t.completed .ok := ⟨hret, hmeets.cause⟩
  obtain ⟨hinited, hlines⟩ := hout.of_completed hdone
  have hlines : t.trace.map Event.line = initPlan s t.trace := hlines
  refine ⟨t, ht, hdone, hinited, ?_, ?_, hmeets.env.chip⟩
  · rw [executorCalls_eq, hlines]
    rfl
  · rw [collaboratorEvents_eq, hlines]
    rfl

end Sys2Proof.Machine
end

section
/-!
An operation makes no call after one that failed or is never answered, and names the cause of every abort
(60_exceptions.md R220 to R225). Both are said of a piece at once by `Seq.Heeds`, for every configuration and
whatever calls the piece makes; the walk over the operations is made once.
-/

namespace Sys2Proof.Machine

/-! ### Pieces that stop at a failed call -/

/-- Every call in these lines was answered OK. -/
def allOk (es : List Event) : Prop := es.all (fun e => e.ans.isOk) = true

/-- Every call in these lines but the last was answered OK. -/
def earlierOk (es : List Event) : Prop := es.dropLast.all (fun e => e.ans.isOk) = true

/-- How a piece that stops at a failed call ends: with a good result only while every call was answered OK, else
with a bad one, or at a call that is never answered. -/
def Verdict.Holds {α : Type} (V : Verdict α) : Option α → State → Prop
  | some x, v => earlierOk v.trace ∧ (allOk v.trace ∧ V.good x v.cause v.trace ∨ V.bad x v.cause)
  | none, v => earlierOk v.trace

/-- Begun with every call answered OK, the piece stops at the first that is not, and ends as `V` says. -/
def Seq.Heeds {α : Type} (V : Verdict α) (m : Seq α) : Prop :=
  ∀ u : State, allOk u.trace → m.Ensures u V.Holds

section Rules

variable {α β : Type} {V V' : Verdict α} {es : List Event}

theorem allOk.earlier (h : allOk es) : earlierOk es :=
  List.all_eq_true.2 fun e he => List.all_eq_true.1 h e (List.dropLast_subset es he)

theorem allOk.append (h : allOk es) {e : Event} (he : e.ans.isOk = true) : allOk (es ++ [e]) := by
  rw [allOk, List.all_append, h]
  exact (Bool.and_true _).trans he

theorem allOk.earlier_append (h : allOk es) (e : Event) : earlierOk (es ++ [e]) := by
  rw [earlierOk, List.dropLast_concat]
  exact h

theorem Verdict.Holds.earlier {r : Option α} {v : State} (h : V.Holds r v) : earlierOk v.trace := by
  cases r with
  | none => exact h
  | some x => exact h.1

theorem Seq.Heeds.imp {m : Seq α} (hm : m.Heeds V)
    (hgood : ∀ x cause fs, V.good x cause fs → V'.good x cause fs)
    (hbad : ∀ x cause, V.bad x cause → V'.bad x cause) : m.Heeds V' := by
  refine fun u hu => (hm u hu).imp fun r v h => ?_
  cases r with
  | none => exact h
  | some x => exact h.imp_right (Or.imp (And.imp_right (hgood _ _ _)) (hbad _ _))

theorem Seq.Heeds.pure {x : α} (h : ∀ cause fs, V.good x cause fs) : (Seq.pure x).Heeds V :=
  fun _ hu => ⟨hu.earlier, .inl ⟨hu, h _ _⟩⟩

theorem Seq.Heeds.look {k : State → Seq α} (hk : ∀ u, (k u).Heeds V) : (Seq.look k).Heeds V :=
  fun u => hk u u

theorem Seq.Heeds.update {f : State → State} {k : Seq α} (hf : ∀ u, (f u).trace = u.trace)
    (hk : k.Heeds V) : (Seq.update f k).Heeds V := fun u hu => hk (f u) ((hf u).symm ▸ hu)

theorem Seq.Heeds.ite {p : Prop} [Decidable p] {m k : Seq α} (hm : p → m.Heeds V) (hk : ¬p → k.Heeds V) :
    (if p then m else k).Heeds V := by
  split
  · exact hm ‹_›
  · exact hk ‹_›

theorem Seq.Heeds.label {l : Label} {m : Seq α} (hm : m.Heeds V) : (Seq.label l m).Heeds V := by
  intro u hu
  refine (Seq.label_ensures _ _).2 ((hm (u.setPhase (u.phase ++ [l])) hu).imp fun r v h => ?_)
  cases r with
  | none => exact h
  | some x => exact h

theorem Seq.Heeds.stuck {l : Label} : (Seq.stuck (α := α) l).Heeds V := fun _ hu => hu.earlier

theorem Seq.Heeds.abort {V : Verdict StatusCode} {c : Cause} {code : StatusCode} (h : V.bad code (some c)) :
    (Seq.abort c code).Heeds V := fun _ hu => ⟨hu.earlier, .inr h⟩

/-- One piece after another: the second makes no call where the first ended with a bad result. -/
theorem Seq.Heeds.andThen {V' : Verdict β} {m : Seq β} {k : β → Seq α} (hm : m.Heeds V')
    (hbad : ∀ x cause, V'.bad x cause → (k x).GivesUp V cause)
    (hgood : ∀ x cause fs, V'.good x cause fs → (k x).Heeds V) : (m.andThen k).Heeds V := by
  refine fun u hu => (Seq.andThen_ensures _ _).2 ((hm u hu).imp fun r v h => ?_)
  cases r with
  | none => exact h
  | some x =>
    obtain ⟨hearlier, ⟨hok, hx⟩ | hx⟩ := h
    · exact hgood x _ _ hx v hok
    · refine (hbad x _ hx v rfl).imp ?_
      rintro _ w ⟨htrace, y, rfl, hy⟩
      exact ⟨htrace ▸ hearlier, .inr hy⟩

/-- A step whose failure ends the piece. -/
theorem Seq.Heeds.orAbort {V : Verdict StatusCode} {m : Seq Answer} {c : Cause} {code : StatusCode}
    {k : List Byte → Seq StatusCode} (hm : m.Heeds lastAnswer) (hbad : V.bad code (some c))
    (hk : ∀ b, (k b).Heeds V) : (m.orAbort c code k).Heeds V := by
  refine hm.andThen ?_ ?_
  · rintro _ cause rfl v -
    exact ⟨rfl, code, rfl, hbad⟩
  · rintro (b | _ | _) cause fs ⟨hok, -⟩
    · exact hk b
    · cases hok
    · cases hok

/-- A piece that never makes a call heeds its answers. -/
theorem Seq.Heeds.of_givesUp {m : Seq α} (h : ∀ cause, m.GivesUp V cause) : m.Heeds V := by
  refine fun u hu => (h u.cause u rfl).imp ?_
  rintro _ w ⟨htrace, x, rfl, hx⟩
  exact ⟨htrace ▸ hu.earlier, .inr hx⟩

end Rules

/-! ### The calls and helpers -/

theorem call_heeds (c : Call) : (call c).Heeds lastAnswer := by
  intro u hu
  refine call_cases (fun bytes h => ⟨hu.earlier_append _, .inl ⟨?_, rfl, ?_⟩⟩)
    (fun _ => ⟨hu.earlier_append _, .inr rfl⟩) fun _ => hu.earlier_append _
  · exact hu.append (congrArg Answer.isOk h)
  · rw [State.afterCall_trace, List.getLast?_concat]
    exact congrArg some h

theorem execCall_heeds (t : Txn) : (execCall t).Heeds lastAnswer := .look fun _ => call_heeds _

theorem cmd_heeds (t : Txn) : (cmd t).Heeds lastAnswer := execCall_heeds t

theorem txCall_heeds (bytes : List Byte) : (txCall bytes).Heeds lastAnswer := .look fun _ => call_heeds _

theorem rxCall_heeds (n : Word) : (rxCall n).Heeds lastAnswer := .look fun _ => call_heeds _

theorem pollCall_heeds (p : Config → Pred) (tmo : State → Word) : (pollCall p tmo).Heeds lastAnswer :=
  .look fun _ => call_heeds _

/-- The release of the bus cannot fail (44_boundary_ops.md R204; log 28). -/
theorem busRelease_heeds : busRelease.Heeds ⟨fun _ _ _ => True, fun _ _ => False⟩ :=
  fun _ hu => ⟨hu.earlier_append _, .inl ⟨hu.append rfl, trivial⟩⟩

/-- An `Exec`, then a data phase only if it answered OK (20_memory.md R77, R78). -/
theorem exec_then_heeds {t : Txn} {k : Seq Answer} (hk : k.Heeds lastAnswer) :
    ((Seq.label .a (execCall t)).andThen fun r =>
      match r with
      | .ok _ => Seq.label .b k
      | .fail | .never => Seq.pure .fail).Heeds lastAnswer := by
  refine .andThen (.label (execCall_heeds t)) ?_ ?_
  · rintro _ cause rfl v -
    exact ⟨rfl, .fail, rfl, rfl⟩
  · rintro (b | _ | _) cause fs ⟨hok, -⟩
    · exact .label hk
    · cases hok
    · cases hok

theorem readReg_heeds (t : Txn) (n : Word) : (readReg t n).Heeds lastAnswer := exec_then_heeds (rxCall_heeds n)

theorem writeReg_heeds (t : Txn) (bytes : List Byte) : (writeReg t bytes).Heeds lastAnswer :=
  exec_then_heeds (txCall_heeds bytes)

/-! ### Codes and causes -/

/-- The code that goes with a cause (60_exceptions.md R221). -/
def Cause.code (c : Cause) : StatusCode := if c = .reset then .notSupported else .error

theorem Cause.code_isAbort (c : Cause) : c.code.isAbort = true := by
  unfold Cause.code
  split
  · rfl
  · rfl

theorem Cause.code_ne_ok (c : Cause) : c.code ≠ .ok := by
  intro h
  have habort := c.code_isAbort
  rw [h] at habort
  cases habort

/-- The code is that of one of the causes `C`, which is the label. -/
def raised (C : Cause → Prop) (st : StatusCode) (cause : Option Cause) : Prop :=
  ∃ c, C c ∧ st = c.code ∧ cause = some c

theorem raised.isAbort {C : Cause → Prop} {st : StatusCode} {cause : Option Cause} (h : raised C st cause) :
    st.isAbort = true := by
  obtain ⟨c, -, rfl, -⟩ := h
  exact c.code_isAbort

/-- The verdict of a piece that returns a code in `N`, or is aborted for one of the causes `C`. -/
def inOrRaised (N : StatusCode → Prop) (C : Cause → Prop) : Verdict StatusCode where
  good st _ _ := N st
  bad := raised C

/-- The verdict of a piece that returns OK, or is aborted for one of the causes `C`. -/
def okOrRaised (C : Cause → Prop) : Verdict StatusCode := inOrRaised (· = .ok) C

/-- The verdict of a whole operation: a code that is an abort has its cause. -/
def abortsRaised (C : Cause → Prop) : Verdict StatusCode where
  good st _ _ := st.isAbort = false
  bad st cause := st.isAbort = true → raised C st cause

section Subroutines

variable {N : StatusCode → Prop} {C : Cause → Prop}

/-- A subroutine whose failure ends the piece: its cause stands (60_exceptions.md R225). -/
theorem Seq.Heeds.orReturn {m k : Seq StatusCode} {code : StatusCode}
    (hm : m.Heeds (okOrRaised fun c => C c ∧ c.code = code)) (hk : k.Heeds (okOrRaised C)) :
    (m.orReturn code k).Heeds (okOrRaised C) := by
  refine hm.andThen ?_ ?_
  · rintro _ cause ⟨c, ⟨hC, rfl⟩, rfl, rfl⟩ v hv
    rw [if_neg c.code_ne_ok]
    exact ⟨rfl, _, rfl, c, hC, rfl, hv⟩
  · rintro _ cause fs rfl
    exact hk

/-- A piece that returns OK, or is aborted for a cause, will do as a whole operation. -/
theorem Seq.Heeds.operation {m : Seq StatusCode} (hm : m.Heeds (okOrRaised C)) :
    m.Heeds (abortsRaised C) := by
  refine hm.imp ?_ fun _ _ h _ => h
  rintro _ - - rfl
  rfl

/-- A call whose failure ends the piece with E_BUS. -/
theorem Seq.Heeds.orBus {m : Seq Answer} {k : List Byte → Seq StatusCode} (hm : m.Heeds lastAnswer)
    (hbus : C .bus) (hk : ∀ b, (k b).Heeds (inOrRaised N C)) :
    (m.orAbort .bus .error k).Heeds (inOrRaised N C) := .orAbort hm ⟨_, hbus, rfl, rfl⟩ hk

theorem doPollReady_heeds (tmo : State → Word) (hbus : C .bus) :
    (doPollReady tmo).Heeds (okOrRaised C) :=
  .orBus (.label (pollCall_heeds _ _)) hbus fun _ => .pure fun _ _ => rfl

theorem doWriteEnable_heeds (hbus : C .bus) : doWriteEnable.Heeds (okOrRaised C) :=
  .orBus (.label (cmd_heeds _)) hbus fun _ =>
    .orBus (.label (pollCall_heeds _ _)) hbus fun _ => .pure fun _ _ => rfl

/-- A status read aborted for a fail bit or a failed call has its cause (40_status_poll_wren.md R132). -/
theorem doGetStatus_heeds (hbus : C .bus) (hchip : C .chipFail) :
    doGetStatus.Heeds (inOrRaised (·.isAbort = false) C) := by
  refine .orBus (.label (readReg_heeds _ _)) hbus fun b => .look fun s => ?_
  rcases decode1_cases s.cfg (b.getD 0 0) with h | h | h <;> rw [h]
  · exact .abort ⟨_, hchip, rfl, rfl⟩
  · exact .pure fun _ _ => rfl
  · refine .orBus (.label (readReg_heeds _ _)) hbus fun b' => .look fun s' => ?_
    exact .pure fun _ _ => decode2_isAbort _ _

/-- Whatever its poll failed of, the cause of a failed reset is E_RESET (44_boundary_ops.md R205). -/
theorem doResetChip_heeds (hreset : C .reset) : doResetChip.Heeds (okOrRaised C) := by
  refine .orAbort (.label (cmd_heeds _)) ⟨_, hreset, rfl, rfl⟩ fun _ =>
    .orAbort (.label (cmd_heeds _)) ⟨_, hreset, rfl, rfl⟩ fun _ => ?_
  refine .andThen (.label (doPollReady_heeds (C := (· = .bus)) _ rfl)) ?_ ?_
  · rintro _ cause ⟨_, rfl, rfl, -⟩ v -
    exact ⟨rfl, _, rfl, _, hreset, rfl, rfl⟩
  · rintro _ cause fs rfl
    exact .pure fun _ _ => rfl

theorem writeBack_heeds {l0 l1 l2 l3 : Label} {t t' : Txn} {image : Scratch → List Byte} {n : Word}
    {k : List Byte → Seq StatusCode} (hbus : C .bus) (hk : ∀ b, (k b).Heeds (okOrRaised C)) :
    (writeBack l0 l1 l2 l3 t t' image n k).Heeds (okOrRaised C) :=
  .orReturn (.label (doWriteEnable_heeds ⟨hbus, rfl⟩)) <| .look fun _ =>
    .orBus (.label (writeReg_heeds _ _)) hbus fun _ =>
      .orReturn (.label (doPollReady_heeds _ ⟨hbus, rfl⟩)) (.orBus (.label (readReg_heeds _ _)) hbus hk)

theorem doQuadMode_heeds (en : Bool) (hbus : C .bus) (hverify : C .verify) :
    (doQuadMode en).Heeds (okOrRaised C) := by
  rw [doQuadMode_eq]
  refine .orBus (.label (readReg_heeds _ _)) hbus fun _ => .update (fun _ => rfl) <|
    writeBack_heeds hbus fun _ => ?_
  refine .update (fun _ => rfl) (.look fun t => ?_)
  exact .ite (fun _ => .pure fun _ _ => rfl) fun _ => .abort ⟨_, hverify, rfl, rfl⟩

theorem hpVerify_heeds (en : Bool) (b : List Byte) (hbus : C .bus) (hverify : C .verify) :
    (hpVerify en b).Heeds (okOrRaised C) := by
  refine .update (fun _ => rfl) (.look fun t => ?_)
  refine .ite (fun _ => ?_) fun _ => .abort ⟨_, hverify, rfl, rfl⟩
  exact .orBus (.label (call_heeds _)) hbus fun _ => .orBus (.label (call_heeds _)) hbus fun _ =>
    .pure fun _ _ => rfl

theorem doHpMode_heeds (en : Bool) (hbus : C .bus) (hverify : C .verify) :
    (doHpMode en).Heeds (okOrRaised C) := by
  rw [doHpMode_eq]
  exact .orBus (.label (readReg_heeds _ _)) hbus fun _ => .update (fun _ => rfl) <|
    .orBus (.label (readReg_heeds _ _)) hbus fun _ => .update (fun _ => rfl) <|
      writeBack_heeds hbus fun b => hpVerify_heeds en b hbus hverify

theorem doInit_heeds (hbus : C .bus) (hbind : C .bind) (hreset : C .reset)
    (hverify : C .verify) : doInit.Heeds (okOrRaised C) := by
  refine .update (fun _ => rfl) <| .orAbort (.label (call_heeds _)) ⟨_, hbind, rfl, rfl⟩ fun _ =>
    .orBus (.label (call_heeds _)) hbus fun _ => ?_
  refine .orReturn (.label (doResetChip_heeds ⟨hreset, rfl⟩)) ?_
  refine .orReturn (.label (doQuadMode_heeds _ ⟨hbus, rfl⟩ ⟨hverify, rfl⟩)) ?_
  refine .orReturn (.label (doHpMode_heeds _ ⟨hbus, rfl⟩ ⟨hverify, rfl⟩)) ?_
  exact .update (fun _ => rfl) (.pure fun _ _ => rfl)

theorem powerBody_heeds (l : Label) (t : Txn) (hbus : C .bus) :
    ((Seq.label l (cmd t)).orAbort .bus .error fun _ => Seq.pure .ok).Heeds (okOrRaised C) :=
  .orBus (.label (cmd_heeds _)) hbus fun _ => .pure fun _ _ => rfl

theorem eraseBody_heeds (l0 l1 l2 : Label) (t : Txn) (tmo : State → Word) (hbus : C .bus) :
    ((Seq.label l0 doWriteEnable).orReturn .error <|
      (Seq.label l1 (cmd t)).orAbort .bus .error fun _ =>
        (Seq.label l2 (doPollReady tmo)).orReturn .error (Seq.pure .ok)).Heeds (okOrRaised C) :=
  .orReturn (.label (doWriteEnable_heeds ⟨hbus, rfl⟩)) <|
    .orBus (.label (cmd_heeds _)) hbus fun _ =>
      .orReturn (.label (doPollReady_heeds _ ⟨hbus, rfl⟩)) (.pure fun _ _ => rfl)

/-- The loop of WRITE goes on only after a chunk whose calls were all answered OK. -/
theorem writeLoop_heeds (hbus : C .bus) (fuel : Nat) :
    (writeLoop fuel).Heeds (okOrRaised C) := by
  induction fuel with
  | zero => exact .stuck
  | succ fuel ih =>
    refine .orReturn (.label (doWriteEnable_heeds ⟨hbus, rfl⟩)) (.look fun s => ?_)
    refine .orBus (.label (execCall_heeds _)) hbus fun _ => .look fun t => ?_
    refine .orBus (.label (txCall_heeds _)) hbus fun _ => ?_
    refine .orReturn (.label (doPollReady_heeds _ ⟨hbus, rfl⟩)) (.update (fun _ => rfl) ?_)
    exact .look fun u => .ite (fun _ => .pure fun _ _ => rfl) fun _ => ih

theorem doWrite_heeds (a n : Word) (hbus : C .bus) : (doWrite a n).Heeds (okOrRaised C) :=
  .update (fun _ => rfl) (writeLoop_heeds hbus _)

/-- Once the second status is read, no call is left, whatever it is. -/
theorem verifyStatus_givesUp {target st : StatusCode} (hverify : C .suspendVerify)
    (cause : Option Cause) :
    (Seq.update (fun s => s.setWork { s.work with st := st }) <|
      if st = target then Seq.pure .ok else Seq.abort .suspendVerify .error).GivesUp
        (abortsRaised C) cause := by
  intro v _
  by_cases h : st = target
  · rw [if_pos h]
    exact ⟨rfl, _, rfl, nofun⟩
  · rw [if_neg h]
    exact ⟨rfl, _, rfl, fun _ => ⟨_, hverify, rfl, rfl⟩⟩

/-- A first status other than `source`, an aborted one too, ends the operation with OK; so the cause of an abort
is that of the command, or E_SUSPEND_VERIFY (43_erase_power.md R186, R187). -/
theorem changeEraseState_heeds {l0 l2 l3 : Label} {source target : StatusCode} {t : Txn}
    (hsource : source.isAbort = false) (hbus : C .bus) (hverify : C .suspendVerify) :
    (changeEraseState l0 l2 l3 source target t).Heeds (abortsRaised C) := by
  have status := doGetStatus_heeds (C := fun _ => True) trivial trivial
  refine .andThen (.label status) (fun st cause hst v _ => ?_) fun st _ _ _ =>
    .update (fun _ => rfl) (.ite (fun _ => ?_) fun _ => .pure fun _ _ => rfl)
  · have hne : st ≠ source := by
      rintro rfl
      exact Bool.false_ne_true (hsource.symm.trans hst.isAbort)
    rw [if_neg hne]
    exact ⟨rfl, _, rfl, nofun⟩
  · refine .orAbort (.label (cmd_heeds _)) (fun _ => ⟨_, hbus, rfl, rfl⟩) fun _ => ?_
    exact .andThen (.label status) (fun _ cause _ => verifyStatus_givesUp hverify cause)
      fun _ _ _ _ => .of_givesUp (verifyStatus_givesUp hverify)

end Subroutines

/-! ### The operations -/

/-- Every operation stops at a failed call, and is aborted only for a cause the table lists for it
(60_exceptions.md R221). -/
theorem opBody_heeds {i : Instr} (hi : i.txn? = none) :
    (opBody i).Heeds (abortsRaised fun c => mayRaise i c = true) := by
  cases i with
  | getStatus a n =>
    have status := doGetStatus_heeds (C := fun c => mayRaise (.getStatus a n) c = true) rfl rfl
    exact .label (status.imp (fun _ _ _ => id) fun _ _ h _ => h)
  | pollReady => exact .operation (.label (doPollReady_heeds _ rfl))
  | writeEnable => exact .operation (.label (doWriteEnable_heeds rfl))
  | write => exact .operation (doWrite_heeds _ _ rfl)
  | quadMode => exact .operation (.label (doQuadMode_heeds _ rfl rfl))
  | hpMode => exact .operation (.label (doHpMode_heeds _ rfl rfl))
  | eraseBlock => exact .operation (eraseBody_heeds _ _ _ _ _ rfl)
  | eraseSector =>
    unfold opBody
    refine .operation (.look fun t => .ite (fun _ => ?_) fun _ => .abort ⟨.range, rfl, rfl, rfl⟩)
    exact .orReturn (.label (doWriteEnable_heeds ⟨rfl, rfl⟩)) (powerBody_heeds _ _ rfl)
  | eraseChip => exact .operation (eraseBody_heeds _ _ _ _ _ rfl)
  | suspendErase => exact changeEraseState_heeds rfl rfl rfl
  | resumeErase => exact changeEraseState_heeds rfl rfl rfl
  | sleep => exact .operation (powerBody_heeds _ _ rfl)
  | wakeup => exact .operation (powerBody_heeds _ _ rfl)
  | read =>
    refine .operation (.orBus (.label (execCall_heeds _)) rfl fun _ => ?_)
    exact .orBus (.label (rxCall_heeds _)) rfl fun b => .update (fun _ => rfl) (.pure fun _ _ => rfl)
  | init => exact .operation (doInit_heeds rfl rfl rfl rfl)
  | deinit =>
    unfold opBody
    refine .operation (.update (fun _ => rfl) ?_)
    refine .orReturn (.label (doResetChip_heeds ⟨rfl, rfl⟩)) ?_
    exact .andThen (.label busRelease_heeds) (fun _ _ h => h.elim) fun _ _ _ _ => .pure fun _ _ => rfl
  | getGeometry => exact .pure fun _ _ => rfl
  | resetChip => exact .operation (.label (doResetChip_heeds rfl))
  | tRdsr | tRdscur | tRdcr | tWren | tWrsr | tPp4 | tSe | tBe | tCe | tSusp | tResm | tDp | tWake
  | tRsten | tQread | tRst => cases hi

/-- How the run of every operation ends: its calls, its code and its cause label. -/
theorem exec_operation_holds {i : Instr} {s t : State} (hi : i.txn? = none) (h : exec i s = .next t) :
    ∃ r v, t = finishRun (r, v) ∧ (r = none → v.done = false) ∧
      (abortsRaised fun c => mayRaise i c = true).Holds r v := by
  obtain ⟨op, a, n, rfl⟩ := exec_operation hi h
  have hholds := opBody_heeds hi (s.accept op a n) rfl
  have hends := (opBody_built hi).ends (carried_status_done _ _ s.status false)
    (s := s.accept op a n) ⟨rfl, rfl⟩
  unfold Seq.Ensures at hholds hends
  generalize opBody i (s.accept op a n) = run at hholds hends ⊢
  rcases run with ⟨r, v⟩
  refine ⟨r, v, rfl, ?_, hholds⟩
  rintro rfl
  exact hends.2

/-- Settles O40: every piece of an operation stops at the first call that is not answered OK. -/
theorem noCallAfterAFailure : Obligations.NoCallAfterAFailure := by
  intro i s t hi _ h
  obtain ⟨r, v, rfl, -, hholds⟩ := exec_operation_holds hi h
  rw [State.answers, finishRun_trace, ← List.map_dropLast, List.all_map]
  exact hholds.earlier

/-- A return whose code is no abort clears the cause label, and one whose code is an abort has a label. -/
theorem State.finish_raised {C : Cause → Prop} {code : StatusCode} {v : State}
    (h : code.isAbort = true → raised C code v.cause) :
    code.isAbort = false ∧ (v.finish code).cause = none ∨ raised C code (v.finish code).cause := by
  rw [State.finish_cause]
  cases hcode : code.isAbort with
  | false => exact .inl ⟨rfl, rfl⟩
  | true => exact .inr (h hcode)

theorem StatusCode.isAbort_eq_false_iff {code : StatusCode} :
    code.isAbort = false ↔ code ≠ .error ∧ code ≠ .notSupported := by
  cases code <;> decide

/-- Settles O43: an abort has a cause of its operation with the code of that cause; any other return has none. -/
theorem causesByOperation : Obligations.CausesByOperation := by
  intro i s t hi h hdone
  obtain ⟨_ | code, v, rfl, hnever, hholds⟩ := exec_operation_holds hi h
  · exact absurd (hdone.symm.trans (hnever rfl)) (by decide)
  have hraised : code.isAbort = true → raised (fun c => mayRaise i c = true) code v.cause := by
    intro habort
    rcases hholds.2 with ⟨-, hgood⟩ | hbad
    · exact absurd (habort.symm.trans hgood) (by decide)
    · exact hbad habort
  rw [← StatusCode.isAbort_eq_false_iff, finishRun_some, State.finish_status]
  rcases State.finish_raised hraised with ⟨hcode, hnone⟩ | ⟨c, hc, rfl, hsome⟩
  · rw [hnone]
    exact ⟨nofun, fun _ => hcode, fun _ => rfl⟩
  · rw [hsome, c.code_isAbort]
    refine ⟨fun c' hc' => ?_, nofun, nofun⟩
    obtain rfl := Option.some.inj hc'
    exact ⟨hc, rfl⟩

end Sys2Proof.Machine
end

section
/-!
Which commands an operation sends when: a program, an erase or a register write only right after a confirmed
write-enable (70_reset_and_hazards.md R260), and the leave instruction of deep power-down only for WAKEUP
(43_erase_power.md R189). What such calls keep, a run of the whole operation keeps; the walk over the pieces,
the loop of WRITE among them, is made once and for every configuration.
-/

namespace Sys2Proof.Machine

/-! ### Calls that are in order -/

/-- The call may be made at this arming: a qualifying command only with WEL confirmed, and the leave
instruction of deep power-down only where `wakes`. -/
def Call.inOrder (wakes : Prop) (m : Arming) : Call → Prop
  | .exec t _ => (txnQualifying t = true → m = .confirmed) ∧ (t = .wake → wakes)
  | .tx _ _ | .rx _ _ | .autoPoll _ _ _ _ | .pinBind | .busInit | .busReinit | .busRelease => True

theorem Call.inOrder_of_exec {wakes : Prop} {m : Arming} {x : Call}
    (h : ∀ t tmo, x = .exec t tmo → (txnQualifying t = true → m = .confirmed) ∧ (t = .wake → wakes)) :
    x.inOrder wakes m := by
  cases x with
  | exec t tmo => exact h t tmo rfl
  | tx | rx | autoPoll | pinBind | busInit | busReinit | busRelease => trivial

/-- `K m` is kept by every call that is in order at arming `m`, for the arming after it. -/
structure OrderKeeps (c : Config) (wakes : Prop) (K : Arming → List Event → Env → Prop) : Prop where
  /-- A call is made. -/
  call : ∀ {m x} {u : State}, u.cfg = c → K m u.trace u.env → x.inOrder wakes m →
    K (m.next c ⟨u.phase, x, u.answer x⟩) (u.trace ++ [⟨u.phase, x, u.answer x⟩]) (u.env.after c x)
  /-- The bus is released. -/
  logged : ∀ {m es e} site, K m es e → K .none (es ++ [⟨site, .busRelease, .ok []⟩]) e

/-- In a run under `c`, at arming `m`. -/
structure State.InOrder (c : Config) (K : Arming → List Event → Env → Prop) (m : Arming) (u : State) :
    Prop where
  /-- The parameters. -/
  cfg : u.cfg = c
  /-- What is kept. -/
  hist : K m u.trace u.env

/-- Begun at an arming as `A` says, the piece stays inside the run; with a result `x` it leaves an arming as
`B x` says. -/
def Seq.Ordered {α : Type} (c : Config) (K : Arming → List Event → Env → Prop) (A : Arming → Prop)
    (B : α → Arming → Prop) (p : Seq α) : Prop :=
  ∀ m u, A m → u.InOrder c K m → p.Ensures u fun r v => ∃ m', v.InOrder c K m' ∧ ∀ x, r = some x → B x m'

/-- Any arming, whatever the result. -/
def anyArming {α : Type} (_ : α) (_ : Arming) : Prop := True

/-- A subroutine that returns OK leaves WEL confirmed. -/
def confirmedIfOk (code : StatusCode) (m : Arming) : Prop := code = .ok → m = .confirmed

/-! ### The ways to build a piece -/

section Pieces

variable {c : Config} {wakes : Prop} {K : Arming → List Event → Env → Prop} {A : Arming → Prop} {α β : Type}
  {B : α → Arming → Prop}

theorem Seq.Ordered.pure {x : α} (h : ∀ m, A m → B x m) : (Seq.pure x).Ordered c K A B :=
  fun m _ hm hu => ⟨m, hu, by rintro _ ⟨⟩; exact h m hm⟩

theorem Seq.Ordered.done {x : α} : (Seq.pure x).Ordered c K A anyArming := .pure fun _ _ => trivial

theorem Seq.Ordered.andThen {B' : β → Arming → Prop} {p : Seq β} {k : β → Seq α} (hp : p.Ordered c K A B')
    (hk : ∀ x, (k x).Ordered c K (B' x) B) : (p.andThen k).Ordered c K A B := by
  refine fun m u hm hu => (Seq.andThen_ensures _ _).2 ((hp m u hm hu).imp fun r v ⟨m', hv, hx⟩ => ?_)
  cases r with
  | none => exact ⟨m', hv, nofun⟩
  | some x => exact hk x m' v (hx x rfl) hv

theorem Seq.Ordered.look {k : State → Seq α} (hk : ∀ u, (k u).Ordered c K A B) :
    (Seq.look k).Ordered c K A B := fun m u hm hu => hk u m u hm hu

theorem Seq.Ordered.update {f : State → State} {k : Seq α}
    (hf : ∀ u, (f u).cfg = u.cfg ∧ (f u).trace = u.trace ∧ (f u).env = u.env)
    (hk : k.Ordered c K A B) : (Seq.update f k).Ordered c K A B := by
  intro m u hm hu
  obtain ⟨hcfg, htrace, henv⟩ := hf u
  exact hk m (f u) hm ⟨hcfg.trans hu.cfg, by rw [htrace, henv]; exact hu.hist⟩

theorem State.InOrder.setPhase {m : Arming} {u : State} (h : u.InOrder c K m) (v : List Label) :
    (u.setPhase v).InOrder c K m := ⟨h.cfg, h.hist⟩

theorem Seq.Ordered.label {l : Label} {p : Seq α} (hp : p.Ordered c K A B) :
    (Seq.label l p).Ordered c K A B := by
  refine fun m u hm hu => (Seq.label_ensures _ _).2 ((hp m _ hm (hu.setPhase _)).imp ?_)
  rintro (_ | x) v ⟨m', hv, hx⟩
  · exact ⟨m', hv, nofun⟩
  · exact ⟨m', hv.setPhase _, hx⟩

theorem Seq.Ordered.stuck {l : Label} : (Seq.stuck (α := α) l).Ordered c K A B :=
  fun m _ _ hu => ⟨m, hu.setPhase _, nofun⟩

theorem Seq.Ordered.abort {B : StatusCode → Arming → Prop} {cause : Cause} {code : StatusCode}
    (h : ∀ m, A m → B code m) : (Seq.abort cause code).Ordered c K A B :=
  .update (fun _ => ⟨rfl, rfl, rfl⟩) (.pure h)

theorem Seq.Ordered.fail {cause : Cause} {code : StatusCode} :
    (Seq.abort cause code).Ordered c K A anyArming := .abort fun _ _ => trivial

theorem Seq.Ordered.ite {q : Prop} [Decidable q] {p k : Seq α} (hp : p.Ordered c K A B)
    (hk : k.Ordered c K A B) : (if q then p else k).Ordered c K A B := by
  split
  · exact hp
  · exact hk

/-- A step whose failure ends the piece. -/
theorem Seq.Ordered.orAbort {B' : Answer → Arming → Prop} {B : StatusCode → Arming → Prop} {p : Seq Answer}
    {cause : Cause} {code : StatusCode} {k : List Byte → Seq StatusCode} (hp : p.Ordered c K A B')
    (hcode : ∀ m, B code m) (hk : ∀ b, (k b).Ordered c K (B' (.ok b)) B) :
    (p.orAbort cause code k).Ordered c K A B := by
  refine .andThen hp fun r => ?_
  cases r with
  | ok b => exact hk b
  | fail => exact .abort fun m _ => hcode m
  | never => exact .abort fun m _ => hcode m

/-- A subroutine whose failure ends the piece. -/
theorem Seq.Ordered.orReturn {B' B : StatusCode → Arming → Prop} {p k : Seq StatusCode} {code : StatusCode}
    (hp : p.Ordered c K A B') (hcode : ∀ m, B code m) (hk : k.Ordered c K (B' .ok) B) :
    (p.orReturn code k).Ordered c K A B := by
  refine .andThen hp fun st => ?_
  split
  · rename_i hst
    exact hst ▸ hk
  · exact .pure fun m _ => hcode m

theorem anyArming_all (x : α) : ∀ m, anyArming x m := fun _ => trivial

/-! ### The calls -/

variable (H : OrderKeeps c wakes K)
include H

/-- A call in order, by its answer. -/
theorem OrderKeeps.call_ordered {x : Call} {B : Answer → Arming → Prop} (hx : ∀ m, A m → x.inOrder wakes m)
    (hB : ∀ m site r, A m → B r (m.next c ⟨site, x, r⟩)) : (Machine.call x).Ordered c K A B := by
  intro m u hm hu
  have hnext : (u.afterCall x).InOrder c K (m.next c ⟨u.phase, x, u.answer x⟩) := by
    refine ⟨hu.cfg, ?_⟩
    rw [State.afterCall_env, hu.cfg]
    exact H.call hu.cfg hu.hist (hx m hm)
  have hlast := hB m u.phase (u.answer x) hm
  refine call_cases (fun b hb => ⟨_, hnext, ?_⟩) (fun hf => ⟨_, hnext, ?_⟩) fun _ => ⟨_, hnext, nofun⟩
  · rintro _ ⟨⟩
    rwa [hb] at hlast ⊢
  · rintro _ ⟨⟩
    rwa [hf] at hlast ⊢

theorem OrderKeeps.event {x : Call} (hx : x.isExecutor = false) :
    (Machine.call x).Ordered c K A anyArming := by
  refine H.call_ordered (fun _ _ => Call.inOrder_of_exec ?_) fun _ _ _ _ => trivial
  rintro t tmo rfl
  cases hx

/-- `Exec` of a qualifying command only where `A` is the confirmation of WEL. -/
theorem OrderKeeps.exec {t : Txn} (ht : t = .wake → wakes)
    (hq : txnQualifying t = true → ∀ m, A m → m = .confirmed) :
    (execCall t).Ordered c K A anyArming :=
  .look fun _ => H.call_ordered (fun m hm => ⟨fun h => hq h m hm, ht⟩) fun _ _ _ _ => trivial

theorem OrderKeeps.tx (bytes : List Byte) : (txCall bytes).Ordered c K A anyArming :=
  .look fun _ => H.call_ordered (fun _ _ => trivial) fun _ _ _ _ => trivial

theorem OrderKeeps.rx (n : Word) : (rxCall n).Ordered c K A anyArming :=
  .look fun _ => H.call_ordered (fun _ _ => trivial) fun _ _ _ _ => trivial

theorem OrderKeeps.poll (p : Config → Pred) (tmo : State → Word) :
    (pollCall p tmo).Ordered c K A anyArming :=
  .look fun _ => H.call_ordered (fun _ _ => trivial) fun _ _ _ _ => trivial

theorem OrderKeeps.release : busRelease.Ordered c K A anyArming :=
  fun _ _ _ hu => ⟨.none, ⟨hu.cfg, H.logged _ hu.hist⟩, fun _ _ => trivial⟩

theorem OrderKeeps.readReg {t : Txn} (n : Word) (ht : t = .wake → wakes) (hq : txnQualifying t = false) :
    (readReg t n).Ordered c K A anyArming := by
  refine .andThen (.label (H.exec ht (by rw [hq]; nofun))) fun r => ?_
  cases r with
  | ok b => exact .label (H.rx n)
  | fail => exact .done
  | never => exact .done

theorem OrderKeeps.writeReg {t : Txn} {bytes : List Byte} (ht : t = .wake → wakes)
    (hA : ∀ m, A m → m = .confirmed) : (writeReg t bytes).Ordered c K A anyArming := by
  refine .andThen (.label (H.exec ht fun _ => hA)) fun r => ?_
  cases r with
  | ok b => exact .label (H.tx bytes)
  | fail => exact .done
  | never => exact .done

/-! ### The subroutines -/

/-- Write-enable, then its poll on the same configuration, confirm WEL (40_status_poll_wren.md R135). -/
theorem OrderKeeps.doWriteEnable : doWriteEnable.Ordered c K A confirmedIfOk := by
  have wren : (Machine.cmd .wren).Ordered c K A fun r m => ∀ b, r = .ok b → m = .sent := by
    intro m u hm hu
    refine H.call_ordered (x := .exec .wren u.tmo.dflt) (fun _ _ => ⟨nofun, nofun⟩) ?_ m u hm hu
    rintro m site _ _ b rfl
    rfl
  have poll : (pollCall predWel fun s => s.tmo.dflt).Ordered c K (· = .sent)
      fun r m => ∀ b, r = .ok b → m = .confirmed := by
    intro m u hm hu
    refine H.call_ordered (A := (· = .sent))
      (x := .autoPoll .rdsr (predWel u.cfg) u.cfg.pollInterval u.tmo.dflt) (fun _ _ => trivial) ?_ m u hm hu
    rintro _ site _ rfl b rfl
    simp [Arming.next, hu.cfg]
  refine .orAbort (.label wren) nofun fun b =>
    .orAbort (B' := fun r m => ∀ b, r = .ok b → m = .confirmed) (.label fun m u hm hu => ?_) nofun
      fun b' => .pure fun m hm _ => hm b' rfl
  exact poll m u (hm b rfl) hu

theorem OrderKeeps.doPollReady (tmo : State → Word) : (doPollReady tmo).Ordered c K A anyArming :=
  .orAbort (.label (H.poll _ _)) (anyArming_all _) fun _ => .done

theorem OrderKeeps.doGetStatus : doGetStatus.Ordered c K A anyArming := by
  refine .orAbort (.label (H.readReg _ nofun rfl)) (anyArming_all _) fun b => .look fun u => ?_
  split
  · exact .fail
  · exact .done
  · exact .orAbort (.label (H.readReg _ nofun rfl)) (anyArming_all _) fun b' => .look fun _ => .done

theorem OrderKeeps.doResetChip : doResetChip.Ordered c K A anyArming :=
  .orAbort (.label (H.exec nofun nofun)) (anyArming_all _) fun _ =>
    .orAbort (.label (H.exec nofun nofun)) (anyArming_all _) fun _ =>
      .andThen (.label (H.doPollReady _)) fun _ => .ite .done .fail

theorem OrderKeeps.writeBack {l0 l1 l2 l3 : Label} {n m : Word} {t : Txn} {image : Scratch → List Byte}
    {k : List Byte → Seq StatusCode} (ht : t = .wake → wakes) (hq : txnQualifying t = false)
    (hk : ∀ b, (k b).Ordered c K (anyArming (Answer.ok b)) anyArming) :
    (writeBack l0 l1 l2 l3 (.wrsr n) t image m k).Ordered c K A anyArming :=
  .orReturn (.label H.doWriteEnable) (anyArming_all _) <| .look fun _ =>
    .orAbort (.label (H.writeReg nofun fun _ h => h rfl)) (anyArming_all _) fun _ =>
      .orReturn (.label (H.doPollReady _)) (anyArming_all _) <|
        .orAbort (.label (H.readReg _ ht hq)) (anyArming_all _) hk

theorem OrderKeeps.doQuadMode (en : Bool) : (doQuadMode en).Ordered c K A anyArming := by
  rw [doQuadMode_eq]
  refine .orAbort (.label (H.readReg _ nofun rfl)) (anyArming_all _) fun _ =>
    .update (fun _ => ⟨rfl, rfl, rfl⟩) (H.writeBack nofun rfl fun _ => ?_)
  exact .update (fun _ => ⟨rfl, rfl, rfl⟩) (.look fun _ => .ite .done .fail)

theorem OrderKeeps.hpVerify (en : Bool) (b : List Byte) : (hpVerify en b).Ordered c K A anyArming := by
  refine .update (fun _ => ⟨rfl, rfl, rfl⟩) (.look fun _ => .ite ?_ .fail)
  exact .orAbort (.label (H.event rfl)) (anyArming_all _) fun _ =>
    .orAbort (.label (H.event rfl)) (anyArming_all _) fun _ => .done

theorem OrderKeeps.doHpMode (en : Bool) : (doHpMode en).Ordered c K A anyArming := by
  rw [doHpMode_eq]
  exact .orAbort (.label (H.readReg _ nofun rfl)) (anyArming_all _) fun _ =>
    .update (fun _ => ⟨rfl, rfl, rfl⟩) <|
      .orAbort (.label (H.readReg _ nofun rfl)) (anyArming_all _) fun _ =>
        .update (fun _ => ⟨rfl, rfl, rfl⟩) (H.writeBack nofun rfl fun b => H.hpVerify en b)

theorem OrderKeeps.doInit : doInit.Ordered c K A anyArming :=
  .update (fun _ => ⟨rfl, rfl, rfl⟩) <|
    .orAbort (.label (H.event rfl)) (anyArming_all _) fun _ =>
      .orAbort (.label (H.event rfl)) (anyArming_all _) fun _ =>
        .orReturn (.label H.doResetChip) (anyArming_all _) <|
          .orReturn (.label (H.doQuadMode _)) (anyArming_all _) <|
            .orReturn (.label (H.doHpMode _)) (anyArming_all _) <|
              .update (fun _ => ⟨rfl, rfl, rfl⟩) .done

theorem OrderKeeps.powerBody {l : Label} {t : Txn} (ht : t = .wake → wakes)
    (hq : txnQualifying t = true → ∀ m, A m → m = .confirmed) :
    ((Seq.label l (cmd t)).orAbort .bus .error fun _ => Seq.pure .ok).Ordered c K A anyArming :=
  .orAbort (.label (H.exec ht hq)) (anyArming_all _) fun _ => .done

theorem OrderKeeps.eraseBody {l0 l1 l2 : Label} {t : Txn} {tmo : State → Word} (ht : t = .wake → wakes) :
    ((Seq.label l0 Machine.doWriteEnable).orReturn .error <|
      (Seq.label l1 (cmd t)).orAbort .bus .error fun _ =>
        (Seq.label l2 (Machine.doPollReady tmo)).orReturn .error (Seq.pure .ok)).Ordered c K A anyArming :=
  .orReturn (.label H.doWriteEnable) (anyArming_all _) <|
    .orAbort (.label (H.exec ht fun _ _ h => h rfl)) (anyArming_all _) fun _ =>
      .orReturn (.label (H.doPollReady _)) (anyArming_all _) .done

theorem OrderKeeps.changeEraseState {l0 l2 l3 : Label} {source target : StatusCode} {t : Txn}
    (ht : t = .wake → wakes) (hq : txnQualifying t = false) :
    (changeEraseState l0 l2 l3 source target t).Ordered c K A anyArming := by
  refine .andThen (.label H.doGetStatus) fun _ => .update (fun _ => ⟨rfl, rfl, rfl⟩) (.ite ?_ .done)
  refine .orAbort (.label (H.exec ht (by rw [hq]; nofun))) (anyArming_all _) fun _ =>
    .andThen (.label H.doGetStatus) fun _ => ?_
  exact .update (fun _ => ⟨rfl, rfl, rfl⟩) (.ite .done .fail)

/-- Every program command of the loop of WRITE follows the write-enable of its own chunk (41_program.md
R151). -/
theorem OrderKeeps.writeLoop (fuel : Nat) : (writeLoop fuel).Ordered c K A anyArming := by
  induction fuel generalizing A with
  | zero => exact .stuck
  | succ fuel ih =>
    refine .orReturn (.label H.doWriteEnable) (anyArming_all _) (.look fun _ => ?_)
    refine .orAbort (.label (H.exec nofun fun _ _ h => h rfl)) (anyArming_all _) fun _ => .look fun _ => ?_
    refine .orAbort (.label (H.tx _)) (anyArming_all _) fun _ => ?_
    refine .orReturn (.label (H.doPollReady _)) (anyArming_all _) (.update (fun _ => ⟨rfl, rfl, rfl⟩) ?_)
    exact .look fun _ => .ite .done ih

theorem OrderKeeps.doWrite (a n : Word) : (doWrite a n).Ordered c K A anyArming := by
  unfold Machine.doWrite
  exact .update (fun _ => ⟨rfl, rfl, rfl⟩) (H.writeLoop _)

/-! ### The instructions -/

/-- Every operation makes its calls in order. -/
theorem OrderKeeps.opBody {i : Instr} (hwakes : (∃ a n, i = .wakeup a n) → wakes) :
    (opBody i).Ordered c K A anyArming := by
  cases i with
  | getStatus => exact .label H.doGetStatus
  | pollReady => exact .label (H.doPollReady _)
  | writeEnable => exact .label fun m u hm hu => (H.doWriteEnable m u hm hu).imp fun _ _ ⟨m', hv, _⟩ =>
      ⟨m', hv, fun _ _ => trivial⟩
  | write => exact H.doWrite _ _
  | quadMode => exact .label (H.doQuadMode _)
  | hpMode => exact .label (H.doHpMode _)
  | eraseBlock => exact H.eraseBody nofun
  | eraseSector =>
    unfold Machine.opBody
    refine .look fun _ => .ite ?_ .fail
    exact .orReturn (.label H.doWriteEnable) (anyArming_all _) (H.powerBody nofun fun _ _ h => h rfl)
  | eraseChip => exact H.eraseBody nofun
  | suspendErase => exact H.changeEraseState nofun rfl
  | resumeErase => exact H.changeEraseState nofun rfl
  | sleep => exact H.powerBody nofun nofun
  | wakeup a n => exact H.powerBody (fun _ => hwakes ⟨a, n, rfl⟩) nofun
  | read =>
    refine .orAbort (.label (H.exec nofun nofun)) (anyArming_all _) fun _ =>
      .orAbort (.label (H.rx _)) (anyArming_all _) fun b => ?_
    exact .update (fun _ => ⟨rfl, rfl, rfl⟩) .done
  | init => exact H.doInit
  | deinit =>
    unfold Machine.opBody
    refine .update (fun _ => ⟨rfl, rfl, rfl⟩) (.orReturn (.label H.doResetChip) (anyArming_all _) ?_)
    exact .andThen (.label H.release) fun _ => .done
  | resetChip => exact .label H.doResetChip
  | getGeometry | tRdsr | tRdscur | tRdcr | tWren | tWrsr | tPp4 | tSe | tBe | tCe | tSusp | tResm | tDp
  | tWake | tRsten | tQread | tRst => exact .done

/-- A lone transaction makes its calls in order, if it is taken to be armed (log 18). -/
theorem OrderKeeps.txnPiece {t : Txn} (ht : t = .wake → wakes) (s : State) :
    (s.txnPiece t).Ordered c K (· = .confirmed) anyArming := by
  cases t with
  | rdsr | rdscur | rdcr | qread => exact H.readReg _ nofun rfl
  | wrsr | pp4 => exact H.writeReg nofun fun _ => id
  | wren | se | be | ce | susp | resm | dp | wake | rsten | rst => exact .label (H.exec ht fun _ _ => id)

end Pieces

section Instructions

variable {wakes : Prop} {K : Arming → List Event → Env → Prop} {i : Instr} {s t : State}

/-- What calls in order keep, an operation keeps from its acceptance on. -/
theorem exec_operation_inOrder {m : Arming} (H : OrderKeeps s.cfg wakes K) (hi : i.txn? = none)
    (hwakes : (∃ a n, i = .wakeup a n) → wakes) (h0 : K m [] s.env) (h : exec i s = .next t) :
    ∃ m', K m' t.trace t.env := by
  obtain ⟨op, a, n, rfl⟩ := exec_operation hi h
  obtain ⟨m', hv, -⟩ := H.opBody (A := fun _ => True) hwakes m (s.accept op a n) trivial ⟨rfl, h0⟩
  generalize Machine.opBody i (s.accept op a n) = run at hv ⊢
  rcases run with ⟨_ | code, v⟩
  · exact ⟨m', hv.hist⟩
  · exact ⟨m', hv.hist⟩

/-- What calls in order keep, a lone transaction keeps. -/
theorem exec_txn_inOrder {u : Txn} (H : OrderKeeps s.cfg wakes K) (hu : i.txn? = some u)
    (hwakes : u = .wake → wakes) (h0 : K .confirmed s.trace s.env)
    (h : exec i s = .next t) : ∃ m', K m' t.trace t.env := by
  rw [exec_txn hu (bufInRange_of_exec h)] at h
  obtain rfl := Host.Outcome.next.inj h
  obtain ⟨m', hv, -⟩ := H.txnPiece hwakes s _ s rfl ⟨rfl, h0⟩
  exact ⟨m', hv.hist⟩

end Instructions

/-! ### The arming of a trace -/

/-- The arming after a trace. -/
def armingAfter (c : Config) (m : Arming) (es : List Event) : Arming := es.foldl (Arming.next c) m

/-- One more line keeps a trace armed, if its call is no qualifying one or WEL is confirmed. -/
theorem armedFrom_append {c : Config} {m : Arming} {es : List Event} {e : Event} :
    armedFrom c m (es ++ [e]) = true ↔
      armedFrom c m es = true ∧ (e.call.qualifying = true → armingAfter c m es = .confirmed) := by
  induction es generalizing m with
  | nil => cases hq : e.call.qualifying <;> simp [armedFrom, armingAfter, hq]
  | cons x es ih =>
    have hafter : armingAfter c m (x :: es) = armingAfter c (m.next c x) es := rfl
    simp [armedFrom, ih, hafter, and_assoc]

/-- A trace is armed, and `m` is the arming after it. -/
def armedTrace (c : Config) (m : Arming) (es : List Event) (_ : Env) : Prop :=
  armedFrom c .none es = true ∧ armingAfter c .none es = m

theorem orderKeeps_armedTrace (c : Config) : OrderKeeps c True (armedTrace c) where
  call := by
    rintro _ x u rfl ⟨harmed, rfl⟩ hx
    refine ⟨armedFrom_append.2 ⟨harmed, fun hq => ?_⟩, List.foldl_concat ..⟩
    cases x with
    | exec t tmo => exact hx.1 hq
    | tx | rx | autoPoll | pinBind | busInit | busReinit | busRelease => cases hq
  logged _ h := ⟨armedFrom_append.2 ⟨h.1, nofun⟩, List.foldl_concat ..⟩

/-- Settles O38: every piece of an operation makes its calls in order, and calls in order keep the trace
armed. -/
theorem writeEnablePrecedesEveryCommand : Obligations.WriteEnablePrecedesEveryCommand := by
  intro i s t hi _ h
  obtain ⟨_, harmed, -⟩ := exec_operation_inOrder (orderKeeps_armedTrace s.cfg) hi (fun _ => trivial)
    ⟨rfl, rfl⟩ h
  exact harmed

end Sys2Proof.Machine
end

section
/-!
The block's hardware reset (70_reset_and_hazards.md R250), and how many calls and events an operation makes
(R275): its lines are the first of a plan whose calls are counted.
-/

namespace Sys2Proof.Machine

/-- Settles O11: the step takes the event, and `State.hardwareReset` writes the registers of R50 alone. -/
theorem hardwareResetAbandonsOperation : Obligations.HardwareResetAbandonsOperation := by
  intro s rest hc h
  exact ⟨(s.take rest).hardwareReset, step_of_nextEvent hc h, rfl, rfl, rfl, rfl, rfl, rfl, rfl, rfl, rfl,
    rfl⟩

/-! ### Counting the calls of a plan -/

/-- The executor calls of a plan. -/
def planCalls (plan : List (List Label × Call)) : Nat := (plan.filter fun l => l.2.isExecutor).length

/-- The collaborator events of a plan. -/
def planEvents (plan : List (List Label × Call)) : Nat := (plan.filter fun l => !l.2.isExecutor).length

/-- What the table of 70_reset_and_hazards.md R275 says of the calls and events of an operation, but for the
chunks of WRITE. -/
def State.CountsFit (i : Instr) (t : State) : Prop :=
  callFloor i ≤ executorCalls t.trace ∧ (∀ k, callBound i = some k → executorCalls t.trace ≤ k) ∧
    (eventBounds i).1 ≤ collaboratorEvents t.trace ∧ collaboratorEvents t.trace ≤ (eventBounds i).2

/-- The first line of the plan alone reaches the fewest calls and events of the table, the whole plan does not
exceed the most. -/
def planFits (i : Instr) (plan : List (List Label × Call)) : Bool :=
  decide (callFloor i ≤ planCalls (plan.take 1)) &&
    (callBound i).all (fun k => decide (planCalls plan ≤ k)) &&
    decide ((eventBounds i).1 ≤ planEvents (plan.take 1)) && decide (planEvents plan ≤ (eventBounds i).2)

section Counts

variable {i : Instr} {s t : State} {plan : List (List Label × Call)}

/-- An operation that made at least one call of a plan that fits. -/
theorem State.countsFit_of_lines (hlines : t.lines <+: plan) (hne : t.trace ≠ [])
    (hfit : planFits i plan = true) : t.CountsFit i := by
  simp only [planFits, Bool.and_eq_true, decide_eq_true_eq] at hfit
  obtain ⟨⟨⟨hfloor, hbound⟩, hevents⟩, hmost⟩ := hfit
  have hpos : 1 ≤ t.lines.length := by
    rw [State.lines, List.length_map]
    exact List.length_pos_iff.2 hne
  have hfirst : plan.take 1 <+: t.lines :=
    List.prefix_of_prefix_length_le (List.take_prefix 1 plan) hlines (by rw [List.length_take]; omega)
  have hcalls : planCalls t.lines = executorCalls t.trace := (executorCalls_eq t.trace).symm
  have hcollab : planEvents t.lines = collaboratorEvents t.trace := (collaboratorEvents_eq t.trace).symm
  rw [State.CountsFit, ← hcalls, ← hcollab]
  refine ⟨hfloor.trans (hfirst.filter _).length_le, fun k hk => ?_, hevents.trans (hfirst.filter _).length_le,
    (hlines.filter _).length_le.trans hmost⟩
  rw [hk] at hbound
  exact (hlines.filter _).length_le.trans (of_decide_eq_true hbound)

/-- An operation that makes no call, and need make none. -/
theorem State.countsFit_of_nil (htrace : t.trace = []) (hfloor : callFloor i = 0)
    (hevents : (eventBounds i).1 = 0) : t.CountsFit i := by
  rw [State.CountsFit, htrace, hfloor, hevents]
  exact ⟨Nat.zero_le _, fun _ _ => Nat.zero_le _, Nat.zero_le _, Nat.zero_le _⟩

theorem State.hangs.trace_ne_nil (h : s.hangs t) : t.trace ≠ [] := by
  intro hnil
  obtain ⟨hlast, -⟩ := h
  rw [hnil] at hlast
  cases hlast

theorem State.cutShort.trace_ne_nil {c : Cause} {code : StatusCode} (h : s.cutShort t c code) :
    t.trace ≠ [] := by
  obtain ⟨-, ⟨hlast, -⟩ | hhangs⟩ := h
  · intro hnil
    rw [State.answers, hnil] at hlast
    cases hlast
  · exact hhangs.trace_ne_nil

/-- An operation that makes planned calls makes at least one. -/
theorem State.straight.trace_ne_nil {c : Cause} {code : StatusCode} (h : s.straight t plan c code)
    (hplan : plan ≠ []) : t.trace ≠ [] := by
  obtain ⟨-, ⟨hall, -⟩ | hcut⟩ := h
  · intro hnil
    rw [State.lines, hnil] at hall
    exact hplan hall.symm
  · exact hcut.trace_ne_nil

/-- An operation that makes the calls of a plan that fits. -/
theorem State.straight.countsFit {c : Cause} {code : StatusCode} (h : s.straight t plan c code)
    (hplan : plan ≠ []) (hfit : planFits i plan = true) : t.CountsFit i :=
  State.countsFit_of_lines h.1 (h.trace_ne_nil hplan) hfit

/-- SUSPEND_ERASE and RESUME_ERASE read the status, and may send one command and read it again. -/
theorem State.countsFit_of_changedErase {l0 l2 l3 : Label} {source target : StatusCode} {k : Nat} {u : Txn}
    (h : s.hungErase t l0 l2 l3 source k u ∨ s.changedErase t l0 l2 l3 source target k u)
    (hread : planFits i (statusLines s [l0]) = true)
    (hwhole : planFits i (eraseStateLines s l0 l2 l3 k u) = true) : t.CountsFit i := by
  obtain ⟨hne, hlines⟩ : t.trace ≠ [] ∧
      (t.lines <+: statusLines s [l0] ∨ t.lines <+: eraseStateLines s l0 l2 l3 k u) := by
    rcases h with ⟨hhangs, -, ⟨hlines, -⟩ | ⟨hlines, -⟩⟩ | ⟨st, rest, hstatus, hout⟩
    · exact ⟨hhangs.trace_ne_nil, .inl hlines⟩
    · exact ⟨hhangs.trace_ne_nil, .inr hlines⟩
    · refine ⟨fun hnil => ?_, ?_⟩
      · rw [State.answers, hnil] at hstatus
        cases hstatus
      · split at hout
        · exact .inr hout.1
        · exact .inl hout.1
  rcases hlines with hlines | hlines
  · exact State.countsFit_of_lines hlines hne hread
  · exact State.countsFit_of_lines hlines hne hwhole

variable {a n : Word}

/-- WRITE makes executor calls alone, at least one and no more than five a chunk. -/
theorem exec_write_counts (hc : s.cfg.wf = true) (hp : s.phase = []) (h : exec (.write a n) s = .next t) :
    t.CountsFit (.write a n) ∧
      executorCalls t.trace ≤ 5 * chunkCount s.cfg.pageSize a.toNat n.toNat := by
  obtain ⟨hstraight, -⟩ := exec_write_straight hc hp h
  obtain ⟨hlines, -⟩ := id hstraight
  have hne : t.trace ≠ [] := hstraight.trace_ne_nil (List.cons_ne_nil _ _)
  have hall : ∀ e ∈ t.trace, e.call.isExecutor = true := fun e he => by
    have hmem := hlines.mem (List.mem_map_of_mem he)
    exact (List.filter_eq_self.1 (chunksLines_isExecutor s 0 0 _)) _ hmem
  have hcalls : executorCalls t.trace = t.trace.length := congrArg List.length (List.filter_eq_self.2 hall)
  have hevents : collaboratorEvents t.trace = 0 :=
    List.length_eq_zero_iff.2 (List.filter_eq_nil_iff.2 fun e he => by simp [hall e he])
  have hlen : t.trace.length ≤ 5 * chunkCount s.cfg.pageSize a.toNat n.toNat := by
    have hle := hlines.length_le
    rwa [State.lines, List.length_map, programLines_length hc] at hle
  rw [State.CountsFit, hcalls, hevents]
  exact ⟨⟨List.length_pos_iff.2 hne, nofun, le_rfl, le_rfl⟩, hlen⟩

/-- INIT binds the pins at least. -/
theorem exec_init_counts (hp : s.phase = []) (h : exec (.init a n) s = .next t) :
    t.CountsFit (.init a n) := by
  obtain ⟨u, hu, -, -, -, hlines, -, -, -, -, hends, -⟩ := initOutcome a n s hp
  obtain rfl : u = t := Host.Outcome.next.inj (hu.symm.trans h)
  refine State.countsFit_of_lines hlines ?_ rfl
  rcases hends with ⟨-, ⟨hlen, -⟩ | ⟨hlen, -⟩ | ⟨hlen, -⟩⟩ | ⟨-, hcut⟩ | ⟨-, -, hcut⟩ | ⟨-, hcut⟩
  · exact List.ne_nil_of_length_eq_add_one hlen
  · exact List.ne_nil_of_length_eq_add_one hlen
  · exact List.ne_nil_of_length_eq_add_one hlen
  · exact hcut.trace_ne_nil
  · exact hcut.trace_ne_nil
  · exact hcut.trace_ne_nil

end Counts

/-- The counts of every operation but WRITE, by its plan. -/
theorem exec_countsFit {i : Instr} {s t : State} (hi : i.txn? = none) (hc : s.cfg.wf = true)
    (hp : s.phase = []) (h : exec i s = .next t) : t.CountsFit i := by
  have same {u : State} (hu : exec i s = .next u) : u = t := Host.Outcome.next.inj (hu.symm.trans h)
  cases i with
  | getStatus a n =>
    obtain ⟨u, hu, -, -, hlines, -, hends, -⟩ := getStatusOutcome a n s hp
    obtain rfl := same hu
    refine State.countsFit_of_lines hlines ?_ rfl
    rcases hends with hcut | ⟨-, ⟨hlen, -⟩ | ⟨hlen, -⟩⟩
    · exact hcut.trace_ne_nil
    · exact List.ne_nil_of_length_eq_add_one hlen
    · exact List.ne_nil_of_length_eq_add_one hlen
  | pollReady a n =>
    obtain ⟨u, hu, -, -, hplan, -⟩ := pollReadyOutcome a n s hp
    exact same hu ▸ hplan.countsFit (List.cons_ne_nil _ _) rfl
  | writeEnable a n =>
    obtain ⟨u, hu, -, -, hplan, -⟩ := writeEnableOutcome a n s hp
    exact same hu ▸ hplan.countsFit (List.cons_ne_nil _ _) rfl
  | write a n => exact (exec_write_counts hc hp h).1
  | quadMode a n =>
    obtain ⟨u, hu, -, -, -, -, hlines, -, hends, -⟩ := quadModeOutcome a n s hp
    obtain rfl := same hu
    refine State.countsFit_of_lines hlines ?_ rfl
    rcases hends with hcut | ⟨hlen, -⟩
    · exact hcut.trace_ne_nil
    · exact List.ne_nil_of_length_eq_add_one hlen
  | hpMode a n =>
    obtain ⟨u, hu, -, -, -, -, hlines, -, -, hends, -⟩ := hpModeOutcome a n s hp
    obtain rfl := same hu
    refine State.countsFit_of_lines hlines ?_ rfl
    rcases hends with hcut | ⟨-, ⟨hlen, -⟩ | ⟨hlen, -⟩⟩
    · exact hcut.trace_ne_nil
    · exact List.ne_nil_of_length_eq_add_one hlen
    · exact List.ne_nil_of_length_eq_add_one hlen
  | eraseBlock a n =>
    obtain ⟨u, hu, -, -, hplan, -⟩ := eraseBlockOutcome a n s hp
    exact same hu ▸ hplan.countsFit (List.cons_ne_nil _ _) rfl
  | eraseSector a n =>
    obtain ⟨u, hu, -, -, hno, hplan⟩ := eraseSectorOutcome a n s hp
    obtain rfl := same hu
    rcases Nat.lt_or_ge a.toNat s.cfg.sectorCount with hlt | hge
    · exact (hplan hlt).1.countsFit (List.cons_ne_nil _ _) rfl
    · exact State.countsFit_of_nil (hno hge).1 rfl rfl
  | eraseChip a n =>
    obtain ⟨u, hu, -, -, hplan, -⟩ := eraseChipOutcome a n s hp
    exact same hu ▸ hplan.countsFit (List.cons_ne_nil _ _) rfl
  | suspendErase a n =>
    obtain ⟨u, hu, -, -, -, -, -, hout, -⟩ := suspendEraseOutcome a n s hp
    exact same hu ▸ State.countsFit_of_changedErase hout rfl rfl
  | resumeErase a n =>
    obtain ⟨u, hu, -, -, -, -, -, hout, -⟩ := resumeEraseOutcome a n s hp
    exact same hu ▸ State.countsFit_of_changedErase hout rfl rfl
  | sleep a n =>
    obtain ⟨⟨u, hu, -, -, hplan, -⟩, -⟩ := sleepAndWakeupOutcome a n s hp
    exact same hu ▸ hplan.countsFit (List.cons_ne_nil _ _) rfl
  | wakeup a n =>
    obtain ⟨-, u, hu, -, -, hplan, -⟩ := sleepAndWakeupOutcome a n s hp
    exact same hu ▸ hplan.countsFit (List.cons_ne_nil _ _) rfl
  | read a n =>
    have hplan := exec_straight (op := 0x10) (a := a) (n := n) hp rfl h (readBody_followsPlan a n) rfl
    exact hplan.countsFit (List.cons_ne_nil _ _) rfl
  | init a n => exact exec_init_counts hp h
  | deinit a n =>
    obtain ⟨u, hu, -, -, -, -, -, hplan, -⟩ := deinitOutcome a n s hp
    exact same hu ▸ hplan.countsFit (List.cons_ne_nil _ _) rfl
  | getGeometry a n =>
    obtain ⟨u, hu, -, -, hnil, -⟩ := getGeometryReturnsOk a n s hp
    exact same hu ▸ State.countsFit_of_nil hnil rfl rfl
  | resetChip a n =>
    obtain ⟨u, hu, -, -, hplan, -⟩ := resetChipOutcome a n s hp
    exact same hu ▸ hplan.countsFit (List.cons_ne_nil _ _) rfl
  | tRdsr | tRdscur | tRdcr | tWren | tWrsr | tPp4 | tSe | tBe | tCe | tSusp | tResm | tDp | tWake
  | tRsten | tQread | tRst => cases hi

/-- Settles O41: each operation made the first calls of a plan that fits the table, and at least one of
them. -/
theorem callCountsStayInBounds : Obligations.CallCountsStayInBounds := by
  intro i s t hi hc hp h
  obtain ⟨hfloor, hbound, hevents, hmost⟩ := exec_countsFit hi hc hp h
  refine ⟨hfloor, hbound, ?_, hevents, hmost⟩
  rintro a n rfl
  exact (exec_write_counts hc hp h).2

end Sys2Proof.Machine
end

section
/-!
The reference chip in deep power-down (70_reset_and_hazards.md R263, 60_exceptions.md R240; log 9, 11): no
call but the leave instruction changes it, and its polls fail.
-/

namespace Sys2Proof.Machine

/-! ### A chip that stays asleep -/

/-- A call to a sleeping chip leaves it as it finds it, unless it is the leave instruction (20_memory.md
R80). -/
theorem Env.respond_asleep {e : Env} {c : Config} {x : Call} {m : Arming} (hd : (e.chipNow c).dpd = true)
    (hx : x.inOrder False m) : (e.respond c x).2 = e.chipNow c := by
  have htransmit (t : Option Txn) (bytes : List Byte) : (e.chipNow c).transmit c t bytes = e.chipNow c :=
    Chip.transmit_ignored (by simp [hd])
  unfold Env.respond
  split
  · rfl
  · rfl
  · rfl
  · cases x with
    | tx bytes tmo => simp only [chipAfterFail, htransmit, ite_self]
    | exec | rx | autoPoll | pinBind | busInit | busReinit | busRelease => rfl
  · rfl
  · cases x with
    | exec t tmo => exact Chip.exec_asleep hd fun ht => hx.2 ht
    | tx bytes tmo => exact htransmit _ _
    | autoPoll t p i tmo => simp [chipAnswer, Chip.poll, hd]
    | rx | pinBind | busInit | busReinit | busRelease => rfl

/-- The reference chip is the sleeping chip `k`, or `k` with its cycle ended, which takes an entry of `cs`. -/
structure Env.Asleep (c : Config) (k : Chip) (cs : List Bool) (e : Env) : Prop where
  /-- The chip answers. -/
  mode : e.mode = .refchip
  /-- The entries to come are among those of `cs`. -/
  completions : e.completions ⊆ cs
  /-- The chip. -/
  chip : e.chip = k ∨ e.chip = k.complete c ∧ true ∈ cs

section Asleep

variable {c : Config} {k : Chip} {cs : List Bool} {e : Env}

/-- What a call finds of it. -/
theorem Env.Asleep.chipNow (h : e.Asleep c k cs) :
    e.chipNow c = k ∨ e.chipNow c = k.complete c ∧ true ∈ cs := by
  rcases e.chipNow_cases c with hsame | ⟨hends, -, hhead⟩
  · rw [hsame]
    exact h.chip
  · refine .inr ⟨?_, h.completions (List.mem_of_head? hhead)⟩
    rcases h.chip with hchip | ⟨hchip, -⟩
    · rw [hends, hchip]
    · rw [hends, hchip, Chip.complete_complete]

theorem Env.Asleep.after {x : Call} {m : Arming} (h : e.Asleep c k cs) (hd : k.dpd = true)
    (hx : x.inOrder False m) : (e.after c x).Asleep c k cs := by
  have hnow : (e.chipNow c).dpd = true := by
    rcases h.chipNow with hchip | ⟨hchip, -⟩
    · rw [hchip, hd]
    · rw [hchip, Chip.complete_dpd, hd]
  refine ⟨h.mode, fun b hb => h.completions (List.mem_of_mem_tail hb), ?_⟩
  rw [Env.after_chip, Env.respond_asleep hnow hx]
  exact h.chipNow

/-- Calls without the leave instruction keep the chip asleep. -/
theorem orderKeeps_asleep (hd : k.dpd = true) (cs : List Bool) :
    OrderKeeps c False fun _ _ e => e.Asleep c k cs where
  call := by
    rintro m x u - hu hx
    exact hu.after hd hx
  logged _ h := h

end Asleep

/-- The instructions that may send the leave instruction are WAKEUP and its template. -/
theorem exec_asleep {i : Instr} {s t : State} (hmode : s.env.mode = .refchip) (hd : s.env.chip.dpd = true)
    (hwakeup : ∀ a n, i ≠ .wakeup a n) (hwake : i ≠ .tWake) (h : exec i s = .next t) :
    t.env.Asleep s.cfg s.env.chip s.env.completions := by
  have H := orderKeeps_asleep (c := s.cfg) hd s.env.completions
  have hstart : s.env.Asleep s.cfg s.env.chip s.env.completions :=
    ⟨hmode, List.Subset.refl _, .inl rfl⟩
  cases hi : i.txn? with
  | none =>
    obtain ⟨-, hend⟩ := exec_operation_inOrder (m := .none) H hi
      (fun ⟨a, n, heq⟩ => hwakeup a n heq) hstart h
    exact hend
  | some u =>
    have hu : u ≠ .wake := by
      rintro rfl
      cases i <;> cases hi
      exact hwake rfl
    obtain ⟨-, hend⟩ := exec_txn_inOrder H hi hu hstart h
    exact hend

/-! ### Answers that are known to fail -/

section Fails

variable {g g' : Known} {E E' : Env → Prop} {k : Chip}

theorem call_leads_fail {x : Call} (hfail : ∀ e, E e → (e.respond g.cfg x).1 = .fail ∧ E' (e.after g.cfg x)) :
    (call x).Leads g E .fail g.next E' := by
  intro u hu
  obtain ⟨hans, henv⟩ := hfail u.env hu.env
  have hanswer : u.answer x = .fail := by rw [State.answer, hu.cfg, hans]
  rw [call_ensures, hanswer]
  refine ⟨rfl, hu.cfg, hu.work, hu.cause, ?_, ?_⟩
  · rw [State.afterCall_trace, List.length_append, hu.calls]
    rfl
  · rwa [State.afterCall_env, hu.cfg]

/-- A step that fails ends the piece. -/
theorem Seq.Leads.orAbort_fail {m : Seq Answer} {cause : Cause} {code : StatusCode}
    {kont : List Byte → Seq StatusCode} (hm : m.Leads g E .fail g' E') :
    (m.orAbort cause code kont).Leads g E code { g' with cause := some cause } E' := hm.andThen .abort

/-- A subroutine that fails ends the piece. -/
theorem Seq.Leads.orReturn_fail {m kont : Seq StatusCode} {code st : StatusCode} (hm : m.Leads g E st g' E')
    (hst : st ≠ .ok) : (m.orReturn code kont).Leads g E code g' E' :=
  hm.andThen (by rw [if_neg hst]; exact .pure)

/-- A poll that finds nothing that matches. -/
theorem pollCall_leads_fail {p : Config → Pred} {tmo : State → Word}
    (hfail : waitLoop (p g.cfg) (k.poll g.cfg (p g.cfg)).1 = .fail)
    (hchip : (k.poll g.cfg (p g.cfg)).2 = k) :
    (pollCall p tmo).Leads g (Env.OnChip k []) .fail g.next (Env.OnChip k []) := by
  refine .look fun u hu => ?_
  rw [hu]
  refine call_leads_fail fun e he => ⟨?_, he.after hchip⟩
  rw [he.respond]
  exact hfail

/-- Write-enable that the chip ignores, with WEL clear (40_status_poll_wren.md R135). -/
theorem doWriteEnable_leads_fail (hwren : k.exec g.cfg .wren = k)
    (hfail : waitLoop (predWel g.cfg) (k.poll g.cfg (predWel g.cfg)).1 = .fail)
    (hchip : (k.poll g.cfg (predWel g.cfg)).2 = k) :
    doWriteEnable.Leads g (Env.OnChip k []) .error { g.next.next with cause := some .bus }
      (Env.OnChip k []) := by
  have hpoll : (pollCall predWel fun t => t.tmo.dflt).Leads g.next (Env.OnChip k []) .fail g.next.next
      (Env.OnChip k []) := pollCall_leads_fail hfail hchip
  exact (cmd_leads_steady hwren).label.orAbort hpoll.label.orAbort_fail

end Fails

/-- A poll of a sleeping chip reads nothing (60_exceptions.md R240; log 11). -/
theorem Chip.poll_asleep {k : Chip} {c : Config} (hd : k.dpd = true) (p : Pred) :
    k.poll c p = ([], k) := if_pos hd

/-- Settles O59: no call in order wakes the chip, and a poll that reads nothing fails. -/
theorem sleepingChipIgnoresCommands : Obligations.SleepingChipIgnoresCommands := by
  refine ⟨fun i s t hmode hd hwakeup hwake h => ?_, fun a n s hon hd _ => ?_⟩
  · rcases (exec_asleep hmode hd hwakeup hwake h).chip with hchip | ⟨hchip, hends⟩
    · exact ⟨fun _ => hchip, .inl hchip⟩
    · exact ⟨fun hno => absurd hends hno, .inr hchip⟩
  · obtain ⟨t, ht⟩ := exec_next_of_bufInRange (i := .pollReady a n) (s := s) rfl
    obtain ⟨u, hu⟩ := exec_next_of_bufInRange (i := .writeEnable a n) (s := s) rfl
    have hpoll (p : Pred) : s.env.chip.poll s.cfg p = ([], s.env.chip) := Chip.poll_asleep hd p
    have hready : (pollCall predReady fun t => t.req.n).Leads s.known (Env.OnChip s.env.chip []) .fail
        s.known.next (Env.OnChip s.env.chip []) :=
      pollCall_leads_fail (congrArg (fun r => waitLoop _ r.1) (hpoll _)) (congrArg Prod.snd (hpoll _))
    have hwel : doWriteEnable.Leads s.known (Env.OnChip s.env.chip []) .error
        { s.known.next.next with cause := some .bus } (Env.OnChip s.env.chip []) :=
      doWriteEnable_leads_fail (Chip.exec_asleep hd nofun) (congrArg (fun r => waitLoop _ r.1) (hpoll _))
        (congrArg Prod.snd (hpoll _))
    obtain ⟨hret, hmeets⟩ := exec_of_leads rfl ht hready.label.orAbort_fail.label hon.env
    obtain ⟨hret', hmeets'⟩ := exec_of_leads rfl hu hwel.label hon.env
    exact ⟨t, u, ht, ⟨hret, hmeets.cause⟩, hu, ⟨hret', hmeets'.cause⟩, hmeets'.calls⟩

end Sys2Proof.Machine
end

section
/-!
Operations on the reference chip that go by BUF as well as by the chip: known answers, with the registers
and BUF kept (20_memory.md R80; log 9). WRITE chunk by chunk, and operations requested while a cycle is
running (70_reset_and_hazards.md R262).
-/

namespace Sys2Proof.Machine

/-! ### Runs that keep the block -/

/-- In a run from `s0`: the working registers are `w`, no other register was written, and the environment
satisfies `E`. -/
structure State.RunsAt (s0 : State) (w : Work) (E : Env → Prop) (u : State) : Prop where
  /-- The registers, and BUF. -/
  kept : (s0.setWork w).BlockKept u
  /-- The environment. -/
  env : E u.env

/-- A step of the run: it gives `x` and leads from `E` to `E'`. -/
def Seq.Turns {α : Type} (s0 : State) (w : Work) (E : Env → Prop) (x : α) (E' : Env → Prop)
    (m : Seq α) : Prop :=
  ∀ u, s0.RunsAt w E u → m.Ensures u fun r v => r = some x ∧ s0.RunsAt w E' v

/-- The rest of the run: it returns OK in a state as `Q` says. -/
def Seq.Succeeds (s0 : State) (w : Work) (E : Env → Prop) (Q : State → Prop) (m : Seq StatusCode) : Prop :=
  ∀ u, s0.RunsAt w E u → m.Ensures u fun r v => r = some .ok ∧ Q v

section Rules

variable {α : Type} {s0 : State} {w : Work} {E E' : Env → Prop} {Q : State → Prop} {x : α}

theorem State.RunsAt.work {u : State} (h : s0.RunsAt w E u) : u.work = w := h.kept.work

theorem State.RunsAt.cfg {u : State} (h : s0.RunsAt w E u) : u.cfg = s0.cfg := h.kept.cfg

/-- BUF is as the host's stores during the calls made left it. -/
theorem State.RunsAt.buf {u : State} (h : s0.RunsAt w E u) : ∃ j, u.buf = s0.bufAfter j := ⟨_, h.kept.buf⟩

/-- A piece with known answers that writes no register. -/
theorem Seq.Leads.turns {m : Seq α} (h : ∀ g : Known, g.cfg = s0.cfg → ∃ g', m.Leads g E x g' E')
    (hk : Seq.Keeps State.BlockKept m) : m.Turns s0 w E x E' := by
  intro u hu
  obtain ⟨g', hm⟩ := h ⟨u.cfg, u.work, u.cause, u.trace.length⟩ hu.cfg
  obtain ⟨hr, hv⟩ := hm u ⟨rfl, rfl, rfl, rfl, hu.env⟩
  exact ⟨hr, State.blockKept_respects.trans hu.kept (hk u), hv.env⟩

theorem Seq.Turns.orAbort {m : Seq Answer} {cause : Cause} {code : StatusCode} {bytes : List Byte}
    {k : List Byte → Seq StatusCode} (hm : m.Turns s0 w E (.ok bytes) E')
    (hk : (k bytes).Succeeds s0 w E' Q) : (m.orAbort cause code k).Succeeds s0 w E Q := fun u hu =>
  (Seq.orAbort_ensures _ _ _ _).2 ((hm u hu).imp fun _ v ⟨hr, hv⟩ => hr ▸ hk v hv)

theorem Seq.Turns.orReturn {m k : Seq StatusCode} {code : StatusCode} (hm : m.Turns s0 w E .ok E')
    (hk : k.Succeeds s0 w E' Q) : (m.orReturn code k).Succeeds s0 w E Q := fun u hu =>
  (Seq.orReturn_ensures _ _ _).2 ((hm u hu).imp fun _ v ⟨hr, hv⟩ => by
    subst hr
    exact hk v hv)

/-- The end of the run. -/
theorem Seq.Succeeds.pure (hQ : ∀ u, s0.RunsAt w E u → Q u) : (Seq.pure .ok).Succeeds s0 w E Q :=
  fun u hu => ⟨rfl, hQ u hu⟩

theorem Seq.Succeeds.look {k : State → Seq StatusCode}
    (hk : ∀ u, s0.RunsAt w E u → (k u).Succeeds s0 w E Q) : (Seq.look k).Succeeds s0 w E Q :=
  fun u hu => hk u hu u hu

/-- Other values are written to the working registers. -/
theorem Seq.Succeeds.writeWork {w' : Work} {f : State → Work} {k : Seq StatusCode}
    (hf : ∀ u, s0.RunsAt w E u → f u = w') (hk : k.Succeeds s0 w' E Q) :
    (Seq.update (fun s => s.setWork (f s)) k).Succeeds s0 w E Q := fun u hu =>
  hk (u.setWork (f u)) ⟨hf u hu ▸ hu.kept.setWork w', hu.env⟩

/-- An operation whose body succeeds. -/
theorem exec_of_succeeds {i : Instr} {op : Byte} {a n : Word} {s t : State}
    (hop : i.opreq? = some (op, a, n)) (h : exec i s = .next t)
    (hbody : (opBody i).Succeeds (s.accept op a n) s.work E Q) (hE : E s.env) :
    t.completed .ok ∧ ∃ v, Q v ∧ t.env = v.env ∧ t.buf = v.buf := by
  obtain ⟨hr, hv⟩ := hbody (s.accept op a n) ⟨State.blockKept_respects.refl _, hE⟩
  rw [← exec_operation_eq hop h]
  generalize opBody i (s.accept op a n) = run at hr hv ⊢
  obtain ⟨r, v⟩ := run
  subst hr
  exact ⟨⟨⟨rfl, rfl, rfl⟩, rfl⟩, v, hv, rfl, rfl⟩

end Rules

/-! ### The chunks of WRITE -/

/-- The data phase has its effect on the chip, for the descriptor last given to `Exec`. -/
theorem txCall_leads_onChip {g : Known} {k : Chip} {t : Txn} {bytes : List Byte} :
    (txCall bytes).Leads g (fun e => e.OnChip k [] ∧ e.lastExec = some t) (.ok []) g.next
      (Env.OnChip (k.transmit g.cfg (some t) bytes) []) :=
  .look fun _ _ => call_leads fun _ ⟨he, hlast⟩ => ⟨by rw [he.respond]; rfl, he.after (by rw [hlast]; rfl)⟩

/-- `Exec` of a template with a data phase leaves the chip (20_memory.md R80). -/
theorem execCall_turns {s0 : State} {w : Work} {k : Chip} {l : Label} {t : Txn}
    (ht : (t.desc s0.cfg).dataDir ≠ .none) :
    (Seq.label l (execCall t)).Turns s0 w (Env.OnChip k []) (.ok [])
      fun e => e.OnChip k [] ∧ e.lastExec = some t := by
  have H := State.blockKept_respects
  refine Seq.Leads.turns (fun g hg => ⟨g.next, ?_⟩) (H.label _ (H.execCall _))
  have hleads := execCall_leads_onChip (g := g) (k := k) (cs := []) t
  rw [Chip.exec_of_data (hg ▸ ht)] at hleads
  exact hleads.label

section Chunks

variable {s0 : State} {w : Work} {k k' : Chip} {Q : State → Prop}

/-- One visit of the loop of WRITE on the chip `k`: write-enable makes `k'` of it, the data phase `k2`,
whatever the host has stored by then, and the poll waits for the end of its cycle (41_program.md R151). -/
theorem writeChunk_succeeds {k2 : Chip} {kont : Seq StatusCode}
    (hwel : ∀ g : Known, g.cfg = s0.cfg →
      ∃ g', doWriteEnable.Leads g (Env.OnChip k []) .ok g' (Env.OnChip k' []))
    (htx : ∀ j, k'.transmit s0.cfg (some (.pp4 w.cur w.chunk))
      (Memory.readBytes bufBackground (s0.bufAfter j) w.ptr.toNat w.chunk.toNat) = k2)
    (hd : k2.dpd = false) (hwip : anySet k2.sr s0.cfg.mWip = true)
    (hk : kont.Succeeds s0 w (Env.OnChip (k2.complete s0.cfg) []) Q) :
    (writeChunk kont).Succeeds s0 w (Env.OnChip k []) Q := by
  have H := State.blockKept_respects
  have hwrite : (Seq.label .X1 doWriteEnable).Turns s0 w (Env.OnChip k []) .ok (Env.OnChip k' []) :=
    Seq.Leads.turns (fun g hg => (hwel g hg).imp fun _ h => h.label) (H.label _ H.doWriteEnable)
  refine hwrite.orReturn (.look fun u hu => ?_)
  rw [hu.work]
  refine (execCall_turns (t := .pp4 w.cur w.chunk) nofun).orAbort (.look fun v hv => ?_)
  obtain ⟨j, hbuf⟩ := hv.buf
  rw [hv.work, State.bufRead, hbuf]
  have htxs : (Seq.label .X3 (txCall (Memory.readBytes bufBackground (s0.bufAfter j) w.ptr.toNat
      w.chunk.toNat))).Turns s0 w (fun e => e.OnChip k' [] ∧ e.lastExec = some (.pp4 w.cur w.chunk)) (.ok [])
      (Env.OnChip k2 []) := by
    refine Seq.Leads.turns (fun g hg => ⟨g.next, ?_⟩) (H.label _ (H.txCall _))
    rw [← htx j, ← hg]
    exact txCall_leads_onChip.label
  refine htxs.orAbort ((Seq.Leads.turns (fun g hg => ⟨g.next, ?_⟩) (H.label _ (H.doPollReady _))).orReturn hk)
  have hpoll := doPollReady_leads_onChip (g := g) (tmo := fun u => u.tmo.program) hd
  rw [hg, if_pos hwip] at hpoll
  exact hpoll.label

/-- The end of a visit of the loop: it was the last one, or the next one follows. -/
theorem writeLoop_succeeds_of_chunk {fuel : Nat} {E : Env → Prop}
    (hend : (w.advance s0.cfg).cur = (w.advance s0.cfg).endAddr →
      (Seq.pure .ok).Succeeds s0 (w.advance s0.cfg) E Q)
    (hmore : (w.advance s0.cfg).cur ≠ (w.advance s0.cfg).endAddr →
      (writeLoop fuel).Succeeds s0 (w.advance s0.cfg) E Q) :
    (Seq.update (fun s => s.setWork (s.work.advance s.cfg)) <|
      Seq.look fun s =>
        if s.work.cur = s.work.endAddr then Seq.pure .ok else writeLoop fuel).Succeeds s0 w E Q := by
  refine .writeWork (fun u hu => by rw [hu.work, hu.cfg]) (.look fun u hu => ?_)
  rw [hu.work]
  split
  · exact hend ‹_›
  · exact hmore ‹_›

theorem doWrite_succeeds {E : Env → Prop} {a n : Word}
    (h : (writeLoop (n.toNat + 1)).Succeeds s0 (w.startWrite s0.cfg a n) E Q) :
    (doWrite a n).Succeeds s0 w E Q := by
  unfold doWrite
  exact .writeWork (fun u hu => by rw [hu.work, hu.cfg]) h

end Chunks

/-! ### A chip with a cycle running -/

/-- An awake chip with WIP set. -/
structure Chip.Busy (k : Chip) (c : Config) : Prop where
  /-- It is awake. -/
  awake : k.dpd = false
  /-- A cycle is running. -/
  wip : anySet k.sr c.mWip = true

section Busy

variable {k : Chip} {c : Config} {g : Known} {s t : State} {a n : Word}

/-- The end of its cycle; without one in flight WIP stays as it is (log 12). -/
theorem Chip.Busy.complete (h : k.Busy c) :
    k.complete c = if k.inflight = .none then k
      else { k with sr := k.sr &&& ~~~c.mWip &&& ~~~c.mWel, inflight := .none } := by
  unfold Chip.complete
  rw [and_not_or]
  by_cases hf : k.inflight = .none
  · rw [if_neg fun hboth => hboth.1 hf, if_pos hf]
  · rw [if_pos ⟨hf, h.wip⟩, if_neg hf]

theorem Chip.Busy.complete_inflight (h : k.Busy c) : (k.complete c).inflight = .none := by
  rw [h.complete]
  split
  · assumption
  · rfl

theorem Chip.Busy.not_accepts (h : k.Busy c) : k.accepts c ≠ true := by
  rw [ne_eq, Chip.accepts_iff, h.wip]
  rintro ⟨-, ⟨⟩⟩

theorem Chip.Busy.exec_wren (h : k.Busy c) : k.exec c .wren = k := by
  rw [Chip.exec_wren h.awake, if_neg (anySet_eq_true.1 h.wip)]

theorem Chip.Busy.exec_erase (h : k.Busy c) {u : Txn} (hu : isErase u = true) : k.exec c u = k := by
  rw [Chip.exec_erase hu h.awake, if_neg h.not_accepts]

theorem Chip.Busy.transmit (h : k.Busy c) (u : Option Txn) (bytes : List Byte) : k.transmit c u bytes = k :=
  Chip.transmit_ignored fun hboth => h.not_accepts hboth.2

/-- WEL is one bit, so the poll for it is satisfied where it is set. -/
theorem predWel_sat_iff (hc : c.wf = true) {v : Byte} :
    (predWel c).sat v = true ↔ anySet v c.mWel = true := by
  have hone : isOneBit c.mWel = true := Config.isOneBit_of_mem hc (by simp [Config.masks])
  rw [Pred.sat_iff, anySet_eq_true]
  refine ⟨fun heq hzero => isOneBit_ne_zero hone (heq.symm.trans hzero), fun hset => ?_⟩
  simp only [isOneBit, List.any_eq_true, List.mem_range, beq_iff_eq] at hone
  obtain ⟨j, -, hj⟩ := hone
  simp only [predWel, hj, BitVec.and_twoPow] at hset ⊢
  split
  · rfl
  · rename_i hbit
    exact absurd (by simp [hbit]) hset

/-- Without the latch the poll for it ends at the first reading. -/
theorem Chip.Busy.poll_wel (hc : c.wf = true) (h : k.Busy c) (hwel : anySet k.sr c.mWel = false) :
    (predWel c).sat k.sr = false ∧ k.poll c (predWel c) = ([k.sr], k) := by
  have hsat : (predWel c).sat k.sr = false := by
    rw [Bool.eq_false_iff, ne_eq, predWel_sat_iff hc, hwel]
    exact Bool.false_ne_true
  refine ⟨hsat, ?_⟩
  rw [Chip.poll, if_neg (by simp [h.awake]), if_neg (by simp [hsat]), if_neg fun hboth => ?_]
  exact predWel_ne_predReady hc hboth.1

/-- Write-enable on a busy chip that has the latch (70_reset_and_hazards.md R262 (i)). -/
theorem doWriteEnable_leads_latched (hc : g.cfg.wf = true) (h : k.Busy g.cfg)
    (hwel : anySet k.sr g.cfg.mWel = true) :
    doWriteEnable.Leads g (Env.OnChip k []) .ok g.next.next (Env.OnChip k []) := by
  have hpoll : (pollCall predWel fun u => u.tmo.dflt).Leads g.next (Env.OnChip k []) (.ok [k.sr]) g.next.next
      (Env.OnChip k []) :=
    pollCall_leads_onChip (k := k) (cs := []) h.awake ((predWel_sat_iff hc).2 hwel)
  exact (cmd_leads_steady h.exec_wren).label.orAbort (hpoll.label.orAbort .pure)

/-- Write-enable on a busy chip that lost the latch (R262 (ii)). -/
theorem doWriteEnable_leads_unlatched (hc : g.cfg.wf = true) (h : k.Busy g.cfg)
    (hwel : anySet k.sr g.cfg.mWel = false) :
    doWriteEnable.Leads g (Env.OnChip k []) .error { g.next.next with cause := some .bus }
      (Env.OnChip k []) := by
  obtain ⟨hsat, hpoll⟩ := h.poll_wel hc hwel
  refine doWriteEnable_leads_fail h.exec_wren ?_ (congrArg Prod.snd hpoll)
  rw [hpoll, waitLoop_fail_iff]
  rintro b hb
  rwa [List.mem_singleton.1 hb]

/-- POLL_READY waits for the end of the cycle. -/
theorem exec_pollReady_busy (hon : s.onChip) (h : s.env.chip.Busy s.cfg) :
    ∃ t, exec (.pollReady a n) s = .next t ∧ t.completed .ok ∧ t.env.chip = s.env.chip.complete s.cfg := by
  obtain ⟨t, ht⟩ := exec_next_of_bufInRange (i := .pollReady a n) (s := s) rfl
  have hpoll := doPollReady_leads_onChip (g := s.known) (tmo := fun u => u.req.n) h.awake
  rw [show s.known.cfg = s.cfg from rfl, if_pos h.wip] at hpoll
  obtain ⟨hret, hmeets⟩ := exec_of_leads (i := .pollReady a n) rfl ht hpoll.label hon.env
  exact ⟨t, ht, ⟨hret, hmeets.cause⟩, hmeets.env.chip⟩

/-- ERASE_SECTOR loses its command, or ends at write-enable. -/
theorem exec_eraseSector_busy (hc : s.cfg.wf = true) (hon : s.onChip) (h : s.env.chip.Busy s.cfg)
    (ha : a.toNat < s.cfg.sectorCount) :
    ∃ t, exec (.eraseSector a n) s = .next t ∧ t.env.chip = s.env.chip ∧
      (anySet s.env.chip.sr s.cfg.mWel = true → t.completed .ok) ∧
      (anySet s.env.chip.sr s.cfg.mWel = false → t.aborted .bus .error) := by
  obtain ⟨t, ht⟩ := exec_next_of_bufInRange (i := .eraseSector a n) (s := s) rfl
  have hexists {u : State} (hu : u.cfg = s.cfg) : sectorExists u.cfg a = true := by
    rw [hu]
    exact decide_eq_true ha
  cases hwel : anySet s.env.chip.sr s.cfg.mWel with
  | true =>
    have hbody : (opBody (.eraseSector a n)).Leads s.known (Env.OnChip s.env.chip []) .ok
        s.known.next.next.next (Env.OnChip s.env.chip []) := by
      rw [opBody_eraseSector]
      refine .look fun u hu => ?_
      rw [if_pos (hexists hu)]
      exact (doWriteEnable_leads_latched (g := s.known) hc h hwel).label.orReturn
        ((cmd_leads_steady (h.exec_erase rfl)).label.orAbort .pure)
    obtain ⟨hret, hmeets⟩ := exec_of_leads rfl ht hbody hon.env
    exact ⟨t, ht, hmeets.env.chip, fun _ => ⟨hret, hmeets.cause⟩, nofun⟩
  | false =>
    have hbody : (opBody (.eraseSector a n)).Leads s.known (Env.OnChip s.env.chip []) .error
        { s.known.next.next with cause := some .bus } (Env.OnChip s.env.chip []) := by
      rw [opBody_eraseSector]
      refine .look fun u hu => ?_
      rw [if_pos (hexists hu)]
      exact (doWriteEnable_leads_unlatched (g := s.known) hc h hwel).label.orReturn_fail nofun
    obtain ⟨hret, hmeets⟩ := exec_of_leads rfl ht hbody hon.env
    exact ⟨t, ht, hmeets.env.chip, nofun, fun _ => ⟨hret, hmeets.cause⟩⟩

/-- A WRITE of one chunk with the latch still set loses its program command, and its completion poll waits
for the cycle that ran. -/
theorem exec_write_latched (hc : s.cfg.wf = true) (hon : s.onChip) (h : s.env.chip.Busy s.cfg)
    (hn : n.toNat ≤ s.cfg.pageSize - a.toNat % s.cfg.pageSize)
    (hwel : anySet s.env.chip.sr s.cfg.mWel = true) (ht : exec (.write a n) s = .next t) :
    t.completed .ok ∧ t.env.chip = s.env.chip.complete s.cfg := by
  have hat := Work.startWrite_atChunk hc s.work a n
  obtain ⟨hleft, -⟩ := Work.startWrite_fits hc s.work a n
  have hchunk : (s.work.startWrite s.cfg a n).chunk.toNat = n.toNat :=
    (firstChunk_toNat hc a n).trans (Nat.min_eq_right hn)
  have hlast := (hat.advance_cur_eq_end_iff hc).2 (by omega)
  have hbody : (doWrite a n).Succeeds (s.accept 0x04 a n) s.work (Env.OnChip s.env.chip [])
      (fun v => v.env.OnChip (s.env.chip.complete s.cfg) []) := by
    refine doWrite_succeeds (writeChunk_succeeds (k' := s.env.chip) (k2 := s.env.chip) (fun g hg => ?_)
      (fun j => h.transmit _ _) h.awake h.wip (writeLoop_succeeds_of_chunk ?_ fun hmore => ?_))
    · exact ⟨_, doWriteEnable_leads_latched (hg ▸ hc) (hg ▸ h) (hg ▸ hwel)⟩
    · exact fun _ => .pure fun _ hu => hu.env
    · exact absurd hlast hmore
  obtain ⟨hret, v, hv, henv, -⟩ := exec_of_succeeds (i := .write a n) rfl ht hbody hon.env
  exact ⟨hret, henv ▸ hv.chip⟩

/-- Other values are written to the working registers. -/
theorem Seq.Leads.writeWork {α : Type} {g' : Known} {E E' : Env → Prop} {x : α} {w : Work} {f : State → Work}
    {m : Seq α} (hf : ∀ u : State, u.cfg = g.cfg → u.work = g.work → f u = w)
    (hm : m.Leads { g with work := w } E x g' E') :
    (Seq.update (fun s => s.setWork (f s)) m).Leads g E x g' E' := fun u hu =>
  hm _ ⟨hu.cfg, hf u hu.cfg hu.work, hu.cause, hu.calls, hu.env⟩

/-- WRITE begins with a write-enable (41_program.md R151). -/
theorem enableLines_prefix_programLines (s : State) (a n : Word) :
    enableLines s [.X1] <+: programLines s a n :=
  (List.prefix_append _ _).trans (List.prefix_append _ _)

/-- WRITE without the latch ends at its first write-enable, so it sent no program command. -/
theorem exec_write_unlatched (hc : s.cfg.wf = true) (hp : s.phase = []) (hon : s.onChip)
    (h : s.env.chip.Busy s.cfg) (hwel : anySet s.env.chip.sr s.cfg.mWel = false)
    (ht : exec (.write a n) s = .next t) :
    t.aborted .bus .error ∧ t.env.chip = s.env.chip ∧ programCommands t.trace = [] := by
  have hbody : (doWrite a n).Leads s.known (Env.OnChip s.env.chip []) .error
      { s.known.next.next with work := s.work.startWrite s.cfg a n, cause := some .bus }
      (Env.OnChip s.env.chip []) := by
    unfold doWrite
    refine .writeWork (w := s.work.startWrite s.cfg a n) (fun u hcfg hwork => by rw [hcfg, hwork]; rfl) ?_
    exact (doWriteEnable_leads_unlatched (g := { s.known with work := _ }) hc h hwel).label.orReturn_fail
      nofun
  obtain ⟨hret, hmeets⟩ := exec_of_leads (i := .write a n) rfl ht hbody hon.env
  refine ⟨⟨hret, hmeets.cause⟩, hmeets.env.chip, ?_⟩
  obtain ⟨⟨hlines, -⟩, -⟩ := exec_write_straight hc hp ht
  have henable : t.lines <+: enableLines s [.X1] :=
    List.prefix_of_prefix_length_le hlines (enableLines_prefix_programLines s a n)
      (by rw [State.lines, List.length_map, hmeets.calls]; rfl)
  obtain ⟨more, hmore⟩ := henable
  have hnone : (enableLines s [.X1]).filterMap (fun l => l.2.programCmd?) = [] := rfl
  rw [← hmore, List.filterMap_append] at hnone
  rw [programCommands_eq]
  exact (List.append_eq_nil_iff.1 hnone).1

/-- Settles O58: the three operations, each by what the busy chip makes of its calls. -/
theorem busyChipLosesCommands : Obligations.BusyChipLosesCommands := by
  intro a a' n n' a'' tmo s hon hc hp _ hawake hwip ha hnbuf hn
  have hbusy : s.env.chip.Busy s.cfg := ⟨hawake, hwip⟩
  obtain ⟨t, ht, htchip, htset, htclear⟩ := exec_eraseSector_busy (n := n') hc hon hbusy ha
  obtain ⟨u, hu⟩ := exec_next_of_bufInRange (i := .write a' n) (s := s)
    (decide_eq_true (by simpa using hnbuf))
  obtain ⟨v, hv, hvret, hvchip⟩ := exec_pollReady_busy (a := a'') (n := tmo) hon hbusy
  rw [hbusy.complete] at hvchip
  refine ⟨t, u, v, ht, hu, hv, hvret, hvchip, htchip, ?_⟩
  cases hwel : anySet s.env.chip.sr s.cfg.mWel with
  | true =>
    obtain ⟨hret, hchip⟩ := exec_write_latched hc hon hbusy hn hwel hu
    rw [hchip, Chip.complete_mem]
    exact ⟨rfl, fun _ => ⟨htset hwel, hret, hbusy.complete_inflight⟩, nofun⟩
  | false =>
    obtain ⟨hret, hchip, hprogram⟩ := exec_write_unlatched hc hp hon hbusy hwel hu
    exact ⟨congrArg Chip.mem hchip, nofun, fun _ => ⟨htclear hwel, hret, hprogram, hchip⟩⟩

end Busy

end Sys2Proof.Machine
end

section
/-!
The round trip (95_test_vectors.md S6): what WRITE leaves in an erased range of a ready reference chip, and
what READ puts in BUF (41_program.md R151; 44_boundary_ops.md R201; 20_memory.md R80; log 9).
-/

namespace Sys2Proof.Machine

/-! ### Addresses inside the array -/

section Range

variable {c : Config} {a : Word}

/-- An address inside the array is neither cut nor wrapped (30_encoding.md R96). -/
theorem flashByteAddr_of_lt {j : Nat} (hc : c.wf = true) (h : a.toNat + j < c.flashSize) :
    flashByteAddr c a j = a.toNat + j := by
  have hmax : c.flashSize ≤ 2 ^ c.addrBits := by
    simp only [Config.wf, Config.geometryOk, Bool.and_eq_true, beq_iff_eq, decide_eq_true_eq] at hc
    obtain ⟨⟨⟨⟨⟨⟨⟨⟨⟨-, hmax⟩, -⟩, -⟩, -⟩, -⟩, -⟩, -⟩, -⟩, -⟩ := hc
    exact hmax
  have hlt : a.toNat < c.flashSize := by omega
  rw [flashByteAddr, flashAddr, Nat.mod_eq_of_lt (hlt.trans_le hmax), Nat.mod_eq_of_lt hlt,
    Nat.mod_eq_of_lt h]

/-- A byte of the array after a program of a range inside it. -/
theorem programFrom_read_range {m : Memory} {f : Nat → Byte} {n : Nat} (hc : c.wf = true)
    (hm : Memory.wf flashBackground m = true) (hfit : a.toNat + n ≤ c.flashSize) (x : Nat) :
    Memory.read flashBackground (programFrom c a 0 m ((List.range n).map f)) x =
      if a.toNat ≤ x ∧ x < a.toNat + n then Memory.read flashBackground m x &&& f (x - a.toNat)
      else Memory.read flashBackground m x := by
  rw [List.range_eq_range', programFrom_read hm, ← List.range_eq_range']
  split
  · have hx : flashByteAddr c a (x - a.toNat) = x := by
      rw [flashByteAddr_of_lt hc (by omega)]
      omega
    have hone := filter_flashByteAddr (c := c) (a := a) (n := n) (j := x - a.toNat) (by omega) (by omega)
    rw [hx] at hone
    rw [hone]
    rfl
  · have hnone : ((List.range n).filter fun j => flashByteAddr c a j = x) = [] := by
      refine List.filter_eq_nil_iff.2 fun j hj => ?_
      have hlt := List.mem_range.1 hj
      rw [decide_eq_true_eq, flashByteAddr_of_lt hc (by omega)]
      omega
    rw [hnone]
    rfl

end Range

/-! ### A program command on a ready chip -/

/-- A ready chip after write-enable and a program command, its cycle running. -/
def Chip.programming (k : Chip) (c : Config) (a : Word) (bytes : List Byte) : Chip :=
  { k.armed c with mem := programFrom c a 0 k.mem bytes }.startCycle c .program

section Programming

variable {k : Chip} {c : Config} {a n : Word} {bytes : List Byte}

theorem Chip.transmit_armed (hc : c.wf = true) (hbits : srDistinct c) (h : k.ready c) :
    (k.armed c).transmit c (some (.pp4 a n)) bytes = k.programming c a bytes := by
  obtain ⟨hd, hwip⟩ := h
  exact Chip.transmit_pp4 (k := k.armed c) hd (Chip.armed_accepts hc hbits hwip)

/-- A byte of the array then, where the command stays inside it. -/
theorem Chip.programming_read {f : Nat → Byte} {l : Nat} (hc : c.wf = true)
    (hm : Memory.wf flashBackground k.mem = true) (hfit : a.toNat + l ≤ c.flashSize) (x : Nat) :
    Memory.read flashBackground (k.programming c a ((List.range l).map f)).mem x =
      if a.toNat ≤ x ∧ x < a.toNat + l then Memory.read flashBackground k.mem x &&& f (x - a.toNat)
      else Memory.read flashBackground k.mem x := programFrom_read_range hc hm hfit x

theorem Chip.programming_busy (hc : c.wf = true) (h : k.ready c) : (k.programming c a bytes).Busy c := by
  obtain ⟨hd, -⟩ := h
  have hwip : isOneBit c.mWip = true := Config.isOneBit_of_mem hc (by simp [Config.masks])
  exact ⟨hd, anySet_or_value.trans (by rw [anySet_self (isOneBit_ne_zero hwip), Bool.or_true])⟩

/-- The end of the cycle leaves it ready for the next chunk. -/
theorem Chip.programmed_ready (hc : c.wf = true) (h : k.ready c) :
    ((k.programming c a bytes).complete c).ready c := by
  have hbusy := Chip.programming_busy (a := a) (bytes := bytes) hc h
  refine ⟨Chip.complete_dpd.trans hbusy.awake, ?_⟩
  rw [hbusy.complete, if_neg nofun]
  exact anySet_cleared

end Programming

/-! ### WRITE into an erased range -/

/-- The premises of the round trip on the range of `n` bytes at `a` and the host (70_reset_and_hazards.md
R264). -/
structure State.WritesErased (s : State) (a n : Word) : Prop where
  /-- The configuration is allowed. -/
  cfg : s.cfg.wf = true
  /-- The bits of SR are told apart. -/
  bits : srDistinct s.cfg
  /-- The range lies inside the array. -/
  fits : a.toNat + n.toNat ≤ s.cfg.flashSize
  /-- The host leaves the data alone. -/
  stable : s.bufStable n.toNat
  /-- The range is erased. -/
  erased : ∀ x, a.toNat ≤ x → x < a.toNat + n.toNat → s.flashByte x = 0xFF

/-- The chip is ready, with the first `m` bytes of BUF at `a` and every other byte of its array as `s` has
it. -/
structure Chip.Holds (s : State) (a : Word) (m : Nat) (k : Chip) : Prop where
  /-- No cycle is running. -/
  ready : k.ready s.cfg
  /-- The array is in canonical form. -/
  wf : Memory.wf flashBackground k.mem = true
  /-- The array. -/
  bytes : ∀ x, Memory.read flashBackground k.mem x =
    if a.toNat ≤ x ∧ x < a.toNat + m then s.bufByte (x - a.toNat) else s.flashByte x

section Write

variable {s t : State} {a n : Word} {w : Work} {k : Chip}

/-- Bytes the host leaves alone are sent as they stand in BUF, whenever they are read. -/
theorem State.bufStable.readBytes {m ptr l : Nat} (h : s.bufStable m) (hfit : ptr + l ≤ m) (j : Nat) :
    Memory.readBytes bufBackground (s.bufAfter j) ptr l = (List.range l).map fun i => s.bufByte (ptr + i) :=
  List.map_congr_left fun i hi => h j _ (by have := List.mem_range.1 hi; omega)

/-- One more chunk is programmed. -/
theorem Chip.Holds.chunk (h : s.WritesErased a n) {p l : Nat} {cur : Word} (hk : k.Holds s a p)
    (hcur : cur.toNat = a.toNat + p) (hl : p + l ≤ n.toNat) :
    ((k.programming s.cfg cur ((List.range l).map fun i => s.bufByte (p + i))).complete s.cfg).Holds s a
      (p + l) where
  ready := Chip.programmed_ready h.cfg hk.ready
  wf := by
    rw [Chip.complete_mem]
    exact programFrom_wf hk.wf
  bytes x := by
    have hfits := h.fits
    rw [Chip.complete_mem, Chip.programming_read h.cfg hk.wf (by omega), hk.bytes, hcur]
    by_cases hbelow : a.toNat ≤ x ∧ x < a.toNat + p
    · rw [if_neg (by omega), if_pos hbelow, if_pos (by omega)]
    · rw [if_neg hbelow]
      by_cases hin : a.toNat + p ≤ x ∧ x < a.toNat + p + l
      · rw [if_pos hin, if_pos (by omega), h.erased x (by omega) (by omega),
          show (0xFF : Byte) = .allOnes 8 from rfl, BitVec.allOnes_and]
        congr 1
        omega
      · rw [if_neg hin, if_neg (by omega)]

/-- The loop of WRITE, from the chunk at CUR on. -/
theorem writeLoop_holds (h : s.WritesErased a n) (fuel : Nat) (hat : w.AtChunk s.cfg n.toNat)
    (hcur : w.cur.toNat = a.toNat + w.ptr.toNat) (hfuel : w.left < fuel) (hk : k.Holds s a w.ptr.toNat) :
    (writeLoop fuel).Succeeds s w (Env.OnChip k [])
      (fun v => ∃ k', v.env.OnChip k' [] ∧ k'.Holds s a n.toNat) := by
  induction fuel generalizing w k with
  | zero => omega
  | succ fuel ih =>
    obtain ⟨hle, hpos⟩ := hat.fits h.cfg
    have hsum := hat.ptr
    have hfit : w.ptr.toNat + w.chunk.toNat ≤ n.toNat := by omega
    have hnext := hk.chunk h hcur hfit
    have hend := hat.advance_cur_eq_end_iff h.cfg
    have hbusy := Chip.programming_busy (a := w.cur)
      (bytes := (List.range w.chunk.toNat).map fun i => s.bufByte (w.ptr.toNat + i)) h.cfg hk.ready
    obtain ⟨hd, hwip⟩ := hk.ready
    refine writeChunk_succeeds (k' := k.armed s.cfg) (fun g hg => ?_) (fun j => ?_) hbusy.awake hbusy.wip
      (writeLoop_succeeds_of_chunk (fun hdone => ?_) fun hmore => ?_)
    · rw [← hg] at hwip ⊢
      exact ⟨_, doWriteEnable_leads_onChip hd hwip⟩
    · rw [h.stable.readBytes hfit]
      exact Chip.transmit_armed h.cfg h.bits hk.ready
    · have hall : w.ptr.toNat + w.chunk.toNat = n.toNat := by have := hend.1 hdone; omega
      exact .pure fun _ hu => ⟨_, hu.env, hall ▸ hnext⟩
    · have hmore : w.chunk.toNat < w.left := Nat.lt_of_not_le (mt hend.2 hmore)
      have hleft : (w.advance s.cfg).left = w.left - w.chunk.toNat := Work.advance_left (hat.fits h.cfg)
      have hptr := hat.advance_ptr h.cfg
      obtain ⟨-, hmax, -⟩ := Config.sectors h.cfg
      have hfits := h.fits
      have hcur' : (w.advance s.cfg).cur.toNat = w.cur.toNat + w.chunk.toNat :=
        (BitVec.toNat_add _ _).trans (Nat.mod_eq_of_lt (by omega))
      exact ih (hat.advance h.cfg hmore) (by omega) (by omega) (hptr ▸ hnext)

/-- WRITE into an erased range returns OK, and the range holds the bytes of BUF. -/
theorem exec_write_holds (h : s.WritesErased a n) (hon : s.onChip)
    (hm : Memory.wf flashBackground s.env.chip.mem = true) (hready : s.env.chip.ready s.cfg)
    (ht : exec (.write a n) s = .next t) :
    t.completed .ok ∧ t.onChip ∧ t.env.chip.Holds s a n.toNat := by
  have hstart : s.env.chip.Holds s a 0 := ⟨hready, hm, fun x => (if_neg (by omega)).symm⟩
  have haccept : (s.accept 0x04 a n).WritesErased a n := ⟨h.cfg, h.bits, h.fits, h.stable, h.erased⟩
  obtain ⟨hleft, -⟩ := Work.startWrite_fits h.cfg s.work a n
  have hbody := doWrite_succeeds (writeLoop_holds haccept (n.toNat + 1)
    (Work.startWrite_atChunk h.cfg s.work a n) rfl (Nat.lt_succ_of_le hleft.le)
    ⟨hstart.ready, hstart.wf, hstart.bytes⟩)
  obtain ⟨hret, v, ⟨k', hon', hk'⟩, henv, -⟩ := exec_of_succeeds (i := .write a n) rfl ht hbody hon.env
  rw [← henv] at hon'
  refine ⟨hret, hon'.onChip, ?_⟩
  rw [hon'.chip]
  exact ⟨hk'.ready, hk'.wf, hk'.bytes⟩

end Write

/-! ### READ -/

section Read

variable {s : State} {a n : Word} {k : Chip}

/-- The bytes the chip gives for a range of its array (20_memory.md R80). -/
def Chip.range (k : Chip) (c : Config) (a n : Word) : List Byte :=
  (List.range n.toNat).map fun i => Memory.read flashBackground k.mem (flashByteAddr c a i)

@[simp] theorem Chip.range_length (c : Config) : (k.range c a n).length = n.toNat := by simp [Chip.range]

theorem Chip.range_getD {c : Config} {j : Nat} (h : j < n.toNat) (d : Byte) :
    (k.range c a n).getD j d = Memory.read flashBackground k.mem (flashByteAddr c a j) := by
  simp [Chip.range, List.getD_eq_getElem?_getD, h]

theorem Chip.receive_qread (hd : k.dpd = false) (c : Config) :
    k.receive c (some (.qread a n)) n = some (k.range c a n) := if_neg (by simp [hd])

/-- The data phase of a read of the array. -/
theorem rxCall_leads_onChip {g : Known} (hd : k.dpd = false) :
    (rxCall n).Leads g (fun e => e.OnChip k [] ∧ e.lastExec = some (.qread a n)) (.ok (k.range g.cfg a n))
      g.next (Env.OnChip k []) := by
  refine .look fun _ _ => call_leads fun e ⟨he, hlast⟩ => ⟨?_, he.after rfl⟩
  rw [he.respond, hlast]
  simp only [chipAnswer]
  rw [show (k.due g.cfg []).receive g.cfg (some (.qread a n)) n = some (k.range g.cfg a n) from
    Chip.receive_qread hd _]
  exact congrArg Answer.ok (fitBytes_eq (Chip.range_length _))

/-- The body of READ stores what it received. -/
theorem readBody_succeeds {w : Work} (hd : k.dpd = false) :
    (opBody (.read a n)).Succeeds s w (Env.OnChip k [])
      (fun v => ∃ j, v.buf = Memory.writeBytes bufBackground (s.bufAfter j) 0 (k.range s.cfg a n)) := by
  have H := State.blockKept_respects
  have hrx : (Seq.label .L1 (rxCall n)).Turns s w (fun e => e.OnChip k [] ∧ e.lastExec = some (.qread a n))
      (.ok (k.range s.cfg a n)) (Env.OnChip k []) :=
    Seq.Leads.turns (fun g hg => ⟨g.next, hg ▸ (rxCall_leads_onChip hd).label⟩) (H.label _ (H.rxCall _))
  refine (execCall_turns (t := .qread a n) nofun).orAbort (hrx.orAbort fun u hu => ⟨rfl, ?_⟩)
  obtain ⟨j, hbuf⟩ := hu.buf
  exact ⟨j, congrArg (Memory.writeBytes bufBackground · 0 _) hbuf⟩

/-- READ of an awake chip leaves the bytes of the range in BUF, whatever BUF held. -/
theorem exec_read_onChip (hon : s.onChip) (hd : s.env.chip.dpd = false)
    (hbuf : Memory.wf bufBackground s.buf = true) (hn : n.toNat ≤ s.cfg.bufSize) :
    ∃ t, exec (.read a n) s = .next t ∧ t.completed .ok ∧ ∀ j, j < n.toNat →
      t.bufByte j = Memory.read flashBackground s.env.chip.mem (flashByteAddr s.cfg a j) := by
  obtain ⟨t, ht⟩ := exec_next_of_bufInRange (i := .read a n) (s := s) (decide_eq_true (by simpa using hn))
  obtain ⟨hret, v, ⟨i, hv⟩, -, hbuf'⟩ :=
    exec_of_succeeds (i := .read a n) rfl ht (readBody_succeeds hd) hon.env
  refine ⟨t, ht, hret, fun j hj => ?_⟩
  have hwf : Memory.wf bufBackground ((s.accept 0x10 a n).bufAfter i) = true := State.wf_bufAfter hbuf i
  rw [State.bufByte, hbuf', hv, Memory.read_writeBytes hwf, Chip.range_length, if_pos (by omega),
    Nat.sub_zero, Chip.range_getD hj]
  rfl

end Read

/-- Settles O60: the chip holds the bytes WRITE was given, and READ gives the bytes it holds. -/
theorem writeReadRoundTrip : Obligations.WriteReadRoundTrip := by
  intro a n s hon hinv _ hbits hready hn hfit hstable herased
  obtain ⟨hsound, -⟩ := State.inv_iff.1 hinv
  have h : s.WritesErased a n := ⟨hsound.cfg, hbits, hfit, hstable, herased⟩
  obtain ⟨t, ht⟩ := exec_next_of_bufInRange (i := .write a n) (s := s) (decide_eq_true (by simpa using hn))
  obtain ⟨hret, hon', hholds⟩ := exec_write_holds h hon hsound.flash.1 hready ht
  obtain ⟨-, hcfg, -⟩ := exec_latched rfl ht
  refine ⟨t, ht, hret, fun x hx => (hholds.bytes x).trans (if_neg (by omega)), fun buf hbuf => ?_⟩
  obtain ⟨u, hu, hret', hbytes⟩ := exec_read_onChip (s := t.setBuf buf) (a := a) (n := n) hon' hholds.ready.1
    hbuf (by rwa [State.setBuf_cfg, hcfg])
  refine ⟨u, hu, hret', fun j hj => ?_⟩
  have hfit' : a.toNat + j < t.cfg.flashSize := by rw [hcfg]; omega
  rw [hbytes j hj, State.setBuf_cfg, flashByteAddr_of_lt (hcfg ▸ hsound.cfg) hfit', State.setBuf_env,
    hholds.bytes, if_pos (by omega), Nat.add_sub_cancel_left]

end Sys2Proof.Machine
end
